-- ==== Sys2Proof/Word.lean ====
section
/-! DEFINITION. The word types of the machine (spec 00 R3: little-endian, bit 0 least significant). -/

namespace Sys2Proof

/-- A 64-bit register value. -/
abbrev Word := BitVec 64

/-- One byte. -/
abbrev Byte := BitVec 8

/-- One 96-bit instruction slot (spec 03 R56). -/
abbrev Slot := BitVec 96

/-- A six-bit register number field. -/
abbrev Reg := BitVec 6

end Sys2Proof
end

