-- ==== Sys2Proof/Config.lean ====
section
/-! DEFINITION. What the package fixes (spec 00 R1 and the chapters named), and the free values: constants
without a body, which no proof can see into. -/

namespace Sys2Proof.Config

/-- Cores per die and dies per package (R1). -/
def coresPerDie : Nat := 24
def dies : Nat := 4
def cores : Nat := 96
/-- Bytes of one vector register in one lane (R7). -/
def laneBytes : Nat := 768
/-- Bytes of one vector register of a 32-lane hart. -/
def vregBytes : Nat := 24576
/-- Bits of a physical vector register image and of a physical weight register. -/
def vregBits : Nat := 196608
def wregBits : Nat := 393216
/-- Bytes of a slab and of an accumulator tile (R85, R247). -/
def slabBytes : Nat := 524288
def tileBytes : Nat := 65536
/-- Bytes of one die's DRAM, 48 GiB (R264). -/
def dieBytes : Nat := 0xC00000000
/-- Records in a die's fault record queue (R343), and how many one execution may enter. -/
def frqRecords : Nat := 512
def frqPerExecution : Nat := 8
/-- Entries of a hart's interlock table (R302). -/
def interlockEntries : Nat := 64
/-- Resume list capacity (R203) and active queues of a ringmaster (R202). -/
def resumeCapacity : Nat := 64
def activeQueues : Nat := 16
/-- Translation entries per core (R261). -/
def tlbSmall : Nat := 512
def tlbLarge : Nat := 64
/-- Slots of a receive ring (R390). -/
def ringSlots : Nat := 4096
/-- Entries of a retire trace ring (R351). -/
def traceEntries : Nat := 256
/-- Device generation (R90, R349). -/
def generation : Nat := 3

/-- FREE VALUE: how many clk beyond one the step of that number takes. The spec gives no count of clk for a step as
a whole (log 6, DESIGN CHOICE). -/
opaque stallClk : Nat → Nat

/-- FREE VALUE: how many events of a code that no rule defines happen at a step, for a hart's place or a die (R381, log 9, DESIGN CHOICE). -/
opaque eventCount : Nat → Nat → Nat → Nat

/-- FREE VALUE: whether the element of a `vstu` above the faulting one was written (R160), by step and element. -/
opaque vstuWritten : Nat → Nat → Bool

/-- FREE VALUE: bytes of an SPDM response that the spec does not state (certificates, signatures, nonces), by
request number and byte (R378). -/
opaque spdmByte : Nat → Nat → BitVec 8

/-- FREE VALUE: what a PLDM numeric sensor reads where it is no architectural state (die temperature, board power;
R405), by sensor and step. -/
opaque sensorReading : Nat → Nat → Nat

/-- FREE VALUE: where in the pip store of its die a line stands, by region and pip: its first 32-byte word, counted over the
words at which 128 bytes fit (R272, log 64, DESIGN CHOICE). -/
opaque lineWord : Nat → BitVec 128 → Nat

/-- FREE VALUE: session key material that a KEY_EXCHANGE derives (R378), by step. -/
opaque keyMaterial : Nat → BitVec 256

/-- What the device's fuses hold (R377, R378): the digests of the two public keys that may sign firmware, and the seed of
the identity keys. FREE VALUES. -/
opaque fusedEdKey : BitVec 384
opaque fusedPqKey : BitVec 384
opaque fusedSeed : BitVec 256
/-- FREE VALUE: the identity key that a seed gives (R378). -/
opaque identityKey : BitVec 256 → BitVec 256

/-- FREE VALUE: whether at a step the next slot of the hart at a place still waits for an operand, which makes it not ready
(R210); the spec gives the operands no times (log 5, DESIGN CHOICE). -/
opaque operandWait : Nat → Nat → Bool

/-- FREE VALUE: the receive credits that the far end of a port grants as it trains (R396, log 17, DESIGN CHOICE). -/
opaque linkCredits : Nat → Nat

/-- FREE VALUE: whether a power cap or thermal limit at a step lowers the clock by two points where it can (R403). -/
opaque throttleDeep : Nat → Bool

/-- FREE VALUE: the verify data that a FINISH must carry, by the step of its KEY_EXCHANGE (R378). -/
opaque finishMac : Nat → BitVec 384

/-- FREE VALUE: the digests of the boot ROM and the firmware (R378 measurements 1 and 2). -/
opaque romDigest : BitVec 384
opaque firmwareDigest : BitVec 384

end Sys2Proof.Config
end

