-- ==== Sys2Proof/Syntax.lean ====
section
/-! DEFINITION. The instructions and the steps of the other agents: one constructor for each row of
spec/opcode_table.json. Encodings: spec 03; operand forms: the instruction's own rule. -/

namespace Sys2Proof

/-- Element types, in code order (R35). -/
inductive ET where
  | f32 | bf16 | f16 | f19 | e4m3 | e5m2 | e3m2 | e2m3 | e2m1 | cb7 | cb4 | cb2
  | i16 | i8 | n8 | i4 | n4 | i2 | t2 | b1 | i32 | n32 | i64 | n64 | n16 | wt | f64
  deriving DecidableEq, Repr

/-- Rounding modes (R45); RM = 7 is no mode. -/
inductive RM where
  | rne | rtz | rup | rdn | rto | efb | dyn
  deriving DecidableEq, Repr

/-- The WP field (R62), named by its register meaning. In a store `merge` is hard and `scale` is scale; `zero` is
reserved there. -/
inductive WP where
  | merge | zero | blend | scale
  deriving DecidableEq, Repr

/-- The group field (R61). -/
inductive Grp where
  | g1 | g2 | g4 | g8
  deriving DecidableEq, Repr

/-- Scopes (R64). -/
inductive Scope where
  | hart | core | die | device | system | farm
  deriving DecidableEq, Repr

/-- Orders (R64). -/
inductive Ord where
  | rlx | acq | rel | ar
  deriving DecidableEq, Repr

/-- Conditions (R68). -/
inductive Cond where
  | eq | ne | lt | ge | ltu | geu | le | gt | leu | gtu | un | ord
  deriving DecidableEq, Repr

/-- Memory spaces (R244). -/
inductive Space where
  | G | L | X | C | N
  deriving DecidableEq, Repr

/-- The B operand of a scalar instruction (R104). -/
inductive XOp where
  | reg (r : Reg)
  | imm (v : BitVec 32)
  deriving DecidableEq, Repr

/-- The B operand of a vector or weight instruction (R62, R168): a register of the entry's kind, a scalar register
splatted, or the immediate. -/
inductive VSrc where
  | reg (r : Reg)
  | scalar (r : Reg)
  | imm (v : BitVec 32)
  deriving DecidableEq, Repr

/-- The fields that the vector families share (R61, R63): weight select, policy, rounding, element types, group,
last-read marks (bit 2 marks A, bit 1 B, bit 0 C). -/
structure VCtl where
  w   : BitVec 5
  wp  : WP
  rm  : RM
  et  : ET
  et2 : ET
  g   : Grp
  lr  : BitVec 3
  deriving DecidableEq, Repr

/-- A 256-byte flit as the link layer hands it on (R396): credits, sequence number, source and destination nodes, a memory address, a length in
bytes and a payload. -/
structure Flit where
  credits : BitVec 8
  seq  : BitVec 16
  src  : BitVec 20
  dst  : BitVec 20
  addr : Nat
  len  : Nat
  data : Nat
  good : Bool
  macGood : Bool
  deriving DecidableEq, Repr

/-- A firmware slot as the boot ROM finds it (R377): the digests of the two public keys that its image carries, whether each
of its signatures verifies over the header, the digest of the body that the header holds and that of the body. -/
structure FwSlot where
  edKey  : BitVec 384
  pqKey  : BitVec 384
  edSig  : Bool
  pqSig  : Bool
  digest : BitVec 384
  body   : BitVec 384
  deriving DecidableEq, Repr

inductive Instr where
  -- slots that are no instruction
  /-- A slot that fails its decode (R72, R73); `sub` is STVAL2 of R340: 0 at decode, 1 privileged. -/
  | illegalInstruction (hi : BitVec 32) (sub : Nat)
  /-- A line that is no code line, or whose line word has a nonzero reserved field (R16). -/
  | illegalLine (line : Word) (lineWord : BitVec 32)
  -- scalar integer, OP 0x01 and 0x02 (R106 to R110)
  | nop
  | add (d a : Reg) (b : XOp)
  | sub (d a : Reg) (b : XOp)
  | mul (d a : Reg) (b : XOp)
  | mulh (d a : Reg) (b : XOp)
  | mulhu (d a : Reg) (b : XOp)
  | div (d a : Reg) (b : XOp)
  | divu (d a : Reg) (b : XOp)
  | rem (d a : Reg) (b : XOp)
  | remu (d a : Reg) (b : XOp)
  | and (d a : Reg) (b : XOp)
  | or (d a : Reg) (b : XOp)
  | xor (d a : Reg) (b : XOp)
  | andn (d a : Reg) (b : XOp)
  | shl (d a : Reg) (b : XOp)
  | shr (d a : Reg) (b : XOp)
  | sra (d a : Reg) (b : XOp)
  | rotl (d a : Reg) (b : XOp)
  | slt (d a : Reg) (b : XOp)
  | sltu (d a : Reg) (b : XOp)
  | min (d a : Reg) (b : XOp)
  | max (d a : Reg) (b : XOp)
  | minu (d a : Reg) (b : XOp)
  | maxu (d a : Reg) (b : XOp)
  | clz (d a : Reg)
  | ctz (d a : Reg)
  | popc (d a : Reg)
  | bext (d a : Reg) (b : XOp)
  | bins (d a : Reg) (b : XOp) (c : Reg)
  | ext (d a : Reg) (b : XOp)
  | sel (d a : Reg) (b : XOp) (c : Reg)
  | lea (d a b : Reg) (s : BitVec 3) (disp : BitVec 32)
  | li (d : Reg) (imm : BitVec 32)
  | lih (d : Reg) (imm : BitVec 32)
  -- scalar float, OP 0x20 (R111 to R114)
  | fadd (d a : Reg) (b : XOp) (et : ET) (rm : RM)
  | fsub (d a : Reg) (b : XOp) (et : ET) (rm : RM)
  | fmul (d a : Reg) (b : XOp) (et : ET) (rm : RM)
  | fdiv (d a : Reg) (b : XOp) (et : ET) (rm : RM)
  | fsqrt (d a : Reg) (et : ET) (rm : RM)
  | ffma (d a : Reg) (b : XOp) (c : Reg) (et : ET) (rm : RM)
  | fmin (d a : Reg) (b : XOp) (et : ET) (rm : RM)
  | fmax (d a : Reg) (b : XOp) (et : ET) (rm : RM)
  | fcmp (cond : Cond) (d a : Reg) (b : XOp) (et : ET) (rm : RM)
  | fcvt (d a : Reg) (et et2 : ET) (rm : RM)
  | fclass (d a : Reg) (et : ET) (rm : RM)
  -- branches, jumps, OP 0x28 and 0x29 (R118, R119)
  | bCond (cond : Cond) (a b : Reg) (disp : BitVec 32)
  | j (disp : BitVec 32)
  | jr (a : Reg)
  | call (d : Reg) (disp : BitVec 32)
  | callr (d a : Reg)
  | ret (a : Reg)
  | halt
  | yield
  -- loops, OP 0x2A (R120 to R130)
  | loop (k : BitVec 2) (a : Reg) (endDisp : BitVec 20) (cw : BitVec 5) (stages : BitVec 3) (rot : Bool)
  | lbreak (k : BitVec 2)
  | lspill (a : Reg) (disp : BitVec 32)
  | lfill (a : Reg) (disp : BitVec 32)
  | cbase (a : Reg) (imm : BitVec 4)
  -- arms, OP 0x2C (R174 to R178)
  | wfork (a : Reg) (els jn : BitVec 16)
  | warm (jn : BitVec 16)
  | wmerge
  -- weights, OP 0x30 (R167 to R173, R181)
  | wcmp (cond : Cond) (d a : Reg) (b : VSrc) (k : VCtl)
  | wramp (d a : Reg) (b : VSrc) (c : Reg) (k : VCtl)
  | wrampg (d a b c : Reg) (k : VCtl)
  | wmul (d a : Reg) (b : VSrc) (k : VCtl)
  | wadd (d a : Reg) (b : VSrc) (k : VCtl)
  | wsub (d a : Reg) (b : VSrc) (k : VCtl)
  | wnot (d a : Reg) (k : VCtl)
  | wmin (d a : Reg) (b : VSrc) (k : VCtl)
  | wmax (d a : Reg) (b : VSrc) (k : VCtl)
  | wmov (d a : Reg) (k : VCtl)
  | wsplat (d : Reg) (b : VSrc) (k : VCtl)
  | wfromv (d a : Reg) (k : VCtl)
  | wtov (d a : Reg) (k : VCtl)
  | wbound (d a : Reg) (b : VSrc) (k : VCtl)
  | wany (d : Reg) (k : VCtl)
  -- joins, OP 0x32 (R180)
  | vjoin (d a : Reg) (b : VSrc) (c : Reg) (k : VCtl)
  | vjoingw (d a b c : Reg) (k : VCtl)
  -- vector float, OP 0x40 (R141, R142)
  | vadd (d a : Reg) (b : VSrc) (k : VCtl)
  | vsub (d a : Reg) (b : VSrc) (k : VCtl)
  | vmul (d a : Reg) (b : VSrc) (k : VCtl)
  | vfma (d a : Reg) (b : VSrc) (c : Reg) (k : VCtl)
  | vfms (d a : Reg) (b : VSrc) (c : Reg) (k : VCtl)
  | vfnma (d a : Reg) (b : VSrc) (c : Reg) (k : VCtl)
  | vdiv (d a : Reg) (b : VSrc) (k : VCtl)
  | vsqrt (d a : Reg) (k : VCtl)
  | vrsqrt (d a : Reg) (k : VCtl)
  | vrcp (d a : Reg) (k : VCtl)
  | vexp2 (d a : Reg) (k : VCtl)
  | vlog2 (d a : Reg) (k : VCtl)
  | vmin (d a : Reg) (b : VSrc) (k : VCtl)
  | vmax (d a : Reg) (b : VSrc) (k : VCtl)
  | vabs (d a : Reg) (k : VCtl)
  | vneg (d a : Reg) (k : VCtl)
  | vcsgn (d a : Reg) (b : VSrc) (k : VCtl)
  | vclass (d a : Reg) (k : VCtl)
  | vclamp (d a : Reg) (b : VSrc) (c : Reg) (k : VCtl)
  -- widening, conversion, vector integer, OP 0x41 to 0x43 (R143 to R145)
  | vwmul (d a : Reg) (b : VSrc) (k : VCtl)
  | vwfma (d a : Reg) (b : VSrc) (c : Reg) (k : VCtl)
  | vcvt (d a : Reg) (k : VCtl)
  | vcvtSat (d a : Reg) (k : VCtl)
  | vand (d a : Reg) (b : VSrc) (k : VCtl)
  | vor (d a : Reg) (b : VSrc) (k : VCtl)
  | vxor (d a : Reg) (b : VSrc) (k : VCtl)
  | vandn (d a : Reg) (b : VSrc) (k : VCtl)
  | vshl (d a : Reg) (b : VSrc) (k : VCtl)
  | vshr (d a : Reg) (b : VSrc) (k : VCtl)
  | vsra (d a : Reg) (b : VSrc) (k : VCtl)
  | vaddsat (d a : Reg) (b : VSrc) (k : VCtl)
  | vsubsat (d a : Reg) (b : VSrc) (k : VCtl)
  | vmulh (d a : Reg) (b : VSrc) (k : VCtl)
  | vavg (d a : Reg) (b : VSrc) (k : VCtl)
  -- compare, select, reduce, scan, OP 0x44 (R146 to R149, R406)
  | vcmp (cond : Cond) (d a : Reg) (b : VSrc) (k : VCtl)
  | vsel (d a : Reg) (b : VSrc) (c : Reg) (k : VCtl)
  | vredsum (d a : Reg) (k : VCtl)
  | vredmax (d a : Reg) (k : VCtl)
  | vredmin (d a : Reg) (k : VCtl)
  | vscanAdd (d a : Reg) (k : VCtl)
  | vscanMax (d a : Reg) (k : VCtl)
  | vscanMin (d a : Reg) (k : VCtl)
  | vscanXadd (d a : Reg) (k : VCtl)
  | vscanXmax (d a : Reg) (k : VCtl)
  | vscanXmin (d a : Reg) (k : VCtl)
  | vfirst (d : Reg) (k : VCtl)
  | vcount (d : Reg) (k : VCtl)
  -- data movement, OP 0x45 (R150 to R156)
  | vmv (d a : Reg) (k : VCtl)
  | vsplat (d : Reg) (b : VSrc) (k : VCtl)
  | vid (d : Reg) (k : VCtl)
  | vslup (d a : Reg) (b : VSrc) (k : VCtl)
  | vsldn (d a : Reg) (b : VSrc) (k : VCtl)
  | vperm (d a b : Reg) (k : VCtl)
  | vcompress (d a c : Reg) (k : VCtl)
  | vexpand (d a : Reg) (k : VCtl)
  | vrev (d a : Reg) (k : VCtl)
  | vpack (d a : Reg) (k : VCtl)
  | vunpack (d a : Reg) (k : VCtl)
  | vrand (d a : Reg) (b : VSrc) (k : VCtl)
  | vins (d a : Reg) (b : VSrc) (k : VCtl)
  | vext (d a : Reg) (b : VSrc) (k : VCtl)
  | vtopk (d a : Reg) (seg cnt : BitVec 16) (k : VCtl)
  -- configuration, OP 0x70 (R131 to R133)
  | setvl (d a : Reg) (et : ET) (g : Grp)
  | setsp (d : Reg) (b : XOp)
  | setth (d : Reg) (b : XOp)
  | setfl (d : Reg) (b : XOp)
  | setrm (d : Reg) (b : XOp)
  | getcr (d : Reg) (cr : BitVec 12)
  | putcr (cr : BitVec 12) (a : Reg)
  -- scalar memory, OP 0x80 (R115, R116)
  | ld (d a : Reg) (disp : BitVec 32) (et : ET)
  | st (c a : Reg) (disp : BitVec 32) (et : ET)
  | pfch (a : Reg) (disp : BitVec 32)
  -- vector memory, OP 0x81 (R157 to R164, R253, R266, R269)
  | vld (d a : Reg) (disp : BitVec 32) (k : VCtl)
  | vlds (d a b : Reg) (disp : BitVec 32) (k : VCtl)
  | vldx (d a b : Reg) (disp : BitVec 32) (k : VCtl)
  | vldff (d a : Reg) (disp : BitVec 32) (k : VCtl)
  | vst (c a : Reg) (disp : BitVec 32) (k : VCtl)
  | vsts (c a b : Reg) (disp : BitVec 32) (k : VCtl)
  | vstx (c a b : Reg) (disp : BitVec 32) (k : VCtl)
  | vstu (c a : Reg) (disp : BitVec 32) (k : VCtl)
  | vbind (d a : Reg) (disp : BitVec 32) (et : ET)
  | vunbind (d : Reg)
  | vopen (d : Reg)
  | vclose (d : Reg)
  -- atomics and synchronising, OP 0x90 to 0x92 (R218, R219, R237 to R242)
  | amoSwap (d a c : Reg) (disp : BitVec 32) (et : ET) (ord : Ord) (sc : Scope)
  | amoAdd (d a c : Reg) (disp : BitVec 32) (et : ET) (ord : Ord) (sc : Scope)
  | amoAnd (d a c : Reg) (disp : BitVec 32) (et : ET) (ord : Ord) (sc : Scope)
  | amoOr (d a c : Reg) (disp : BitVec 32) (et : ET) (ord : Ord) (sc : Scope)
  | amoXor (d a c : Reg) (disp : BitVec 32) (et : ET) (ord : Ord) (sc : Scope)
  | amoMin (d a c : Reg) (disp : BitVec 32) (et : ET) (ord : Ord) (sc : Scope)
  | amoMax (d a c : Reg) (disp : BitVec 32) (et : ET) (ord : Ord) (sc : Scope)
  | amocas (d a b c : Reg) (disp : BitVec 32) (et : ET) (ord : Ord) (sc : Scope)
  | vamoSwap (d a b c : Reg) (disp : BitVec 32) (k : VCtl) (ord : Ord) (sc : Scope)
  | vamoAdd (d a b c : Reg) (disp : BitVec 32) (k : VCtl) (ord : Ord) (sc : Scope)
  | vamoAnd (d a b c : Reg) (disp : BitVec 32) (k : VCtl) (ord : Ord) (sc : Scope)
  | vamoOr (d a b c : Reg) (disp : BitVec 32) (k : VCtl) (ord : Ord) (sc : Scope)
  | vamoXor (d a b c : Reg) (disp : BitVec 32) (k : VCtl) (ord : Ord) (sc : Scope)
  | vamoMin (d a b c : Reg) (disp : BitVec 32) (k : VCtl) (ord : Ord) (sc : Scope)
  | vamoMax (d a b c : Reg) (disp : BitVec 32) (k : VCtl) (ord : Ord) (sc : Scope)
  | vamoBlend (d a b c : Reg) (disp : BitVec 32) (k : VCtl) (ord : Ord) (sc : Scope)
  | fence (ord : Ord) (sc : Scope)
  | bar (d a : Reg) (disp : BitVec 32) (sc : Scope)
  | waiteq (d a b : Reg) (disp : BitVec 32) (ord : Ord) (sc : Scope)
  -- harts and farms, OP 0xA0 (R212 to R217)
  | hid (d : Reg)
  | launch (d a : Reg) (b : XOp)
  | farm (d a : Reg)
  | fgrab (d : Reg)
  | fdone (d a : Reg)
  | hexit (a : Reg)
  -- memory levels, OP 0xA8 (R249, R257, R263)
  | xlate (d a : Reg) (kind : BitVec 2)
  | cwb (a : Reg) (b : XOp) (sc : Scope)
  | cinv (a : Reg) (b : XOp) (sc : Scope)
  | slabQuery (d a : Reg)
  | slabTake (d : Reg)
  | slabGive (d : Reg)
  -- pips, OP 0xB0 (R279 to R284)
  | ppin (d a b : Reg)
  | pread (d a b : Reg)
  | pinc (d a b : Reg)
  | pdec (d a b : Reg)
  | pnode (d a b : Reg)
  | pswap (d a b c : Reg) (disp : BitVec 32)
  -- copy, matrix, fibre, dispatch, copy-out engines, OP 0xC0 to 0xC4 (R294 to R325)
  | cpy (d a b c : Reg) (spA spB : Space) (sc : Scope)
  | cpys (d a b c : Reg) (spA spB : Space) (sc : Scope)
  | cfill (d a b c : Reg) (spA : Space) (wc : BitVec 2) (sc : Scope)
  | tchk (d a : Reg)
  | mshape (d a : Reg)
  | mstride (a b : Reg) (ta tb : Bool)
  | mzero (d : Reg) (tile : BitVec 3) (sc : Scope)
  | mmul (d a b : Reg) (tile : BitVec 3) (spA spB : Space) (et et2 : ET) (sc : Scope)
  | mmulc (d : Reg) (src : BitVec 3) (b : Reg) (tile : BitVec 3) (spB : Space) (et et2 : ET) (rm : RM) (sc : Scope)
  | mout (d : Reg) (src : BitVec 3) (b c : Reg) (spB : Space) (toReg : Bool) (stride : BitVec 22) (et : ET) (rm : RM) (sc : Scope)
  | fopen (f : BitVec 3) (b c : Reg) (spB : Space) (code : BitVec 2)
  | fadv (d : Reg) (f : BitVec 3) (b : Reg)
  | fend (d : Reg) (f : BitVec 3)
  | fclose (f : BitVec 3)
  | fisect (d : Reg) (fa fb : BitVec 3) (c : Reg) (spC : Space) (sc : Scope)
  | funion (d : Reg) (fa fb : BitVec 3) (c : Reg) (spC : Space) (sc : Scope)
  | fsplit (d a b c : Reg) (spA spC : Space) (sc : Scope)
  | fcount (d : Reg) (fa : BitVec 3) (b : Reg) (sc : Scope)
  | dput (d a b c : Reg) (spA spB : Space) (tag : BitVec 16) (sc : Scope)
  | dwait (d a : Reg) (spA : Space) (sc : Scope)
  | dclose (d a b c : Reg) (spA spC : Space) (tag : BitVec 16) (sc : Scope)
  | pout (d a b c : Reg) (spC : Space) (sc : Scope)
  -- sends, OP 0xD0 (R387, R391 to R394)
  | vsend (a b : Reg) (k : VCtl)
  | vrecv (d b c : Reg) (k : VCtl)
  | nid (d : Reg)
  -- system, OP 0xE0 (R353 to R363)
  | csrrd (d : Reg) (csr : BitVec 12)
  | csrwr (d : Reg) (csr : BitVec 12) (a : Reg)
  | tret
  | ecall
  | ebreak
  | frqpop (d a : Reg) (disp : BitVec 32)
  | replay (d : Reg)
  | tlbinv (a b : Reg) (sc : Scope) (mode : BitVec 2)
  | ringrd (d a b : Reg) (disp : BitVec 32)
  | ctxsave (d a : Reg) (slabs ring : Bool) (disp : BitVec 32)
  | ctxload (a : Reg) (disp : BitVec 32)
  | wfi
  -- pip unit, engines, sends and engine control
  /-- The home pip unit performs the cascade of region `r` (R278). -/
  | pipCascade (r : Nat)
  /-- An engine performs the next unit of the command in interlock entry `e` of the hart (R305). -/
  | engineUnit (e : Nat)
  /-- The command in interlock entry `e` ends and writes its results and token (R298). -/
  | tokenWrite (e : Nat)
  /-- A send waiting for a free slot finds one (R392). -/
  | sendSlotFree
  /-- A send waiting on a saved-out place is rechecked (R393). -/
  | sendPlaceRecheck
  /-- The core of place `to` fills a slot of the ring there with one element (R390). -/
  | ringSlotFill (dest : Nat) (src : BitVec 20) (et : ET) (elem : Nat) (data : Nat)
  /-- ENGCTL action 1 on interlock entry `e` (R346). -/
  | engctlResume (e : Nat)
  /-- ENGCTL action 2 on interlock entry `e` (R346). -/
  | engctlEnd (e : Nat)
  -- boundaries and parked harts
  /-- A pending imprecise trap of the hart is taken (R339). -/
  | impreciseTrap
  /-- An enabled pending interrupt is taken (R339). -/
  | interrupt
  | waiteqWake
  | barWake
  | farmOpenWaitEnd
  | dwaitWake
  | wfiWake
  | hexitTokensDone
  /-- The binding of register `r` reads and decodes its next strip (R268). -/
  | streamStripFetch (r : Reg)
  -- pre-emption, records and queues
  /-- A pre-emption of the hart arrives when `g` element groups of its next instruction have begun (R33, R347). -/
  | preemptRequest (g : Nat)
  | contextSave
  | budgetExpire (rec : Nat)
  | ringmasterSelect (die : Nat)
  | recordStart (die : Nat)
  | waitWordTest (q : Nat)
  | queueSwitch (q : Nat)
  | queueRotate (die : Nat)
  | priorityAging (die : Nat)
  | preload (die core : Nat)
  | recordComplete (rec : Nat)
  | queueEnable (q : Nat) (v : Word)
  | queueDisable (q : Nat) (v : Word)
  | qtailWrite (q : Nat) (v : BitVec 32)
  | regionEnable (r : Nat) (v : Word)
  | regionDisable (r : Nat) (v : Word)
  | pscfgWrite (die : Nat) (v : Word)
  -- context commands: the value written to CCTL (R364)
  | packdown (v : Word)
  | setup (v : Word)
  | trackOn (v : Word)
  | trackOff (v : Word)
  | dirtySwap (v : Word)
  | pipExport (v : Word)
  | pipInstall (v : Word)
  | badop (v : Word)
  -- device registers and windows
  | devidLock (v : Word)
  | stopctlHalt
  | stopctlDoor
  /-- A BAR0 write of a register without behaviour of its own (R5, R401). -/
  | registerWrite (off : Nat) (v : Word)
  | powerPointRequest (v : Word)
  | thermalLimit
  /-- A failing group of a channel is diagnosed: the group, whether a bad lane was found, and which (R375). -/
  | busLaneDiagnosis (die ch grp : Nat) (off : Nat) (beat tries : Nat)
  | laneSwap (die ch grp lane : Nat) (off : Nat)
  | securityAlarm (kind : BitVec 8)
  /-- Cold reset, with what firmware slots A and B hold, their SVN and COMMIT flag (R377). -/
  | coldReset (a b : FwSlot) (svnA svnB : Nat) (commitA commitB : Bool)
  | warmReset
  -- Midway links
  | portEnable (port : Nat) (v : Word)
  | laneFailRetrain (port : Nat)
  | portDown (port : Nat)
  | readRequest (port : Nat) (f : Flit)
  | readData (port : Nat) (f : Flit)
  | write (port : Nat) (f : Flit)
  | atomic (port : Nat) (f : Flit) (op : BitVec 4) (et : ET)
  | atomicResult (port : Nat) (f : Flit)
  | sendElement (port : Nat) (f : Flit) (et : ET) (elem : Nat)
  | acknowledgement (port : Nat) (f : Flit)
  | wait (port : Nat) (f : Flit)
  | creditOnly (port : Nat) (f : Flit)
  -- the host
  | hostMemRead (addr len : Nat)
  | hostMemWrite (addr : Nat) (data : List Byte)
  | hostMapAccess (addr : Nat) (val : Option Word)
  | getVersion
  | getCapabilities
  | negotiateAlgorithms (hash sig : Nat)
  | getDigests
  | getCertificate (slot offset len : Nat)
  | challenge (slot : Nat) (nonce : BitVec 256)
  | getMeasurements (index : Nat)
  | keyExchange (slot : Nat) (data : BitVec 256)
  | finish (mac : BitVec 384)
  | mgmtSensorRead (sensor : Nat)
  | mgmtLogRead (die : Nat) (bus : Bool)
  -- device events
  | thermalLimitClear
  | portTrained (port peer lanes : Nat)
  deriving DecidableEq, Repr

end Sys2Proof
end

