-- ==== Sys2Proof/WellFormed.lean ====
section
/-! DEFINITION. Which instructions are legal encodings: the conditions whose breach R72 makes an illegal-instruction
trap at decode, as Boolean checks, and the tables of element types they use (R35, R67). -/

namespace Sys2Proof

/-! ### Element types -/

/-- The classes of R35. -/
inductive EClass where
  | float | block | int | weight
  deriving DecidableEq, Repr

def ET.cls : ET → EClass
  | .f32 | .bf16 | .f16 | .f19 | .e4m3 | .e5m2 | .e3m2 | .e2m3 | .e2m1 | .f64 => .float
  | .cb7 | .cb4 | .cb2 => .block
  | .wt => .weight
  | _ => .int

def ET.isFloat (e : ET) : Bool := e.cls == .float
def ET.isBlock (e : ET) : Bool := e.cls == .block
def ET.isInt (e : ET) : Bool := e.cls == .int

/-- Bytes of an element in a register (R35, column b). -/
def ET.regBytes : ET → Nat
  | .f32 | .f19 | .i32 | .n32 => 4
  | .bf16 | .f16 | .cb7 | .i16 | .n16 | .wt => 2
  | .i64 | .n64 | .f64 => 8
  | _ => 1

/-- Bits of an element's code. A currant type has none of its own (R42). -/
def ET.bits : ET → Nat
  | .f32 | .i32 | .n32 => 32
  | .f19 => 19
  | .bf16 | .f16 | .i16 | .n16 | .wt => 16
  | .e4m3 | .e5m2 | .i8 | .n8 => 8
  | .e3m2 | .e2m3 => 6
  | .e2m1 | .i4 | .n4 => 4
  | .i2 | .t2 => 2
  | .b1 => 1
  | .i64 | .n64 | .f64 => 64
  | .cb7 => 8 | .cb4 => 5 | .cb2 => 3

/-- Bits of an element in memory where it is packed or of whole bytes (R35, R37); 0 for a currant type. -/
def ET.memBits : ET → Nat
  | .f19 => 32
  | .cb7 | .cb4 | .cb2 => 0
  | e => e.bits

/-- Bytes of a currant block in memory and of its slot in a register (R36, R42). -/
def ET.blockBytes : ET → Nat
  | .cb7 => 18 | .cb4 => 12 | .cb2 => 8 | _ => 0
def ET.blockSlot : ET → Nat
  | .cb7 => 32 | .cb4 => 16 | .cb2 => 16 | _ => 0

/-- The I types are signed; so are the values of T2 and B1 (R40). -/
def ET.signed : ET → Bool
  | .i16 | .i8 | .i4 | .i2 | .i32 | .i64 | .t2 | .b1 => true
  | _ => false

/-- A byte-multiple format (R37). -/
def ET.wholeBytes (e : ET) : Bool := !e.isBlock && e.memBits % 8 == 0

/-! ### The sets of R67 -/

def ET.inSF (e : ET) : Bool := [ET.f64, .f32].contains e
def ET.inSC (e : ET) : Bool := [ET.f64, .f32, .f19, .f16, .bf16, .e4m3, .e5m2, .i32, .n32, .i64, .n64, .wt].contains e
def ET.inVI (e : ET) : Bool := [ET.i8, .n8, .i16, .n16, .i32, .n32, .i64, .n64].contains e
def ET.inVF (e : ET) : Bool := [ET.f32, .f19, .f16, .bf16].contains e
def ET.inVN (e : ET) : Bool := e.inVF || e.inVI
def ET.inNF (e : ET) : Bool := [ET.bf16, .f16, .f19, .e4m3, .e5m2, .e3m2, .e2m3, .e2m1].contains e
def ET.inVM (e : ET) : Bool := e != .f64
def ET.inCV (e : ET) : Bool := e != .f64 && !e.isBlock
def ET.inAT (e : ET) : Bool := [ET.i32, .n32, .i64, .n64, .f32].contains e
def ET.inMX (e : ET) : Bool := !([ET.i32, .n32, .i64, .n64, .n16, .wt, .f64].contains e)
def ET.inMO (e : ET) : Bool := [ET.f32, .bf16, .f16, .f19, .e4m3, .e5m2, .cb7, .cb4, .cb2, .i32, .i16, .i8].contains e
/-- The pairs WD. -/
def inWD (e e2 : ET) : Bool :=
  [(ET.f32, ET.bf16), (.f32, .f16), (.i32, .i16), (.n32, .n16), (.i16, .i8), (.n16, .n8)].contains (e, e2)

/-- The pairs of `vredsum` (R147). -/
def sumPair (e e2 : ET) : Bool :=
  match e with
  | .f32 => [ET.f32, .f64].contains e2
  | .f19 => [ET.f19, .f32, .f64].contains e2
  | .f16 => [ET.f16, .f19, .f32, .f64].contains e2
  | .bf16 => [ET.bf16, .f19, .f32, .f64].contains e2
  | _ => e.inVI && e2.inVI && e.signed == e2.signed && e.bits ≤ e2.bits

/-! ### Field checks -/

def Grp.size : Grp → Nat
  | .g1 => 1 | .g2 => 2 | .g4 => 4 | .g8 => 8

/-- R20: with a group above 1 every vector register field names a multiple of it, and none of v48 to v63. -/
def grpOk (g : Grp) (rs : List Reg) : Bool :=
  g == .g1 || rs.all (fun r => r.toNat % g.size == 0 && r.toNat < 48)

/-- The index group of R157: G × max(1, 4 / b). -/
def idxGroup (g : Grp) (e : ET) : Nat := g.size * Nat.max 1 (4 / e.regBytes)

/-- R157: the index group is at most 8, the index register a multiple of it, and outside v48 to v63 above 1. -/
def idxOk (g : Grp) (e : ET) (b : Reg) : Bool :=
  idxGroup g e ≤ 8 && b.toNat % idxGroup g e == 0 && (idxGroup g e == 1 || b.toNat < 48)

/-- Two runs of registers overlap. -/
def runsOverlap (a na b nb : Nat) : Bool := a < b + nb && b < a + na

/-- R25: W is 0 to 23 or 31. -/
def wOk (k : VCtl) : Bool := k.w.toNat ≤ 23 || k.w == 31

/-- A weight register field (R167). -/
def wReg (r : Reg) : Bool := r.toNat ≤ 23

/-- R27: a mark stands only on a field that names a vector source from v1 to v63. -/
def lrOk (k : VCtl) (a b c : Option Reg) : Bool :=
  (!k.lr.getLsbD 2 || a.any (· != 0)) && (!k.lr.getLsbD 1 || b.any (· != 0)) && (!k.lr.getLsbD 0 || c.any (· != 0))

/-- The vector register that the B operand names, if any. -/
def VSrc.vreg : VSrc → Option Reg
  | .reg r => some r
  | _ => none

/-- IM = 1 with B = 0 is the immediate, so a splatted register is never x0 (R62). -/
def VSrc.ok : VSrc → Bool
  | .scalar r => r != 0
  | _ => true

/-- A scalar register or immediate: the entry requires IM = 1. -/
def VSrc.im1 : VSrc → Bool
  | .reg _ => false
  | b => b.ok

/-- A weight immediate has IMM[31:16] zero (R62). -/
def VSrc.weightImm : VSrc → Bool
  | .imm v => v.toNat < 65536
  | _ => true

def VSrc.weightOk : VSrc → Bool
  | .reg r => wReg r
  | b => b.ok && b.weightImm

def XOp.weightImm : XOp → Bool
  | .imm v => v.toNat < 65536
  | _ => true

def wpMZ (k : VCtl) : Bool := k.wp == .merge || k.wp == .zero
/-- A destination that accepts blend does so only for a float-class ET (R62, R136). -/
def wpReg (k : VCtl) : Bool := wpMZ k || (k.wp == .blend && k.et.isFloat)
def wpStore (k : VCtl) : Bool := k.wp == .merge || ((k.wp == .blend || k.wp == .scale) && k.et.isFloat)
def wpNone (k : VCtl) : Bool := k.wp == .merge
/-- RM = 5 is refused outside R50. -/
def rmOk (k : VCtl) : Bool := k.rm != .efb
def noEt (k : VCtl) : Bool := k.et == .f32 && k.et2 == .f32
def noEt2 (k : VCtl) : Bool := k.et2 == .f32

/-- The whole check of an ordinary vector instruction with sources `a`, `b`, `c` (those that are vector registers)
and further vector registers `rs`. -/
def fvOk (k : VCtl) (rs : List Reg) (a b c : Option Reg) : Bool :=
  wOk k && rmOk k && grpOk k.g (rs ++ a.toList ++ b.toList ++ c.toList) && lrOk k a b c

/-- R68: conditions of a float compare and of an integer compare. -/
def Cond.okFloat (c : Cond) : Bool := !([Cond.ltu, .geu, .leu, .gtu].contains c)
def Cond.okInt (c : Cond) : Bool := [Cond.eq, .ne, .lt, .ge, .le, .gt].contains c
def Cond.okFor (c : Cond) (e : ET) : Bool := if e.isFloat then c.okFloat else c.okInt

def even (r : Reg) : Bool := r.toNat % 2 == 0
/-- Engine scopes: codes 0 to 4 (R294). -/
def Scope.ok4 (s : Scope) : Bool := s != .farm
def Space.glx (s : Space) : Bool := [Space.G, .L, .X].contains s

/-- R9, R133: the control register indices that R10 assigns. -/
def crOk (i : BitVec 12) : Bool := i.toNat < 0x00F || (0x100 ≤ i.toNat && i.toNat < 0x280)
/-- R336: those and the supervisor registers. -/
def csrOk (i : BitVec 12) : Bool := crOk i || (0x300 ≤ i.toNat && i.toNat ≤ 0x312)

/-- A weight operation without a vector field (R167): no group, no element type, no mark. -/
def wopOk (k : VCtl) : Bool := wOk k && rmOk k && k.g == .g1 && noEt k && k.lr == 0 && wpMZ k

def vbinOk (d a : Reg) (b : VSrc) (k : VCtl) : Bool := b.ok && fvOk k [d] (some a) b.vreg none && noEt2 k
def vternOk (d a : Reg) (b : VSrc) (c : Reg) (k : VCtl) : Bool := b.ok && fvOk k [d] (some a) b.vreg (some c)
def vunOk (d a : Reg) (k : VCtl) : Bool := fvOk k [d] (some a) none none

def amoOk (et : ET) (sc : Scope) : Bool := et.inAT && sc.ok4

/-- The fields that every `vamo` shares (R240). -/
def vamoOk (d b c : Reg) (k : VCtl) (sc : Scope) : Bool :=
  sc.ok4 && wOk k && k.rm == .rne && k.et2 == .f32 && wpMZ k && (d != 0 || k.wp == .merge) && b != 0 && c != 0
    && grpOk k.g [d, c] && idxOk k.g k.et b && lrOk k none (some b) (some c)
    && (d == 0 || !runsOverlap d.toNat k.g.size b.toNat (idxGroup k.g k.et))

def vldOk (d : Reg) (k : VCtl) : Bool := wOk k && rmOk k && grpOk k.g [d] && lrOk k none none none && k.et.inVM && noEt2 k
def vstOk (c : Reg) (k : VCtl) : Bool := wOk k && rmOk k && grpOk k.g [c] && lrOk k none none (some c) && k.et.inVM && noEt2 k

def Flit.ok (f : Flit) : Bool := f.len ≤ 224

/-- The instruction is one that R66 to R73 accept; a step of another agent names units that exist. `vins` and `vext` with IM = 0,
of which R152 does not say which element of vB is k, and `vsplat` with IM = 0, for which R150 gives no b, are refused (log 53, DESIGN
CHOICE); `fisect` and `funion` with C = 0, which give no output an address, may hold any space (R294; log 56, DESIGN CHOICE). -/
def Instr.wf : Instr → Bool
  | .nop => true
  | .lea .. | .li .. | .lih .. | .clz .. | .ctz .. | .popc .. => true
  | .fadd _ _ _ et rm | .fsub _ _ _ et rm | .fmul _ _ _ et rm | .fdiv _ _ _ et rm
  | .fmin _ _ _ et rm | .fmax _ _ _ et rm => et.inSF && rm != .efb
  | .fsqrt _ _ et rm | .fclass _ _ et rm => et.inSF && rm != .efb
  | .ffma _ _ _ _ et rm => et.inSF && rm != .efb
  | .fcmp c _ _ _ et rm => et.inSF && rm != .efb && c.okFloat
  | .fcvt _ _ et et2 _ => et.inSC && et2.inSC
  | .bCond c _ _ _ => c != .un && c != .ord
  | .loop _ _ e cw stg rot => e != 0 && cw.toNat ≤ 23 && (stg == 0 || rot)
  | .wfork a els jn => a != 0 && wReg a && els != 0 && els.toNat < jn.toNat
  | .warm jn => jn != 0
  | .wcmp c d a b k => wReg d && b.ok && k.et.inVN && noEt2 k && c.okFor k.et && fvOk k [] (some a) b.vreg none && wpMZ k
  | .wramp d a b _ k => wReg d && b.ok && k.et.inVF && noEt2 k && fvOk k [] (some a) b.vreg none && wpMZ k
  | .wrampg d a b _ k => wReg b && k.et.inVF && noEt2 k && fvOk k [d] (some a) none none && wpMZ k
  | .wmul d a b k | .wadd d a b k | .wsub d a b k | .wmin d a b k | .wmax d a b k =>
    wReg d && wReg a && b.weightOk && wopOk k
  | .wnot d a k | .wmov d a k => wReg d && wReg a && wopOk k
  | .wsplat d b k => wReg d && b.im1 && b.weightImm && wopOk k
  | .wfromv d a k => wReg d && (k.et.inVF || k.et == .wt) && noEt2 k && fvOk k [] (some a) none none && wpMZ k
  | .wtov d a k => wReg a && (k.et.inVF || k.et == .wt) && noEt2 k && fvOk k [d] none none none && wpMZ k
  | .wbound d _ b k => wReg d && b.im1 && wopOk k
  | .wany _ k => wopOk k && wpNone k
  | .vjoin d a b c k => wReg c && b.ok && k.et.inVF && noEt2 k && fvOk k [d] (some a) b.vreg none && wpMZ k
  | .vjoingw d a b c k => k.et.inVF && noEt2 k && fvOk k [d] (some a) (some b) (some c) && wpMZ k
  | .vadd d a b k | .vsub d a b k | .vmul d a b k | .vmin d a b k | .vmax d a b k =>
    k.et.inVN && vbinOk d a b k && wpReg k
  | .vdiv d a b k | .vcsgn d a b k => k.et.inVF && vbinOk d a b k && wpReg k
  | .vfma d a b c k | .vfms d a b c k | .vfnma d a b c k => k.et.inVF && noEt2 k && vternOk d a b c k && wpReg k
  | .vsqrt d a k | .vrsqrt d a k | .vrcp d a k | .vexp2 d a k | .vlog2 d a k =>
    k.et.inVF && noEt2 k && vunOk d a k && wpReg k
  | .vabs d a k | .vneg d a k => k.et.inVN && noEt2 k && vunOk d a k && wpReg k
  | .vclass d a k => k.et.inVF && noEt2 k && vunOk d a k && wpMZ k
  | .vclamp d a b c k => k.et.inVN && noEt2 k && vternOk d a b c k && wpReg k
  | .vwmul d a b k => inWD k.et k.et2 && b.ok && fvOk k [d] (some a) b.vreg none && wpReg k
  | .vwfma d a b c k => inWD k.et k.et2 && vternOk d a b c k && wpReg k
  | .vcvt d a k => k.et.inCV && k.et2.inCV && wOk k && grpOk k.g [d, a] && lrOk k (some a) none none && wpReg k
  | .vcvtSat d a k => k.et.inNF && k.et2.inCV && wOk k && grpOk k.g [d, a] && lrOk k (some a) none none && wpReg k
  | .vand d a b k | .vor d a b k | .vxor d a b k | .vandn d a b k | .vshl d a b k | .vshr d a b k | .vsra d a b k
  | .vaddsat d a b k | .vsubsat d a b k | .vmulh d a b k | .vavg d a b k => k.et.inVI && vbinOk d a b k && wpMZ k
  | .vcmp c d a b k => k.et.inVN && vbinOk d a b k && wpMZ k && c.okFor k.et
  | .vsel d a b c k => k.et.inCV && noEt2 k && vternOk d a b c k && wpMZ k && (k.et != .wt || b.weightImm)
  | .vredsum _ a k => k.et.inVN && sumPair k.et k.et2 && fvOk k [] (some a) none none && wpNone k
  | .vredmax _ a k | .vredmin _ a k => k.et.inVN && k.et2 == k.et && fvOk k [] (some a) none none && wpNone k
  | .vscanAdd d a k | .vscanMax d a k | .vscanMin d a k | .vscanXadd d a k | .vscanXmax d a k | .vscanXmin d a k =>
    k.et.inVN && k.et2 == k.et && vunOk d a k && wpMZ k
  | .vfirst _ k | .vcount _ k => wOk k && noEt k && wpNone k && k.rm == .rne && k.g == .g1 && k.lr == 0
  | .vmv d a k => k.et.inVM && noEt2 k && vunOk d a k && wpMZ k
  | .vsplat d b k => k.et.inCV && noEt2 k && b.im1 && (k.et != .wt || b.weightImm) && fvOk k [d] none none none && wpMZ k
  | .vid d k => k.et.inVI && noEt2 k && fvOk k [d] none none none && wpMZ k
  | .vslup d a b k | .vsldn d a b k => k.et.inCV && noEt2 k && b.im1 && vunOk d a k && wpMZ k
  | .vperm d a b k => k.et.inCV && noEt2 k && fvOk k [d] (some a) (some b) none && wpMZ k
  | .vcompress d a _ k => k.et.inCV && noEt2 k && vunOk d a k && wpMZ k
  | .vexpand d a k | .vrev d a k => k.et.inCV && noEt2 k && vunOk d a k && wpMZ k
  | .vpack d a k => k.et.isBlock && k.et2 == .f32 && wOk k && grpOk k.g [d, a] && lrOk k (some a) none none && wpMZ k
  | .vunpack d a k => k.et.inVF && k.et2.isBlock && vunOk d a k && wpReg k
  | .vrand d _ b k => k.et.inVI && noEt2 k && b.im1 && fvOk k [d] none none none && wpMZ k
  | .vins d _ b k => k.et.inCV && noEt2 k && b.im1 && fvOk k [d] none none none && wpNone k && k.w == 0
  | .vext _ a b k => k.et.inCV && noEt2 k && b.im1 && fvOk k [] (some a) none none && wpNone k && k.w == 0
  | .vtopk d a s n k => k.et.inVN && (k.et2 == .n16 || k.et2 == .n32) && vunOk d a k && wpNone k
      && s != 0 && n != 0 && n.toNat ≤ Nat.min s.toNat 256
  | .setvl _ _ et _ => et.inVM
  | .setth _ b | .setfl _ b => b.weightImm
  | .getcr _ cr | .putcr cr _ => crOk cr
  | .ld _ _ _ et | .st _ _ _ et => et.inVI
  | .vld d _ _ k => vldOk d k && wpReg k
  | .vlds d _ _ _ k => vldOk d k && wpReg k && k.et.wholeBytes
  | .vldx d _ b _ k => wOk k && rmOk k && grpOk k.g [d] && lrOk k none (some b) none && k.et.inVM && noEt2 k && wpReg k
      && k.et.wholeBytes && idxOk k.g k.et b && !runsOverlap d.toNat k.g.size b.toNat (idxGroup k.g k.et)
  | .vldff d _ _ k => vldOk d k && wpMZ k
  | .vst c _ _ k => vstOk c k && wpStore k
  | .vsts c _ _ _ k => vstOk c k && wpStore k && k.et.wholeBytes
  | .vstx c _ b _ k => wOk k && rmOk k && grpOk k.g [c] && lrOk k none (some b) (some c) && k.et.inVM && noEt2 k && wpStore k
      && k.et.wholeBytes && idxOk k.g k.et b
  | .vstu c _ _ k => vstOk c k && wpNone k
  | .vbind d _ _ et => et.inVM && d != 0 && d.toNat < 48
  | .vunbind d => d != 0 && d.toNat < 48
  | .vopen d | .vclose d => d != 0
  | .amoSwap _ _ _ _ et _ sc | .amoAdd _ _ _ _ et _ sc | .amoAnd _ _ _ _ et _ sc | .amoOr _ _ _ _ et _ sc
  | .amoXor _ _ _ _ et _ sc | .amoMin _ _ _ _ et _ sc | .amoMax _ _ _ _ et _ sc => amoOk et sc
  | .amocas _ _ _ _ _ et _ sc => amoOk et sc && et != .f32
  | .vamoSwap d _ b c _ k _ sc | .vamoAdd d _ b c _ k _ sc | .vamoMin d _ b c _ k _ sc | .vamoMax d _ b c _ k _ sc =>
    k.et.inAT && vamoOk d b c k sc
  | .vamoAnd d _ b c _ k _ sc | .vamoOr d _ b c _ k _ sc | .vamoXor d _ b c _ k _ sc =>
    k.et.inAT && k.et != .f32 && vamoOk d b c k sc
  | .vamoBlend d _ b c _ k _ sc => k.et == .f32 && vamoOk d b c k sc
  | .fence o sc => o != .rlx && sc.ok4
  | .waiteq _ _ _ _ o sc => (o == .rlx || o == .acq) && sc.ok4
  | .xlate _ _ kind => kind != 3
  | .cwb _ _ sc | .cinv _ _ sc => sc.ok4
  | .ppin d a _ | .pnode d a _ => even d && a != 0
  | .pread d a _ => d != 0 && even a
  | .pinc _ a _ | .pdec _ a _ => even a
  | .pswap d _ b c _ => even d && even b && even c
  | .cpy _ _ _ _ _ _ sc => sc.ok4
  | .cpys _ a b _ _ _ sc => sc.ok4 && even a && even b
  | .cfill _ _ _ _ _ _ sc => sc.ok4
  | .mzero _ _ sc => sc.ok4
  | .mmul _ _ _ _ sa sb et et2 sc => sc.ok4 && sa.glx && sb.glx && et.inMX && et2.inMX && et.isInt == et2.isInt
  | .mmulc _ src _ tile sb et et2 _ sc => sc.ok4 && sb.glx && [ET.bf16, .e4m3, .cb7].contains et && et2.inMX && !et2.isInt
      && src != tile
  | .mout _ _ b c sb toReg stride et _ sc => sc.ok4 && et.inMO && sb.glx &&
      (if toReg then b == 0 && stride == 0 && c != 0 && sb == .G else c == 0)
  | .fopen _ _ _ _ code => code != 3
  | .fisect d _ _ c _ sc | .funion d _ _ c _ sc => sc.ok4 && even d && even c
  | .fsplit d a _ _ _ _ sc => sc.ok4 && even d && even a
  | .fcount d _ _ sc => sc.ok4 && even d
  | .dput _ _ _ _ sa _ _ sc => sc.ok4 && [Space.G, .X, .N].contains sa
  | .dwait _ _ _ sc | .dclose _ _ _ _ _ _ _ sc => sc.ok4
  | .pout d a _ c _ sc => sc.ok4 && even d && even a && even c
  | .vsend a b k => k.et.inCV && noEt2 k && wOk k && wpNone k && k.rm == .rne && k.lr == 0 && a != 0 && b != 0
      && grpOk k.g [a] && idxOk k.g k.et b
  | .vrecv d b _ k => k.et.inCV && noEt2 k && k.w == 0 && wpNone k && k.rm == .rne && k.lr == 0 && d != 0 && b != 0
      && grpOk k.g [d] && idxOk k.g k.et b && !runsOverlap d.toNat k.g.size b.toNat (idxGroup k.g k.et)
  | .csrrd _ csr | .csrwr _ csr _ => csrOk csr
  | .tlbinv _ _ sc mode => sc.ok4 && mode != 3
  -- steps of the other agents
  | .engineUnit e | .tokenWrite e | .engctlResume e | .engctlEnd e => e < 64
  | .pipCascade r | .regionEnable r _ | .regionDisable r _ => r < 256
  | .waitWordTest q | .queueSwitch q | .queueEnable q _ | .queueDisable q _ | .qtailWrite q _ => q < 64
  | .ringmasterSelect d | .recordStart d | .queueRotate d | .priorityAging d | .pscfgWrite d _ | .mgmtLogRead d _ => d < 4
  | .preload d c => d < 4 && c < 24
  | .ringSlotFill dest _ et _ _ => dest < 768 && et.inCV
  | .busLaneDiagnosis d ch g _ _ _ => d < 4 && ch < 32 && g < 16
  | .laneSwap d ch g l _ => d < 4 && ch < 32 && g < 16 && l < 32
  | .portEnable p _ | .laneFailRetrain p | .portDown p | .portTrained p _ _ => p < 16
  | .readRequest p f | .readData p f | .write p f | .atomicResult p f | .acknowledgement p f | .wait p f | .creditOnly p f =>
    p < 16 && f.ok
  | .atomic p f _ et => p < 16 && f.ok && et.inAT
  | .sendElement p f et _ => p < 16 && f.ok && et.inCV
  | _ => true

end Sys2Proof
end

