-- ==== Sys2Proof/Decode.lean ====
section
/-! DEFINITION. Decoding a 96-bit slot and encoding an instruction (spec 03): the field layout of R61, the codes of
R35, R45, R62, R64, R68, R244, the opcode map of R65 and R66, and the operand forms of each entry. -/

namespace Sys2Proof

/-- The fields of R61, as numbers of their widths. -/
structure Fields where
  op  : BitVec 8
  fn  : BitVec 6
  d   : BitVec 6
  a   : BitVec 6
  b   : BitVec 6
  c   : BitVec 6
  w   : BitVec 5
  wp  : BitVec 2
  rm  : BitVec 3
  et  : BitVec 5
  et2 : BitVec 5
  g   : BitVec 2
  lr  : BitVec 3
  im  : BitVec 1
  imm : BitVec 32
  deriving DecidableEq, Repr

/-- R61: the bits of each field. -/
def Fields.ofSlot (s : Slot) : Fields :=
  { op := s.extractLsb' 88 8, fn := s.extractLsb' 82 6, d := s.extractLsb' 76 6, a := s.extractLsb' 70 6
    b := s.extractLsb' 64 6, c := s.extractLsb' 58 6, w := s.extractLsb' 53 5, wp := s.extractLsb' 51 2
    rm := s.extractLsb' 48 3, et := s.extractLsb' 43 5, et2 := s.extractLsb' 38 5, g := s.extractLsb' 36 2
    lr := s.extractLsb' 33 3, im := s.extractLsb' 32 1, imm := s.extractLsb' 0 32 }

/-- The slot with these fields. -/
def Fields.toSlot (f : Fields) : Slot :=
  f.op ++ f.fn ++ f.d ++ f.a ++ f.b ++ f.c ++ f.w ++ f.wp ++ f.rm ++ f.et ++ f.et2 ++ f.g ++ f.lr ++ f.im ++ f.imm

/-! ### Codes -/

/-- R35: element type codes; 27 to 31 are no type. -/
def ET.code : ET → BitVec 5
  | .f32 => 0
  | .bf16 => 1
  | .f16 => 2
  | .f19 => 3
  | .e4m3 => 4
  | .e5m2 => 5
  | .e3m2 => 6
  | .e2m3 => 7
  | .e2m1 => 8
  | .cb7 => 9
  | .cb4 => 10
  | .cb2 => 11
  | .i16 => 12
  | .i8 => 13
  | .n8 => 14
  | .i4 => 15
  | .n4 => 16
  | .i2 => 17
  | .t2 => 18
  | .b1 => 19
  | .i32 => 20
  | .n32 => 21
  | .i64 => 22
  | .n64 => 23
  | .n16 => 24
  | .wt => 25
  | .f64 => 26

def ET.ofCode (n : BitVec 5) : Option ET :=
  match n.toNat with
  | 0 => some .f32
  | 1 => some .bf16
  | 2 => some .f16
  | 3 => some .f19
  | 4 => some .e4m3
  | 5 => some .e5m2
  | 6 => some .e3m2
  | 7 => some .e2m3
  | 8 => some .e2m1
  | 9 => some .cb7
  | 10 => some .cb4
  | 11 => some .cb2
  | 12 => some .i16
  | 13 => some .i8
  | 14 => some .n8
  | 15 => some .i4
  | 16 => some .n4
  | 17 => some .i2
  | 18 => some .t2
  | 19 => some .b1
  | 20 => some .i32
  | 21 => some .n32
  | 22 => some .i64
  | 23 => some .n64
  | 24 => some .n16
  | 25 => some .wt
  | 26 => some .f64
  | _ => none

/-- R45: rounding mode codes; 7 is none. -/
def RM.code : RM → BitVec 3
  | .rne => 0
  | .rtz => 1
  | .rup => 2
  | .rdn => 3
  | .rto => 4
  | .efb => 5
  | .dyn => 6

def RM.ofCode (n : BitVec 3) : Option RM :=
  match n.toNat with
  | 0 => some .rne
  | 1 => some .rtz
  | 2 => some .rup
  | 3 => some .rdn
  | 4 => some .rto
  | 5 => some .efb
  | 6 => some .dyn
  | _ => none

/-- R62: weight policy codes. -/
def WP.code : WP → BitVec 2
  | .merge => 0
  | .zero => 1
  | .blend => 2
  | .scale => 3

def WP.ofCode (n : BitVec 2) : Option WP :=
  match n.toNat with
  | 0 => some .merge
  | 1 => some .zero
  | 2 => some .blend
  | _ => some .scale

/-- R61: group codes. -/
def Grp.code : Grp → BitVec 2
  | .g1 => 0
  | .g2 => 1
  | .g4 => 2
  | .g8 => 3

def Grp.ofCode (n : BitVec 2) : Option Grp :=
  match n.toNat with
  | 0 => some .g1
  | 1 => some .g2
  | 2 => some .g4
  | _ => some .g8

/-- R64: scope codes; 6 and 7 are none. -/
def Scope.code : Scope → BitVec 3
  | .hart => 0
  | .core => 1
  | .die => 2
  | .device => 3
  | .system => 4
  | .farm => 5

def Scope.ofCode (n : BitVec 3) : Option Scope :=
  match n.toNat with
  | 0 => some .hart
  | 1 => some .core
  | 2 => some .die
  | 3 => some .device
  | 4 => some .system
  | 5 => some .farm
  | _ => none

/-- R64: order codes as ET2 holds them; ET2[4:2] is zero. -/
def Ord.code : Ord → BitVec 5
  | .rlx => 0
  | .acq => 1
  | .rel => 2
  | .ar => 3

def Ord.ofCode (n : BitVec 5) : Option Ord :=
  match n.toNat with
  | 0 => some .rlx
  | 1 => some .acq
  | 2 => some .rel
  | 3 => some .ar
  | _ => none

/-- R68: condition codes as FN or C hold them. -/
def Cond.code : Cond → BitVec 6
  | .eq => 0
  | .ne => 1
  | .lt => 2
  | .ge => 3
  | .ltu => 4
  | .geu => 5
  | .le => 6
  | .gt => 7
  | .leu => 8
  | .gtu => 9
  | .un => 10
  | .ord => 11

def Cond.ofCode (n : BitVec 6) : Option Cond :=
  match n.toNat with
  | 0 => some .eq
  | 1 => some .ne
  | 2 => some .lt
  | 3 => some .ge
  | 4 => some .ltu
  | 5 => some .geu
  | 6 => some .le
  | 7 => some .gt
  | 8 => some .leu
  | 9 => some .gtu
  | 10 => some .un
  | 11 => some .ord
  | _ => none

/-- R244: space codes; 5 to 7 are none. -/
def Space.code : Space → BitVec 3
  | .G => 0
  | .L => 1
  | .X => 2
  | .C => 3
  | .N => 4

def Space.ofCode (n : BitVec 3) : Option Space :=
  match n.toNat with
  | 0 => some .G
  | 1 => some .L
  | 2 => some .X
  | 3 => some .C
  | 4 => some .N
  | _ => none

/-- The fields with nothing but OP and FN. -/
def Fields.base (op : BitVec 8) (fn : BitVec 6) : Fields :=
  { op := op, fn := fn, d := 0, a := 0, b := 0, c := 0, w := 0, wp := 0, rm := 0, et := 0, et2 := 0, g := 0, lr := 0
    im := 0, imm := 0 }

/-- R104: the B operand of a scalar instruction. -/
def Fields.setX (f : Fields) : XOp → Fields
  | .reg r => { f with b := r }
  | .imm v => { f with im := 1, imm := v }

/-- R62: the B operand of a vector or weight instruction. -/
def Fields.setV (f : Fields) : VSrc → Fields
  | .reg r => { f with b := r }
  | .scalar r => { f with im := 1, b := r }
  | .imm v => { f with im := 1, imm := v }

/-- R61: the fields that the vector families share. -/
def Fields.setK (f : Fields) (k : VCtl) : Fields :=
  { f with w := k.w, wp := k.wp.code, rm := k.rm.code, et := k.et.code, et2 := k.et2.code, g := k.g.code, lr := k.lr }

/-- The shared vector fields of an instruction of OP 0x91, where RM holds SCOPE and ET2 holds ORD (R64). -/
def Fields.setKA (f : Fields) (k : VCtl) (o : Ord) (s : Scope) : Fields :=
  { f with w := k.w, wp := k.wp.code, rm := s.code, et := k.et.code, et2 := o.code, g := k.g.code, lr := k.lr }

/-- R104: with IM = 1, B must be zero. -/
def Fields.xop (f : Fields) : Option XOp :=
  if f.im = 0 then some (.reg f.b) else if f.b = 0 then some (.imm f.imm) else none

/-- R62. -/
def Fields.vsrc (f : Fields) : VSrc :=
  if f.im = 0 then .reg f.b else if f.b = 0 then .imm f.imm else .scalar f.b

def Fields.vctl (f : Fields) : Option VCtl := do
  let wp ← WP.ofCode f.wp
  let rm ← RM.ofCode f.rm
  let et ← ET.ofCode f.et
  let et2 ← ET.ofCode f.et2
  let g ← Grp.ofCode f.g
  some { w := f.w, wp := wp, rm := rm, et := et, et2 := et2, g := g, lr := f.lr }

/-- OP 0x91: RM and ET2 hold other fields, so the record's own are RNE and F32 (every rounding there is RNE, R64). -/
def Fields.vctlA (f : Fields) : Option VCtl := do
  let wp ← WP.ofCode f.wp
  let et ← ET.ofCode f.et
  let g ← Grp.ofCode f.g
  some { w := f.w, wp := wp, rm := .rne, et := et, et2 := .f32, g := g, lr := f.lr }

def bit (x : Bool) : BitVec 1 := if x then 1 else 0

/-- IMM of an engine instruction: three space codes, then what the entry adds above (R294). -/
def engImm (sa sb sc : Space) (top : BitVec 23) : BitVec 32 :=
  top ++ sc.code ++ sb.code ++ sa.code

/-- The fields of an instruction; a step of another agent has no encoding. -/
def Instr.toFields : Instr → Option Fields
  | .bCond cond a b disp => some { Fields.base 0x28 cond.code with a := a, b := b, imm := disp }
  | .nop => some (Fields.base 0x01 0)
  | .add d a b => some ({ Fields.base 0x01 1 with d := d, a := a }.setX b)
  | .sub d a b => some ({ Fields.base 0x01 2 with d := d, a := a }.setX b)
  | .mul d a b => some ({ Fields.base 0x01 3 with d := d, a := a }.setX b)
  | .mulh d a b => some ({ Fields.base 0x01 4 with d := d, a := a }.setX b)
  | .mulhu d a b => some ({ Fields.base 0x01 5 with d := d, a := a }.setX b)
  | .div d a b => some ({ Fields.base 0x01 6 with d := d, a := a }.setX b)
  | .divu d a b => some ({ Fields.base 0x01 7 with d := d, a := a }.setX b)
  | .rem d a b => some ({ Fields.base 0x01 8 with d := d, a := a }.setX b)
  | .remu d a b => some ({ Fields.base 0x01 9 with d := d, a := a }.setX b)
  | .and d a b => some ({ Fields.base 0x01 10 with d := d, a := a }.setX b)
  | .or d a b => some ({ Fields.base 0x01 11 with d := d, a := a }.setX b)
  | .xor d a b => some ({ Fields.base 0x01 12 with d := d, a := a }.setX b)
  | .andn d a b => some ({ Fields.base 0x01 13 with d := d, a := a }.setX b)
  | .shl d a b => some ({ Fields.base 0x01 14 with d := d, a := a }.setX b)
  | .shr d a b => some ({ Fields.base 0x01 15 with d := d, a := a }.setX b)
  | .sra d a b => some ({ Fields.base 0x01 16 with d := d, a := a }.setX b)
  | .rotl d a b => some ({ Fields.base 0x01 17 with d := d, a := a }.setX b)
  | .slt d a b => some ({ Fields.base 0x01 18 with d := d, a := a }.setX b)
  | .sltu d a b => some ({ Fields.base 0x01 19 with d := d, a := a }.setX b)
  | .min d a b => some ({ Fields.base 0x01 20 with d := d, a := a }.setX b)
  | .max d a b => some ({ Fields.base 0x01 21 with d := d, a := a }.setX b)
  | .minu d a b => some ({ Fields.base 0x01 22 with d := d, a := a }.setX b)
  | .maxu d a b => some ({ Fields.base 0x01 23 with d := d, a := a }.setX b)
  | .clz d a => some { Fields.base 0x01 24 with d := d, a := a }
  | .ctz d a => some { Fields.base 0x01 25 with d := d, a := a }
  | .popc d a => some { Fields.base 0x01 26 with d := d, a := a }
  | .bext d a b => some ({ Fields.base 0x01 27 with d := d, a := a }.setX b)
  | .bins d a b c => some ({ Fields.base 0x01 28 with d := d, a := a, c := c }.setX b)
  | .ext d a b => some ({ Fields.base 0x01 29 with d := d, a := a }.setX b)
  | .sel d a b c => some ({ Fields.base 0x01 30 with d := d, a := a, c := c }.setX b)
  | .lea d a b s disp => some { Fields.base 0x01 31 with d := d, a := a, b := b, c := s.setWidth 6, imm := disp }
  | .li d imm => some { Fields.base 0x02 0 with d := d, imm := imm }
  | .lih d imm => some { Fields.base 0x02 1 with d := d, imm := imm }
  | .fadd d a b et rm => some ({ Fields.base 0x20 0 with d := d, a := a, et := et.code, rm := rm.code }.setX b)
  | .fsub d a b et rm => some ({ Fields.base 0x20 1 with d := d, a := a, et := et.code, rm := rm.code }.setX b)
  | .fmul d a b et rm => some ({ Fields.base 0x20 2 with d := d, a := a, et := et.code, rm := rm.code }.setX b)
  | .fdiv d a b et rm => some ({ Fields.base 0x20 3 with d := d, a := a, et := et.code, rm := rm.code }.setX b)
  | .fsqrt d a et rm => some { Fields.base 0x20 4 with d := d, a := a, et := et.code, rm := rm.code }
  | .ffma d a b c et rm => some ({ Fields.base 0x20 5 with d := d, a := a, c := c, et := et.code, rm := rm.code }.setX b)
  | .fmin d a b et rm => some ({ Fields.base 0x20 6 with d := d, a := a, et := et.code, rm := rm.code }.setX b)
  | .fmax d a b et rm => some ({ Fields.base 0x20 7 with d := d, a := a, et := et.code, rm := rm.code }.setX b)
  | .fcmp cond d a b et rm => some ({ Fields.base 0x20 8 with c := cond.code, d := d, a := a, et := et.code, rm := rm.code }.setX b)
  | .fcvt d a et et2 rm => some { Fields.base 0x20 9 with d := d, a := a, et := et.code, et2 := et2.code, rm := rm.code }
  | .fclass d a et rm => some { Fields.base 0x20 10 with d := d, a := a, et := et.code, rm := rm.code }
  | .j disp => some { Fields.base 0x29 0 with imm := disp }
  | .jr a => some { Fields.base 0x29 1 with a := a }
  | .call d disp => some { Fields.base 0x29 2 with d := d, imm := disp }
  | .callr d a => some { Fields.base 0x29 3 with d := d, a := a }
  | .ret a => some { Fields.base 0x29 4 with a := a }
  | .halt => some (Fields.base 0x29 5)
  | .yield => some (Fields.base 0x29 6)
  | .loop k a e cw stg rot => some { Fields.base 0x2A 0 with d := k.setWidth 6, a := a, imm := (0 : BitVec 3) ++ bit rot ++ stg ++ cw ++ e }
  | .lbreak k => some { Fields.base 0x2A 1 with d := k.setWidth 6 }
  | .lspill a disp => some { Fields.base 0x2A 2 with a := a, imm := disp }
  | .lfill a disp => some { Fields.base 0x2A 3 with a := a, imm := disp }
  | .cbase a imm => some { Fields.base 0x2A 4 with a := a, imm := imm.setWidth 32 }
  | .wfork a els jn => some { Fields.base 0x2C 0 with a := a, imm := jn ++ els }
  | .warm jn => some { Fields.base 0x2C 1 with imm := jn.setWidth 32 }
  | .wmerge => some (Fields.base 0x2C 2)
  | .wcmp cond d a b k => some (({ Fields.base 0x30 0 with c := cond.code, d := d, a := a }.setV b).setK k)
  | .wramp d a b c k => some (({ Fields.base 0x30 1 with d := d, a := a, c := c }.setV b).setK k)
  | .wrampg d a b c k => some ({ Fields.base 0x30 2 with d := d, a := a, b := b, c := c }.setK k)
  | .wmul d a b k => some (({ Fields.base 0x30 3 with d := d, a := a }.setV b).setK k)
  | .wadd d a b k => some (({ Fields.base 0x30 4 with d := d, a := a }.setV b).setK k)
  | .wsub d a b k => some (({ Fields.base 0x30 5 with d := d, a := a }.setV b).setK k)
  | .wmin d a b k => some (({ Fields.base 0x30 7 with d := d, a := a }.setV b).setK k)
  | .wmax d a b k => some (({ Fields.base 0x30 8 with d := d, a := a }.setV b).setK k)
  | .wnot d a k => some ({ Fields.base 0x30 6 with d := d, a := a }.setK k)
  | .wmov d a k => some ({ Fields.base 0x30 9 with d := d, a := a }.setK k)
  | .wsplat d b k => some (({ Fields.base 0x30 10 with d := d }.setV b).setK k)
  | .wfromv d a k => some ({ Fields.base 0x30 11 with d := d, a := a }.setK k)
  | .wtov d a k => some ({ Fields.base 0x30 12 with d := d, a := a }.setK k)
  | .wbound d a b k => some (({ Fields.base 0x30 13 with d := d, a := a }.setV b).setK k)
  | .wany d k => some ({ Fields.base 0x30 14 with d := d }.setK k)
  | .vjoin d a b c k => some (({ Fields.base 0x32 0 with d := d, a := a, c := c }.setV b).setK k)
  | .vjoingw d a b c k => some ({ Fields.base 0x32 1 with d := d, a := a, b := b, c := c }.setK k)
  | .vadd d a b k => some (({ Fields.base 0x40 0 with d := d, a := a }.setV b).setK k)
  | .vsub d a b k => some (({ Fields.base 0x40 1 with d := d, a := a }.setV b).setK k)
  | .vmul d a b k => some (({ Fields.base 0x40 2 with d := d, a := a }.setV b).setK k)
  | .vfma d a b c k => some (({ Fields.base 0x40 3 with d := d, a := a, c := c }.setV b).setK k)
  | .vfms d a b c k => some (({ Fields.base 0x40 4 with d := d, a := a, c := c }.setV b).setK k)
  | .vfnma d a b c k => some (({ Fields.base 0x40 5 with d := d, a := a, c := c }.setV b).setK k)
  | .vdiv d a b k => some (({ Fields.base 0x40 6 with d := d, a := a }.setV b).setK k)
  | .vsqrt d a k => some ({ Fields.base 0x40 7 with d := d, a := a }.setK k)
  | .vrsqrt d a k => some ({ Fields.base 0x40 8 with d := d, a := a }.setK k)
  | .vrcp d a k => some ({ Fields.base 0x40 9 with d := d, a := a }.setK k)
  | .vexp2 d a k => some ({ Fields.base 0x40 10 with d := d, a := a }.setK k)
  | .vlog2 d a k => some ({ Fields.base 0x40 11 with d := d, a := a }.setK k)
  | .vmin d a b k => some (({ Fields.base 0x40 12 with d := d, a := a }.setV b).setK k)
  | .vmax d a b k => some (({ Fields.base 0x40 13 with d := d, a := a }.setV b).setK k)
  | .vabs d a k => some ({ Fields.base 0x40 14 with d := d, a := a }.setK k)
  | .vneg d a k => some ({ Fields.base 0x40 15 with d := d, a := a }.setK k)
  | .vcsgn d a b k => some (({ Fields.base 0x40 16 with d := d, a := a }.setV b).setK k)
  | .vclass d a k => some ({ Fields.base 0x40 17 with d := d, a := a }.setK k)
  | .vclamp d a b c k => some (({ Fields.base 0x40 18 with d := d, a := a, c := c }.setV b).setK k)
  | .vwmul d a b k => some (({ Fields.base 0x41 0 with d := d, a := a }.setV b).setK k)
  | .vwfma d a b c k => some (({ Fields.base 0x41 1 with d := d, a := a, c := c }.setV b).setK k)
  | .vcvt d a k => some ({ Fields.base 0x42 0 with d := d, a := a }.setK k)
  | .vcvtSat d a k => some ({ Fields.base 0x42 1 with d := d, a := a }.setK k)
  | .vand d a b k => some (({ Fields.base 0x43 0 with d := d, a := a }.setV b).setK k)
  | .vor d a b k => some (({ Fields.base 0x43 1 with d := d, a := a }.setV b).setK k)
  | .vxor d a b k => some (({ Fields.base 0x43 2 with d := d, a := a }.setV b).setK k)
  | .vandn d a b k => some (({ Fields.base 0x43 3 with d := d, a := a }.setV b).setK k)
  | .vshl d a b k => some (({ Fields.base 0x43 4 with d := d, a := a }.setV b).setK k)
  | .vshr d a b k => some (({ Fields.base 0x43 5 with d := d, a := a }.setV b).setK k)
  | .vsra d a b k => some (({ Fields.base 0x43 6 with d := d, a := a }.setV b).setK k)
  | .vaddsat d a b k => some (({ Fields.base 0x43 7 with d := d, a := a }.setV b).setK k)
  | .vsubsat d a b k => some (({ Fields.base 0x43 8 with d := d, a := a }.setV b).setK k)
  | .vmulh d a b k => some (({ Fields.base 0x43 9 with d := d, a := a }.setV b).setK k)
  | .vavg d a b k => some (({ Fields.base 0x43 10 with d := d, a := a }.setV b).setK k)
  | .vcmp cond d a b k => some (({ Fields.base 0x44 0 with c := cond.code, d := d, a := a }.setV b).setK k)
  | .vsel d a b c k => some (({ Fields.base 0x44 1 with d := d, a := a, c := c }.setV b).setK k)
  | .vredsum d a k => some ({ Fields.base 0x44 2 with d := d, a := a }.setK k)
  | .vredmax d a k => some ({ Fields.base 0x44 3 with d := d, a := a }.setK k)
  | .vredmin d a k => some ({ Fields.base 0x44 4 with d := d, a := a }.setK k)
  | .vscanAdd d a k => some ({ Fields.base 0x44 5 with d := d, a := a }.setK k)
  | .vscanMax d a k => some ({ Fields.base 0x44 8 with d := d, a := a }.setK k)
  | .vscanMin d a k => some ({ Fields.base 0x44 9 with d := d, a := a }.setK k)
  | .vscanXadd d a k => some ({ Fields.base 0x44 10 with d := d, a := a }.setK k)
  | .vscanXmax d a k => some ({ Fields.base 0x44 11 with d := d, a := a }.setK k)
  | .vscanXmin d a k => some ({ Fields.base 0x44 12 with d := d, a := a }.setK k)
  | .vfirst d k => some ({ Fields.base 0x44 6 with d := d }.setK k)
  | .vcount d k => some ({ Fields.base 0x44 7 with d := d }.setK k)
  | .vmv d a k => some ({ Fields.base 0x45 0 with d := d, a := a }.setK k)
  | .vsplat d b k => some (({ Fields.base 0x45 1 with d := d }.setV b).setK k)
  | .vid d k => some ({ Fields.base 0x45 2 with d := d }.setK k)
  | .vslup d a b k => some (({ Fields.base 0x45 3 with d := d, a := a }.setV b).setK k)
  | .vsldn d a b k => some (({ Fields.base 0x45 4 with d := d, a := a }.setV b).setK k)
  | .vperm d a b k => some ({ Fields.base 0x45 5 with d := d, a := a, b := b }.setK k)
  | .vcompress d a c k => some ({ Fields.base 0x45 6 with d := d, a := a, c := c }.setK k)
  | .vexpand d a k => some ({ Fields.base 0x45 7 with d := d, a := a }.setK k)
  | .vrev d a k => some ({ Fields.base 0x45 8 with d := d, a := a }.setK k)
  | .vpack d a k => some ({ Fields.base 0x45 9 with d := d, a := a }.setK k)
  | .vunpack d a k => some ({ Fields.base 0x45 10 with d := d, a := a }.setK k)
  | .vrand d a b k => some (({ Fields.base 0x45 11 with d := d, a := a }.setV b).setK k)
  | .vins d a b k => some (({ Fields.base 0x45 12 with d := d, a := a }.setV b).setK k)
  | .vext d a b k => some (({ Fields.base 0x45 13 with d := d, a := a }.setV b).setK k)
  | .vtopk d a s n k => some ({ Fields.base 0x45 14 with d := d, a := a, im := 1, imm := n ++ s }.setK k)
  | .setvl d a et g => some { Fields.base 0x70 0 with d := d, a := a, imm := (0 : BitVec 25) ++ g.code ++ et.code }
  | .setsp d b => some ({ Fields.base 0x70 1 with d := d }.setX b)
  | .setth d b => some ({ Fields.base 0x70 2 with d := d }.setX b)
  | .setfl d b => some ({ Fields.base 0x70 3 with d := d }.setX b)
  | .setrm d b => some ({ Fields.base 0x70 4 with d := d }.setX b)
  | .getcr d cr => some { Fields.base 0x70 5 with d := d, imm := cr.setWidth 32 }
  | .putcr cr a => some { Fields.base 0x70 6 with a := a, imm := cr.setWidth 32 }
  | .ld d a disp et => some { Fields.base 0x80 0 with d := d, a := a, imm := disp, et := et.code }
  | .st c a disp et => some { Fields.base 0x80 1 with c := c, a := a, imm := disp, et := et.code }
  | .pfch a disp => some { Fields.base 0x80 2 with a := a, imm := disp }
  | .vld d a disp k => some ({ Fields.base 0x81 0 with d := d, a := a, imm := disp }.setK k)
  | .vlds d a b disp k => some ({ Fields.base 0x81 1 with d := d, a := a, b := b, imm := disp }.setK k)
  | .vldx d a b disp k => some ({ Fields.base 0x81 2 with d := d, a := a, b := b, imm := disp }.setK k)
  | .vldff d a disp k => some ({ Fields.base 0x81 3 with d := d, a := a, imm := disp }.setK k)
  | .vst c a disp k => some ({ Fields.base 0x81 4 with c := c, a := a, imm := disp }.setK k)
  | .vsts c a b disp k => some ({ Fields.base 0x81 5 with c := c, a := a, b := b, imm := disp }.setK k)
  | .vstx c a b disp k => some ({ Fields.base 0x81 6 with c := c, a := a, b := b, imm := disp }.setK k)
  | .vstu c a disp k => some ({ Fields.base 0x81 7 with c := c, a := a, imm := disp }.setK k)
  | .vbind d a disp et => some { Fields.base 0x81 8 with d := d, a := a, imm := disp, et := et.code }
  | .vunbind d => some { Fields.base 0x81 9 with d := d }
  | .vopen d => some { Fields.base 0x81 10 with d := d }
  | .vclose d => some { Fields.base 0x81 11 with d := d }
  | .amoSwap d a c disp et ord sc => some { Fields.base 0x90 0 with d := d, a := a, c := c, imm := disp, et := et.code, et2 := ord.code, rm := sc.code }
  | .amoAdd d a c disp et ord sc => some { Fields.base 0x90 1 with d := d, a := a, c := c, imm := disp, et := et.code, et2 := ord.code, rm := sc.code }
  | .amoAnd d a c disp et ord sc => some { Fields.base 0x90 2 with d := d, a := a, c := c, imm := disp, et := et.code, et2 := ord.code, rm := sc.code }
  | .amoOr d a c disp et ord sc => some { Fields.base 0x90 3 with d := d, a := a, c := c, imm := disp, et := et.code, et2 := ord.code, rm := sc.code }
  | .amoXor d a c disp et ord sc => some { Fields.base 0x90 4 with d := d, a := a, c := c, imm := disp, et := et.code, et2 := ord.code, rm := sc.code }
  | .amoMin d a c disp et ord sc => some { Fields.base 0x90 5 with d := d, a := a, c := c, imm := disp, et := et.code, et2 := ord.code, rm := sc.code }
  | .amoMax d a c disp et ord sc => some { Fields.base 0x90 6 with d := d, a := a, c := c, imm := disp, et := et.code, et2 := ord.code, rm := sc.code }
  | .amocas d a b c disp et ord sc => some { Fields.base 0x90 16 with d := d, a := a, b := b, c := c, imm := disp, et := et.code, et2 := ord.code, rm := sc.code }
  | .vamoSwap d a b c disp k o sc => some ({ Fields.base 0x91 0 with d := d, a := a, b := b, c := c, imm := disp }.setKA k o sc)
  | .vamoAdd d a b c disp k o sc => some ({ Fields.base 0x91 1 with d := d, a := a, b := b, c := c, imm := disp }.setKA k o sc)
  | .vamoAnd d a b c disp k o sc => some ({ Fields.base 0x91 2 with d := d, a := a, b := b, c := c, imm := disp }.setKA k o sc)
  | .vamoOr d a b c disp k o sc => some ({ Fields.base 0x91 3 with d := d, a := a, b := b, c := c, imm := disp }.setKA k o sc)
  | .vamoXor d a b c disp k o sc => some ({ Fields.base 0x91 4 with d := d, a := a, b := b, c := c, imm := disp }.setKA k o sc)
  | .vamoMin d a b c disp k o sc => some ({ Fields.base 0x91 5 with d := d, a := a, b := b, c := c, imm := disp }.setKA k o sc)
  | .vamoMax d a b c disp k o sc => some ({ Fields.base 0x91 6 with d := d, a := a, b := b, c := c, imm := disp }.setKA k o sc)
  | .vamoBlend d a b c disp k o sc => some ({ Fields.base 0x91 7 with d := d, a := a, b := b, c := c, imm := disp }.setKA k o sc)
  | .fence o sc => some { Fields.base 0x92 0 with et2 := o.code, rm := sc.code }
  | .bar d a disp sc => some { Fields.base 0x92 1 with d := d, a := a, imm := disp, rm := sc.code }
  | .waiteq d a b disp o sc => some { Fields.base 0x92 2 with d := d, a := a, b := b, imm := disp, et2 := o.code, rm := sc.code }
  | .hid d => some { Fields.base 0xA0 0 with d := d }
  | .launch d a b => some ({ Fields.base 0xA0 1 with d := d, a := a }.setX b)
  | .farm d a => some { Fields.base 0xA0 2 with d := d, a := a }
  | .fgrab d => some { Fields.base 0xA0 3 with d := d }
  | .fdone d a => some { Fields.base 0xA0 4 with d := d, a := a }
  | .hexit a => some { Fields.base 0xA0 5 with a := a }
  | .xlate d a kind => some { Fields.base 0xA8 0 with d := d, a := a, im := 1, imm := kind.setWidth 32 }
  | .cwb a b sc => some ({ Fields.base 0xA8 1 with a := a, rm := sc.code }.setX b)
  | .cinv a b sc => some ({ Fields.base 0xA8 2 with a := a, rm := sc.code }.setX b)
  | .slabQuery d a => some { Fields.base 0xA8 3 with d := d, a := a, im := 1, imm := 0 }
  | .slabTake d => some { Fields.base 0xA8 3 with d := d, im := 1, imm := 1 }
  | .slabGive d => some { Fields.base 0xA8 3 with d := d, im := 1, imm := 2 }
  | .ppin d a b => some { Fields.base 0xB0 0 with d := d, a := a, b := b }
  | .pread d a b => some { Fields.base 0xB0 1 with d := d, a := a, b := b }
  | .pinc d a b => some { Fields.base 0xB0 2 with d := d, a := a, b := b }
  | .pdec d a b => some { Fields.base 0xB0 3 with d := d, a := a, b := b }
  | .pnode d a b => some { Fields.base 0xB0 4 with d := d, a := a, b := b }
  | .pswap d a b c disp => some { Fields.base 0xB0 5 with d := d, a := a, b := b, c := c, imm := disp }
  | .cpy d a b c spA spB sc => some { Fields.base 0xC0 0 with d := d, a := a, b := b, c := c, imm := engImm spA spB .G 0, lr := sc.code }
  | .cpys d a b c spA spB sc => some { Fields.base 0xC0 1 with d := d, a := a, b := b, c := c, imm := engImm spA spB .G 0, lr := sc.code }
  | .cfill d a b c spA wc sc => some { Fields.base 0xC0 2 with d := d, a := a, b := b, c := c, imm := engImm spA .G .G (wc.setWidth 23), lr := sc.code }
  | .tchk d a => some { Fields.base 0xC0 3 with d := d, a := a }
  | .mshape d a => some { Fields.base 0xC1 0 with d := d, a := a }
  | .mstride a b ta tb => some { Fields.base 0xC1 1 with a := a, b := b, imm := (bit tb ++ bit ta).setWidth 32 }
  | .mzero d tile sc => some { Fields.base 0xC1 2 with d := d, c := tile.setWidth 6, lr := sc.code }
  | .mmul d a b tile spA spB et et2 sc => some { Fields.base 0xC1 3 with d := d, a := a, b := b, c := tile.setWidth 6, imm := engImm spA spB .G 0, et := et.code, et2 := et2.code, lr := sc.code }
  | .mmulc d src b tile spB et et2 rm sc => some { Fields.base 0xC1 4 with d := d, a := src.setWidth 6, b := b, c := tile.setWidth 6, imm := engImm .G spB .G 0, et := et.code, et2 := et2.code, rm := rm.code, lr := sc.code }
  | .mout d src b c spB toReg stride et rm sc => some { Fields.base 0xC1 5 with d := d, a := src.setWidth 6, b := b, c := c, imm := engImm .G spB .G (stride ++ bit toReg), et := et.code, rm := rm.code, lr := sc.code }
  | .fopen f' b c spB code => some { Fields.base 0xC2 0 with a := f'.setWidth 6, b := b, c := c, imm := engImm .G spB .G (code.setWidth 23) }
  | .fadv d f' b => some { Fields.base 0xC2 1 with d := d, a := f'.setWidth 6, b := b }
  | .fend d f' => some { Fields.base 0xC2 2 with d := d, a := f'.setWidth 6 }
  | .fclose f' => some { Fields.base 0xC2 3 with a := f'.setWidth 6 }
  | .fisect d fa fb c spC sc => some { Fields.base 0xC2 4 with d := d, a := fa.setWidth 6, b := fb.setWidth 6, c := c, imm := engImm .G .G spC 0, lr := sc.code }
  | .funion d fa fb c spC sc => some { Fields.base 0xC2 5 with d := d, a := fa.setWidth 6, b := fb.setWidth 6, c := c, imm := engImm .G .G spC 0, lr := sc.code }
  | .fsplit d a b c spA spC sc => some { Fields.base 0xC2 6 with d := d, a := a, b := b, c := c, imm := engImm spA .G spC 0, lr := sc.code }
  | .fcount d fa b sc => some { Fields.base 0xC2 7 with d := d, a := fa.setWidth 6, b := b, lr := sc.code }
  | .dput d a b c spA spB tag sc => some { Fields.base 0xC3 0 with d := d, a := a, b := b, c := c, imm := engImm spA spB .G (tag.setWidth 23), lr := sc.code }
  | .dwait d a spA sc => some { Fields.base 0xC3 1 with d := d, a := a, imm := engImm spA .G .G 0, lr := sc.code }
  | .dclose d a b c spA spC tag sc => some { Fields.base 0xC3 2 with d := d, a := a, b := b, c := c, imm := engImm spA .G spC (tag.setWidth 23), lr := sc.code }
  | .pout d a b c spC sc => some { Fields.base 0xC4 0 with d := d, a := a, b := b, c := c, imm := engImm .G .G spC 0, lr := sc.code }
  | .vsend a b k => some ({ Fields.base 0xD0 0 with a := a, b := b }.setK k)
  | .vrecv d b c k => some ({ Fields.base 0xD0 1 with d := d, b := b, c := c }.setK k)
  | .nid d => some { Fields.base 0xD0 2 with d := d }
  | .csrrd d csr => some { Fields.base 0xE0 0 with d := d, imm := csr.setWidth 32 }
  | .csrwr d csr a => some { Fields.base 0xE0 1 with d := d, a := a, imm := csr.setWidth 32 }
  | .tret => some (Fields.base 0xE0 2)
  | .ecall => some (Fields.base 0xE0 3)
  | .ebreak => some (Fields.base 0xE0 4)
  | .frqpop d a disp => some { Fields.base 0xE0 5 with d := d, a := a, imm := disp }
  | .replay d => some { Fields.base 0xE0 6 with d := d }
  | .tlbinv a b sc mode => some { Fields.base 0xE0 7 with a := a, b := b, imm := (mode ++ sc.code).setWidth 32 }
  | .ringrd d a b disp => some { Fields.base 0xE0 8 with d := d, a := a, b := b, imm := disp }
  | .ctxsave d a slabs ring disp => some { Fields.base 0xE0 9 with d := d, a := a, b := (bit ring ++ bit slabs).setWidth 6, imm := disp }
  | .ctxload a disp => some { Fields.base 0xE0 10 with a := a, imm := disp }
  | .wfi => some (Fields.base 0xE0 11)
  | _ => none

/-- Why a slot is no instruction (R72). -/
inductive Reject where
  | unassignedOp     -- an OP that R65 does not assign, 0x00 included
  | unassignedFn     -- an FN that R66 does not assign
  | badCode          -- an ET, RM, scope, order, condition or space code that is none, or a scalar B with IM = 1 (R104)
  | reservedField    -- a field that the entry gives no use is nonzero
  | illFormed        -- a condition of R66 to R71 on the fields fails
  deriving DecidableEq, Repr

/-- What the fields of one OP name, read without regard to the fields that the entry does not use. -/
def parseAlu (f : Fields) : Except Reject (Option Instr) :=
  match f.fn.toNat with
  | 0 => .ok (some Instr.nop)
  | 1 => .ok (do
      let x ← f.xop
      some (Instr.add f.d f.a x))
  | 2 => .ok (do
      let x ← f.xop
      some (Instr.sub f.d f.a x))
  | 3 => .ok (do
      let x ← f.xop
      some (Instr.mul f.d f.a x))
  | 4 => .ok (do
      let x ← f.xop
      some (Instr.mulh f.d f.a x))
  | 5 => .ok (do
      let x ← f.xop
      some (Instr.mulhu f.d f.a x))
  | 6 => .ok (do
      let x ← f.xop
      some (Instr.div f.d f.a x))
  | 7 => .ok (do
      let x ← f.xop
      some (Instr.divu f.d f.a x))
  | 8 => .ok (do
      let x ← f.xop
      some (Instr.rem f.d f.a x))
  | 9 => .ok (do
      let x ← f.xop
      some (Instr.remu f.d f.a x))
  | 10 => .ok (do
      let x ← f.xop
      some (Instr.and f.d f.a x))
  | 11 => .ok (do
      let x ← f.xop
      some (Instr.or f.d f.a x))
  | 12 => .ok (do
      let x ← f.xop
      some (Instr.xor f.d f.a x))
  | 13 => .ok (do
      let x ← f.xop
      some (Instr.andn f.d f.a x))
  | 14 => .ok (do
      let x ← f.xop
      some (Instr.shl f.d f.a x))
  | 15 => .ok (do
      let x ← f.xop
      some (Instr.shr f.d f.a x))
  | 16 => .ok (do
      let x ← f.xop
      some (Instr.sra f.d f.a x))
  | 17 => .ok (do
      let x ← f.xop
      some (Instr.rotl f.d f.a x))
  | 18 => .ok (do
      let x ← f.xop
      some (Instr.slt f.d f.a x))
  | 19 => .ok (do
      let x ← f.xop
      some (Instr.sltu f.d f.a x))
  | 20 => .ok (do
      let x ← f.xop
      some (Instr.min f.d f.a x))
  | 21 => .ok (do
      let x ← f.xop
      some (Instr.max f.d f.a x))
  | 22 => .ok (do
      let x ← f.xop
      some (Instr.minu f.d f.a x))
  | 23 => .ok (do
      let x ← f.xop
      some (Instr.maxu f.d f.a x))
  | 24 => .ok (some (Instr.clz f.d f.a))
  | 25 => .ok (some (Instr.ctz f.d f.a))
  | 26 => .ok (some (Instr.popc f.d f.a))
  | 27 => .ok (do
      let x ← f.xop
      some (Instr.bext f.d f.a x))
  | 28 => .ok (do
      let x ← f.xop
      some (Instr.bins f.d f.a x f.c))
  | 29 => .ok (do
      let x ← f.xop
      some (Instr.ext f.d f.a x))
  | 30 => .ok (do
      let x ← f.xop
      some (Instr.sel f.d f.a x f.c))
  | 31 => .ok (some (Instr.lea f.d f.a f.b (f.c.setWidth 3) f.imm))
  | _ => .error .unassignedFn

def parseLi (f : Fields) : Except Reject (Option Instr) :=
  match f.fn.toNat with
  | 0 => .ok (some (Instr.li f.d f.imm))
  | 1 => .ok (some (Instr.lih f.d f.imm))
  | _ => .error .unassignedFn

def parseSfp (f : Fields) : Except Reject (Option Instr) :=
  match f.fn.toNat with
  | 0 => .ok (do
      let x ← f.xop
      let et ← ET.ofCode f.et
      let rm ← RM.ofCode f.rm
      some (Instr.fadd f.d f.a x et rm))
  | 1 => .ok (do
      let x ← f.xop
      let et ← ET.ofCode f.et
      let rm ← RM.ofCode f.rm
      some (Instr.fsub f.d f.a x et rm))
  | 2 => .ok (do
      let x ← f.xop
      let et ← ET.ofCode f.et
      let rm ← RM.ofCode f.rm
      some (Instr.fmul f.d f.a x et rm))
  | 3 => .ok (do
      let x ← f.xop
      let et ← ET.ofCode f.et
      let rm ← RM.ofCode f.rm
      some (Instr.fdiv f.d f.a x et rm))
  | 4 => .ok (do
      let et ← ET.ofCode f.et
      let rm ← RM.ofCode f.rm
      some (Instr.fsqrt f.d f.a et rm))
  | 5 => .ok (do
      let x ← f.xop
      let et ← ET.ofCode f.et
      let rm ← RM.ofCode f.rm
      some (Instr.ffma f.d f.a x f.c et rm))
  | 6 => .ok (do
      let x ← f.xop
      let et ← ET.ofCode f.et
      let rm ← RM.ofCode f.rm
      some (Instr.fmin f.d f.a x et rm))
  | 7 => .ok (do
      let x ← f.xop
      let et ← ET.ofCode f.et
      let rm ← RM.ofCode f.rm
      some (Instr.fmax f.d f.a x et rm))
  | 8 => .ok (do
      let cond ← Cond.ofCode f.c
      let x ← f.xop
      let et ← ET.ofCode f.et
      let rm ← RM.ofCode f.rm
      some (Instr.fcmp cond f.d f.a x et rm))
  | 9 => .ok (do
      let et ← ET.ofCode f.et
      let et2 ← ET.ofCode f.et2
      let rm ← RM.ofCode f.rm
      some (Instr.fcvt f.d f.a et et2 rm))
  | 10 => .ok (do
      let et ← ET.ofCode f.et
      let rm ← RM.ofCode f.rm
      some (Instr.fclass f.d f.a et rm))
  | _ => .error .unassignedFn

def parseJmp (f : Fields) : Except Reject (Option Instr) :=
  match f.fn.toNat with
  | 0 => .ok (some (Instr.j f.imm))
  | 1 => .ok (some (Instr.jr f.a))
  | 2 => .ok (some (Instr.call f.d f.imm))
  | 3 => .ok (some (Instr.callr f.d f.a))
  | 4 => .ok (some (Instr.ret f.a))
  | 5 => .ok (some Instr.halt)
  | 6 => .ok (some Instr.yield)
  | _ => .error .unassignedFn

def parseLoop (f : Fields) : Except Reject (Option Instr) :=
  match f.fn.toNat with
  | 0 => .ok (some (Instr.loop (f.d.setWidth 2) f.a (f.imm.extractLsb' 0 20) (f.imm.extractLsb' 20 5) (f.imm.extractLsb' 25 3) (f.imm.extractLsb' 28 1 == 1)))
  | 1 => .ok (some (Instr.lbreak (f.d.setWidth 2)))
  | 2 => .ok (some (Instr.lspill f.a f.imm))
  | 3 => .ok (some (Instr.lfill f.a f.imm))
  | 4 => .ok (some (Instr.cbase f.a (f.imm.setWidth 4)))
  | _ => .error .unassignedFn

def parseArm (f : Fields) : Except Reject (Option Instr) :=
  match f.fn.toNat with
  | 0 => .ok (some (Instr.wfork f.a (f.imm.extractLsb' 0 16) (f.imm.extractLsb' 16 16)))
  | 1 => .ok (some (Instr.warm (f.imm.setWidth 16)))
  | 2 => .ok (some Instr.wmerge)
  | _ => .error .unassignedFn

def parseWop (f : Fields) : Except Reject (Option Instr) :=
  match f.fn.toNat with
  | 0 => .ok (do
      let cond ← Cond.ofCode f.c
      let k ← f.vctl
      some (Instr.wcmp cond f.d f.a f.vsrc k))
  | 1 => .ok (do
      let k ← f.vctl
      some (Instr.wramp f.d f.a f.vsrc f.c k))
  | 2 => .ok (do
      let k ← f.vctl
      some (Instr.wrampg f.d f.a f.b f.c k))
  | 3 => .ok (do
      let k ← f.vctl
      some (Instr.wmul f.d f.a f.vsrc k))
  | 4 => .ok (do
      let k ← f.vctl
      some (Instr.wadd f.d f.a f.vsrc k))
  | 5 => .ok (do
      let k ← f.vctl
      some (Instr.wsub f.d f.a f.vsrc k))
  | 7 => .ok (do
      let k ← f.vctl
      some (Instr.wmin f.d f.a f.vsrc k))
  | 8 => .ok (do
      let k ← f.vctl
      some (Instr.wmax f.d f.a f.vsrc k))
  | 6 => .ok (do
      let k ← f.vctl
      some (Instr.wnot f.d f.a k))
  | 9 => .ok (do
      let k ← f.vctl
      some (Instr.wmov f.d f.a k))
  | 10 => .ok (do
      let k ← f.vctl
      some (Instr.wsplat f.d f.vsrc k))
  | 11 => .ok (do
      let k ← f.vctl
      some (Instr.wfromv f.d f.a k))
  | 12 => .ok (do
      let k ← f.vctl
      some (Instr.wtov f.d f.a k))
  | 13 => .ok (do
      let k ← f.vctl
      some (Instr.wbound f.d f.a f.vsrc k))
  | 14 => .ok (do
      let k ← f.vctl
      some (Instr.wany f.d k))
  | _ => .error .unassignedFn

def parseJoin (f : Fields) : Except Reject (Option Instr) :=
  match f.fn.toNat with
  | 0 => .ok (do
      let k ← f.vctl
      some (Instr.vjoin f.d f.a f.vsrc f.c k))
  | 1 => .ok (do
      let k ← f.vctl
      some (Instr.vjoingw f.d f.a f.b f.c k))
  | _ => .error .unassignedFn

def parseVf (f : Fields) : Except Reject (Option Instr) :=
  match f.fn.toNat with
  | 0 => .ok (do
      let k ← f.vctl
      some (Instr.vadd f.d f.a f.vsrc k))
  | 1 => .ok (do
      let k ← f.vctl
      some (Instr.vsub f.d f.a f.vsrc k))
  | 2 => .ok (do
      let k ← f.vctl
      some (Instr.vmul f.d f.a f.vsrc k))
  | 3 => .ok (do
      let k ← f.vctl
      some (Instr.vfma f.d f.a f.vsrc f.c k))
  | 4 => .ok (do
      let k ← f.vctl
      some (Instr.vfms f.d f.a f.vsrc f.c k))
  | 5 => .ok (do
      let k ← f.vctl
      some (Instr.vfnma f.d f.a f.vsrc f.c k))
  | 6 => .ok (do
      let k ← f.vctl
      some (Instr.vdiv f.d f.a f.vsrc k))
  | 7 => .ok (do
      let k ← f.vctl
      some (Instr.vsqrt f.d f.a k))
  | 8 => .ok (do
      let k ← f.vctl
      some (Instr.vrsqrt f.d f.a k))
  | 9 => .ok (do
      let k ← f.vctl
      some (Instr.vrcp f.d f.a k))
  | 10 => .ok (do
      let k ← f.vctl
      some (Instr.vexp2 f.d f.a k))
  | 11 => .ok (do
      let k ← f.vctl
      some (Instr.vlog2 f.d f.a k))
  | 12 => .ok (do
      let k ← f.vctl
      some (Instr.vmin f.d f.a f.vsrc k))
  | 13 => .ok (do
      let k ← f.vctl
      some (Instr.vmax f.d f.a f.vsrc k))
  | 14 => .ok (do
      let k ← f.vctl
      some (Instr.vabs f.d f.a k))
  | 15 => .ok (do
      let k ← f.vctl
      some (Instr.vneg f.d f.a k))
  | 16 => .ok (do
      let k ← f.vctl
      some (Instr.vcsgn f.d f.a f.vsrc k))
  | 17 => .ok (do
      let k ← f.vctl
      some (Instr.vclass f.d f.a k))
  | 18 => .ok (do
      let k ← f.vctl
      some (Instr.vclamp f.d f.a f.vsrc f.c k))
  | _ => .error .unassignedFn

def parseVw (f : Fields) : Except Reject (Option Instr) :=
  match f.fn.toNat with
  | 0 => .ok (do
      let k ← f.vctl
      some (Instr.vwmul f.d f.a f.vsrc k))
  | 1 => .ok (do
      let k ← f.vctl
      some (Instr.vwfma f.d f.a f.vsrc f.c k))
  | _ => .error .unassignedFn

def parseVcvt (f : Fields) : Except Reject (Option Instr) :=
  match f.fn.toNat with
  | 0 => .ok (do
      let k ← f.vctl
      some (Instr.vcvt f.d f.a k))
  | 1 => .ok (do
      let k ← f.vctl
      some (Instr.vcvtSat f.d f.a k))
  | _ => .error .unassignedFn

def parseVi (f : Fields) : Except Reject (Option Instr) :=
  match f.fn.toNat with
  | 0 => .ok (do
      let k ← f.vctl
      some (Instr.vand f.d f.a f.vsrc k))
  | 1 => .ok (do
      let k ← f.vctl
      some (Instr.vor f.d f.a f.vsrc k))
  | 2 => .ok (do
      let k ← f.vctl
      some (Instr.vxor f.d f.a f.vsrc k))
  | 3 => .ok (do
      let k ← f.vctl
      some (Instr.vandn f.d f.a f.vsrc k))
  | 4 => .ok (do
      let k ← f.vctl
      some (Instr.vshl f.d f.a f.vsrc k))
  | 5 => .ok (do
      let k ← f.vctl
      some (Instr.vshr f.d f.a f.vsrc k))
  | 6 => .ok (do
      let k ← f.vctl
      some (Instr.vsra f.d f.a f.vsrc k))
  | 7 => .ok (do
      let k ← f.vctl
      some (Instr.vaddsat f.d f.a f.vsrc k))
  | 8 => .ok (do
      let k ← f.vctl
      some (Instr.vsubsat f.d f.a f.vsrc k))
  | 9 => .ok (do
      let k ← f.vctl
      some (Instr.vmulh f.d f.a f.vsrc k))
  | 10 => .ok (do
      let k ← f.vctl
      some (Instr.vavg f.d f.a f.vsrc k))
  | _ => .error .unassignedFn

def parseVcr (f : Fields) : Except Reject (Option Instr) :=
  match f.fn.toNat with
  | 0 => .ok (do
      let cond ← Cond.ofCode f.c
      let k ← f.vctl
      some (Instr.vcmp cond f.d f.a f.vsrc k))
  | 1 => .ok (do
      let k ← f.vctl
      some (Instr.vsel f.d f.a f.vsrc f.c k))
  | 2 => .ok (do
      let k ← f.vctl
      some (Instr.vredsum f.d f.a k))
  | 3 => .ok (do
      let k ← f.vctl
      some (Instr.vredmax f.d f.a k))
  | 4 => .ok (do
      let k ← f.vctl
      some (Instr.vredmin f.d f.a k))
  | 5 => .ok (do
      let k ← f.vctl
      some (Instr.vscanAdd f.d f.a k))
  | 8 => .ok (do
      let k ← f.vctl
      some (Instr.vscanMax f.d f.a k))
  | 9 => .ok (do
      let k ← f.vctl
      some (Instr.vscanMin f.d f.a k))
  | 10 => .ok (do
      let k ← f.vctl
      some (Instr.vscanXadd f.d f.a k))
  | 11 => .ok (do
      let k ← f.vctl
      some (Instr.vscanXmax f.d f.a k))
  | 12 => .ok (do
      let k ← f.vctl
      some (Instr.vscanXmin f.d f.a k))
  | 6 => .ok (do
      let k ← f.vctl
      some (Instr.vfirst f.d k))
  | 7 => .ok (do
      let k ← f.vctl
      some (Instr.vcount f.d k))
  | _ => .error .unassignedFn

def parseVmv (f : Fields) : Except Reject (Option Instr) :=
  match f.fn.toNat with
  | 0 => .ok (do
      let k ← f.vctl
      some (Instr.vmv f.d f.a k))
  | 1 => .ok (do
      let k ← f.vctl
      some (Instr.vsplat f.d f.vsrc k))
  | 2 => .ok (do
      let k ← f.vctl
      some (Instr.vid f.d k))
  | 3 => .ok (do
      let k ← f.vctl
      some (Instr.vslup f.d f.a f.vsrc k))
  | 4 => .ok (do
      let k ← f.vctl
      some (Instr.vsldn f.d f.a f.vsrc k))
  | 5 => .ok (do
      let k ← f.vctl
      some (Instr.vperm f.d f.a f.b k))
  | 6 => .ok (do
      let k ← f.vctl
      some (Instr.vcompress f.d f.a f.c k))
  | 7 => .ok (do
      let k ← f.vctl
      some (Instr.vexpand f.d f.a k))
  | 8 => .ok (do
      let k ← f.vctl
      some (Instr.vrev f.d f.a k))
  | 9 => .ok (do
      let k ← f.vctl
      some (Instr.vpack f.d f.a k))
  | 10 => .ok (do
      let k ← f.vctl
      some (Instr.vunpack f.d f.a k))
  | 11 => .ok (do
      let k ← f.vctl
      some (Instr.vrand f.d f.a f.vsrc k))
  | 12 => .ok (do
      let k ← f.vctl
      some (Instr.vins f.d f.a f.vsrc k))
  | 13 => .ok (do
      let k ← f.vctl
      some (Instr.vext f.d f.a f.vsrc k))
  | 14 => .ok (do
      let k ← f.vctl
      some (Instr.vtopk f.d f.a (f.imm.extractLsb' 0 16) (f.imm.extractLsb' 16 16) k))
  | _ => .error .unassignedFn

def parseCfg (f : Fields) : Except Reject (Option Instr) :=
  match f.fn.toNat with
  | 0 => .ok (do
      let et ← ET.ofCode (f.imm.extractLsb' 0 5)
      let g ← Grp.ofCode (f.imm.extractLsb' 5 2)
      some (Instr.setvl f.d f.a et g))
  | 1 => .ok (do
      let x ← f.xop
      some (Instr.setsp f.d x))
  | 2 => .ok (do
      let x ← f.xop
      some (Instr.setth f.d x))
  | 3 => .ok (do
      let x ← f.xop
      some (Instr.setfl f.d x))
  | 4 => .ok (do
      let x ← f.xop
      some (Instr.setrm f.d x))
  | 5 => .ok (some (Instr.getcr f.d (f.imm.setWidth 12)))
  | 6 => .ok (some (Instr.putcr (f.imm.setWidth 12) f.a))
  | _ => .error .unassignedFn

def parseSmem (f : Fields) : Except Reject (Option Instr) :=
  match f.fn.toNat with
  | 0 => .ok (do
      let et ← ET.ofCode f.et
      some (Instr.ld f.d f.a f.imm et))
  | 1 => .ok (do
      let et ← ET.ofCode f.et
      some (Instr.st f.c f.a f.imm et))
  | 2 => .ok (some (Instr.pfch f.a f.imm))
  | _ => .error .unassignedFn

def parseVmem (f : Fields) : Except Reject (Option Instr) :=
  match f.fn.toNat with
  | 0 => .ok (do
      let k ← f.vctl
      some (Instr.vld f.d f.a f.imm k))
  | 1 => .ok (do
      let k ← f.vctl
      some (Instr.vlds f.d f.a f.b f.imm k))
  | 2 => .ok (do
      let k ← f.vctl
      some (Instr.vldx f.d f.a f.b f.imm k))
  | 3 => .ok (do
      let k ← f.vctl
      some (Instr.vldff f.d f.a f.imm k))
  | 4 => .ok (do
      let k ← f.vctl
      some (Instr.vst f.c f.a f.imm k))
  | 5 => .ok (do
      let k ← f.vctl
      some (Instr.vsts f.c f.a f.b f.imm k))
  | 6 => .ok (do
      let k ← f.vctl
      some (Instr.vstx f.c f.a f.b f.imm k))
  | 7 => .ok (do
      let k ← f.vctl
      some (Instr.vstu f.c f.a f.imm k))
  | 8 => .ok (do
      let et ← ET.ofCode f.et
      some (Instr.vbind f.d f.a f.imm et))
  | 9 => .ok (some (Instr.vunbind f.d))
  | 10 => .ok (some (Instr.vopen f.d))
  | 11 => .ok (some (Instr.vclose f.d))
  | _ => .error .unassignedFn

def parseAmo (f : Fields) : Except Reject (Option Instr) :=
  match f.fn.toNat with
  | 0 => .ok (do
      let et ← ET.ofCode f.et
      let ord ← Ord.ofCode f.et2
      let sc ← Scope.ofCode f.rm
      some (Instr.amoSwap f.d f.a f.c f.imm et ord sc))
  | 1 => .ok (do
      let et ← ET.ofCode f.et
      let ord ← Ord.ofCode f.et2
      let sc ← Scope.ofCode f.rm
      some (Instr.amoAdd f.d f.a f.c f.imm et ord sc))
  | 2 => .ok (do
      let et ← ET.ofCode f.et
      let ord ← Ord.ofCode f.et2
      let sc ← Scope.ofCode f.rm
      some (Instr.amoAnd f.d f.a f.c f.imm et ord sc))
  | 3 => .ok (do
      let et ← ET.ofCode f.et
      let ord ← Ord.ofCode f.et2
      let sc ← Scope.ofCode f.rm
      some (Instr.amoOr f.d f.a f.c f.imm et ord sc))
  | 4 => .ok (do
      let et ← ET.ofCode f.et
      let ord ← Ord.ofCode f.et2
      let sc ← Scope.ofCode f.rm
      some (Instr.amoXor f.d f.a f.c f.imm et ord sc))
  | 5 => .ok (do
      let et ← ET.ofCode f.et
      let ord ← Ord.ofCode f.et2
      let sc ← Scope.ofCode f.rm
      some (Instr.amoMin f.d f.a f.c f.imm et ord sc))
  | 6 => .ok (do
      let et ← ET.ofCode f.et
      let ord ← Ord.ofCode f.et2
      let sc ← Scope.ofCode f.rm
      some (Instr.amoMax f.d f.a f.c f.imm et ord sc))
  | 16 => .ok (do
      let et ← ET.ofCode f.et
      let ord ← Ord.ofCode f.et2
      let sc ← Scope.ofCode f.rm
      some (Instr.amocas f.d f.a f.b f.c f.imm et ord sc))
  | _ => .error .unassignedFn

def parseVamo (f : Fields) : Except Reject (Option Instr) :=
  match f.fn.toNat with
  | 0 => .ok (do
      let k ← f.vctlA
      let o ← Ord.ofCode f.et2
      let sc ← Scope.ofCode f.rm
      some (Instr.vamoSwap f.d f.a f.b f.c f.imm k o sc))
  | 1 => .ok (do
      let k ← f.vctlA
      let o ← Ord.ofCode f.et2
      let sc ← Scope.ofCode f.rm
      some (Instr.vamoAdd f.d f.a f.b f.c f.imm k o sc))
  | 2 => .ok (do
      let k ← f.vctlA
      let o ← Ord.ofCode f.et2
      let sc ← Scope.ofCode f.rm
      some (Instr.vamoAnd f.d f.a f.b f.c f.imm k o sc))
  | 3 => .ok (do
      let k ← f.vctlA
      let o ← Ord.ofCode f.et2
      let sc ← Scope.ofCode f.rm
      some (Instr.vamoOr f.d f.a f.b f.c f.imm k o sc))
  | 4 => .ok (do
      let k ← f.vctlA
      let o ← Ord.ofCode f.et2
      let sc ← Scope.ofCode f.rm
      some (Instr.vamoXor f.d f.a f.b f.c f.imm k o sc))
  | 5 => .ok (do
      let k ← f.vctlA
      let o ← Ord.ofCode f.et2
      let sc ← Scope.ofCode f.rm
      some (Instr.vamoMin f.d f.a f.b f.c f.imm k o sc))
  | 6 => .ok (do
      let k ← f.vctlA
      let o ← Ord.ofCode f.et2
      let sc ← Scope.ofCode f.rm
      some (Instr.vamoMax f.d f.a f.b f.c f.imm k o sc))
  | 7 => .ok (do
      let k ← f.vctlA
      let o ← Ord.ofCode f.et2
      let sc ← Scope.ofCode f.rm
      some (Instr.vamoBlend f.d f.a f.b f.c f.imm k o sc))
  | _ => .error .unassignedFn

def parseSync (f : Fields) : Except Reject (Option Instr) :=
  match f.fn.toNat with
  | 0 => .ok (do
      let o ← Ord.ofCode f.et2
      let sc ← Scope.ofCode f.rm
      some (Instr.fence o sc))
  | 1 => .ok (do
      let sc ← Scope.ofCode f.rm
      some (Instr.bar f.d f.a f.imm sc))
  | 2 => .ok (do
      let o ← Ord.ofCode f.et2
      let sc ← Scope.ofCode f.rm
      some (Instr.waiteq f.d f.a f.b f.imm o sc))
  | _ => .error .unassignedFn

def parseHart (f : Fields) : Except Reject (Option Instr) :=
  match f.fn.toNat with
  | 0 => .ok (some (Instr.hid f.d))
  | 1 => .ok (do
      let x ← f.xop
      some (Instr.launch f.d f.a x))
  | 2 => .ok (some (Instr.farm f.d f.a))
  | 3 => .ok (some (Instr.fgrab f.d))
  | 4 => .ok (some (Instr.fdone f.d f.a))
  | 5 => .ok (some (Instr.hexit f.a))
  | _ => .error .unassignedFn

def parseLvl (f : Fields) : Except Reject (Option Instr) :=
  match f.fn.toNat with
  | 0 => .ok (some (Instr.xlate f.d f.a (f.imm.setWidth 2)))
  | 1 => .ok (do
      let x ← f.xop
      let sc ← Scope.ofCode f.rm
      some (Instr.cwb f.a x sc))
  | 2 => .ok (do
      let x ← f.xop
      let sc ← Scope.ofCode f.rm
      some (Instr.cinv f.a x sc))
  | 3 => .ok (match (f.imm.extractLsb' 0 2).toNat with | 0 => some (.slabQuery f.d f.a) | 1 => some (.slabTake f.d) | 2 => some (.slabGive f.d) | _ => none)
  | _ => .error .unassignedFn

def parsePip (f : Fields) : Except Reject (Option Instr) :=
  match f.fn.toNat with
  | 0 => .ok (some (Instr.ppin f.d f.a f.b))
  | 1 => .ok (some (Instr.pread f.d f.a f.b))
  | 2 => .ok (some (Instr.pinc f.d f.a f.b))
  | 3 => .ok (some (Instr.pdec f.d f.a f.b))
  | 4 => .ok (some (Instr.pnode f.d f.a f.b))
  | 5 => .ok (some (Instr.pswap f.d f.a f.b f.c f.imm))
  | _ => .error .unassignedFn

def parseCopy (f : Fields) : Except Reject (Option Instr) :=
  match f.fn.toNat with
  | 0 => .ok (do
      let spA ← Space.ofCode (f.imm.extractLsb' 0 3)
      let spB ← Space.ofCode (f.imm.extractLsb' 3 3)
      let sc ← Scope.ofCode f.lr
      some (Instr.cpy f.d f.a f.b f.c spA spB sc))
  | 1 => .ok (do
      let spA ← Space.ofCode (f.imm.extractLsb' 0 3)
      let spB ← Space.ofCode (f.imm.extractLsb' 3 3)
      let sc ← Scope.ofCode f.lr
      some (Instr.cpys f.d f.a f.b f.c spA spB sc))
  | 2 => .ok (do
      let spA ← Space.ofCode (f.imm.extractLsb' 0 3)
      let sc ← Scope.ofCode f.lr
      some (Instr.cfill f.d f.a f.b f.c spA (f.imm.extractLsb' 9 2) sc))
  | 3 => .ok (some (Instr.tchk f.d f.a))
  | _ => .error .unassignedFn

def parseMat (f : Fields) : Except Reject (Option Instr) :=
  match f.fn.toNat with
  | 0 => .ok (some (Instr.mshape f.d f.a))
  | 1 => .ok (some (Instr.mstride f.a f.b (f.imm.extractLsb' 0 1 == 1) (f.imm.extractLsb' 1 1 == 1)))
  | 2 => .ok (do
      let sc ← Scope.ofCode f.lr
      some (Instr.mzero f.d (f.c.setWidth 3) sc))
  | 3 => .ok (do
      let spA ← Space.ofCode (f.imm.extractLsb' 0 3)
      let spB ← Space.ofCode (f.imm.extractLsb' 3 3)
      let et ← ET.ofCode f.et
      let et2 ← ET.ofCode f.et2
      let sc ← Scope.ofCode f.lr
      some (Instr.mmul f.d f.a f.b (f.c.setWidth 3) spA spB et et2 sc))
  | 4 => .ok (do
      let spB ← Space.ofCode (f.imm.extractLsb' 3 3)
      let et ← ET.ofCode f.et
      let et2 ← ET.ofCode f.et2
      let rm ← RM.ofCode f.rm
      let sc ← Scope.ofCode f.lr
      some (Instr.mmulc f.d (f.a.setWidth 3) f.b (f.c.setWidth 3) spB et et2 rm sc))
  | 5 => .ok (do
      let spB ← Space.ofCode (f.imm.extractLsb' 3 3)
      let et ← ET.ofCode f.et
      let rm ← RM.ofCode f.rm
      let sc ← Scope.ofCode f.lr
      some (Instr.mout f.d (f.a.setWidth 3) f.b f.c spB (f.imm.extractLsb' 9 1 == 1) (f.imm.extractLsb' 10 22) et rm sc))
  | _ => .error .unassignedFn

def parseFib (f : Fields) : Except Reject (Option Instr) :=
  match f.fn.toNat with
  | 0 => .ok (do
      let spB ← Space.ofCode (f.imm.extractLsb' 3 3)
      some (Instr.fopen (f.a.setWidth 3) f.b f.c spB (f.imm.extractLsb' 9 2)))
  | 1 => .ok (some (Instr.fadv f.d (f.a.setWidth 3) f.b))
  | 2 => .ok (some (Instr.fend f.d (f.a.setWidth 3)))
  | 3 => .ok (some (Instr.fclose (f.a.setWidth 3)))
  | 4 => .ok (do
      let spC ← Space.ofCode (f.imm.extractLsb' 6 3)
      let sc ← Scope.ofCode f.lr
      some (Instr.fisect f.d (f.a.setWidth 3) (f.b.setWidth 3) f.c spC sc))
  | 5 => .ok (do
      let spC ← Space.ofCode (f.imm.extractLsb' 6 3)
      let sc ← Scope.ofCode f.lr
      some (Instr.funion f.d (f.a.setWidth 3) (f.b.setWidth 3) f.c spC sc))
  | 6 => .ok (do
      let spA ← Space.ofCode (f.imm.extractLsb' 0 3)
      let spC ← Space.ofCode (f.imm.extractLsb' 6 3)
      let sc ← Scope.ofCode f.lr
      some (Instr.fsplit f.d f.a f.b f.c spA spC sc))
  | 7 => .ok (do
      let sc ← Scope.ofCode f.lr
      some (Instr.fcount f.d (f.a.setWidth 3) f.b sc))
  | _ => .error .unassignedFn

def parseDisp (f : Fields) : Except Reject (Option Instr) :=
  match f.fn.toNat with
  | 0 => .ok (do
      let spA ← Space.ofCode (f.imm.extractLsb' 0 3)
      let spB ← Space.ofCode (f.imm.extractLsb' 3 3)
      let sc ← Scope.ofCode f.lr
      some (Instr.dput f.d f.a f.b f.c spA spB (f.imm.extractLsb' 9 16) sc))
  | 1 => .ok (do
      let spA ← Space.ofCode (f.imm.extractLsb' 0 3)
      let sc ← Scope.ofCode f.lr
      some (Instr.dwait f.d f.a spA sc))
  | 2 => .ok (do
      let spA ← Space.ofCode (f.imm.extractLsb' 0 3)
      let spC ← Space.ofCode (f.imm.extractLsb' 6 3)
      let sc ← Scope.ofCode f.lr
      some (Instr.dclose f.d f.a f.b f.c spA spC (f.imm.extractLsb' 9 16) sc))
  | _ => .error .unassignedFn

def parsePout (f : Fields) : Except Reject (Option Instr) :=
  match f.fn.toNat with
  | 0 => .ok (do
      let spC ← Space.ofCode (f.imm.extractLsb' 6 3)
      let sc ← Scope.ofCode f.lr
      some (Instr.pout f.d f.a f.b f.c spC sc))
  | _ => .error .unassignedFn

def parseSend (f : Fields) : Except Reject (Option Instr) :=
  match f.fn.toNat with
  | 0 => .ok (do
      let k ← f.vctl
      some (Instr.vsend f.a f.b k))
  | 1 => .ok (do
      let k ← f.vctl
      some (Instr.vrecv f.d f.b f.c k))
  | 2 => .ok (some (Instr.nid f.d))
  | _ => .error .unassignedFn

def parseSys (f : Fields) : Except Reject (Option Instr) :=
  match f.fn.toNat with
  | 0 => .ok (some (Instr.csrrd f.d (f.imm.setWidth 12)))
  | 1 => .ok (some (Instr.csrwr f.d (f.imm.setWidth 12) f.a))
  | 2 => .ok (some Instr.tret)
  | 3 => .ok (some Instr.ecall)
  | 4 => .ok (some Instr.ebreak)
  | 5 => .ok (some (Instr.frqpop f.d f.a f.imm))
  | 6 => .ok (some (Instr.replay f.d))
  | 7 => .ok (do
      let sc ← Scope.ofCode (f.imm.extractLsb' 0 3)
      some (Instr.tlbinv f.a f.b sc (f.imm.extractLsb' 3 2)))
  | 8 => .ok (some (Instr.ringrd f.d f.a f.b f.imm))
  | 9 => .ok (some (Instr.ctxsave f.d f.a (f.b.extractLsb' 0 1 == 1) (f.b.extractLsb' 1 1 == 1) f.imm))
  | 10 => .ok (some (Instr.ctxload f.a f.imm))
  | 11 => .ok (some Instr.wfi)
  | _ => .error .unassignedFn

def parseBr (f : Fields) : Except Reject (Option Instr) :=
  match Cond.ofCode f.fn with
  | some c => .ok (some (.bCond c f.a f.b f.imm))
  | none => .error .unassignedFn

/-- R65. -/
def parse (f : Fields) : Except Reject (Option Instr) :=
  match f.op.toNat with
  | 0x01 => parseAlu f
  | 0x02 => parseLi f
  | 0x20 => parseSfp f
  | 0x28 => parseBr f
  | 0x29 => parseJmp f
  | 0x2A => parseLoop f
  | 0x2C => parseArm f
  | 0x30 => parseWop f
  | 0x32 => parseJoin f
  | 0x40 => parseVf f
  | 0x41 => parseVw f
  | 0x42 => parseVcvt f
  | 0x43 => parseVi f
  | 0x44 => parseVcr f
  | 0x45 => parseVmv f
  | 0x70 => parseCfg f
  | 0x80 => parseSmem f
  | 0x81 => parseVmem f
  | 0x90 => parseAmo f
  | 0x91 => parseVamo f
  | 0x92 => parseSync f
  | 0xA0 => parseHart f
  | 0xA8 => parseLvl f
  | 0xB0 => parsePip f
  | 0xC0 => parseCopy f
  | 0xC1 => parseMat f
  | 0xC2 => parseFib f
  | 0xC3 => parseDisp f
  | 0xC4 => parsePout f
  | 0xD0 => parseSend f
  | 0xE0 => parseSys f
  | _ => .error .unassignedOp

/-- R72: the instruction of a field record, with every check that decode makes. A field that the entry does not use
is zero exactly when the instruction's own fields are these. -/
def decodeFields (f : Fields) : Except Reject Instr :=
  match parse f with
  | .error r => .error r
  | .ok none => .error .badCode
  | .ok (some i) =>
    if i.toFields = some f then (if i.wf then .ok i else .error .illFormed) else .error .reservedField

/-- The decoder, on any slot. -/
def decode (s : Slot) : Except Reject Instr := decodeFields (Fields.ofSlot s)

/-- The slot of an instruction; none for a step of another agent. -/
def encode (i : Instr) : Option Slot := i.toFields.map Fields.toSlot

/-- R56: the twelve bytes of a slot, byte 0 first. -/
def slotBytes (s : Slot) : List Byte := (List.range 12).map (fun i => s.extractLsb' (8 * i) 8)

/-- R56: the slot of twelve bytes, byte 0 first. -/
def slotOfBytes (bs : List Byte) : Slot := bs.foldr (fun b acc => (acc <<< 8) ||| b.setWidth 96) 0

/-- What the decoder reads from an instruction whose bits are `w`, laid out as memory holds a slot. -/
def decodeTableWord (_nbits w : Nat) : Option Instr :=
  match decode (slotOfBytes (slotBytes (BitVec.ofNat 96 w))) with
  | .ok i => some i
  | .error _ => none

end Sys2Proof
end

