-- ==== Sys2Proof/Machine/Num.lean ====
section
/-! DEFINITION. Number formats (spec 02): exact reals as signed rationals, the values of codes, rounding under every
mode with its flags, integer, weight and currant conversions. -/

namespace Sys2Proof.Machine

/-! ### Flags (R11, R51): NV DZ OF UF NX in bits 4 to 0 -/

abbrev Fl := BitVec 5
def flNone : Fl := 0
def flNX : Fl := 1
def flUF : Fl := 2
def flOF : Fl := 4
def flDZ : Fl := 8
def flNV : Fl := 16

/-! ### Exact reals -/

/-- A real: sign and magnitude num / den, den above 0. A zero keeps its sign. With `sticky` the magnitude lies above
num / den by less than any difference that a rounding can see (square roots and transcendental results only). -/
structure Q where
  neg : Bool
  num : Nat
  den : Nat
  sticky : Bool
  deriving DecidableEq, Repr

def qZero (neg : Bool) : Q := ⟨neg, 0, 1, false⟩
def qInt (i : Int) : Q := ⟨decide (i < 0), i.natAbs, 1, false⟩
/-- ± m × 2^e. -/
def qDyad (neg : Bool) (m : Nat) (e : Int) : Q :=
  if 0 ≤ e then ⟨neg, m <<< e.toNat, 1, false⟩ else ⟨neg, m, 1 <<< (-e).toNat, false⟩
def qIsZero (q : Q) : Bool := q.num == 0 && !q.sticky
def qNeg (q : Q) : Q := { q with neg := !q.neg }

def qMul (a b : Q) : Q := ⟨a.neg != b.neg, a.num * b.num, a.den * b.den, a.sticky || b.sticky⟩
/-- b is not zero and not sticky. -/
def qDiv (a b : Q) : Q := ⟨a.neg != b.neg, a.num * b.den, a.den * b.num, a.sticky⟩

/-- The sum. An exact zero takes the sign of IEEE 754: zeros of one sign keep it, every other exact zero is +0, or −0
under RDN (R141, R165). At most one term is sticky. -/
def qAdd (rdn : Bool) (a b : Q) : Q :=
  let (x, y, d) := if a.den == b.den then (a.num, b.num, a.den) else (a.num * b.den, b.num * a.den, a.den * b.den)
  if a.neg == b.neg then ⟨a.neg, x + y, d, a.sticky || b.sticky⟩
  else if x == y then
    if a.sticky then ⟨a.neg, 0, d, true⟩ else if b.sticky then ⟨b.neg, 0, d, true⟩ else ⟨rdn, 0, 1, false⟩
  else if y < x then
    if b.sticky then ⟨a.neg, x - y - Nat.min (x - y) a.den, d, true⟩ else ⟨a.neg, x - y, d, a.sticky⟩
  else
    if a.sticky then ⟨b.neg, y - x - Nat.min (y - x) b.den, d, true⟩ else ⟨b.neg, y - x, d, b.sticky⟩

/-- The value of a comparison, −1, 0 or 1; zeros are equal, and at most one side is sticky. -/
def qCmp (a b : Q) : Int :=
  let x : Int := (if a.neg then -1 else 1) * (a.num * b.den : Nat)
  let y : Int := (if b.neg then -1 else 1) * (b.num * a.den : Nat)
  if x < y then -1 else if y < x then 1
  else if a.sticky then (if a.neg then -1 else 1)
  else if b.sticky then (if b.neg then 1 else -1)
  else 0

/-- Times 2^k. -/
def qScale (q : Q) (k : Int) : Q :=
  if 0 ≤ k then { q with num := q.num <<< k.toNat } else { q with den := q.den <<< (-k).toNat }

/-- The exponent of a nonzero magnitude: 2^e ≤ num / den < 2^(e + 1). -/
def qExp (q : Q) : Int :=
  let k : Int := (Nat.log2 q.num : Int) - (Nat.log2 q.den : Int)
  let ge := if 0 ≤ k then q.den <<< k.toNat ≤ q.num else q.den ≤ q.num <<< (-k).toNat
  if ge then k else k - 1

/-! ### Rounding to the integer grid -/

/-- The magnitude num / den rounded to an integer under a mode that is not EFB or DYN (R45), and whether that was
inexact. -/
def roundNat (rm : RM) (neg : Bool) (num den : Nat) (sticky : Bool) : Nat × Bool :=
  let q := num / den
  let r := num % den
  let inexact := r != 0 || sticky
  if !inexact then (q, false)
  else
    let up :=
      match rm with
      | .rtz => false
      | .rup => !neg
      | .rdn => neg
      | .rto => q % 2 == 0
      | _ => if 2 * r == den then sticky || q % 2 == 1 else decide (den < 2 * r)
    (if up then q + 1 else q, true)

def roundQ (rm : RM) (q : Q) : Int × Bool :=
  let (n, x) := roundNat rm q.neg q.num q.den q.sticky
  (if q.neg then -(n : Int) else n, x)

/-! ### Floating formats -/

/-- How a format uses its all-ones exponent (R38). -/
inductive Special where
  | ieee | e4m3 | finite
  deriving DecidableEq, Repr

structure Fmt where
  ebits : Nat
  fbits : Nat
  bias  : Nat
  sp    : Special
  deriving DecidableEq, Repr

/-- R38; types of no float class take F32's row, which nothing reads. -/
def fmtOf : ET → Fmt
  | .f64 => ⟨11, 52, 1023, .ieee⟩
  | .f19 => ⟨8, 10, 127, .ieee⟩
  | .f16 => ⟨5, 10, 15, .ieee⟩
  | .bf16 => ⟨8, 7, 127, .ieee⟩
  | .e5m2 => ⟨5, 2, 15, .ieee⟩
  | .e4m3 => ⟨4, 3, 7, .e4m3⟩
  | .e3m2 => ⟨3, 2, 3, .finite⟩
  | .e2m3 => ⟨2, 3, 1, .finite⟩
  | .e2m1 => ⟨2, 1, 1, .finite⟩
  | _ => ⟨8, 23, 127, .ieee⟩

/-- Exponent of the smallest normal. -/
def Fmt.emin (f : Fmt) : Int := 1 - (f.bias : Int)
def Fmt.signBit (f : Fmt) : Nat := 1 <<< (f.ebits + f.fbits)
/-- The magnitude code of the largest finite value. -/
def Fmt.maxMag (f : Fmt) : Nat :=
  match f.sp with
  | .ieee => ((1 <<< f.ebits) - 1) <<< f.fbits - 1
  | .e4m3 => (1 <<< (f.ebits + f.fbits)) - 2
  | .finite => (1 <<< (f.ebits + f.fbits)) - 1
/-- The canonical NaN; a format without NaN delivers +0 (R39). -/
def Fmt.nan (f : Fmt) : Nat :=
  match f.sp with
  | .ieee => ((1 <<< f.ebits) - 1) <<< f.fbits + (1 <<< (f.fbits - 1))
  | .e4m3 => 0x7F
  | .finite => 0
def Fmt.infMag (f : Fmt) : Nat := ((1 <<< f.ebits) - 1) <<< f.fbits
def Fmt.withSign (f : Fmt) (neg : Bool) (m : Nat) : Nat := if neg then m + f.signBit else m

/-- A value as arithmetic reads it. -/
inductive Val where
  | nan (sig : Bool)
  | inf (neg : Bool)
  | fin (q : Q)
  deriving DecidableEq, Repr

def vIsNan : Val → Bool
  | .nan _ => true
  | _ => false
def vIsSig : Val → Bool
  | .nan s => s
  | _ => false
def vIsZero : Val → Bool
  | .fin q => qIsZero q
  | _ => false
/-- NV where a value is a signalling NaN (R39). -/
def sigFl (v : Val) : Fl := if vIsSig v then flNV else flNone
def vNeg : Val → Val
  | .nan s => .nan s
  | .inf n => .inf (!n)
  | .fin q => .fin (qNeg q)

/-- R38, R39: the value of a float code. -/
def decFloat (f : Fmt) (c : Nat) : Val :=
  let neg := c / f.signBit % 2 == 1
  let e := c >>> f.fbits % (1 <<< f.ebits)
  let m := c % (1 <<< f.fbits)
  let ones := e == (1 <<< f.ebits) - 1
  if ones && f.sp == .ieee then
    if m == 0 then .inf neg else .nan (decide (m < 1 <<< (f.fbits - 1)))
  else if ones && f.sp == .e4m3 && m == 7 then .nan false
  else if e == 0 then .fin (qDyad neg m (f.emin - f.fbits))
  else .fin (qDyad neg (m + (1 <<< f.fbits)) ((e : Int) - f.bias - f.fbits))

/-- R46: the outcome of an overflow, or of an infinity in a format without infinity when `noFl` holds. -/
def overflowTo (f : Fmt) (toInf : Bool) (neg : Bool) (fl : Fl) : Nat × Fl :=
  if !toInf then (f.withSign neg f.maxMag, fl)
  else match f.sp with
    | .ieee => (f.withSign neg f.infMag, fl)
    | .e4m3 => (f.nan, fl)
    | .finite => (f.withSign neg f.maxMag, fl ||| flNV)

def overflowIsInf (rm : RM) (neg : Bool) : Bool :=
  match rm with
  | .rtz | .rto => false
  | .rup => !neg
  | .rdn => neg
  | _ => true

/-- The magnitude rounded on the grid of 2^qe: the integer multiple and whether inexact. -/
def roundAt (rm : RM) (q : Q) (qe : Int) : Nat × Bool :=
  if 0 ≤ qe then roundNat rm q.neg q.num (q.den <<< qe.toNat) q.sticky
  else roundNat rm q.neg (q.num <<< (-qe).toNat) q.den q.sticky

/-- R45, R46, R51: a real rounded into a float format: the code and the flags OF, UF, NX (and NV of R46). With `sat` an
overflow gives the largest finite value and NX only. -/
def encReal (f : Fmt) (sat : Bool) (rm : RM) (q : Q) : Nat × Fl :=
  if q.num == 0 then
    if q.sticky then
      -- a nonzero magnitude below every grid point
      let (n, _) := roundNat rm q.neg 0 1 true
      (f.withSign q.neg n, flUF ||| flNX)
    else (f.withSign q.neg 0, flNone)
  else
    let e := qExp q
    let qe := (if e < f.emin then f.emin else e) - f.fbits
    let (n, x) := roundAt rm q qe
    let mag := n + ((qe + f.fbits - f.emin).toNat <<< f.fbits)
    if f.maxMag < mag then
      if sat then (f.withSign q.neg f.maxMag, flNX)
      else overflowTo f (overflowIsInf rm q.neg) q.neg (flOF ||| flNX)
    else
      -- tininess after rounding, as if the exponent were unbounded (R45)
      let tiny := decide (e < f.emin) &&
        !(e + 1 == f.emin && (roundAt rm q (e - f.fbits)).1 == 1 <<< (f.fbits + 1))
      (f.withSign q.neg mag, (if x then flNX else flNone) ||| (if x && tiny then flUF else flNone))

/-- Rounding a value into a float type: a NaN is canonical (+0 and NV where the type has none, R39), an infinity stays
or follows R46. -/
def encFloat (et : ET) (sat : Bool) (rm : RM) (v : Val) : Nat × Fl :=
  let f := fmtOf et
  match v with
  | .nan _ => (f.nan, if f.sp == .finite then flNV else flNone)
  | .inf n =>
    if f.sp == .ieee && !sat then (f.withSign n f.infMag, flNone)
    else if sat then (f.withSign n f.maxMag, flNX)
    else overflowTo f true n flNV
  | .fin q => encReal f sat rm q

/-! ### Integer, ternary, binary, weight types -/

/-- R40: an integer code's value, and whether it is the reserved T2 code (read as 0, with NV). -/
def decInt (et : ET) (c : Nat) : Int × Bool :=
  match et with
  | .t2 => match c % 4 with
    | 1 => (1, false)
    | 3 => (-1, false)
    | 2 => (0, true)
    | _ => (0, false)
  | .b1 => (if c % 2 == 1 then -1 else 1, false)
  | _ =>
    let m := c % (1 <<< et.bits)
    (if et.signed && (1 <<< (et.bits - 1)) ≤ m then (m : Int) - (1 <<< et.bits : Nat) else m, false)

/-- The code of a value, modulo 2^width. -/
def encInt (et : ET) (i : Int) : Nat :=
  match et with
  | .b1 => if i < 0 then 1 else 0
  | _ => (i % (1 <<< et.bits : Nat)).toNat

def intMin (et : ET) : Int :=
  match et with
  | .t2 | .b1 => -1
  | _ => if et.signed then -((1 <<< (et.bits - 1) : Nat) : Int) else 0
def intMax (et : ET) : Int :=
  match et with
  | .t2 | .b1 => 1
  | _ => if et.signed then (1 <<< (et.bits - 1) : Nat) - 1 else (1 <<< et.bits : Nat) - 1

/-- R47: conversion to an integer format, T2 or B1. An integer source goes to B1 by the same rule, NX where the value
differs (log 42, DESIGN CHOICE). -/
def toIntType (et : ET) (rm : RM) (v : Val) : Nat × Fl :=
  if et == .b1 then
    match v with
    | .nan _ => (0, flNV)
    | .inf n => (if n then 1 else 0, flNX)
    | .fin q =>
      let neg := q.neg && !qIsZero q
      (if neg then 1 else 0, if q.num == q.den && !q.sticky then flNone else flNX)
  else
    match v with
    | .nan _ => (0, flNV)
    | .inf n => (encInt et (if n then intMin et else intMax et), flNV)
    | .fin q =>
      let (i, x) := roundQ rm q
      if i < intMin et then (encInt et (intMin et), flNV)
      else if intMax et < i then (encInt et (intMax et), flNV)
      else (encInt et i, if x then flNX else flNone)

/-- R24: a code above 0x8000 is read as 0x8000. -/
def wtRead (c : Nat) : Nat := Nat.min (c % 65536) 0x8000
/-- R24: the product of two weights, round-half-even. -/
def wtMul (a b : Nat) : Nat := (roundNat .rne false (wtRead a * wtRead b) 32768 false).1
def wtVal (c : Nat) : Q := ⟨false, wtRead c, 32768, false⟩

/-- R41: conversion to a weight: clamp, then round × 32,768. -/
def toWt (rm : RM) (v : Val) : Nat × Fl :=
  match v with
  | .nan _ => (0, flNV)
  | .inf n => (if n then 0 else 0x8000, flNone)
  | .fin q =>
    if q.neg || q.num == 0 then (0, if q.num == 0 && q.sticky && !q.neg then flNX else flNone)
    else if q.den ≤ q.num then (0x8000, flNone)
    else
      let (n, x) := roundNat rm false (q.num * 32768) q.den q.sticky
      (n, if x then flNX else flNone)

/-! ### Any element type -/

/-- R36: a type's code in its register element; unused high bits are ignored. -/
def codeOf (et : ET) (raw : Nat) : Nat := raw % (1 <<< et.bits)

/-- The value of a code, and NV for the reserved T2 code. A signalling NaN carries its mark in the value. -/
def valOf (et : ET) (raw : Nat) : Val × Fl :=
  let c := codeOf et raw
  match et.cls with
  | .float => (decFloat (fmtOf et) c, flNone)
  | .weight => (.fin (wtVal c), flNone)
  | _ =>
    let (i, r) := decInt et c
    (.fin (qInt i), if r then flNV else flNone)

/-- A value rounded or converted into a type (R41, R45 to R47). The NV of a signalling source is the caller's. -/
def encVal (et : ET) (sat : Bool) (rm : RM) (v : Val) : Nat × Fl :=
  match et.cls with
  | .weight => toWt rm v
  | .int => toIntType et rm v
  | _ => encFloat et sat rm v

/-! ### Arithmetic on values (R51, R141): the exact result and NV, DZ -/

def vAdd (rdn : Bool) (a b : Val) : Val × Fl :=
  let s := sigFl a ||| sigFl b
  match a, b with
  | .nan _, _ => (.nan false, s)
  | _, .nan _ => (.nan false, s)
  | .inf x, .inf y => if x == y then (.inf x, s) else (.nan false, flNV)
  | .inf x, .fin _ => (.inf x, s)
  | .fin _, .inf y => (.inf y, s)
  | .fin p, .fin q => (.fin (qAdd rdn p q), s)

def vSub (rdn : Bool) (a b : Val) : Val × Fl := vAdd rdn a (vNeg b)

def vMul (a b : Val) : Val × Fl :=
  let s := sigFl a ||| sigFl b
  match a, b with
  | .nan _, _ => (.nan false, s)
  | _, .nan _ => (.nan false, s)
  | .inf x, .inf y => (.inf (x != y), s)
  | .inf x, .fin q => if qIsZero q then (.nan false, flNV) else (.inf (x != q.neg), s)
  | .fin q, .inf x => if qIsZero q then (.nan false, flNV) else (.inf (x != q.neg), s)
  | .fin p, .fin q => (.fin (qMul p q), s)

def vDiv (a b : Val) : Val × Fl :=
  let s := sigFl a ||| sigFl b
  match a, b with
  | .nan _, _ => (.nan false, s)
  | _, .nan _ => (.nan false, s)
  | .inf _, .inf _ => (.nan false, flNV)
  | .inf x, .fin q => (.inf (x != q.neg), s)
  | .fin p, .inf y => (.fin (qZero (p.neg != y)), s)
  | .fin p, .fin q =>
    if qIsZero q then
      if qIsZero p then (.nan false, flNV) else (.inf (p.neg != q.neg), flDZ)
    else (.fin (qDiv p q), s)

/-- a × b + c with one exact sum. 0 × ∞ raises NV whatever the addend (R51). -/
def vFma (rdn : Bool) (a b c : Val) : Val × Fl :=
  let (p, f) := vMul a b
  let (r, g) := vAdd rdn p c
  (r, f ||| g)

/-- Integer square root by bits from 2^k down. -/
def isqrtGo (n : Nat) : Nat → Nat → Nat
  | 0, r => r
  | k + 1, r =>
    let r' := r + (1 <<< k)
    isqrtGo n k (if r' * r' ≤ n then r' else r)
def isqrt (n : Nat) : Nat := isqrtGo n (Nat.log2 n / 2 + 1) 0

/-- The square root of num / den: exact where it is rational, else its leading bits and a sticky part. -/
def qSqrt (num den : Nat) : Q :=
  let n := num * den * (1 <<< 720)
  let r := isqrt n
  ⟨false, r, den * (1 <<< 360), r * r != n⟩

def vSqrt (a : Val) : Val × Fl :=
  match a with
  | .nan s => (.nan false, if s then flNV else flNone)
  | .inf n => if n then (.nan false, flNV) else (.inf false, flNone)
  | .fin q =>
    if qIsZero q then (a, flNone) else if q.neg then (.nan false, flNV) else (.fin (qSqrt q.num q.den), flNone)

def vRsqrt (a : Val) : Val × Fl :=
  match a with
  | .nan s => (.nan false, if s then flNV else flNone)
  | .inf n => if n then (.nan false, flNV) else (.fin (qZero false), flNone)
  | .fin q =>
    if qIsZero q then (.inf q.neg, flDZ) else if q.neg then (.nan false, flNV)
    else (.fin (qSqrt q.den q.num), flNone)

def vRcp (a : Val) : Val × Fl := vDiv (.fin (qInt 1)) a

/-! ### 2^a and log₂ a, to 352 bits with a sticky part -/

/-- ⌊ln 2 × 2^384⌋. -/
def ln2Fix : Nat := 0xb17217f7d1cf79abc9e3b39803f2f6af40f343267298b62d8a0d175b8baafa2be7b876206debac98559552fb4afa1b10

/-- Σ t^k / k! in units of 2^-384, `n` terms from the term `x` of index `k`. -/
def expGo (t : Nat) : Nat → Nat → Nat → Nat → Nat
  | 0, _, _, acc => acc
  | n + 1, k, x, acc => expGo t n (k + 1) (x * t / (1 <<< 384) / (k + 1)) (acc + x)

/-- 2^f for f = num / den in [0, 1), in units of 2^-352, rounded down. -/
def exp2Frac (num den : Nat) : Nat :=
  let t := num * ln2Fix / den
  expGo t 96 0 (1 <<< 384) 0 >>> 32

def vExp2 (a : Val) : Val × Fl :=
  match a with
  | .nan s => (.nan false, if s then flNV else flNone)
  | .inf n => (if n then .fin (qZero false) else .inf false, flNone)
  | .fin q =>
    let fl := q.num / q.den
    let r := q.num % q.den
    -- a = n + r' / den with n the floor
    let n : Int := if q.neg then (if r == 0 then -(fl : Int) else -(fl : Int) - 1) else fl
    let r' := if q.neg && r != 0 then q.den - r else r
    let n := max (-4000) (min 4000 n)
    if r' == 0 then (.fin (qDyad false 1 n), flNone)
    else (.fin { qScale ⟨false, exp2Frac r' q.den, 1 <<< 352, false⟩ n with sticky := true }, flNone)

/-- Σ y^(2k+1) / (2k+1) in units of 2^-384. -/
def atanhGo (y2 : Nat) : Nat → Nat → Nat → Nat → Nat
  | 0, _, _, acc => acc
  | n + 1, k, x, acc => atanhGo y2 n (k + 2) (x * y2 / (1 <<< 384)) (acc + x / k)

/-- log₂ m for m = num / den in [1, 2), in units of 2^-352, rounded down. -/
def log2Frac (num den : Nat) : Nat :=
  let y := ((num - den) <<< 384) / (num + den)
  let ln := 2 * atanhGo (y * y / (1 <<< 384)) 128 1 y 0
  ((ln <<< 384) / ln2Fix) >>> 32

def vLog2 (a : Val) : Val × Fl :=
  match a with
  | .nan s => (.nan false, if s then flNV else flNone)
  | .inf n => if n then (.nan false, flNV) else (.inf false, flNone)
  | .fin q =>
    if qIsZero q then (.inf true, flDZ)
    else if q.neg then (.nan false, flNV)
    else
      let e := qExp q
      let m := qScale q (-e)
      if m.num == m.den then (.fin (qInt e), flNone)
      else
        let g := log2Frac m.num m.den
        if 0 ≤ e then (.fin ⟨false, (e.toNat <<< 352) + g, 1 <<< 352, true⟩, flNone)
        else (.fin ⟨true, ((-e).toNat <<< 352) - g - 1, 1 <<< 352, true⟩, flNone)

/-! ### Comparison, minimum, maximum, class (R68, R112) -/

/-- −1, 0, 1; none when unordered. -/
def vCmp (a b : Val) : Option Int :=
  match a, b with
  | .nan _, _ => none
  | _, .nan _ => none
  | .inf x, .inf y => some (if x == y then 0 else if x then -1 else 1)
  | .inf x, .fin _ => some (if x then -1 else 1)
  | .fin _, .inf y => some (if y then 1 else -1)
  | .fin p, .fin q => some (qCmp p q)

/-- R68, for a comparison of values of one signedness; `none` is unordered. -/
def condHolds (c : Cond) (o : Option Int) : Bool :=
  match o with
  | none => c == .ne || c == .un
  | some x =>
    match c with
    | .eq => x == 0
    | .ne => x != 0
    | .lt | .ltu => decide (x < 0)
    | .ge | .geu => decide (0 ≤ x)
    | .le | .leu => decide (x ≤ 0)
    | .gt | .gtu => decide (0 < x)
    | .un => false
    | .ord => true

/-- The order of `fmin` and `fmax`: −0 is less than +0. -/
def vLess (a b : Val) : Bool :=
  match vCmp a b with
  | some x =>
    if x == 0 then
      match a, b with
      | .fin p, .fin q => p.neg && !q.neg
      | _, _ => false
    else decide (x < 0)
  | none => false

/-- R112: one NaN gives the other operand, two give the canonical NaN, a signalling one raises NV. -/
def vMinMax (isMax : Bool) (a b : Val) : Val × Fl :=
  let s := sigFl a ||| sigFl b
  if vIsNan a then (if vIsNan b then .nan false else b, s)
  else if vIsNan b then (a, s)
  else if isMax then (if vLess a b then b else a, s)
  else (if vLess b a then b else a, s)

/-- R112: the mask of `fclass`. -/
def classMask (f : Fmt) (v : Val) : Nat :=
  match v with
  | .nan s => if s then 256 else 512
  | .inf n => if n then 1 else 128
  | .fin q =>
    if qIsZero q then (if q.neg then 8 else 16)
    else if qExp q < f.emin then (if q.neg then 4 else 32)
    else (if q.neg then 2 else 64)

/-! ### The weighted sum of R165 -/

/-- e × f + (1 − e) × d with e = c / 32,768, a term whose factor is 0 dropped. -/
def vBlend (rdn : Bool) (c : Nat) (f d : Val) : Val × Fl :=
  let c := wtRead c
  if c == 0x8000 then (if vIsNan f then .nan false else f, sigFl f)
  else if c == 0 then (if vIsNan d then .nan false else d, sigFl d)
  else
    let (x, fx) := vMul (.fin (wtVal c)) f
    let (y, fy) := vMul (.fin (wtVal (0x8000 - c))) d
    let (r, g) := vAdd rdn x y
    (r, fx ||| fy ||| g)

/-! ### Error feedback (R48) -/

/-- One conversion under EFB of `x` with the residual `efr` (an F32 code): the delivered code, its flags, the exact value
that the code stands for, and the new residual. Log 41, DESIGN CHOICE: a difference t − y that is no F32 value (a B1
destination) is rounded to nearest even, and a zero residual is +0. -/
def efbStep (et : ET) (sat : Bool) (x : Val) (efr : Nat) : Nat × Fl × Nat :=
  let (s, f0) := vAdd false x (decFloat (fmtOf .f32) efr)
  let (tc, f1) := encFloat .f32 false .rne s
  let t := decFloat (fmtOf .f32) tc
  let (y, f2) := encVal et sat .rne t
  let r :=
    match t, (valOf et y).1 with
    | .fin p, .fin q => (encFloat .f32 false .rne (.fin (qAdd false p (qNeg q)))).1
    | _, _ => 0
  (y, f0 ||| f1 ||| f2, if r % 0x80000000 == 0 then 0 else r)

/-! ### Currant blocks (R42 to R44) -/

/-- M of R42. -/
def blockM : ET → Nat
  | .cb7 => 7
  | .cb4 => 4
  | _ => 2

/-- R42: the sixteen values of a block held as a little-endian number. -/
def blockVal (et : ET) (blk : Nat) (i : Nat) : Val :=
  let m := blockM et
  let e := blk % 256
  if e == 255 then .nan false
  else
    let sg := blk >>> (8 + 2 * (i / 4)) % 4
    let fld := blk >>> (16 + i * (m + 1)) % (1 <<< (m + 1))
    .fin (qDyad (fld / (1 <<< m) == 1) (fld % (1 <<< m)) ((e : Int) - 127 - sg - ((m : Int) - 1)))

/-- A block under construction: shared exponent, quarter shifts, elements. -/
structure BlockShape where
  nan : Bool
  e   : Nat
  sg  : List Nat
  deriving DecidableEq, Repr

def qMaxMag (xs : List Q) : Q := xs.foldl (fun a b => if qCmp { a with neg := false } { b with neg := false } < 0 then b else a) (qZero false)

/-- One element scaled to the step of shared exponent `e` and shift `d`, rounded: the magnitude. -/
def blockMag (m e d : Nat) (rm : RM) (q : Q) : Nat × Bool :=
  let s := qScale q ((m : Int) - 1 - ((e : Int) - 127 - d))
  roundNat rm s.neg s.num s.den s.sticky

/-- R43, steps 1 to 4, under a mode that is not EFB. -/
def blockShape (et : ET) (rm : RM) (xs : List Val) : BlockShape :=
  if xs.any (fun v => match v with | .fin _ => false | _ => true) then ⟨true, 255, []⟩
  else
    let qs := xs.map (fun v => match v with | .fin q => q | _ => qZero false)
    let mx := qMaxMag qs
    if mx.num == 0 then ⟨false, 0, [0, 0, 0, 0]⟩
    else
      let m := blockM et
      let e0 := (qExp mx + 127).toNat
      let e := if qs.any (fun q => (blockMag m e0 0 rm q).1 == 1 <<< m) && e0 < 254 then e0 + 1 else e0
      let fits (g d : Nat) : Bool := ((qs.drop (4 * g)).take 4).all (fun q => (blockMag m e d rm q).1 < 1 <<< m)
      let shift (g : Nat) : Nat := if fits g 3 then 3 else if fits g 2 then 2 else if fits g 1 then 1 else 0
      ⟨false, e, [shift 0, shift 1, shift 2, shift 3]⟩

/-- R43, steps 5 and 6, one element: its field, its flags. -/
def blockElem (et : ET) (sh : BlockShape) (rm : RM) (i : Nat) (q : Q) : Nat × Fl :=
  let m := blockM et
  let (n, x) := blockMag m sh.e (sh.sg.getD (i / 4) 0) rm q
  let mag := Nat.min n ((1 <<< m) - 1)
  (mag + (if q.neg then 1 <<< m else 0),
    (if x || n != mag then flNX else flNone) ||| (if mag == 0 && !qIsZero q then flUF else flNone) |||
      (if n != mag then flOF else flNone))

/-- The block's bytes as a number. -/
def blockCode (et : ET) (sh : BlockShape) (fields : List Nat) : Nat :=
  if sh.nan then 255
  else
    let sgs := (sh.sg.zipIdx).foldl (fun a (s, g) => a + (s <<< (2 * g))) 0
    (fields.zipIdx).foldl (fun a (f, i) => a + (f <<< (16 + i * (blockM et + 1)))) (sh.e + (sgs <<< 8))

/-- R43 under a mode that is not EFB: the block and each element's flags. -/
def packBlock (et : ET) (rm : RM) (xs : List Val) : Nat × List Fl :=
  let sh := blockShape et rm xs
  if sh.nan then (255, xs.map (fun v => match v with | .fin _ => flNone | _ => flNV))
  else
    let fs := xs.zipIdx.map (fun (v, i) => match v with | .fin q => blockElem et sh rm i q | _ => (0, flNone))
    (blockCode et sh (fs.map (·.1)), fs.map (·.2))

/-- R48 on a block: elements in order; `live` marks those that read and change the residual. Gives the block, each
element's flags, and the residual. -/
def packBlockEfbGo (et : ET) (sh : BlockShape) : List (Val × Bool) → Nat → Nat → List Nat → List Fl → Bool →
    List Nat × List Fl × Nat × Bool
  | [], _, efr, fs, gs, nan => (fs.reverse, gs.reverse, efr, nan)
  | (v, live) :: rest, i, efr, fs, gs, nan =>
    if !live then packBlockEfbGo et sh rest (i + 1) efr (0 :: fs) (flNone :: gs) nan
    else
      let m := blockM et
      let (s, f0) := vAdd false v (decFloat (fmtOf .f32) efr)
      let (tc, f1) := encFloat .f32 false .rne s
      match decFloat (fmtOf .f32) tc with
      | .nan _ => ((0 :: fs).reverse, ((f0 ||| f1 ||| flNV) :: gs).reverse ++ rest.map (fun _ => flNone), 0, true)
      | .inf n =>
        packBlockEfbGo et sh rest (i + 1) 0 (((1 <<< m) - 1 + (if n then 1 <<< m else 0)) :: fs)
          ((f0 ||| f1 ||| flOF ||| flNX) :: gs) nan
      | .fin q =>
        let (fld, f2) := blockElem et sh .rne i q
        let y := qDyad (fld / (1 <<< m) == 1) (fld % (1 <<< m)) ((sh.e : Int) - 127 - (sh.sg.getD (i / 4) 0 : Nat) - ((m : Int) - 1))
        let r := (encFloat .f32 false .rne (.fin (qAdd false q (qNeg y)))).1
        packBlockEfbGo et sh rest (i + 1) (if r % 0x80000000 == 0 then 0 else r) (fld :: fs) ((f0 ||| f1 ||| f2) :: gs) nan

def packBlockEfb (et : ET) (xs : List (Val × Bool)) (efr : Nat) : Nat × List Fl × Nat :=
  let sh := blockShape et .rne (xs.map (·.1))
  if sh.nan then (255, xs.map (fun (v, _) => match v with | .fin _ => flNone | _ => flNV), efr)
  else if xs.all (fun (v, _) => vIsZero v) then
    (blockCode et sh (xs.map (fun (v, _) => match v with | .fin q => if q.neg then 1 <<< blockM et else 0 | _ => 0)),
      xs.map (fun _ => flNone), efr)
  else
    let (fs, gs, r, nan) := packBlockEfbGo et sh xs 0 efr [] [] false
    (if nan then 255 else blockCode et sh fs, gs, r)

end Sys2Proof.Machine
end

