-- ==== Sys2Proof/Machine/State.lean ====
section
/-! DEFINITION. The state of the machine, as plain data: one hart in front (whose turn it is), the other harts, memory,
the device's registers and structures, and the agenda that says which agent moves next; why a step can stop; and the
state after reset. INVENTORY.md lists each field with its rule. -/

namespace Sys2Proof.Machine

/-- Memory: (address, byte) pairs in canonical form: addresses strictly rising, no entry equal to 0, which is what an
unlisted address reads as (log 2, DESIGN CHOICE). One numbering covers every store of the device and the memories it reaches (Ops). -/
abbrev Memory := List Host.Cell

/-- A table by number; an unlisted number holds the default its reader names. -/
abbrev Tab (α : Type) := List (Nat × α)

/-- A vector register's byte image as one number, byte 0 lowest (R19). -/
abbrev VImage := BitVec 196608
/-- A weight register, arm vector or saved ambient weight: code of element i at bits 16i (R24). -/
abbrev WImage := BitVec 393216

/-- R335. -/
inductive Mode where
  | U | S
  deriving DecidableEq, Repr

/-- Why a hart is parked or stalled (R210, R297, R303, R347). -/
inductive Park where
  | farm | wfi | hexit
  /-- a `waiteq` on a word that held this value (R242) -/
  | waiteq (ea v : Word)
  /-- a `bar` on the word at that address (R219) -/
  | bar (ea : Word)
  /-- a `dwait` on the word at that address of a space (R323) -/
  | dwait (sp : Space) (a : Word)
  /-- a send waiting for a slot of the ring at that place (R392) -/
  | sendSlot (place : Nat)
  /-- a send waiting on a saved-out place (R393) -/
  | sendPlace (place : Nat)
  /-- a send waiting for the acknowledgement of another device's core (R392) -/
  | sendAck (place : Nat)
  /-- a stall on a token, a range, a full interlock table, or a `slab` give (R297, R302, R303, R249) -/
  | stall
  deriving DecidableEq, Repr

inductive Run where
  | absent | running | parked (p : Park) | ended
  deriving DecidableEq, Repr

/-- One loop level (R120). -/
structure Level where
  act    : Bool
  count  : Word
  top    : Word
  tail   : Word          -- END
  stages : BitVec 4
  cw     : BitVec 5
  rot    : Bool
  epi    : BitVec 3
  asp    : BitVec 4
  saved  : WImage
  deriving DecidableEq, Repr

/-- One arm-stack entry (R174). -/
structure Arm where
  sa : WImage
  sc : WImage
  deriving DecidableEq, Repr

/-- R309. -/
structure MatCfg where
  m  : Nat
  n  : Nat
  k  : BitVec 32
  sa : BitVec 32
  sb : BitVec 32
  ta : Bool
  tb : Bool
  deriving DecidableEq, Repr

/-- R315. -/
structure Fibre where
  opened : Bool
  code   : BitVec 2
  space  : Space
  pos    : BitVec 32
  base   : Word
  count  : BitVec 32
  cursor : BitVec 32
  soff   : Word
  deriving DecidableEq, Repr

/-- A range of an interlock entry, normalised (R302): `key` 0 a virtual range of G, 1 a scratchpad, 2 an accumulator
store, 3 a place of the on-chip map by its address; bytes lo to hi; `wr` for the marks W and RW. -/
structure Range where
  key : Nat
  lo  : Nat
  hi  : Nat
  wr  : Bool
  deriving DecidableEq, Repr

/-- STATE of R345. -/
inductive CmdSt where
  | notBegun | running | suspended | ended
  deriving DecidableEq, Repr

/-- The place of a hart and its grants, by which addresses of spaces L, C, X and N reach one location (R302). -/
structure Home where
  gid   : Nat
  slabs : List Nat
  tiles : List Nat
  deriving DecidableEq, Repr

/-- An accepted engine command: its progress record and interlock entry (R296 to R305, R345). -/
structure Cmd where
  entry   : Nat
  instr   : Instr
  pc      : Word
  bankS   : Bool            -- mode in force at issue (R297)
  unit    : Nat
  ops     : List Word       -- A, A+1, B, B+1, C, C+1 at issue
  cfg     : MatCfg
  st      : CmdSt
  status  : Nat
  flags   : Fl
  efr     : BitVec 32
  efrUsed : Bool
  faultVa : Word
  stamp   : BitVec 32       -- STAMP at issue (R343)
  ranges  : List Range
  home    : Home            -- of its hart at issue: there the order of a copy is decided (R307)
  count   : Nat             -- result so far
  ord     : Nat             -- place in the hart's order of acceptance (R339)
  acc     : Nat             -- clk of its acceptance by the engine (R314)
  rm      : RM              -- the rounding mode in force at issue
  conv    : List Nat        -- converted A of `mmulc`; the register of `mout`
  walk    : List (BitVec 128)  -- walk stack of `pout`
  deriving DecidableEq, Repr

/-- A decoded strip of a bound stream (R267): its element codes, the flags of decoding, and a fault that ended it
(cause, address, subcause). -/
structure Strip where
  elems : List Nat
  fl    : Fl
  fault : Option (Nat × Word × Nat)
  deriving DecidableEq, Repr

/-- A stream binding (R265 to R269): register, block address and its fields, strip size, stream elements popped. -/
structure Binding where
  reg    : Nat
  et     : ET
  block  : Word
  base   : Word
  index  : Word
  stride : Word
  scale  : Word
  count  : Word
  ctl    : Word
  strip  : Nat
  popped : Nat
  queue  : List Strip
  deriving DecidableEq, Repr

/-- A trap that waits for a boundary (R339): code, STVAL, STVAL2, E, OVF, and for one that a command has left, that command. -/
structure Pend where
  code : Nat
  val  : Word
  val2 : Word
  e    : Bool
  ovf  : Bool
  ord  : Nat                -- of its command in the order of acceptance
  cmd  : Option Cmd := none
  deriving DecidableEq, Repr

/-- A running `replay` (R358): its destination and its own PC. -/
structure Frame where
  rd : Reg
  pc : Word
  deriving DecidableEq, Repr

/-- A `vsend` that has begun and not retired (R392): the VSTART and clk of its issue, its faulting elements with their
subcauses, newest first, the instruction, which is not fetched again, and whether the next slot issues with it (R59). -/
structure Sending where
  start  : Nat
  at_    : Nat
  faults : List (Nat × Word × Nat)
  instr  : Instr
  mate   : Bool
  deriving DecidableEq, Repr

/-- The pending wait of a `bar` whose arrival was made (R219): ea, P, and whether its scope is .f. -/
structure BarWait where
  ea    : Word
  phase : BitVec 16
  farm  : Bool
  deriving DecidableEq, Repr

/-- Everything one hart holds (R7, R10, R335, R336 and the rules INVENTORY names). -/
structure Hart where
  -- place, share, record
  gid      : Nat                -- die × 192 + core × 8 + hart
  run      : Run
  clusters : Nat
  lanes    : Nat                -- lanes that hold its registers: the live ones, but for one retired since its last `setvl` (R373)
  slabs    : List Nat           -- physical slabs of the core, in slab order
  tiles    : List Nat
  record   : Nat
  member   : Nat
  -- issue
  pc       : Word
  xfer     : Option Word        -- PC of the slot whose transfer is landing (R18)
  second   : Bool               -- the next slot issues as the second of a pair (R59)
  stop     : Option Nat         -- a pre-emption, with the element group at which it arrives (R347)
  pause    : Option Nat         -- the element group at which a lane was retired (R373)
  issued   : Nat                -- clk of its last issue (R210)
  replay   : Option Frame
  fmrun    : Bool               -- the next instruction runs under FMASK alone (R344)
  ending   : Option (BitVec 8)  -- a double trap ends the hart with this status once its commands end (R341)
  mode     : Mode
  -- registers
  x        : Vector Word 64
  sx       : Vector Word 4      -- S bank, x1 to x4
  v        : Vector VImage 64
  dead     : BitVec 64
  opened   : BitVec 64          -- register windows
  w        : Vector WImage 24
  loops    : Vector Level 4
  arms     : Vector Arm 8
  -- control registers (R10)
  vl       : Nat
  vlcap    : Nat
  vstart   : Nat
  ffi      : Nat
  theta    : BitVec 16
  floor    : BitVec 16
  rmode    : BitVec 3
  efr      : BitVec 32
  space    : BitVec 3
  cbase    : BitVec 4
  armsp    : Nat
  linkpc   : Word
  flags    : Word
  fenable  : Word
  fmask    : BitVec 24576
  -- supervisor registers (R336)
  sstatus  : Word
  svec     : Word
  sepc     : Word
  scause   : Word
  stval    : Word
  stval2   : Word
  sscratch : Vector Word 4
  ctxroot  : Word
  walkroot : Word               -- the CTXROOT in force for walks (R336, R359)
  ctxid    : BitVec 16
  sie      : Word
  sip      : Word
  ringctl  : Word
  ringpos  : BitVec 32
  ringsince : Nat               -- ring entries written since RINGCTL.EN was last set (R360)
  svstart  : Nat
  ring     : List (BitVec 256)  -- retire trace, newest first (R351)
  -- engines, streams, farms, barriers
  mat      : MatCfg
  fibres   : Vector Fibre 8
  binds    : List Binding
  cmds     : List Cmd           -- in order of acceptance
  fgen     : BitVec 16
  barWord  : Option Word        -- word of the last `bar` (R220)
  barWait  : List BarWait       -- pending waits, the newest first
  sending  : Option Sending
  pend     : List Pend
  deriving DecidableEq, Repr

/-- A fault record (R343), with the place of its hart. -/
structure Frq where
  pc     : Word
  va     : Word
  elem   : BitVec 32
  weight : BitVec 16
  kind   : Nat
  cause  : Nat
  gid    : Nat
  ovf    : Bool
  seq    : BitVec 32
  deriving DecidableEq, Repr

/-- One queue (R193 to R195). -/
structure Queue where
  base      : Word
  context   : BitVec 16
  vector    : BitVec 8
  home      : Nat
  switching : Bool
  active    : Bool
  err       : Bool
  ien       : Bool
  devfed    : Bool
  preempt   : Bool
  en        : Bool
  log2n     : BitVec 5
  tail      : BitVec 32
  shadow    : BitVec 32
  head      : BitVec 32
  prog      : BitVec 32
  finished  : List (BitVec 32)   -- completed records past the prefix (R196)
  lastStart : Nat                -- clk of its last start (R202)
  deriving DecidableEq, Repr

/-- A stopped member's context as it lies in the DRAM that the ringmaster reserves (R348, R349): its bytes, and what its
ringmaster keeps beside it: the place it left, what it needs to be placed again, its pending barrier waits, its FGEN, and
whether the place's last hart is still this one (R393). -/
structure Saved where
  gid      : Nat
  member   : Nat
  ctx      : BitVec 16
  clusters : Nat
  lanes    : Nat
  slabs    : Nat
  tiles    : Nat
  waits    : List BarWait
  fgen     : BitVec 16
  last     : Bool
  size     : Nat
  bits     : Nat
  deriving DecidableEq, Repr

/-- Where a record that has been read from its queue stands: at the head of its ring, held, running, on a resume list,
completing (R195, R205 to R209, R369). -/
inductive Where where
  | head | held | running | resume | completing
  deriving DecidableEq, Repr

/-- Why the members of a record are being stopped (R206, R207, R367). -/
inductive Stopping where
  | budget | preempt | pack
  deriving DecidableEq, Repr

/-- A record taken from a queue (R198, R215, R369). -/
structure Rec where
  id       : Nat
  words    : Vector Word 8
  queue    : Nat
  ctx      : BitVec 16         -- CONTEXT of its queue when it was read
  ringIdx  : BitVec 32
  home     : Nat
  at_      : Where
  prio     : Nat               -- effective priority when selected (R204)
  started  : Nat               -- clk at which its members started or resumed
  counted  : Nat               -- clk from which BUDGET counts (R206)
  budget   : Nat               -- clk that the current run may last
  set      : BitVec 16
  total    : Word
  next     : Word
  done     : Word
  places   : List Nat          -- gid of each member still running, by member
  ended    : Nat               -- members already ended
  exitor   : BitVec 8          -- status bytes ORed so far
  killed   : Bool              -- a member was ended by an S-mode `hexit`
  refused  : Option Nat        -- refusal cause
  stopping : Option Stopping
  saved    : List Saved
  deriving DecidableEq, Repr

/-- One ringmaster (R202 to R208). -/
structure Master where
  resume   : List Nat          -- record ids, oldest first
  held     : Option Nat
  reserved : Option Nat        -- the held record for which this die has reserved its resources (R205)
  served   : List (Nat × Nat)  -- last source served at each priority
  ready    : List (Nat × Nat)  -- source, and the clk since which it is a ready candidate
  preloads : List (Nat × Nat × List Nat)   -- core, record id, reserved slabs
  rr       : Nat               -- last queue switched in
  selAt    : Nat               -- clk of the last selection
  rotAt    : Nat               -- clk of the last rotation
  deriving DecidableEq, Repr

/-- One line of a pip region (R273 to R277). -/
structure PLine where
  pip   : BitVec 128
  inner : Bool
  data  : BitVec 1024
  count : Nat
  deriving DecidableEq, Repr

/-- One pip region (R271, R278, R370). -/
structure Region where
  key      : BitVec 256
  context  : BitVec 16
  quota    : BitVec 28
  home     : Nat
  en       : Bool
  collides : BitVec 32
  lines    : List PLine
  pending  : List (BitVec 128)   -- decrements of a cascade still to be made
  staged   : List PLine
  deriving DecidableEq, Repr

/-- One event counter (R380). -/
structure Ctr where
  cnt   : BitVec 48
  harts : BitVec 8
  ovf   : Bool
  int   : Bool
  en    : Bool
  event : BitVec 6
  deriving DecidableEq, Repr

/-- One Midway port (R396, R397): registers, sequence number, credits, flits sent and not acknowledged, flits not sent. -/
structure Port where
  en      : Bool
  peer    : BitVec 10
  replays : BitVec 32
  lanes   : Nat
  macfail : Bool
  up      : Bool
  seq     : BitVec 16
  credits : Nat
  owed    : Nat                  -- receive credits to return to the far end
  unacked : List (Nat × Flit)    -- KIND and flit, oldest first
  flying  : List (BitVec 16)     -- SEQ of the flits sent whose credits have not come back, oldest first
  waiting : List (Nat × Flit)    -- flits that wait for a credit, oldest first
  deriving DecidableEq, Repr

/-- A translation entry (R261, R262): core, context, page size code, page number, leaf, fragment's written state. -/
structure Tlb where
  core  : Nat
  ctx   : BitVec 16
  size  : Nat
  page  : Nat
  leaf  : Word
  leafAt : Nat
  dirty : List Nat           -- 64 KiB chunks written through this entry
  deriving DecidableEq, Repr

/-- A core's record that a context's 64 KiB page has no translation (R384). -/
structure Absence where
  core : Nat
  ctx  : BitVec 16
  page : Nat
  deriving DecidableEq, Repr

/-- A line of a core's fetch buffer (R256). -/
structure FLine where
  core : Nat
  addr : Nat
  bits : BitVec 512
  deriving DecidableEq, Repr

/-- An array-log or bus-log record (R376). -/
structure LogRec where
  stamp  : Word
  off    : Nat
  bytes  : List Nat
  kind   : Nat
  lane   : Nat
  count  : Nat
  deriving DecidableEq, Repr

/-- What leaves the device: host read data, MSI-X vectors, flits, SPDM and management responses. -/
inductive Out where
  | bytes (bs : List Byte)
  | word (w : Word)
  | msix (v : BitVec 8)
  | flit (port kind : Nat) (f : Flit)
  | resp (code : Nat) (bs : List Byte)
  | bootfail
  deriving DecidableEq, Repr

/-- The context command block (R364). -/
structure CtxCmd where
  context : BitVec 16
  region  : BitVec 8
  status  : BitVec 8
  busy    : Bool
  hmem    : Bool
  op      : BitVec 4
  caddr   : Word
  csize   : Word
  cqmask  : Word
  cbmap   : Word
  migkey  : Option (BitVec 256)
  qctls   : List (Nat × Word)   -- QCTL of the queues being packed, as it stood before (R369)
  deriving DecidableEq, Repr

/-- The device outside its harts and memory. -/
structure Dev where
  devid     : BitVec 10
  lock      : Bool
  ready     : Bool
  pcap      : BitVec 16
  throt     : Bool
  cur       : BitVec 2
  req       : BitVec 2
  ctxtab    : Word
  queues    : Tab Queue
  recs      : List Rec
  nextRec   : Nat
  masters   : Vector Master 4
  frq       : Vector (List Frq) 4
  tlb       : List Tlb
  absent    : List Absence
  walks     : List Nat            -- places of the harts whose walks of this step are still to be counted (R381)
  fetch     : List FLine
  pscfg     : Vector Word 4
  regions   : Tab Region
  cc        : CtxCmd
  tracked   : List (BitVec 16)
  coreCtrs  : Tab Ctr
  dieCtrs   : Tab Ctr
  matCur    : Tab Nat             -- the hart whose command the matrix engine of a core performed last (R314)
  coreTurn  : Tab Nat             -- the clk of the last turn of a core with a choice of harts (R210, log 5)
  ports     : Tab Port
  routes    : Tab (BitVec 16)
  stranded  : List (Nat × Flit)   -- KIND and flit of those whose device has no route now, oldest first
  retired   : List Nat            -- lane repair map: global lane numbers (R373)
  hard      : List (Nat × Nat)    -- hard errors: lane, clk
  alog      : Vector (List LogRec) 4
  blog      : Vector (List LogRec) 4
  swapped   : List (Nat × Nat × Nat × Nat)   -- die, channel, group, lane
  grpFails  : List (Nat × Nat × Nat × Nat)   -- die, channel, group, failed units
  recent    : List (Nat × Nat × Nat × Nat)   -- die, channel, group, clk of a failing unit (R375)
  diag      : List (Nat × Nat × Nat × Nat)   -- die, channel, group, unit offset under diagnosis (R375)
  fixes     : List (Nat × Nat)    -- array word, corrections there since cold reset (R376)
  tallies   : Tab Nat             -- DRAM_CORRECTED, BUS_RETRIES, LANE_SWAPS of a die, at 64 × die + event (R381, R405)
  poison    : List (Nat × Nat)    -- first byte and length of each word whose reads are uncorrectable: 8 bytes of an on-chip store (R372), an array word of 32 (R374), a unit of 256 (R375)
  alarm     : BitVec 8
  alarmLast : BitVec 8
  holding   : Bool                -- an alarm holds every die in reset
  slot      : Nat                 -- firmware slot in use
  svn       : Nat
  fuse      : Nat
  fwDigest  : BitVec 384          -- digest of the firmware that booted (R378)
  commit    : Bool
  bootfail  : Bool
  spdm      : Nat                 -- phase: 0 none, 1 version, 2 capabilities, 3 algorithms, 4 keys exchanged, 5 session
  ide       : Bool
  sessKey   : Option (BitVec 256)
  sessAt    : Nat                 -- step of its KEY_EXCHANGE
  idKey     : BitVec 256
  saves     : List (Nat × BitVec 16)  -- places whose last hart is saved out, with its context (R393)
  packed    : List (BitVec 16 × Nat × Nat)  -- members in the last image written here of a context: place, STAMP of the save (R393)
  out       : List Out            -- newest first
  deriving DecidableEq, Repr

/-- Steps of the environment that no rule orders. -/
inductive Env where
  /-- A translation entry is evicted (R261). -/
  | tlbEvict (n : Nat)
  /-- The core of the hart at a place finds no translation for an address and holds that (R384). -/
  | tlbAbsent (gid : Nat) (va : Word)
  /-- A held absence is dropped. -/
  | tlbAbsentDrop (n : Nat)
  /-- A line is fetched into a core's fetch buffer (R256). -/
  | fetchFill (core addr : Nat)
  /-- A line is dropped from a core's fetch buffer (R256). -/
  | fetchDrop (core addr : Nat)
  /-- A read of a register file finds a parity mismatch in a lane of the hart at a place, one that lasts past the
  write-back (`hard`), or two mismatches in one row (`two`), at element group `g` of the instruction in issue (R372). -/
  | rfError (gid lane : Nat) (hard two : Bool) (g : Nat)
  /-- A read of the array word at an address meets one bad symbol, or two (R374). -/
  | arrayError (addr layer bank sym : Nat) (two : Bool)
  /-- A word of a scratchpad or accumulator store meets an error wider than its code corrects (R372). -/
  | scratchError (addr : Nat)
  /-- A unit of a channel fails its parity in a group: the first failing beat, the attempts made, and whether the last
  one failed too (R375). -/
  | busError (addr grp beat tries : Nat) (failed : Bool)
  deriving DecidableEq, Repr

/-- One entry of the agenda: the hart at a place issues; another agent's step `i`, concerning the hart at a place; a
step of the environment (log 5, DESIGN CHOICE). -/
inductive Turn where
  | hart (gid : Nat)
  | event (gid : Nat) (i : Instr)
  | env (e : Env)
  deriving DecidableEq, Repr

structure State where
  h      : Hart
  others : List Hart
  mem    : Memory
  d      : Dev
  agenda : List Turn
  clk    : Nat
  steps  : Nat
  deriving DecidableEq, Repr

/-- Why the machine stops. -/
inductive Fault where
  /-- Raised by the meaning of a step of another agent (an event row of the opcode table) in a state where the spec
  gives that agent no such step. Safe: the hardware does not take that step there. -/
  | notEnabled
  deriving DecidableEq, Repr

/-- Why an instruction has no meaning. -/
inductive Refusal where
  /-- Raised by exec for an instruction without a meaning yet. Safe: nothing is claimed of it. -/
  | notModelled (mnemonic : String)
  deriving DecidableEq, Repr

/-! ### Reset -/

/-- 0x8000 in every element. -/
def wOnes : WImage := BitVec.ofNat 393216 ((List.range 15).foldl (fun a k => a + a <<< (16 <<< k)) 0x8000)

def Level.zero : Level :=
  { act := false, count := 0, top := 0, tail := 0, stages := 1, cw := 0, rot := false, epi := 0, asp := 0, saved := 0 }
def Arm.zero : Arm := { sa := 0, sc := 0 }
def MatCfg.zero : MatCfg := { m := 0, n := 0, k := 0, sa := 0, sb := 0, ta := false, tb := false }
def Fibre.closed : Fibre :=
  { opened := false, code := 0, space := .G, pos := 0, base := 0, count := 0, cursor := 0, soff := 0 }

/-- A hart's place with no hart: every register as a hart start leaves it (R7), with no share (log 1, DESIGN CHOICE). -/
def Hart.zero : Hart :=
  { gid := 0, run := .absent, clusters := 0, lanes := 0, slabs := [], tiles := [], record := 0, member := 0
    pc := 0, xfer := none, second := false, stop := none, pause := none, issued := 0, replay := none, fmrun := false
    ending := none, mode := .U
    x := Vector.replicate 64 0, sx := Vector.replicate 4 0, v := Vector.replicate 64 0, dead := 0, opened := 0
    w := (Vector.replicate 24 0).set 0 wOnes, loops := Vector.replicate 4 Level.zero, arms := Vector.replicate 8 Arm.zero
    vl := 0, vlcap := 0, vstart := 0, ffi := 0, theta := 0, floor := 0, rmode := 0, efr := 0, space := 0, cbase := 0
    armsp := 0, linkpc := 0, flags := 0, fenable := 0, fmask := 0, sstatus := 0, svec := 0, sepc := 0, scause := 0
    stval := 0, stval2 := 0, sscratch := Vector.replicate 4 0, ctxroot := 0, walkroot := 0, ctxid := 0, sie := 0, sip := 0
    ringctl := 0, ringpos := 0, ringsince := 0, svstart := 0, ring := [], mat := MatCfg.zero
    fibres := Vector.replicate 8 Fibre.closed, binds := [], cmds := [], fgen := 0, barWord := none, barWait := []
    sending := none, pend := [] }

def Queue.zero : Queue :=
  { base := 0, context := 0, vector := 0, home := 0, switching := false, active := false, err := false, ien := false
    devfed := false, preempt := false, en := false, log2n := 0, tail := 0, shadow := 0, head := 0, prog := 0
    finished := [], lastStart := 0 }
def Region.zero : Region :=
  { key := 0, context := 0, quota := 0, home := 0, en := false, collides := 0, lines := [], pending := [], staged := [] }
def Ctr.zero : Ctr := { cnt := 0, harts := 0, ovf := false, int := false, en := false, event := 0 }
def Port.zero : Port :=
  { en := false, peer := 0, replays := 0, lanes := 0, macfail := false, up := false, seq := 0, credits := 0, owed := 0
    unacked := [], flying := [], waiting := [] }
def Master.zero : Master :=
  { resume := [], held := none, reserved := none, served := [], ready := [], preloads := [], rr := 63, selAt := 0, rotAt := 0 }
def CtxCmd.zero : CtxCmd :=
  { context := 0, region := 0, status := 0, busy := false, hmem := false, op := 0, caddr := 0, csize := 0, cqmask := 0
    cbmap := 0, migkey := none, qctls := [] }

/-- The device after bring-up step 4 of R404, booted from slot A (log 4, DESIGN CHOICE). -/
def Dev.reset : Dev :=
  { devid := 0, lock := false, ready := true, pcap := 0, throt := false, cur := 0, req := 0, ctxtab := 0, queues := []
    recs := [], nextRec := 1, masters := Vector.replicate 4 Master.zero, frq := Vector.replicate 4 [], tlb := []
    absent := [], walks := []
    fetch := [], pscfg := Vector.replicate 4 0, regions := [], cc := CtxCmd.zero, tracked := [], coreCtrs := []
    dieCtrs := [], matCur := [], coreTurn := [], ports := [], routes := [], stranded := [], retired := [], hard := [], alog := Vector.replicate 4 []
    blog := Vector.replicate 4 [], swapped := [], grpFails := [], recent := [], diag := [], fixes := [], tallies := [], poison := [], alarm := 0, alarmLast := 0, holding := false, slot := 0
    svn := 0, fuse := 0, fwDigest := Config.firmwareDigest, commit := false, bootfail := false, spdm := 0, ide := false, sessKey := none
    sessAt := 0, idKey := Config.identityKey Config.fusedSeed
    saves := [], packed := [], out := [] }

/-- The machine right after a cold reset and bring-up: no hart, no record, memory with nothing listed. -/
def State.reset : State :=
  { h := Hart.zero, others := [], mem := [], d := Dev.reset, agenda := [], clk := 0, steps := 0 }

end Sys2Proof.Machine
end

