-- ==== Sys2Proof/Machine/Mem.lean ====
section
/-! DEFINITION. Memory as a canonical list of cells: bytes, little-endian units (R3), ranges, and the one numbering that
covers every store (R244, R251, R264, R389). -/

namespace Sys2Proof.Machine

/-- What an unlisted address reads as (log 2, DESIGN CHOICE). -/
def memDefault : Byte := 0

/-- The byte at an address. -/
def memGet : Memory → Nat → Byte
  | [], _ => memDefault
  | (k, b) :: t, a => if k = a then b else if a < k then memDefault else memGet t a

/-- Writing one byte; the default value leaves no entry. -/
def memSet : Memory → Nat → Byte → Memory
  | [], a, b => if b = memDefault then [] else [(a, b)]
  | (k, c) :: t, a, b =>
    if k = a then (if b = memDefault then t else (a, b) :: t)
    else if a < k then (if b = memDefault then (k, c) :: t else (a, b) :: (k, c) :: t)
    else (k, c) :: memSet t a b

/-- Every key is above `lo`, keys rise strictly, and no entry holds the default. -/
def memWfFrom : Option Nat → Memory → Bool
  | _, [] => true
  | lo, (k, b) :: t => (match lo with | none => true | some l => decide (l < k)) && b != memDefault && memWfFrom (some k) t

/-- The canonical form. -/
def Memory.wf (m : Memory) : Bool := memWfFrom none m

/-- `n` bytes at `a` as a number, little-endian. -/
def memRead (m : Memory) (a : Nat) : Nat → Nat
  | 0 => 0
  | n + 1 => (memGet m a).toNat + 256 * memRead m (a + 1) n

/-- The low `n` bytes of `v` at `a`, little-endian. -/
def memWrite (m : Memory) (a : Nat) : Nat → Nat → Memory
  | 0, _ => m
  | n + 1, v => memWrite (memSet m a (BitVec.ofNat 8 v)) (a + 1) n (v / 256)

/-- Zeroes every byte from `lo` to `lo + n - 1`. -/
def memClear (m : Memory) (lo n : Nat) : Memory := m.filter (fun c => !(decide (lo ≤ c.1) && decide (c.1 < lo + n)))

/-- The cells from `lo` to `lo + n - 1`, numbered from 0. -/
def memSlice (m : Memory) (lo n : Nat) : Memory :=
  (m.filter (fun c => decide (lo ≤ c.1) && decide (c.1 < lo + n))).map (fun c => (c.1 - lo, c.2))

/-- Writes cells numbered from 0 at `lo`. -/
def memPaste (m : Memory) (lo : Nat) (cells : Memory) : Memory := cells.foldl (fun m c => memSet m (lo + c.1) c.2) m

/-- A list of bytes at `a`. -/
def memPutBytes (m : Memory) (a : Nat) : List Byte → Memory
  | [] => m
  | b :: t => memPutBytes (memSet m a b) (a + 1) t

def memGetBytes (m : Memory) (a : Nat) : Nat → List Byte
  | 0 => []
  | n + 1 => memGet m a :: memGetBytes m (a + 1) n

/-! ### The numbering of the stores -/

/-- Device DRAM keeps its normal PA (R264), below 2^42. Host memory, a peer device's memory, the scratchpads and the
accumulator stores follow. -/
def hostBase : Nat := 2 ^ 52
def peerBase : Nat := 2 ^ 54
def scrBase : Nat := 2 ^ 55
def accBase : Nat := 2 ^ 56
/-- Byte `off` of the scratchpad of core `gc` of the device (0 to 95). -/
def scrAddr (gc off : Nat) : Nat := scrBase + gc * 2 ^ 23 + off
def accAddr (gc off : Nat) : Nat := accBase + gc * 2 ^ 19 + off

/-- R264: a normal physical address. -/
def normalPa (pa : Nat) : Bool := pa < 2 ^ 42 && pa % 2 ^ 40 < Config.dieBytes

/-- R272: the configured store of a die covers these DRAM offsets. -/
def storeRange (p : Word) : Nat × Nat :=
  let base := p.toNat / 2 ^ 30 % 256 * 2 ^ 30
  (base, base + p.toNat % 2 ^ 28 * 160)

/-- The bytes pa to pa + n - 1 of device DRAM touch a configured pip store; one of no lines has no bytes. -/
def inCarveOut (ps : Vector Word 4) (pa n : Nat) : Bool :=
  let (lo, hi) := storeRange (ps.toList.getD (pa / 2 ^ 40 % 4) 0)
  let o := pa % 2 ^ 40
  decide (lo < hi) && decide (o < hi) && decide (lo < o + n)

/-! ### Tables -/

def tabGet {α : Type} (t : Tab α) (k : Nat) (dflt : α) : α :=
  match t with
  | [] => dflt
  | (i, a) :: r => if i = k then a else tabGet r k dflt

def tabSet {α : Type} (t : Tab α) (k : Nat) (a : α) : Tab α :=
  match t with
  | [] => [(k, a)]
  | (i, b) :: r => if i = k then (k, a) :: r else (i, b) :: tabSet r k a

end Sys2Proof.Machine
end

