-- ==== Sys2Proof/Machine/Translate.lean ====
section
/-! DEFINITION. Addresses: the five spaces (R244, R245, R251, R252), the translation walk and its checks (R258 to R260),
translation entries, A, D and the dirty bitmap (R261, R262), and reads and writes at the place an address names. -/

namespace Sys2Proof.Machine

/-- What an access does, for the page-fault kind and the leaf's permissions. -/
inductive Acc where
  | load | store | fetch | pipR | pipW
  deriving DecidableEq, Repr

/-- A fault of an access: cause (R340), address, subcause. -/
structure Flt where
  code : Nat
  va   : Word
  sub  : Nat
  deriving DecidableEq, Repr

/-- A place that an address names: memory in the numbering of Mem, a register window, a control window. -/
inductive Loc where
  | mem (a : Nat)
  | vwin (gid reg byte : Nat)
  | wwin (gid reg byte : Nat)
  | ctl (gid off : Nat)
  deriving DecidableEq, Repr

def Acc.pageCode : Acc → Nat
  | .fetch => 7 | .load => 8 | .store => 9 | .pipR | .pipW => 10
def Acc.isPip : Acc → Bool
  | .pipR | .pipW => true
  | _ => false
def Acc.isWrite (a : Acc) : Bool := a == .store

/-! ### Places of harts -/

def coreOf (gid : Nat) : Nat := gid / 8
def dieOf (gid : Nat) : Nat := gid / 192
/-- Core within the die. -/
def coreInDie (gid : Nat) : Nat := gid / 8 % 24
def hartNo (gid : Nat) : Nat := gid % 8
/-- R386. -/
def nodeOf (devid : BitVec 10) (gid : Nat) : Nat :=
  devid.toNat * 1024 + dieOf gid * 256 + coreInDie gid * 8 + hartNo gid

def hartExists (h : Hart) : Bool :=
  match h.run with
  | .absent | .ended => false
  | _ => true

/-- The hart at a place, the one in front first. -/
def findHart (s : State) (gid : Nat) : Option Hart :=
  (s.h :: s.others).find? (fun h => h.gid == gid && hartExists h)

/-- Applies `f` to the hart at a place. -/
def mapHart (s : State) (gid : Nat) (f : Hart → Hart) : State :=
  { s with
    h := if s.h.gid == gid && hartExists s.h then f s.h else s.h
    others := s.others.map (fun h => if h.gid == gid && hartExists h then f h else h) }

/-! ### Page table entries (R259) -/

def pteV (e : Nat) : Bool := e % 2 == 1
def pteR (e : Nat) : Bool := e / 2 % 2 == 1
def pteW (e : Nat) : Bool := e / 4 % 2 == 1
def pteX (e : Nat) : Bool := e / 8 % 2 == 1
def pteA (e : Nat) : Bool := e / 16 % 2 == 1
def pteD (e : Nat) : Bool := e / 32 % 2 == 1
def ptePtr (e : Nat) : Bool := e / 2 % 8 == 0
def pteKind (e : Nat) : Nat := e / 2 ^ 58 % 4
def pteCache (e : Nat) : Nat := e / 2 ^ 56 % 4
def pteResv (e : Nat) : Bool := e / 2 ^ 60 != 0 || e / 2 ^ 52 % 16 != 0
/-- Bits [51:16] in place. -/
def ptePa (e : Nat) : Nat := e / 2 ^ 16 % 2 ^ 36 * 2 ^ 16

/-- R258: a table address that a walk may read. -/
def tableOk (ps : Vector Word 4) (a n : Nat) : Bool := normalPa a && !inCarveOut ps a n

/-- R372, R374: the `n` bytes at `a` touch an uncorrectable word. -/
def poisoned (bad : List (Nat × Nat)) (a n : Nat) : Bool := bad.any (fun w => decide (w.1 < a + n) && decide (a < w.1 + w.2))

/-- The index and table size of a level. -/
def levelIdx (va l : Nat) : Nat := if l == 0 then va / 2 ^ 16 % 32 else va / 2 ^ (12 + 9 * l) % 512
def levelBytes (l : Nat) : Nat := if l == 0 then 256 else 4096

/-- Why a walk ends without a leaf: not valid, or malformed. -/
inductive WalkErr where
  | notValid | malformed
  deriving DecidableEq, Repr

/-- A leaf found by a walk: its word, its address, its level. -/
structure Leaf where
  word : Nat
  at_  : Nat
  lvl  : Nat
  deriving DecidableEq, Repr

/-- R260, check 2, on a leaf at a level. -/
def leafOk (e l : Nat) : Bool :=
  !pteResv e && e / 64 % 1024 == 0 && pteCache e != 3 && !(pteW e && !pteR e) && decide (l ≤ 2) &&
    ptePa e % (if l == 0 then 2 ^ 16 else 2 ^ (12 + 9 * l)) == 0 && (pteKind e != 0 || normalPa (ptePa e))

/-- R260, check 2, on a pointer at a level. -/
def ptrOk (e l : Nat) : Bool :=
  !pteResv e && e / 64 % 4 == 0 && !pteA e && !pteD e && pteKind e == 0 && pteCache e == 0 && l != 0 &&
    (l == 1 || e / 256 % 16 == 0)

/-- R258: the walk from level `l` at a table; an entry that cannot be corrected is as a malformed one (R374). -/
def walkFrom (m : Memory) (ps : Vector Word 4) (bad : List (Nat × Nat)) (va : Nat) : Nat → Nat → Except WalkErr Leaf
  | l, table =>
    let a := table + 8 * levelIdx va l
    if !tableOk ps table (levelBytes l) || poisoned bad a 8 then .error .malformed
    else
      let e := memRead m a 8
      if !pteV e then .error .notValid
      else if ptePtr e then
        if !ptrOk e l then .error .malformed
        else match l with
          | 0 => .error .malformed
          | l' + 1 => walkFrom m ps bad va l' (e / 256 % 2 ^ 44 * 256)
      else if leafOk e l then .ok ⟨e, a, l⟩ else .error .malformed

def walk (s : State) (root : Word) (va : Nat) : Except WalkErr Leaf :=
  walkFrom s.mem s.d.pscfg s.d.poison va 4 (root.toNat / 2 ^ 12 % 2 ^ 40 * 2 ^ 12)

/-- Bytes of a page of a leaf's level as a shift. -/
def pageShift (l : Nat) : Nat := if l == 0 then 16 else 12 + 9 * l

/-- R244: bits [63:57] equal bit 56. -/
def canonical (va : Nat) : Bool := va / 2 ^ 56 == 0 || va / 2 ^ 56 == 255

def tlbHit (s : State) (core : Nat) (ctx : BitVec 16) (va : Nat) : Option Tlb :=
  s.d.tlb.find? (fun t => t.core == core && t.ctx == ctx && t.page == va % 2 ^ 57 / 2 ^ pageShift t.size)

/-- Whether a core has room for one more entry of a size (R261). -/
def tlbRoom (s : State) (core size : Nat) : Bool :=
  if size == 0 then (s.d.tlb.filter (fun t => t.core == core && t.size == 0)).length < Config.tlbSmall
  else (s.d.tlb.filter (fun t => t.core == core && t.size != 0)).length < Config.tlbLarge

/-- A core holds that a context has no translation at an address (R384). -/
def heldAbsent (s : State) (core : Nat) (ctx : BitVec 16) (va : Nat) : Bool :=
  s.d.absent.contains ⟨core, ctx, va % 2 ^ 57 / 2 ^ 16⟩

/-- The leaf that translates `va` for a hart: a held entry, or a walk, whose outcome is held if there is room. -/
def findLeaf (s : State) (core : Nat) (ctx : BitVec 16) (root : Word) (va : Nat) : Except WalkErr (Tlb × Bool) :=
  match tlbHit s core ctx va with
  | some t => .ok (t, true)
  | none =>
    if heldAbsent s core ctx va then .error .notValid
    else match walk s root va with
    | .error e => .error e
    | .ok l => .ok (⟨core, ctx, l.lvl, va % 2 ^ 57 / 2 ^ pageShift l.lvl, BitVec.ofNat 64 l.word, l.at_, []⟩, false)

/-- The physical address that a leaf gives a virtual one. -/
def leafPa (t : Tlb) (va : Nat) : Nat := ptePa t.leaf.toNat + va % 2 ^ pageShift t.size

/-- R260, checks 3 and 4: permission, then kind. -/
def leafAllows (acc : Acc) (e : Nat) (va : Word) : Option Flt :=
  let perm := match acc with
    | .load | .pipR => pteR e
    | .store | .pipW => pteW e
    | .fetch => pteX e
  if !perm then some ⟨acc.pageCode, va, 0⟩
  else if acc.isPip != (pteKind e == 1) then some ⟨11, va, 6⟩
  else if acc == .fetch && 2 ≤ pteKind e then some ⟨11, va, 6⟩
  else none

/-- R397: the lowest-numbered port that is up among those routed to a device. -/
def routePort (d : Dev) (v : Nat) : Option Nat :=
  let r := tabGet d.routes v (0 : BitVec 16)
  (List.range 16).find? (fun q => r.getLsbD q && (tabGet d.ports q Port.zero).up)

/-- Where a leaf's physical address lies in the numbering of Mem; R389 for peer pages, R272 for the carve-out. -/
def leafPlace (s : State) (acc : Acc) (t : Tlb) (va : Word) (n : Nat) : Except Flt Nat :=
  let pa := leafPa t va.toNat
  match pteKind t.leaf.toNat with
  | 0 => if inCarveOut s.d.pscfg pa n then .error ⟨11, va, 10⟩ else .ok pa
  | 1 => .ok (ptePa t.leaf.toNat)   -- R270: the leaf's own PA; the offset of the address plays no part
  | 2 => .ok (hostBase + pa)
  | _ =>
    let dev := pa / 2 ^ 42
    if acc != .fetch && (dev == s.d.devid.toNat || (routePort s.d dev).isNone) then .error ⟨11, va, 6⟩
    else .ok (peerBase + pa)

/-- R366: the bit of a physical chunk in the bitmap. -/
def dirtyBit (pa : Nat) : Nat := pa / 2 ^ 40 * 786432 + pa % 2 ^ 40 / 2 ^ 16

def orByte (m : Memory) (a : Nat) (b : Byte) : Memory := memSet m a (memGet m a ||| b)

/-- R262: the byte of the dirty bitmap whose bit a write through an entry sets first, if it sets one. -/
def dirtyByte (s : State) (acc : Acc) (t : Tlb) (va : Word) : Option Nat :=
  if acc.isWrite && pteKind t.leaf.toNat == 0 && s.d.tracked.contains t.ctx && !t.dirty.contains (va.toNat / 2 ^ 16) then
    some (s.d.cc.cbmap.toNat + dirtyBit (leafPa t va.toNat) / 8)
  else none

/-- A place of device DRAM that R272 lets an access through a normal PA reach. -/
def dramByte (s : State) (a : Nat) : Bool := normalPa a && !inCarveOut s.d.pscfg a 1

/-- What stops an access of `n` bytes at the place `pa` after the checks of its leaf: an uncorrectable word that it reads
(R374); a bitmap byte inside a pip store (R272) or outside the DRAM (log 30, DESIGN CHOICE), or uncorrectable. -/
def accessBar (s : State) (acc : Acc) (t : Tlb) (va : Word) (n pa : Nat) : Option Flt :=
  if acc != .store && !acc.isPip && poisoned s.d.poison pa n then some ⟨21, va, 2⟩
  else match dirtyByte s acc t va with
    | some a => if !dramByte s a then some ⟨11, va, 10⟩ else if poisoned s.d.poison a 1 then some ⟨21, va, 2⟩ else none
    | none => none

/-- R262: A on the first access, D on the first write, the dirty bitmap bit on the first write to a chunk; and the entry
is held if the core has room. -/
def recordAccess (s : State) (acc : Acc) (t : Tlb) (held : Bool) (va : Word) : State :=
  let w := acc.isWrite || acc == .pipW
  let e := t.leaf.toNat
  let add := (if pteA e then 0 else 16) + (if w && !pteD e then 32 else 0)
  let mem1 := if add == 0 then s.mem else orByte s.mem t.leafAt (BitVec.ofNat 8 add)
  let pa := leafPa t va.toNat
  let chunk := va.toNat / 2 ^ 16
  let track := dirtyByte s acc t va
  let mem2 := match track with
    | some a => orByte mem1 a (BitVec.ofNat 8 (2 ^ (dirtyBit pa % 8)))
    | none => mem1
  let t' := { t with leaf := t.leaf ||| BitVec.ofNat 64 add, dirty := if track.isSome then chunk :: t.dirty else t.dirty }
  let tlb' :=
    if held then s.d.tlb.map (fun u => if u == t then t' else u)
    else if tlbRoom s t.core t.size then t' :: s.d.tlb else s.d.tlb
  { s with mem := mem2, d := { s.d with tlb := tlb' } }

/-- R262, R374: the OR that sets A or D finds V = 0 in a held entry's leaf, or a word that cannot be corrected: the entry is
dropped and the walk restarts. -/
def staleEntry (s : State) (acc : Acc) (t : Tlb) : Bool :=
  (!pteA t.leaf.toNat || ((acc.isWrite || acc == .pipW) && !pteD t.leaf.toNat)) &&
    (!pteV (memRead s.mem t.leafAt 8) || poisoned s.d.poison t.leafAt 8)

/-- Translation of `n` bytes at `va` for a context on a core (R258 to R262). -/
def translateFor (s : State) (core : Nat) (ctx : BitVec 16) (root : Word) (acc : Acc) (va : Word) (n : Nat) :
    Except Flt (Nat × State) :=
  if !canonical va.toNat then .error ⟨11, va, 4⟩
  else
    let s := match tlbHit s core ctx va.toNat with
      | some t => if staleEntry s acc t then { s with d := { s.d with tlb := s.d.tlb.filter (· != t) } } else s
      | none => s
    match findLeaf s core ctx root va.toNat with
    | .error .notValid => .error ⟨acc.pageCode, va, 0⟩
    | .error .malformed => .error ⟨11, va, 7⟩
    | .ok (t, held) =>
      match leafAllows acc t.leaf.toNat va with
      | some f => .error f
      | none =>
        match leafPlace s acc t va n with
        | .error f => .error f
        | .ok pa =>
          match accessBar s acc t va n pa with
          | some f => .error f
          | none => .ok (pa, recordAccess s acc t held va)

/-- A walk made for a hart, which is counted as the step ends (R381). -/
def noteWalk (s : State) (gid : Nat) : State := { s with d := { s.d with walks := gid :: s.d.walks } }

/-- An access of a hart translates by a walk: no entry is held for it, or only a stale one. -/
def misses (s : State) (h : Hart) (acc : Acc) (va : Word) : Bool :=
  match tlbHit s (coreOf h.gid) h.ctxid va.toNat with
  | some t => staleEntry s acc t
  | none => true

/-- Translation for a hart, under the root in force (R336, R359). -/
def translate (s : State) (h : Hart) (acc : Acc) (va : Word) (n : Nat) : Except Flt (Nat × State) :=
  match translateFor s (coreOf h.gid) h.ctxid h.walkroot acc va n with
  | .error f => .error f
  | .ok (p, s1) => .ok (p, if misses s h acc va then noteWalk s1 h.gid else s1)

/-! ### The other spaces -/

/-- R245: a physical slab of a core is granted to a hart of the context. -/
def slabGranted (s : State) (gc slab : Nat) (ctx : BitVec 16) : Bool :=
  (s.h :: s.others).any (fun h => hartExists h && coreOf h.gid == gc && h.ctxid == ctx && h.slabs.contains slab)
def tileGranted (s : State) (gc tile : Nat) (ctx : BitVec 16) : Bool :=
  (s.h :: s.others).any (fun h => hartExists h && coreOf h.gid == gc && h.ctxid == ctx && h.tiles.contains tile)

/-- The codes of R244 in SPACE. -/
def spaceOf (n : Nat) : Space :=
  match n with
  | 0 => .G | 1 => .L | 2 => .X | 3 => .C | _ => .N

/-- R254: the last hart of a place is saved out of it. -/
def savedOut (s : State) (gid : Nat) : Bool := s.d.saves.any (fun p => p.1 == gid)

/-- R251, R252: the place of `n` bytes of the on-chip map. `host` is a host access: no grant check (R402). While a
hart's context is out, its windows are closed (R254). -/
def mapPlace (s : State) (ctx : BitVec 16) (sMode host : Bool) (a : Word) (n : Nat) : Except Flt Loc :=
  let v := a.toNat
  let bad : Flt := ⟨11, a, 4⟩
  let core := v / 2 ^ 33 % 32
  let gc := v / 2 ^ 38 % 4 * 24 + core
  let off := v % 2 ^ 30
  if v / 2 ^ 40 != 0 || 24 ≤ core then .error bad
  else
    match v / 2 ^ 30 % 8 with
    | 0 =>
      if off / 2 ^ 23 != 0 then .error bad
      else if host || slabGranted s gc (off / 2 ^ 19) ctx then .ok (.mem (scrAddr gc off)) else .error ⟨11, a, 5⟩
    | 1 =>
      let gid := gc * 8 + off / 2 ^ 27
      let reg := off / 2 ^ 21 % 64
      match findHart s gid with
      | none => if reg != 0 && off / 2 ^ 15 % 64 == 0 && savedOut s gid then .error ⟨12, a, 0⟩ else .error bad
      | some h =>
        if reg == 0 || off / 2 ^ 15 % 64 != 0 || h.lanes * Config.laneBytes < off % 2 ^ 15 + n then .error bad
        else if !h.opened.getLsbD reg || !(host || h.ctxid == ctx) then .error ⟨12, a, 0⟩
        else .ok (.vwin gid reg (off % 2 ^ 15))
    | 2 =>
      let gid := gc * 8 + off / 2 ^ 27
      let reg := off / 2 ^ 21 % 64
      match findHart s gid with
      | none => .error bad
      | some h =>
        if 23 < reg || off / 2 ^ 16 % 32 != 0 || h.vlcap * 2 < off % 2 ^ 16 + n then .error bad
        else if !(sMode || host) then .error ⟨12, a, 0⟩
        else .ok (.wwin gid reg (off % 2 ^ 16))
    | 3 =>
      if off / 2 ^ 19 != 0 then .error bad
      else if host || tileGranted s gc (off / 2 ^ 16) ctx then .ok (.mem (accAddr gc off)) else .error ⟨11, a, 5⟩
    | 4 => if sMode || host then .ok (.ctl (gc * 8 + off / 2 ^ 27) (off % 2 ^ 27)) else .error bad
    | _ => .error bad

/-- A place of an on-chip store, unless a read there is uncorrectable (R372). -/
def readable (s : State) (acc : Acc) (va : Word) (n a : Nat) : Except Flt (Loc × State) :=
  if acc != .store && poisoned s.d.poison a n then .error ⟨21, va, 2⟩ else .ok (.mem a, s)

/-- The place of `n` bytes at an address of a space, for an access of hart `h` (R243 to R246). -/
def place (s : State) (h : Hart) (sp : Space) (acc : Acc) (a : Word) (n : Nat) : Except Flt (Loc × State) :=
  match sp with
  | .G =>
    match translate s h acc a n with
    | .ok (p, s') => .ok (.mem p, s')
    | .error f => .error f
  | .L =>
    if a.toNat < h.slabs.length * Config.slabBytes then
      readable s acc a n (scrAddr (coreOf h.gid) (h.slabs.getD (a.toNat / Config.slabBytes) 0 * Config.slabBytes + a.toNat % Config.slabBytes))
    else .error ⟨11, a, 4⟩
  | .X =>
    let core := a.toNat / 2 ^ 43 % 32
    let off := a.toNat % 2 ^ 23
    let gc := dieOf h.gid * 24 + core
    if a.toNat / 2 ^ 48 != 0 || a.toNat / 2 ^ 23 % 2 ^ 20 != 0 || 24 ≤ core then .error ⟨11, a, 4⟩
    else if slabGranted s gc (off / 2 ^ 19) h.ctxid then readable s acc a n (scrAddr gc off) else .error ⟨11, a, 5⟩
  | .C =>
    if a.toNat < h.tiles.length * Config.tileBytes then
      readable s acc a n (accAddr (coreOf h.gid) (h.tiles.getD (a.toNat / Config.tileBytes) 0 * Config.tileBytes + a.toNat % Config.tileBytes))
    else .error ⟨11, a, 4⟩
  | .N =>
    match mapPlace s h.ctxid (h.mode == .S) false a n with
    | .ok (.mem p) => readable s acc a n p
    | .ok l => .ok (l, s)
    | .error f => .error f

end Sys2Proof.Machine
end

