-- ==== Sys2Proof/Machine/Ops.lean ====
section
/-! DEFINITION. The shared operations over a hart: registers and their banks, the carousel, program counters, images of
weights, loop levels at their END slot, control and supervisor registers, event counters, taking a trap and returning
from one, retirement, transfers and parking. -/

namespace Sys2Proof.Machine

abbrev Res := Host.Outcome State Fault Refusal

/-! ### Scalar registers (R7, R104, R335) -/

/-- The value of a scalar register name in a mode. -/
def xGetIn (h : Hart) (m : Mode) (r : Nat) : Word :=
  if r = 0 then 0
  else if m = .S ∧ r ≤ 4 then h.sx.toList.getD (r - 1) 0
  else h.x.toList.getD r 0

def xGet (h : Hart) (r : Reg) : Word := xGetIn h h.mode r.toNat

/-- Writing a scalar register name in a mode; a write to x0 is discarded. -/
def xSetIn (h : Hart) (m : Mode) (r : Nat) (w : Word) : Hart :=
  if r = 0 then h
  else if m = .S ∧ r ≤ 4 then { h with sx := h.sx.setIfInBounds (r - 1) w }
  else { h with x := h.x.setIfInBounds r w }

def xSet (h : Hart) (r : Reg) (w : Word) : Hart := xSetIn h h.mode r.toNat w

def setH (s : State) (h : Hart) : State := { s with h := h }

/-- Writes xD of the hart in front. -/
def putX (s : State) (r : Reg) (w : Word) : State := { s with h := xSet s.h r w }

/-- R104: the B operand of a scalar instruction, an immediate sign-extended. -/
def xopVal (h : Hart) : XOp → Word
  | .reg r => xGet h r
  | .imm v => v.signExtend 64

/-! ### The carousel (R126) -/

def vPhys (h : Hart) (n : Nat) : Nat := if 48 ≤ n then 48 + (n - 48 + h.cbase.toNat) % 16 else n
def wPhys (h : Hart) (n : Nat) : Nat := if 16 ≤ n then 16 + (n - 16 + h.cbase.toNat) % 8 else n

/-! ### Weight images (R24) -/

/-- Σ f(i) × 2^(16 i) for i below n. -/
def codes16 (f : Nat → Nat) (n : Nat) : Nat := (List.range n).foldr (fun i acc => f i % 65536 + acc <<< 16) 0

/-- Code i as held. -/
def wRaw (w : WImage) (i : Nat) : Nat := w.toNat >>> (16 * i) % 65536
/-- Code i as read (R24). -/
def wCode (w : WImage) (i : Nat) : Nat := wtRead (wRaw w i)

/-- Elements below n replaced by f, the others kept. -/
def wFill (w : WImage) (n : Nat) (f : Nat → Nat) : WImage :=
  BitVec.ofNat 393216 ((w.toNat >>> (16 * n)) <<< (16 * n) + codes16 f n)

/-- The codes below n as they are read: a code that is copied is never above 0x8000 (R24). -/
def wClean (w : WImage) (n : Nat) : WImage := wFill w n (wCode w)

def wSetCode (w : WImage) (i c : Nat) : WImage :=
  BitVec.ofNat 393216 (w.toNat - wRaw w i <<< (16 * i) + (c % 65536) <<< (16 * i))

def wGet (h : Hart) (p : Nat) : WImage := h.w.toList.getD p 0
def wPut (h : Hart) (p : Nat) (w : WImage) : Hart := { h with w := h.w.setIfInBounds p w }

/-- a ⊗ b, element by element, below n. -/
def wProd (base a b : WImage) (n : Nat) : WImage := wFill base n (fun i => wtMul (wRaw a i) (wRaw b i))

/-- Some element below n has a code above THETA. -/
def anyAbove (w : WImage) (n : Nat) (theta : BitVec 16) : Bool := (List.range n).any (fun i => theta.toNat < wCode w i)

/-! ### Program counters (R15, R69) -/

def isSlot (pc : Word) : Bool := pc.toNat % 64 % 12 == 0 && pc.toNat % 64 < 60
def slotIndex (pc : Word) : Nat := pc.toNat / 64 * 5 + pc.toNat % 64 / 12
/-- The slot of an index, modulo 5 × 2^58. -/
def slotAt (t : Int) : Word :=
  let n := (t % (5 * 2 ^ 58)).toNat
  BitVec.ofNat 64 (n / 5 * 64 + n % 5 * 12)
/-- R15: sequential advance. -/
def seqNext (pc : Word) : Word := if pc.toNat % 64 = 48 then pc + 16 else pc + 12
/-- The slot `d` after `pc`. -/
def slotPlus (pc : Word) (d : Int) : Word := slotAt ((slotIndex pc : Int) + d)

/-! ### Loop levels (R120 to R122) -/

def lvlGet (h : Hart) (k : Nat) : Level := h.loops.toList.getD k Level.zero
def lvlSet (h : Hart) (k : Nat) (l : Level) : Hart := { h with loops := h.loops.setIfInBounds k l }
def activeLevels (h : Hart) : Nat := (h.loops.toList.filter (fun l => l.act)).length
/-- The innermost active level. -/
def innermost (h : Hart) : Option Nat := [3, 2, 1, 0].find? (fun k => (lvlGet h k).act)
/-- R174. -/
def armBase (h : Hart) : Nat := match innermost h with | some k => (lvlGet h k).asp.toNat | none => 0

/-- R122: rotate(L, e), with e constant or an image. -/
def rotateLvl (h : Hart) (l : Level) (e : Nat → Nat) : Hart :=
  if !l.rot then h
  else
    let h := { h with cbase := h.cbase + 1 }
    let p := wPhys h 16
    wPut h p (wFill (wGet h p) h.vlcap e)

/-- A back edge: a transfer to TOP from the END slot. -/
def backEdge (h : Hart) (l : Level) : Hart := { h with pc := l.top, xfer := some l.tail }

def restoreW0 (h : Hart) (l : Level) : Hart := if l.cw = 0 then h else wPut h 0 (wClean l.saved h.vlcap)

/-- R122: one level's evaluation when its END slot has retired, and whether the level is left. -/
def stepLevel (h : Hart) (k : Nat) : Hart × Bool :=
  let l := lvlGet h k
  let c := wProd l.saved l.saved (wGet h (wPhys h l.cw.toNat)) h.vlcap
  let again (l : Level) (e : Nat → Nat) : Hart × Bool :=
    (backEdge (restoreW0 (rotateLvl (lvlSet h k l) l e) l) l, false)
  let leave (l : Level) : Hart × Bool :=
    ({ restoreW0 (lvlSet h k { l with act := false }) l with pc := seqNext l.tail, xfer := none }, true)
  if l.epi = 0 then
    if decide (1 < l.count.toNat) && (l.cw == 0 || anyAbove c h.vl h.theta) then
      let l := { l with count := l.count - 1 }
      if l.cw = 0 then again l (fun _ => 0x8000)
      else if l.rot then again l (fun i => wRaw c i)
      else (backEdge (wPut (lvlSet h k l) 0 (wFill (wGet h 0) h.vlcap (fun i => wRaw c i))) l, false)
    else if 1 < l.stages.toNat then again { l with count := 0, epi := (l.stages - 1).setWidth 3 } (fun _ => 0)
    else leave l
  else
    let l := { l with epi := l.epi - 1 }
    if l.epi = 0 then leave l else again l (fun _ => 0)

/-- R122: the evaluation of level k, and of each enclosing level that ends at the same slot as a level just left. -/
def evalLevel (h : Hart) : Nat → Hart
  | 0 => (stepLevel h 0).1
  | k + 1 =>
    let (h', left) := stepLevel h (k + 1)
    if left && (lvlGet h' k).act && (lvlGet h' k).tail == (lvlGet h (k + 1)).tail then evalLevel h' k else h'

/-- The level whose END slot is the hart's PC and that R122 evaluates: the innermost active one, in U mode. -/
def endLevel (h : Hart) : Option Nat :=
  match innermost h with
  | some k => if h.mode == .U && (lvlGet h k).tail == h.pc then some k else none
  | none => none

/-! ### Event counters (R380, R381) -/

/-- A counter after `n` events: whether it wrapped. -/
def bumpCtr (c : Ctr) (n : Nat) : Ctr × Bool :=
  let t := c.cnt.toNat + n
  ({ c with cnt := BitVec.ofNat 48 t, ovf := c.ovf || decide (2 ^ 48 ≤ t) }, decide (2 ^ 48 ≤ t))

def ctrCounts (c : Ctr) (event : Nat) : Bool := c.en && c.event.toNat == event

/-- R380: SIP.CNT in each hart of core `gc` that a wrapping counter counts. -/
def raiseCnt (s : State) (gc : Nat) (harts : BitVec 8) : State :=
  let f (h : Hart) : Hart :=
    if coreOf h.gid == gc && hartExists h && (harts == 0 || harts.getLsbD (hartNo h.gid)) then { h with sip := h.sip ||| 1 } else h
  { s with h := f s.h, others := s.others.map f }

/-- `n` events at core counter `k`, as it stands in `c`. -/
def bumpCore (s : State) (k : Nat) (c : Ctr) (n : Nat) : State :=
  let (c', wrap) := bumpCtr c n
  let s := { s with d := { s.d with coreCtrs := tabSet s.d.coreCtrs k c' } }
  if wrap && c.int then raiseCnt s (k / 8) c.harts else s

/-- The same at die counter `k`. -/
def bumpDie (s : State) (k : Nat) (c : Ctr) (n : Nat) : State :=
  let (c', wrap) := bumpCtr c n
  let s := { s with d := { s.d with dieCtrs := tabSet s.d.dieCtrs k c' } }
  if wrap && c.int then { s with d := { s.d with out := .msix 0 :: s.d.out } } else s

/-- Counts `n` events of a code on the die counters of `die`. -/
def countDie (s : State) (die event n : Nat) : State :=
  s.d.dieCtrs.foldl (fun s (k, c) => if k / 16 == die && ctrCounts c event then bumpDie s k c n else s) s

/-- Counts `n` core events of a code for the hart at a place, on its core's counters and its die's. -/
def countAt (s : State) (gid event n : Nat) : State :=
  let s := s.d.coreCtrs.foldl (fun s (k, c) =>
    if k / 8 == coreOf gid && ctrCounts c event && event < 0x22 && (c.harts == 0 || c.harts.getLsbD (hartNo gid)) then
      bumpCore s k c n
    else s) s
  countDie s (dieOf gid) event n

/-- The same for the hart in front. -/
def countEv (s : State) (event n : Nat) : State := countAt s s.h.gid event n

/-- TLB_MISSES and WALKS of the walks that the last step made (R381). -/
def countWalks (s : State) : State :=
  s.d.walks.foldl (fun s g => countAt (countAt s g 0x11 1) g 0x12 1) { s with d := { s.d with walks := [] } }

/-- STREAM_64B, DCACHE_MISSES and DIECACHE_MISSES, BRIDGE_64B, DRAM_UNITS: no rule says when one of these happens, so a step
brings each a free number (log 9, DESIGN CHOICE). -/
def unstatedCore (e : Nat) : Bool := decide (0x0F ≤ e ∧ e ≤ 0x10)
def unstatedDie (e : Nat) : Bool := decide (0x35 ≤ e ∧ e ≤ 0x37)
def hartEvents (e step : Nat) (gids : List Nat) : Nat := gids.foldl (fun n g => n + Config.eventCount e step g) 0
def countUnstated (s : State) : State :=
  let s1 := s.d.coreCtrs.foldl (fun t (k, c) =>
    if c.en && unstatedCore c.event.toNat then
      let gids := (List.range 8).filter (fun h => c.harts == 0 || c.harts.getLsbD h)
      bumpCore t k c (hartEvents c.event.toNat s.steps (gids.map (k / 8 * 8 + ·)))
    else t) s
  s1.d.dieCtrs.foldl (fun t (k, c) =>
    if c.en && unstatedDie c.event.toNat then bumpDie t k c (Config.eventCount c.event.toNat s.steps (k / 16))
    else if c.en && unstatedCore c.event.toNat then
      bumpDie t k c (hartEvents c.event.toNat s.steps ((List.range 192).map (k / 16 * 192 + ·)))
    else t) s1

/-! ### SSTATUS and SCAUSE (R337) -/

def ssFMR : Nat := 6
def ssINH : Nat := 5
def ssSPP : Nat := 4
def ssIEN : Nat := 3
def ssPPEND : Nat := 7
def setBit (w : Word) (k : Nat) (b : Bool) : Word :=
  if b then w ||| BitVec.ofNat 64 (2 ^ k) else w &&& ~~~ BitVec.ofNat 64 (2 ^ k)
def inh (h : Hart) : Bool := h.sstatus.getLsbD ssINH
def fmr (h : Hart) : Bool := h.sstatus.getLsbD ssFMR
/-- R341: PPEND falls with INH. -/
def dropPpend (h : Hart) : Hart := if inh h then h else { h with sstatus := setBit h.sstatus ssPPEND false }
def sppMode (h : Hart) : Mode := if h.sstatus.getLsbD ssSPP then .S else .U

/-! ### Control and supervisor registers (R10, R13, R336) -/

/-- R343: the hart's records in its die's queue. -/
def frqOf (s : State) (gid : Nat) : List Frq := (s.d.frq.toList.getD (dieOf gid) []).filter (fun r => r.gid == gid)

def fmaskWord (m : BitVec 24576) (k : Nat) : Word := m.extractLsb' (64 * k) 64
def setFmaskWord (m : BitVec 24576) (k : Nat) (w : Word) : BitVec 24576 :=
  BitVec.ofNat 24576 (m.toNat - (fmaskWord m k).toNat <<< (64 * k) + w.toNat <<< (64 * k))

/-- The register of an index, as `csrrd` reads it; an unassigned index reads as zero. -/
def csrRead (s : State) (h : Hart) (i : Nat) : Word :=
  if 0x100 ≤ i ∧ i < 0x280 then fmaskWord h.fmask (i - 0x100)
  else match i with
    | 0x000 => BitVec.ofNat 64 h.vl
    | 0x001 => BitVec.ofNat 64 h.vlcap
    | 0x002 => BitVec.ofNat 64 h.vstart
    | 0x003 => BitVec.ofNat 64 h.ffi
    | 0x004 => h.theta.setWidth 64
    | 0x005 => h.floor.setWidth 64
    | 0x006 => h.rmode.setWidth 64
    | 0x007 => h.efr.setWidth 64
    | 0x008 => h.space.setWidth 64
    | 0x009 => h.cbase.setWidth 64
    | 0x00A => BitVec.ofNat 64 h.armsp
    | 0x00B => h.linkpc
    | 0x00C => h.flags
    | 0x00D => h.fenable
    | 0x00E => BitVec.ofNat 64 s.clk
    | 0x300 => h.sstatus
    | 0x301 => h.svec
    | 0x302 => h.sepc
    | 0x303 => h.scause
    | 0x304 => h.stval
    | 0x305 => h.stval2
    | 0x306 => h.sscratch.toList.getD 0 0
    | 0x307 => h.sscratch.toList.getD 1 0
    | 0x308 => h.sscratch.toList.getD 2 0
    | 0x309 => h.sscratch.toList.getD 3 0
    | 0x30A => h.ctxroot
    | 0x30B => h.ctxid.setWidth 64
    | 0x30C => h.sie
    | 0x30D => h.sip
    | 0x30F => BitVec.ofNat 64 (frqOf s h.gid).length
    | 0x310 => h.ringctl
    | 0x311 => h.ringpos.setWidth 64
    | 0x312 => BitVec.ofNat 64 h.svstart
    | _ => 0

/-- R13: a weight code above 0x8000 is stored as 0x8000. -/
def clampW (w : Word) : BitVec 16 := BitVec.ofNat 16 (wtRead w.toNat)

/-- R346: the action of ENGCTL on the command in an interlock entry. -/
def engAct (h : Hart) (entry action : Nat) : Hart :=
  { h with cmds := h.cmds.map (fun c =>
      if c.entry == entry && c.st == .suspended then
        (if action == 1 then { c with st := .running }
         else if action == 2 then { c with st := .ended, status := 1 } else c)
      else c) }

/-- R13: `putcr` to a register that user code may write; the others are ignored. -/
def crWrite (h : Hart) (i : Nat) (w : Word) : Hart :=
  match i with
  | 0x002 => { h with vstart := w.toNat % 32768 }
  | 0x003 => { h with ffi := w.toNat % 32768 }
  | 0x004 => { h with theta := clampW w }
  | 0x005 => { h with floor := clampW w }
  | 0x006 => if w.toNat % 8 ≤ 5 then { h with rmode := w.setWidth 3 } else h
  | 0x007 =>
    { h with efr := match decFloat (fmtOf .f32) (w.toNat % 2 ^ 32) with | .nan _ => 0x7FC00000 | _ => w.setWidth 32 }
  | 0x008 => if w.toNat % 8 ≤ 4 then { h with space := w.setWidth 3 } else h
  | 0x009 => { h with cbase := w.setWidth 4 }
  | 0x00C => { h with flags := w &&& 0xFFFFFFFF0000007F }
  | 0x00D => { h with fenable := w &&& 0x1F }
  | _ => h

/-- R336, R13: `csrwr`. -/
def csrWrite (h : Hart) (i : Nat) (w : Word) : Hart :=
  if 0x100 ≤ i ∧ i < 0x280 then { h with fmask := setFmaskWord h.fmask (i - 0x100) w }
  else match i with
    | 0x000 => { h with vl := Nat.min (w.toNat % 32768) h.vlcap }
    | 0x00A => if w.toNat ≤ 8 then { h with armsp := w.toNat } else h
    | 0x00B => { h with linkpc := w &&& ~~~ 2 }
    | 0x300 => dropPpend { h with sstatus := (h.sstatus &&& 0x80) ||| (w &&& 0x78) }
    | 0x301 => { h with svec := w }
    | 0x302 => { h with sepc := w }
    | 0x303 => { h with scause := w &&& 0xF0FF }
    | 0x304 => { h with stval := w }
    | 0x305 => { h with stval2 := w }
    | 0x306 => { h with sscratch := h.sscratch.setIfInBounds 0 w }
    | 0x307 => { h with sscratch := h.sscratch.setIfInBounds 1 w }
    | 0x308 => { h with sscratch := h.sscratch.setIfInBounds 2 w }
    | 0x309 => { h with sscratch := h.sscratch.setIfInBounds 3 w }
    | 0x30A => { h with ctxroot := w &&& 0xFFFFFFFFFF000 }
    | 0x30C => { h with sie := w &&& 3 }
    | 0x30D => { h with sip := h.sip &&& ~~~ w }
    | 0x30E => engAct h (w.toNat % 64) (w.toNat / 256 % 4)
    | 0x310 =>
      { h with ringctl := w &&& 1
               ringsince := if w.getLsbD 0 && !h.ringctl.getLsbD 0 then 0 else h.ringsince }
    | 0x312 => { h with svstart := w.toNat % 32768 }
    | _ => crWrite h i w

/-! ### Traps (R338 to R341) -/

/-- A trap to take: cause and values; the resume PC where it is not the hart's PC; F, E, I, OVF; FMASK if the trap
writes it. -/
structure Trap where
  code      : Nat
  val       : Word
  val2      : Word
  pc        : Option Word := none
  f         : Bool := false
  e         : Bool := false
  imprecise : Bool := false
  ovf       : Bool := false
  fmask     : Option (BitVec 24576) := none
  deriving DecidableEq, Repr

/-- STVAL2 of a memory cause (R340): element (none is −1), subcause. -/
def memVal2 (elem : Option Nat) (sub : Nat) : Word :=
  BitVec.ofNat 64 ((match elem with | some i => i % 2 ^ 32 | none => 2 ^ 32 - 1) + sub * 2 ^ 32)

/-- The trap of a memory fault of a scalar access or of element `elem`. -/
def memTrap (f : Flt) (elem : Option Nat) : Trap :=
  { code := f.code, val := f.va, val2 := if f.code = 21 then BitVec.ofNat 64 f.sub else memVal2 elem f.sub }
def misTrap (a : Word) (elem : Option Nat) : Trap := { code := 6, val := a, val2 := memVal2 elem 0 }

def scauseOf (t : Trap) : Word :=
  BitVec.ofNat 64 (t.code + (if t.imprecise then 2 ^ 12 else 0) + (if t.f then 2 ^ 13 else 0) +
    (if t.e then 2 ^ 14 else 0) + (if t.ovf then 2 ^ 15 else 0))

/-- R338, step 5: FMR. -/
def trapFmr (t : Trap) : Bool := !t.f && (match t.fmask with | some m => m != 0 | none => false)

/-- R338: trap entry of a hart. -/
def trapEntry (h : Hart) (t : Trap) : Hart :=
  { h with
    sepc := t.pc.getD h.pc
    scause := scauseOf t
    stval := t.val
    stval2 := t.val2
    svstart := h.vstart
    vstart := 0
    sstatus := setBit (setBit (setBit (setBit h.sstatus ssSPP (h.mode == .S)) ssINH true) ssFMR (trapFmr t)) ssPPEND
      (h.sstatus.getLsbD ssPPEND || h.stop.isSome)
    fmask := t.fmask.getD h.fmask
    mode := .S
    pc := h.svec
    xfer := none
    second := false
    fmrun := false
    sending := none
    run := .running }

/-- A `replay` that has not retired is undone: its hart is at the `replay` again (R358). Of a `vsend` that waits, the elements
sent are not sent again: SVSTART, from which the `replay` takes VSTART, is the first that has not begun (R392; log 28,
DEDUCED). -/
def undoReplay (h : Hart) : Hart :=
  match h.replay with
  | some f =>
    { h with replay := none, mode := .S, pc := f.pc, vstart := 0, fmrun := false
             svstart := if h.sending.isSome then h.vstart else h.svstart }
  | none => h

/-- R358: a trap of the instruction that `replay` runs. No entry is taken; the S-mode registers are written as on entry
but for SEPC, and `replay` retires with the cause. -/
def replayTrap (h : Hart) (fr : Frame) (t : Trap) : Hart :=
  let h := { h with
    scause := scauseOf t
    stval := t.val
    stval2 := t.val2
    svstart := h.vstart
    vstart := 0
    sstatus := setBit h.sstatus ssFMR (trapFmr t)
    fmask := t.fmask.getD h.fmask
    mode := .S
    pc := seqNext fr.pc
    xfer := none
    second := false
    fmrun := false
    sending := none
    replay := none
    run := .running }
  xSet h fr.rd (BitVec.ofNat 64 t.code)

/-- The record of a hart. -/
def recOf (s : State) (h : Hart) : Option Rec := s.d.recs.find? (fun r => r.id == h.record)

/-- The pending waits of a record's members on `.f` words: those of members that run, then of those that are saved. -/
def farmWaits (s : State) (record : Nat) : List BarWait :=
  if record = 0 then []
  else
    (((s.h :: s.others).filter (fun o => hartExists o && o.record == record)).flatMap (·.barWait) ++
      (s.d.recs.filter (fun r => r.id == record)).flatMap (fun r => r.saved.flatMap (·.waits))).filter (·.farm)

/-- The barrier words of which a hart may be a member (R220): that of its last `bar`, and the `.f` words of its record. -/
def barWords (s : State) (h : Hart) : List Word :=
  (h.barWord.toList ++ (farmWaits s h.record).map (·.ea)).eraseDups

/-- R220: the hart is a member of the word, which holds `w`: it is that of its last `bar`, or a member of its record waits on it
in its phase. -/
def barMember (s : State) (h : Hart) (ea : Word) (w : Nat) : Bool :=
  h.barWord == some ea || (farmWaits s h.record).any (fun b => b.ea == ea && b.phase.toNat == w / 2 ^ 32 % 65536)

/-- R220: peers of the hart wait in the word's phase, and it has not arrived in it. -/
def stalledAt (h : Hart) (ea : Word) (w : Nat) : Bool :=
  w / 65536 % 65536 != 0 && !h.barWait.any (fun b => b.ea == ea && b.phase.toNat == w / 2 ^ 32 % 65536)

/-- R220: a member that stops while peers wait sets STALLED in the barrier word, by an atomic OR. -/
def markWord (s : State) (ea : Word) : State :=
  match translate s s.h .load ea 8, translate s s.h .store ea 8 with
  | .ok (p, _), .ok (_, s1) =>
    let w := memRead s.mem p 8
    if barMember s s.h ea w && stalledAt s.h ea w then countEv { s1 with mem := orByte s1.mem (p + 6) 1 } 0x1C 1 else s
  | _, _ => s
def markStalled (s : State) : State := (barWords s s.h).foldl markWord s

/-- R341: a double trap takes no entry; the hart ends with status 0xFF once its commands have ended. -/
def doubleTrap (s : State) : State :=
  let s := countDie s (dieOf s.h.gid) 0x3C 1
  setH s { s.h with run := .parked .hexit, ending := some 0xFF, second := false }

/-- Taking a trap (R338, R341, R358). -/
def takeTrap (s : State) (t : Trap) : State :=
  let s := countEv s 0x19 1
  let enter : State := let s := markStalled s; setH s (trapEntry (undoReplay s.h) t)
  if t.imprecise then enter
  else match s.h.replay with
    | some fr => setH s (replayTrap s.h fr t)
    | none => if inh s.h then doubleTrap s else enter

/-- A precise trap as the outcome of an instruction. -/
def trap (s : State) (t : Trap) : Res := .next (takeTrap s t)

/-- R72, R340: an illegal-instruction trap; STVAL holds bits [95:64] of the slot. -/
def illegalTrap (i : Instr) (sub : Nat) : Trap :=
  let hi := match encode i with | some w => w.extractLsb' 64 32 | none => 0
  { code := 1, val := hi.setWidth 64, val2 := BitVec.ofNat 64 sub }
def illegalAt (s : State) (i : Instr) (sub : Nat) : State := takeTrap s (illegalTrap i sub)

/-! ### Retirement and transfers (R15, R18, R22, R122, R344, R358) -/

/-- An execution under FMASK alone has retired (R344). -/
def clearFm (h : Hart) : Hart :=
  if h.fmrun then { h with fmrun := false, fmask := 0, sstatus := setBit h.sstatus ssFMR false } else h

/-- The instruction that `replay` ran has retired; the hart's PC is the one that follows it (R358). -/
def replayDone (h : Hart) : Hart :=
  match h.replay with
  | none => h
  | some fr =>
    let h := { h with sepc := h.pc, svstart := 0, vstart := 0, sstatus := setBit h.sstatus ssFMR false, mode := .S
                      pc := seqNext fr.pc, xfer := none, second := false, replay := none }
    xSet h fr.rd 0

/-- Retirement by sequential advance, with the END evaluation of R122. -/
def retireSeq (h : Hart) : Hart :=
  let h := { clearFm h with run := .running }
  match endLevel h with
  | some k => replayDone { evalLevel h k with second := false }
  | none => replayDone { h with pc := seqNext h.pc, xfer := none }

/-- Retirement by sequential advance of an instruction that found no active level to end (R130). -/
def retireOn (h : Hart) : Hart :=
  let h := clearFm h
  replayDone { h with pc := seqNext h.pc, xfer := none, run := .running }

/-- Retirement by a taken transfer: the landing is checked before the slot there issues (R18). -/
def retireTo (h : Hart) (target : Word) : Hart :=
  let h := clearFm h
  replayDone { h with pc := target, xfer := some h.pc, second := false, run := .running }

/-- Retirement at a place that is no transfer (R121, R123). -/
def retireAt (h : Hart) (pc : Word) : Hart :=
  let h := clearFm h
  replayDone { h with pc := pc, xfer := none, second := false, run := .running }

/-- The instruction retires by sequential advance. -/
def next (s : State) : Res :=
  let s := match endLevel s.h with
    | some k => if (lvlGet s.h k).act then countEv s 0x0C (if (evalLevel s.h k).xfer.isSome then 1 else 0) else s
    | none => s
  .next (setH s (retireSeq s.h))

/-- The instruction writes xD and retires. -/
def nextX (s : State) (r : Reg) (w : Word) : Res := next (putX s r w)

/-- The element group of the instruction in issue at which a pre-emption (R347), which waits while INH is set (R341) and, for
the instruction that `replay` runs, until `replay` retires (R358), or a lane's retirement (R373) stops it. -/
def stopGroup (h : Hart) : Option Nat :=
  match (if inh h || h.replay.isSome then none else h.stop), h.pause with
  | some a, some b => some (Nat.min a b)
  | some a, none => some a
  | none, b => b

/-- The instruction does not complete: the hart parks at it, and it reissues whole. -/
def park (s : State) (p : Park) : Res := .next (setH s { s.h with run := .parked p, second := false })

/-- The instruction stalls on a pending register, a range or an entry (R297, R303), and issues again later. -/
def stall (s : State) : Res := park s .stall

/-- R351: the retire trace entry of an instruction. -/
def traceRetire (s : State) (kind et first last sp live : Nat) : State :=
  let h := s.h
  if h.ringctl.getLsbD 0 then
    let e := (h.pc.toNat / 4 * 4 + kind) + (first % 2 ^ 57 + et * 2 ^ 57) * 2 ^ 64 + (last % 2 ^ 57 + sp * 2 ^ 57) * 2 ^ 128 +
      (h.vl % 2 ^ 15 + live % 2 ^ 15 * 2 ^ 15 + s.clk % 2 ^ 34 * 2 ^ 30) * 2 ^ 192
    setH s { h with ring := (BitVec.ofNat 256 e :: h.ring).take Config.traceEntries, ringpos := h.ringpos + 1
                    ringsince := h.ringsince + 1 }
  else s

end Sys2Proof.Machine
end

