-- ==== Sys2Proof/Machine/Flags.lean ====
section
/-! DEFINITION. The FLAGS register: sticky flags (R11, R51), DEADREAD (R28), the prune count (R185), enables (R183), and
the arithmetic trap of a scalar instruction (R114). -/

namespace Sys2Proof.Machine

/-- R51: the flags raised join the sticky bits. -/
def orFlags (h : Hart) (fl : Fl) : Hart := { h with flags := h.flags ||| fl.setWidth 64 }

/-- Those of the flags that FENABLE enables. -/
def enabledOf (h : Hart) (fl : Fl) : Fl := fl &&& h.fenable.setWidth 5

def setDeadRead (h : Hart) : Hart := { h with flags := h.flags ||| 0x20 }

/-- R185: n more suppressed elements; the count saturates. -/
def addPruned (h : Hart) (n : Nat) : Hart :=
  if n = 0 then h
  else
    let c := Nat.min (h.flags.toNat / 2 ^ 32 + n) (2 ^ 32 - 1)
    { h with flags := BitVec.ofNat 64 (h.flags.toNat % 2 ^ 32 + c * 2 ^ 32) ||| 0x40 }

/-- R340, cause 13: an arithmetic trap. -/
def arithTrap (fl : Fl) (elem : Nat) : Trap := { code := 13, val := fl.setWidth 64, val2 := BitVec.ofNat 64 elem }

/-- R114: the end of a scalar float instruction: FLAGS first, then the trap of an enabled flag with xD unwritten, or xD
and retirement. -/
def finishFloat (s : State) (d : Reg) (r : Word) (fl : Fl) : Res :=
  let s := setH s (orFlags s.h fl)
  if enabledOf s.h fl != 0 then trap s (arithTrap (enabledOf s.h fl) 0) else nextX s d r

end Sys2Proof.Machine
end

