-- ==== Sys2Proof/Machine/Operands.lean ====
section
/-! DEFINITION. Vector and weight operands: elements of registers and groups (R19, R20), dead and bound registers (R28,
R267), effective weights and liveness (R25, R26, R344), rounding modes (R45, R50), the B operand (R62), capacity (R134). -/

namespace Sys2Proof.Machine

/-- R45, R50: the mode in force. RMODE = 5 rounds under RNE where EFB is not allowed. -/
def rmOf (h : Hart) (rm : RM) (efbOk : Bool) : RM :=
  let m := match rm with
    | .dyn => match h.rmode.toNat with
      | 0 => RM.rne | 1 => .rtz | 2 => .rup | 3 => .rdn | 4 => .rto | _ => .efb
    | m => m
  if m == .efb && !efbOk then .rne else m

/-- R113, R145: the conversions that EFB does not touch: ET = ET2, or between integer formats. Every other one adds EFR and
rewrites it, where its rounding is exact too (R48; log 41, DEDUCED). -/
def exactConv (et et2 : ET) : Bool :=
  let whole (e : ET) : Bool := e.isInt && e != .t2 && e != .b1
  et == et2 || (whole et && whole et2)

/-! ### Vector register elements -/

/-- Bytes of one vector register of the hart. -/
def vBytes (h : Hart) : Nat := h.lanes * Config.laneBytes

def vImg (h : Hart) (p : Nat) : VImage := h.v.toList.getD p 0
def isDead (h : Hart) (p : Nat) : Bool := h.dead.getLsbD p
def isOpen (h : Hart) (p : Nat) : Bool := h.opened.getLsbD p
def bindingOf (h : Hart) (p : Nat) : Option Binding := h.binds.find? (fun b => b.reg == p)

/-- The physical register that holds byte `o` of the register or group named `n`. -/
def vRegOf (h : Hart) (n o : Nat) : Nat := vPhys h (n + o / vBytes h)

/-- `b` bytes at byte `o` of a register image. -/
def imgGet (v : VImage) (o b : Nat) : Nat := v.toNat >>> (8 * o) % 2 ^ (8 * b)
def imgPut (v : VImage) (o b code : Nat) : VImage :=
  BitVec.ofNat 196608 (v.toNat - imgGet v o b <<< (8 * o) + (code % 2 ^ (8 * b)) <<< (8 * o))

/-- Element `i` of `b` bytes of the register or group named `n` as it stands; a dead register reads as zero. -/
def vElem (h : Hart) (n b i : Nat) : Nat :=
  let p := vRegOf h n (i * b)
  if isDead h p then 0 else imgGet (vImg h p) (i * b % vBytes h) b

/-- Element `i` of the head strip of a binding. -/
def Binding.headElem (bd : Binding) (b i : Nat) : Nat :=
  match bd.queue with
  | st :: _ => st.elems.getD i 0 % 2 ^ (8 * b)
  | [] => 0

/-- A source element of a register other than v0: an operand whose first register is bound reads the head strip; a
later register of a group that is bound reads its own, from its first element (R267; log 37, DEDUCED). -/
def vSrcElem (h : Hart) (n b i : Nat) : Nat :=
  match bindingOf h (vPhys h n) with
  | some bd => bd.headElem b i
  | none =>
    match bindingOf h (vRegOf h n (i * b)) with
    | some bd => bd.headElem b (i * b % vBytes h / b)
    | none => vElem h n b i

/-- Writing physical register `p` whole makes it live; v0 keeps nothing. -/
def vPutImg (h : Hart) (p : Nat) (v : VImage) : Hart :=
  if p = 0 then h
  else { h with v := h.v.setIfInBounds p v, dead := h.dead &&& ~~~ BitVec.ofNat 64 (2 ^ p) }

/-- Writing element `i`: a dead register becomes live, its other bytes zero (R28). Of a group that R20 calls one register, only
the registers that an element reaches become live (log 51, DESIGN CHOICE). -/
def vPutElem (h : Hart) (n b i code : Nat) : Hart :=
  let p := vRegOf h n (i * b)
  let img := if isDead h p then 0 else vImg h p
  vPutImg h p (imgPut img (i * b % vBytes h) b code)

/-- R28: a marked register becomes dead; an open or bound one does not (R253, R267). -/
def markDead (h : Hart) (p : Nat) : Hart :=
  if p = 0 || isOpen h p || (bindingOf h p).isSome then h
  else { h with dead := h.dead ||| BitVec.ofNat 64 (2 ^ p) }

/-- R20: capacity in elements of a register or group at `b` bytes. -/
def capacity (h : Hart) (g b : Nat) : Nat := vBytes h * g / b

/-! ### Weights and liveness -/

/-- R25: the effective weight. -/
def ewOf (h : Hart) (w : BitVec 5) (i : Nat) : Nat :=
  if w = 31 then 0x8000
  else if w = 0 then wCode (wGet h 0) i
  else wtMul (wCode (wGet h 0) i) (wCode (wGet h (wPhys h w.toNat)) i)

/-- R26, without the bound by VL. -/
def aboveTheta (h : Hart) (e : Nat) : Bool := h.theta.toNat < e

/-- R26 and, where the instruction runs under FMASK alone and is of kind L, R344. -/
def liveAt (h : Hart) (w : BitVec 5) (kindL : Bool) (i : Nat) : Bool :=
  decide (i < h.vl) && aboveTheta h (ewOf h w i) && (!(h.fmrun && kindL) || h.fmask.getLsbD i)

/-- R344: under FMASK alone an element that is not named is neither accessed nor written. -/
def untouched (h : Hart) (kindL : Bool) (i : Nat) : Bool := h.fmrun && kindL && !h.fmask.getLsbD i

/-- The elements from VSTART to VL − 1. -/
def elemRange (h : Hart) : List Nat := (List.range h.vl).drop h.vstart

/-! ### Immediates and the B operand (R62) -/

/-- An immediate as an element code of a type. A signalling NaN in it becomes the canonical NaN here, before the operation,
which so raises no NV (R39, R62; log 43, DESIGN CHOICE). -/
def immCode (et : ET) (rm : RM) (v : BitVec 32) : Nat :=
  match et.cls with
  | .float => (encFloat et false rm (decFloat (fmtOf .f32) v.toNat)).1
  | .weight => wtRead v.toNat
  | _ => if et.signed then (v.signExtend 64).toNat % 2 ^ et.bits else v.toNat % 2 ^ et.bits

/-- A splatted B operand's code, or none where B is a vector register. -/
def splatCode (h : Hart) (b : VSrc) (et : ET) (rm : RM) : Option Nat :=
  match b with
  | .reg _ => none
  | .scalar r => some ((xGet h r).toNat % 2 ^ et.bits)
  | .imm v => some (immCode et rm v)

/-- A scalar or immediate amount: xB unsigned, or IMM zero-extended (R150, R173), for the index of `vins` and `vext` whatever ET
is (R152; log 53, DESIGN CHOICE). -/
def amountOf (h : Hart) : VSrc → Nat
  | .reg _ => 0
  | .scalar r => (xGet h r).toNat
  | .imm v => v.toNat

/-- A scalar result of a float or integer type (R105, R147, R152). -/
def scalarOf (et : ET) (code : Nat) : Word :=
  if et.cls == .int && et.signed then BitVec.ofInt 64 (decInt et code).1 else BitVec.ofNat 64 (codeOf et code)

end Sys2Proof.Machine
end

