-- ==== Sys2Proof/Machine/Access.lean ====
section
/-! DEFINITION. Accesses to memory and to windows: reads and writes at a place (R252 to R254, R352), runs of bytes over
several pages, progress records (R345), and the address-range interlock (R302, R303). -/

namespace Sys2Proof.Machine

/-! ### Progress records (R345) -/

def Cmd.stateCode (c : Cmd) : Nat :=
  match c.st with
  | .notBegun => 0 | .running => 1 | .suspended => 2 | .ended => 3

/-- CONFIG of R345, 128 bits. -/
def cfgBits (m : MatCfg) : Nat :=
  m.m + m.n * 2 ^ 8 + (if m.ta then 2 ^ 16 else 0) + (if m.tb then 2 ^ 17 else 0) + m.k.toNat * 2 ^ 32 +
    m.sa.toNat * 2 ^ 64 + m.sb.toNat * 2 ^ 96

/-- The low `n` bytes of a number, lowest first. -/
def leList (n v : Nat) : List Byte := (List.range n).map (fun i => BitVec.ofNat 8 (v / 256 ^ i))

/-- A waiting trap in the attachment of its command, 24 bytes. -/
def trapBytes (p : Pend) : List Byte :=
  leList 1 p.code ++ leList 7 ((if p.e then 1 else 0) + (if p.ovf then 2 else 0)) ++ leList 8 p.val.toNat ++ leList 8 p.val2.toNat

/-- The attached engine state of a command (log 12, DESIGN CHOICE): first 8 bytes with the bank of its token, whether it has
written it and only its traps wait (`spent`), how many of those there are, and the STAMP of its issue; then those traps; then a
converting command's rounding mode, with the converted A of `mmulc`, element by element or block by block, or the register of
`mout`; the place, the slabs and the tiles of its hart at issue for a copy; the count of a fibre command; the count and the walk
stack of `pout`. -/
def attachBytes (c : Cmd) (spent : Bool) (ps : List Pend) : List Byte :=
  let le := leList
  le 8 ((if c.bankS then 1 else 0) + (if spent then 2 else 0) + ps.length % 2 ^ 24 * 2 ^ 8 + c.stamp.toNat * 2 ^ 32) ++
  ps.flatMap trapBytes ++
  match c.instr with
  | .mmulc _ _ _ _ _ et _ _ _ => le 8 c.rm.code.toNat ++ le 8 c.conv.length ++ c.conv.flatMap (le (if et.isBlock then et.blockBytes else et.regBytes))
  | .cpy .. | .cpys .. =>
    le 8 (c.home.gid + 1) ++ le 8 c.home.slabs.length ++ le 8 c.home.tiles.length ++ (c.home.slabs ++ c.home.tiles).flatMap (le 8)
  | .mout .. => le 8 c.rm.code.toNat ++ le 8 (c.conv.getD 0 0)
  | .pout .. => le 8 c.count ++ le 8 c.walk.length ++ c.walk.flatMap (fun p => le 16 p.toNat)
  | .fisect .. | .funion .. | .fcount .. | .fsplit .. => le 8 c.count
  | _ => []

/-- The 128 bytes of a progress record as a number, with ATTSIZE and ATTOFF. -/
def progressRecord (c : Cmd) (size off : Nat) : Nat :=
  let slot := match encode c.instr with | some w => w.toNat | none => 0
  slot + c.pc.toNat * 2 ^ 128 + c.unit * 2 ^ 192 +
    ((List.range 6).foldl (fun acc i => acc + (c.ops.getD i 0).toNat * 2 ^ (64 * i)) 0) * 2 ^ 256 +
    cfgBits c.cfg * 2 ^ 640 + c.stateCode * 2 ^ 768 + c.status * 2 ^ 776 + c.flags.toNat * 2 ^ 784 + c.entry * 2 ^ 792 +
    c.efr.toNat * 2 ^ 800 + size * 2 ^ 832 + off * 2 ^ 896 +
    (if c.st == .suspended then c.faultVa.toNat else 0) * 2 ^ 960

/-! ### Control windows (R352) -/

/-- Entry `k` of the retire trace ring as the window numbers it, 0 the oldest of the 256; KIND 3 where never written. -/
def ringEntry (h : Hart) (k : Nat) : Nat :=
  match h.ring[255 - k]? with
  | some e => e.toNat
  | none => 3

def breakRequest : Pend := { code := 18, val := 0, val2 := 1, e := false, ovf := false, ord := 0 }

/-- STOPCTL as read. -/
def stopctlRead (h : Hart) : Word :=
  boolBit (h.pend.contains breakRequest) 0 ||| boolBit (h.mode == .S) 1 ||| boolBit (h.sip.getLsbD 1) 2
where
  boolBit (b : Bool) (k : Nat) : Word := if b then BitVec.ofNat 64 (2 ^ k) else 0

/-- STOPCTL.HALT and DOOR set. -/
def stopHalt (h : Hart) : Hart := if h.pend.contains breakRequest then h else { h with pend := h.pend ++ [breakRequest] }
def stopDoor (h : Hart) : Hart := { h with sip := h.sip ||| 2 }
def stopctlWrite (h : Hart) (w : Word) : Hart :=
  let h := if w.getLsbD 0 then stopHalt h else h
  if w.getLsbD 2 then stopDoor h else h

/-- The 8-byte unit at a multiple of 8 of a hart's control window. -/
def ctlUnit (s : State) (gid off : Nat) : Word :=
  match findHart s gid with
  | none => 0
  | some h =>
    if off < 0x2000 then csrRead s h (off / 8)
    else if off = 0x2000 then stopctlRead h
    else if 0x4000 ≤ off ∧ off < 0x6000 then BitVec.ofNat 64 (ringEntry h ((off - 0x4000) / 32) / 2 ^ (8 * (off % 32)))
    else if 0x8000 ≤ off ∧ off < 0xA000 then
      match h.cmds.find? (fun c => c.entry == (off - 0x8000) / 128) with
      | some c => BitVec.ofNat 64 (progressRecord c (attachBytes c false []).length 0 / 2 ^ (8 * (off % 128)))
      | none => 0
    else 0

/-- A write of one whole unit of a control window. -/
def ctlUnitWrite (s : State) (gid off : Nat) (w : Word) : State :=
  if off < 0x2000 then mapHart s gid (fun h => csrWrite h (off / 8) w)
  else if off = 0x2000 then mapHart s gid (fun h => stopctlWrite h w)
  else s

/-- `n` bytes of a control window from `off`. -/
def ctlRead (s : State) (gid off n : Nat) : Nat :=
  (List.range n).foldr (fun i acc =>
    (ctlUnit s gid ((off + i) / 8 * 8)).toNat / 2 ^ (8 * ((off + i) % 8)) % 256 + 256 * acc) 0

/-- A write of `n` bytes: each unit that it touches is read, merged and written (log 13, DEDUCED), so that the bytes that are
not written keep their bits (R225); those of SIP, which a written 1 clears, are written 0. -/
def ctlWrite (s : State) (gid off n v : Nat) : State :=
  (List.range ((off + n + 7) / 8 - off / 8)).foldl (fun s j =>
    let u := (off / 8 + j) * 8
    let old := if u = 8 * 0x30D then 0 else (ctlUnit s gid u).toNat
    let new := (List.range 8).foldr (fun b acc =>
      let a := u + b
      (if off ≤ a ∧ a < off + n then v / 2 ^ (8 * (a - off)) % 256 else old / 2 ^ (8 * b) % 256) + 256 * acc) 0
    ctlUnitWrite s gid u (BitVec.ofNat 64 new)) s

/-! ### Reads and writes at a place -/

def locRead (s : State) (l : Loc) (n : Nat) : Nat :=
  match l with
  | .mem a => memRead s.mem a n
  | .vwin gid reg b =>
    match findHart s gid with
    | some h => if isDead h reg then 0 else imgGet (vImg h reg) b n
    | none => 0
  | .wwin gid reg b =>
    match findHart s gid with
    | some h => (wGet h reg).toNat >>> (8 * b) % 2 ^ (8 * n)
    | none => 0
  | .ctl gid off => ctlRead s gid off n

/-- `n` bytes of a weight register from byte `b` replaced; the codes that they touch are held as they are read (R24). -/
def wPutBytes (w : WImage) (b n v : Nat) : WImage :=
  let x := w.toNat
  let y := BitVec.ofNat 393216 (x - (x >>> (8 * b) % 2 ^ (8 * n)) <<< (8 * b) + (v % 2 ^ (8 * n)) <<< (8 * b))
  (List.range (n / 2 + 1)).foldl (fun w j =>
    let i := b / 2 + j
    if 2 * i < b + n then wSetCode w i (wCode w i) else w) y

def locWrite (s : State) (l : Loc) (n v : Nat) : State :=
  match l with
  | .mem a => { s with mem := memWrite s.mem a n v }
  | .vwin gid reg b =>
    countEv (mapHart s gid (fun h => vPutImg h reg (imgPut (if isDead h reg then 0 else vImg h reg) b n v))) 0x21 1
  | .wwin gid reg b =>
    countEv (mapHart s gid (fun h => wPut h reg (wPutBytes (wGet h reg) b n v))) 0x21 1
  | .ctl gid off => ctlWrite s gid off n v

/-! ### Runs of bytes -/

/-- A run of bytes cut at multiples of 64 KiB. -/
def chunks (a : Word) (n : Nat) : List (Word × Nat) :=
  let f := Nat.min n (65536 - a.toNat % 65536)
  (List.range (1 + (n - f + 65535) / 65536)).filterMap (fun j =>
    let o := if j = 0 then 0 else f + (j - 1) * 65536
    let len := if j = 0 then f else Nat.min 65536 (n - o)
    if len = 0 then none else some (a + BitVec.ofNat 64 o, len))

/-- Reads a run as a number, little-endian, up to its first fault. -/
def readRun (s : State) (h : Hart) (sp : Space) (a : Word) (n : Nat) : Except Flt (Nat × State) :=
  (chunks a n).foldl (fun r (c, len) =>
    match r with
    | .error f => .error f
    | .ok (v, s) =>
      match place s h sp .load c len with
      | .error f => .error f
      | .ok (l, s) => .ok (v + locRead s l len <<< (8 * (c - a).toNat), s)) (.ok (0, s))

/-- Writes a run in ascending order up to its first fault; what is written stays. -/
def writeRun (s : State) (h : Hart) (sp : Space) (a : Word) (n v : Nat) : State × Option Flt :=
  (chunks a n).foldl (fun (s, e) (c, len) =>
    match e with
    | some f => (s, some f)
    | none =>
      match place s h sp .store c len with
      | .error f => (s, some f)
      | .ok (l, s) => (locWrite s l len (v >>> (8 * (c - a).toNat)), none)) (s, none)

/-! ### The interlock (R302, R303) -/

def Range.meet (a b : Range) : Bool := a.key == b.key && a.lo ≤ b.hi && b.lo ≤ a.hi && (a.wr || b.wr)

/-- A stretch of a run: the store `key` of Range it lies in, where it begins there, its offset in the run, its bytes. -/
structure Piece where
  key : Nat
  at_ : Nat
  off : Nat
  len : Nat
  deriving DecidableEq, Repr

/-- The stretch of the `n` bytes at `lo` of a space, which stand at offset `o` of a run, that lies in the `size` bytes at `base`,
which stand at `at_` of a store. -/
def clipTo (lo n o key base size at_ : Nat) : Option Piece :=
  let l := Nat.max lo base
  let u := Nat.min (lo + n) (base + size)
  if l < u then some ⟨key, at_ + (l - base), o + (l - lo), u - l⟩ else none

/-- A run cut where addresses wrap: address, offset in the run, bytes of each part. -/
def wrapRun (lo n : Nat) : List (Nat × Nat × Nat) :=
  let m := Nat.min n (2 ^ 64)
  if lo + m ≤ 2 ^ 64 then [(lo, 0, m)] else [(lo, 0, 2 ^ 64 - lo), (0, 2 ^ 64 - lo, lo + m - 2 ^ 64)]

/-- R302: a run by its places: G by virtual addresses, scratchpads and accumulator stores by their physical offsets.
Register and control windows have one name only, their address in space N. -/
def piecesOf (h : Hart) (sp : Space) (a : Word) (n : Nat) : List Piece :=
  let core := coreOf h.gid
  if n = 0 then []
  else (wrapRun a.toNat n).flatMap (fun (lo, o, n) =>
    let clip := clipTo lo n o
    match sp with
    | .G => [⟨0, lo, o, n⟩]
    | .L => h.slabs.zipIdx.filterMap (fun (p, j) =>
        clip 1 (j * Config.slabBytes) Config.slabBytes (scrAddr core (p * Config.slabBytes)))
    | .C => h.tiles.zipIdx.filterMap (fun (p, j) =>
        clip 2 (j * Config.tileBytes) Config.tileBytes (accAddr core (p * Config.tileBytes)))
    | .X => (List.range Config.coresPerDie).filterMap (fun c =>
        clip 1 (c * 2 ^ 43) (2 ^ 23) (scrAddr (dieOf h.gid * Config.coresPerDie + c) 0))
    | .N => ⟨3, lo, o, n⟩ :: (List.range Config.cores).flatMap (fun g =>
        let base := g / Config.coresPerDie * 2 ^ 38 + g % Config.coresPerDie * 2 ^ 33
        (clip 1 base (2 ^ 23) (scrAddr g 0)).toList ++ (clip 2 (base + 3 * 2 ^ 30) (2 ^ 19) (accAddr g 0)).toList))

/-- R302: the ranges of `n` bytes at an address. -/
def rangesOf (h : Hart) (sp : Space) (a : Word) (n : Nat) (wr : Bool) : List Range :=
  (piecesOf h sp a n).map (fun p => ⟨p.key, p.at_, p.at_ + p.len - 1, wr⟩)

/-- R303: an access of the hart conflicts with a command that has not ended. -/
def interlocked (h : Hart) (rs : List Range) : Bool :=
  h.cmds.any (fun c => c.ranges.any (fun r => rs.any (Range.meet r)))

/-! ### Scalar accesses in space G -/

/-- An access of `n` bytes at `ea`: alignment `al`, the interlock, translation, then `k` at the physical place. -/
def gAccess (s : State) (acc : Acc) (ea : Word) (al n : Nat) (k : Nat → State → Res) : Res :=
  if ea.toNat % al != 0 then trap s (misTrap ea none)
  else if interlocked s.h [⟨0, ea.toNat, ea.toNat + n - 1, acc == .store⟩] then stall (countEv s 0x14 1)
  else match translate s s.h acc ea n with
    | .error f => trap s (memTrap f none)
    | .ok (p, s) => k p s

end Sys2Proof.Machine
end

