-- ==== Sys2Proof/Machine/ScalarMem.lean ====
section
/-! DEFINITION. Scalar memory instructions, OP 0x80 (R115 to R117). -/

namespace Sys2Proof.Machine

def effAddr (h : Hart) (a : Reg) (disp : BitVec 32) : Word := xGet h a + disp.signExtend 64

/-- A value of `et` as a scalar register takes it: sign- or zero-extended (R115, R239). -/
def extendTo (et : ET) (v : Nat) : Word := scalarOf et v

def execLd (d a : Reg) (disp : BitVec 32) (et : ET) (s : State) : Res :=
  let n := et.memBits / 8
  gAccess s .load (effAddr s.h a disp) n n (fun p s => nextX s d (extendTo et (memRead s.mem p n)))

def execSt (c a : Reg) (disp : BitVec 32) (et : ET) (s : State) : Res :=
  let n := et.memBits / 8
  gAccess s .store (effAddr s.h a disp) n n
    (fun p s => next { s with mem := memWrite s.mem p n ((xGet s.h c).toNat % 2 ^ (8 * n)) })

/-- R116: a hint, with no effect. -/
def execPfch (_a : Reg) (_disp : BitVec 32) (s : State) : Res := next s

end Sys2Proof.Machine
end

