-- ==== Sys2Proof/Machine/Control.lean ====
section
/-! DEFINITION. Branches, jumps and calls, OP 0x28 and 0x29 (R118), loops, OP 0x2A (R120 to R130). -/

namespace Sys2Proof.Machine

/-- A taken transfer. -/
def transfer (s : State) (target : Word) : Res := .next (setH s (retireTo s.h target))

/-! ### Branches, jumps, calls -/

def bHolds (c : Cond) (a b : Word) : Bool :=
  match c with
  | .eq => a == b
  | .ne => a != b
  | .lt => a.slt b
  | .ge => !a.slt b
  | .ltu => a.ult b
  | .geu => !a.ult b
  | .le => !b.slt a
  | .gt => b.slt a
  | .leu => !b.ult a
  | .gtu => b.ult a
  | .un | .ord => false

def execBCond (cond : Cond) (a b : Reg) (disp : BitVec 32) (s : State) : Res :=
  if bHolds cond (xGet s.h a) (xGet s.h b) then transfer s (slotPlus s.h.pc disp.toInt) else next s
def execJ (disp : BitVec 32) (s : State) : Res := transfer s (slotPlus s.h.pc disp.toInt)
def execJr (a : Reg) (s : State) : Res := transfer s (xGet s.h a)
def execCall (d : Reg) (disp : BitVec 32) (s : State) : Res :=
  transfer (putX s d (seqNext s.h.pc)) (slotPlus s.h.pc disp.toInt)
/-- xA is read before xD is written. -/
def execCallr (d a : Reg) (s : State) : Res := transfer (putX s d (seqNext s.h.pc)) (xGet s.h a)
/-- `jr`, with an entry in the retire trace (R351). -/
def execRet (a : Reg) (s : State) : Res :=
  transfer (traceRetire s 2 0 (xGet s.h a).toNat 0 0 0) (xGet s.h a)
/-- R119: the end of an issue turn, with no architectural effect. -/
def execYield (s : State) : Res := next s

/-! ### Loop levels -/

/-- A loop-nesting trap (R340, cause 14). -/
def loopTrap (s : State) (check : Nat) : Res := trap s { code := 14, val := BitVec.ofNat 64 check, val2 := 0 }
/-- An arm-stack trap (cause 15). -/
def armTrap (s : State) (why : Nat) : Res :=
  trap s { code := 15, val := BitVec.ofNat 64 s.h.armsp, val2 := BitVec.ofNat 64 why }

/-- R121: the weights that a rotating declaration writes. -/
def declareRot (h : Hart) (e : Nat → Nat) : Hart :=
  let put (h : Hart) (n : Nat) (f : Nat → Nat) : Hart :=
    let p := wPhys h n
    wPut h p (wFill (wGet h p) h.vlcap f)
  (List.range 7).foldl (fun h j => put h (17 + j) (fun _ => 0)) (put h 16 e)

/-- R121. -/
def execLoop (k : BitVec 2) (a : Reg) (endDisp : BitVec 20) (cw : BitVec 5) (stages : BitVec 3) (rot : Bool) (s : State) :
    Res :=
  let h := s.h
  let K := k.toNat
  let tail := slotPlus h.pc endDisp.toNat
  let up := lvlGet h (K - 1)
  if K != activeLevels h then loopTrap s 1
  else if K > 0 && !(slotIndex up.top ≤ slotIndex h.pc && slotIndex tail ≤ slotIndex up.tail) then loopTrap s 2
  else
    let w0 := wGet h 0
    let c := wProd w0 w0 (wGet h (wPhys h cw.toNat)) h.vlcap
    if xGet h a != 0 && (cw == 0 || anyAbove c h.vl h.theta) then
      let h := lvlSet h K
        { act := true, count := xGet h a, top := seqNext h.pc, tail := tail, stages := stages.setWidth 4 + 1, cw := cw
          rot := rot, epi := 0, asp := BitVec.ofNat 4 h.armsp
          saved := if cw != 0 then w0 else (lvlGet h K).saved }
      let h := if cw != 0 && !rot then wPut h 0 c else h
      let h := if rot then declareRot h (fun i => if cw != 0 then wRaw c i else 0x8000) else h
      .next (setH s (retireAt h (seqNext h.pc)))
    else .next (setH s (retireAt h (seqNext tail)))

/-- R123. -/
def execLbreak (k : BitVec 2) (s : State) : Res :=
  let h := s.h
  let l := lvlGet h k.toNat
  if !l.act then loopTrap s 4
  else if h.armsp != l.asp.toNat then armTrap s 3
  else
    let ended := ([0, 1, 2, 3].filter (fun j => decide (k.toNat ≤ j) && (lvlGet h j).act))
    let h1 := ended.foldl (fun h j => lvlSet h j { lvlGet h j with act := false }) h
    let h2 := match ended.find? (fun j => (lvlGet h j).cw != 0) with
      | some j => wPut h1 0 (wClean (lvlGet h j).saved h.vlcap)
      | none => h1
    .next (setH s (retireAt h2 (seqNext l.tail)))

/-- R125. -/
def execCbase (a : Reg) (imm : BitVec 4) (s : State) : Res :=
  next (setH s { s.h with cbase := (xGet s.h a).setWidth 4 + imm })

/-! ### Spilling loop state (R128 to R130) -/

/-- The 32 bytes of one level in the area of R128. -/
def levelBits (l : Level) : Nat :=
  l.count.toNat + l.top.toNat * 2 ^ 64 + l.tail.toNat * 2 ^ 128 + (if l.act then 2 ^ 192 else 0) +
    (if l.rot then 2 ^ 193 else 0) + l.stages.toNat * 2 ^ 200 + l.cw.toNat * 2 ^ 208 + l.epi.toNat * 2 ^ 216 +
    l.asp.toNat * 2 ^ 224

/-- Bytes 0 to 255 of the area. -/
def loopHeader (h : Hart) : Nat :=
  levelBits (lvlGet h 0) + levelBits (lvlGet h 1) * 2 ^ 256 + levelBits (lvlGet h 2) * 2 ^ 512 +
    levelBits (lvlGet h 3) * 2 ^ 768 + h.cbase.toNat * 2 ^ 1024 + h.armsp * 2 ^ 1032 + h.vlcap * 2 ^ 1056

/-- The first `n` codes of a vector, as bytes. -/
def vecBits (w : WImage) (n : Nat) : Nat := w.toNat % 2 ^ (16 * n)

/-- The vectors of the area that hold something, by index: levels with a continuation weight, entries below ARMSP. -/
def loopVectors (h : Hart) (whole : Bool) : List (Nat × WImage) :=
  ([0, 1, 2, 3].filterMap (fun L =>
    let l := lvlGet h L
    if whole || (l.act && l.cw != 0) then some (L, l.saved) else none)) ++
  ((List.range 8).flatMap (fun e =>
    let a := h.arms.toList.getD e Arm.zero
    if whole || e < h.armsp then [(4 + 2 * e, a.sa), (5 + 2 * e, a.sc)] else []))

/-- R129. -/
def execLspill (a : Reg) (disp : BitVec 32) (s : State) : Res :=
  let h := s.h
  let ea := effAddr h a disp
  let V := h.vlcap * 2
  if ea.toNat % 64 != 0 then trap s (misTrap ea none)
  else if interlocked h (rangesOf h .G ea (256 + 20 * V) true) then stall (countEv s 0x14 1)
  else
    let (s1, e) := ((0, 256, loopHeader h) :: (loopVectors h false).map (fun (j, w) => (256 + j * V, V, vecBits w h.vlcap))).foldl
      (fun (s, e) (off, n, v) =>
        match e with
        | some f => (s, some f)
        | none => writeRun s h .G (ea + BitVec.ofNat 64 off) n v) (s, none)
    match e with
    | some f => trap s1 (memTrap f none)
    | none =>
      let h1 := s1.h
      next (setH s1 { h1 with loops := h1.loops.map (fun l => { l with act := false }), armsp := 0 })

/-- A level read from its 32 bytes; its saved vector is set apart. -/
def levelOfBits (b : Nat) (saved : WImage) : Level :=
  { act := b.testBit 192, count := BitVec.ofNat 64 b, top := BitVec.ofNat 64 (b / 2 ^ 64)
    tail := BitVec.ofNat 64 (b / 2 ^ 128), stages := BitVec.ofNat 4 (b / 2 ^ 200), cw := BitVec.ofNat 5 (b / 2 ^ 208)
    rot := b.testBit 193, epi := BitVec.ofNat 3 (b / 2 ^ 216), asp := BitVec.ofNat 4 (b / 2 ^ 224), saved := saved }

/-- R130: the header of an area is refused. -/
def loopHeaderBad (hd : Nat) : Bool :=
  let byte (i : Nat) : Nat := hd / 2 ^ (8 * i) % 256
  let word (i : Nat) : Word := BitVec.ofNat 64 (hd / 2 ^ (8 * i))
  let actv (L : Nat) : Bool := byte (32 * L + 24) % 2 == 1
  ([0, 1, 2, 3].any (fun L =>
      byte (32 * L + 24) / 4 != 0 || byte (32 * L + 25) == 0 || 8 < byte (32 * L + 25) || 23 < byte (32 * L + 26) ||
        7 < byte (32 * L + 27) || 8 < byte (32 * L + 28) || byte (32 * L + 29) != 0 || byte (32 * L + 30) != 0 ||
        byte (32 * L + 31) != 0 || !isSlot (word (32 * L + 8)) || !isSlot (word (32 * L + 16)))) ||
    byte 128 / 16 != 0 || 8 < byte 129 || byte 130 != 0 || byte 131 != 0 || hd / 2 ^ 1088 % 2 ^ 960 != 0 ||
    [1, 2, 3].any (fun L => actv L && !actv (L - 1))

/-- A vector of `n` saved elements restored into one of `cap`: the elements past the saved ones are 0 (R130). -/
def restoreVec (old : WImage) (v n cap : Nat) : WImage :=
  wFill old cap (fun i => if i < n then wtRead (v / 2 ^ (16 * i) % 65536) else 0)

/-- The vectors that a header says `lspill` wrote. -/
def headerVectors (hd : Nat) : List Nat :=
  let byte (i : Nat) : Nat := hd / 2 ^ (8 * i) % 256
  ([0, 1, 2, 3].filter (fun L => byte (32 * L + 24) % 2 == 1 && byte (32 * L + 26) != 0)) ++
    ((List.range 8).flatMap (fun e => if e < byte 129 then [4 + 2 * e, 5 + 2 * e] else []))

/-- The hart with the loop state of an area: its header and the vectors found. -/
def fillLoops (h : Hart) (hd : Nat) (vecs : List (Nat × Nat)) : Hart :=
  let n := hd / 2 ^ 1056 % 2 ^ 32
  let vec (j : Nat) (old : WImage) : WImage :=
    match vecs.find? (fun p => p.1 == j) with
    | some p => restoreVec old p.2 n h.vlcap
    | none => old
  { h with
    loops := Vector.ofFn (fun L : Fin 4 => levelOfBits (hd / 2 ^ (256 * L.val)) (vec L.val (lvlGet h L.val).saved))
    arms := Vector.ofFn (fun e : Fin 8 =>
      let a := h.arms.toList.getD e.val Arm.zero
      { sa := vec (4 + 2 * e.val) a.sa, sc := vec (5 + 2 * e.val) a.sc })
    cbase := BitVec.ofNat 4 (hd / 2 ^ 1024)
    armsp := hd / 2 ^ 1032 % 256 }

/-- R130. -/
def execLfill (a : Reg) (disp : BitVec 32) (s : State) : Res :=
  let h := s.h
  let ea := effAddr h a disp
  if activeLevels h != 0 || h.armsp != 0 then loopTrap s 5
  else if ea.toNat % 64 != 0 then trap s (misTrap ea none)
  else if interlocked h (rangesOf h .G ea (256 + 40 * h.vlcap) false) then stall (countEv s 0x14 1)
  else
    match readRun s h .G ea 256 with
    | .error f => trap s (memTrap f none)
    | .ok (hd, s1) =>
      if loopHeaderBad hd then loopTrap s1 6
      else
        let n := hd / 2 ^ 1056 % 2 ^ 32
        let r : Except Flt (List (Nat × Nat) × State) := (headerVectors hd).foldl (fun r j =>
          match r with
          | .error f => .error f
          | .ok (vs, s) =>
            match readRun s h .G (ea + BitVec.ofNat 64 (256 + j * (n * 2))) (Nat.min n h.vlcap * 2) with
            | .error f => .error f
            | .ok (v, s) => .ok ((j, v) :: vs, s)) (.ok ([], s1))
        match r with
        | .error f => trap s1 (memTrap f none)
        | .ok (vs, s2) => .next (setH s2 (retireOn (fillLoops s2.h hd vs)))

end Sys2Proof.Machine
end

