-- ==== Sys2Proof/Machine/Reliability.lean ====
section
/-! DEFINITION. Errors of the register files, the stacked DRAM and its channels, and what the device does about them (R372
to R376). The errors themselves come from outside: they are steps of the environment. -/

namespace Sys2Proof.Machine

/-- Brings the hart at a place in front, if there is one. An ended hart's registers stay as its end left them. -/
def bringFront (s : State) (gid : Nat) : State :=
  if s.h.gid == gid then s
  else match s.others.find? (fun h => h.gid == gid) with
    | none => s
    | some h =>
      { s with h := h, others := (if s.h.run == .absent then [] else [s.h]) ++ s.others.filter (fun o => o.gid != gid) }

/-- R190, R373: the lanes of a share that are not retired. -/
def liveLanes (retired : List Nat) (gid clusters : Nat) : Nat :=
  4 * clusters - (retired.filter (fun l => decide (coreOf gid * 32 + hartNo gid * 4 ≤ l) &&
    decide (l < coreOf gid * 32 + (hartNo gid + clusters) * 4))).length

/-- A trap waits; one like it that waits already stands for both (log 58, DESIGN CHOICE). -/
def addPend (s : State) (p : Pend) : State :=
  if s.h.pend.contains p then s else setH s { s.h with pend := s.h.pend ++ [p] }
/-- The machine check of R372. -/
def rfCheck : Pend := { code := 21, val := 0, val2 := 1, e := false, ovf := false, ord := 0 }
/-- The lanes-short trap of a share left with no live lane (R373). -/
def lanesGone : Pend := { code := 20, val := 1, val2 := 0, e := false, ovf := false, ord := 0 }

/-- R373: a hard error of a lane, at element group `at_` of the instruction in issue; the second within 2^32 clk retires it,
and the instruction stops there. -/
def hardError (s : State) (lane at_ : Nat) : State :=
  let g := coreOf s.h.gid * 32 + lane % 32
  if s.d.retired.contains g then s
  else if s.d.hard.any (fun (l, t) => l == g && decide (s.clk < t + 2 ^ 32)) then
    let s := { s with d := { s.d with retired := g :: s.d.retired, hard := s.d.hard.filter (fun p => p.1 != g) } }
    let s := countEv s 0x1F 1
    let s := setH s { s.h with pause := some at_ }
    if liveLanes s.d.retired s.h.gid s.h.clusters = 0 then addPend s lanesGone else s
  else { s with d := { s.d with hard := (g, s.clk) :: s.d.hard.filter (fun p => p.1 != g) } }

/-- R372: a parity mismatch is rebuilt and counted; in a share with a lane just retired there is no parity (R373; log 48,
DEDUCED). -/
def rfError (s : State) (gid lane : Nat) (hard two : Bool) (at_ : Nat) : State :=
  let s := bringFront s gid
  if s.h.gid != gid || !hartExists s.h || lane < hartNo gid * 4 || (hartNo gid + s.h.clusters) * 4 ≤ lane then s
  else if s.h.lanes != liveLanes s.d.retired gid s.h.clusters then (if hard then addPend s rfCheck else s)
  else if two then addPend s rfCheck
  else
    let s := countEv s 0x1E 1
    if hard then hardError s lane at_ else s

/-! ### Stacked DRAM -/

/-- Counts `n` events of a die that its sensors report as well (R405). -/
def tally (s : State) (die event n : Nat) : State :=
  countDie { s with d := { s.d with tallies := tabSet s.d.tallies (die * 64 + event) (tabGet s.d.tallies (die * 64 + event) 0 + n) } }
    die event n

/-- The `n` bytes that hold an address, at a multiple of `n`, become uncorrectable: a word of an on-chip store (R372), of the
array (R374), or a unit of the bus (R375). -/
def poisonWord (s : State) (addr n : Nat) : State :=
  let w := (addr / n * n, n)
  { s with d := { s.d with poison := if s.d.poison.contains w then s.d.poison else s.d.poison ++ [w] } }

/-- A log is a ring of 64 records (R376), oldest first. -/
def pushLog (l : List LogRec) (r : LogRec) : List LogRec := (l ++ [r]).drop (l.length + 1 - 64)

/-- Channel of an address (R264). -/
def channelOf (addr : Nat) : Nat := addr / 256 % 32

/-- R374, R376. -/
def arrayError (s : State) (addr layer bank sym : Nat) (two : Bool) : State :=
  if !normalPa addr then s
  else
    let die := addr / 2 ^ 40 % 4
    let w := addr / 32
    let n := tabGet s.d.fixes w 0 + (if two then 0 else 1)
    let r : LogRec :=
      { stamp := BitVec.ofNat 64 s.clk, off := addr % 2 ^ 40 / 32 * 32, bytes := [channelOf addr, layer, bank, sym]
        kind := if two then 2 else 1, lane := 0, count := Nat.min n (2 ^ 32 - 1) }
    let d := { s.d with fixes := tabSet s.d.fixes w n
                        alog := s.d.alog.setIfInBounds die (pushLog (s.d.alog.toList.getD die []) r) }
    if two then poisonWord { s with d := d } addr 32 else tally { s with d := d } die 0x38 1

/-- The spare of a group has taken a lane: mismatches are no longer seen there (R375). -/
def groupSwapped (s : State) (die ch grp : Nat) : Bool := s.d.swapped.any (fun (a, b, c, _) => a == die && b == ch && c == grp)

def groupFails (s : State) (die ch grp : Nat) : Nat :=
  match s.d.grpFails.find? (fun (a, b, c, _) => a == die && b == ch && c == grp) with
  | some (_, _, _, n) => n
  | none => 0

/-- R375, R376: a bus-log record of a unit, of which `retries` attempts were repeats. -/
def busLog (s : State) (die ch grp off beat tries outcome lane fails : Nat) : State :=
  let r : LogRec :=
    { stamp := BitVec.ofNat 64 s.clk, off := off / 256 * 256, bytes := [ch, grp, beat, tries], kind := outcome, lane := lane
      count := Nat.min fails (2 ^ 32 - 1) }
  { s with d := { s.d with blog := s.d.blog.setIfInBounds die (pushLog (s.d.blog.toList.getD die []) r) } }

/-- A channel is quiesced for a diagnosis: no unit crosses it (R375). -/
def quiesced (s : State) (die ch : Nat) : Bool := s.d.diag.any (fun (a, b, _, _) => a == die && b == ch)

/-- The units of a group that have failed within 2^24 clk. -/
def recentFails (s : State) (die ch grp : Nat) : Nat :=
  (s.d.recent.filter (fun (a, b, c, t) => a == die && b == ch && c == grp && decide (s.clk < t + 2 ^ 24))).length

/-- R375: the group is diagnosed: it has failed 3 attempts of the unit, or this is the 32nd unit within 2^24 clk. -/
def diagnosed (s : State) (die ch grp tries : Nat) : Bool := tries == 4 || decide (31 ≤ recentFails s die ch grp)

/-- Attempts of a unit of which the first failed: 2 to 4 (R375). -/
def attempts (tries : Nat) : Nat := Nat.max 2 (Nat.min tries 4)

/-- A unit failed its parity in a group: retried, counted and logged; one that fails all four attempts is
uncorrectable. The group is diagnosed once the unit has completed, if it is to be. -/
def busFailure (s : State) (die ch grp off beat tries : Nat) (failed : Bool) : State :=
  let n := groupFails s die ch grp + 1
  let fails := (die, ch, grp, n) :: s.d.grpFails.filter (fun (a, b, c, _) => !(a == die && b == ch && c == grp))
  let diag := if diagnosed s die ch grp tries then s.d.diag ++ [(die, ch, grp, off)] else s.d.diag
  let recent := (die, ch, grp, s.clk) :: s.d.recent.filter (fun (_, _, _, t) => decide (s.clk < t + 2 ^ 24))
  let s := tally { s with d := { s.d with grpFails := fails, recent := recent, diag := diag } } die 0x39 (tries - 1)
  let s := busLog s die ch grp off beat tries (if failed then 2 else 1) 0xFF n
  if failed then poisonWord s (die * 2 ^ 40 + off) 256 else s

def busError (s : State) (addr grp beat tries : Nat) (failed : Bool) : State :=
  let die := addr / 2 ^ 40 % 4
  let ch := channelOf addr
  let n := attempts tries
  if !normalPa addr || groupSwapped s die ch grp || quiesced s die ch then s
  else busFailure s die ch grp (addr % 2 ^ 40) beat n (failed && n == 4)

/-- R375: a unit whose failure has its group diagnosed: above 4 `tries`, all four attempts have failed. -/
def execBusLaneDiagnosis (die ch grp : Nat) (off : Nat) (beat tries : Nat) (s : State) : Res :=
  if Config.dies ≤ die || groupSwapped s die ch grp || quiesced s die ch || !diagnosed s die ch grp (attempts tries) then
    .fault .notEnabled
  else .next (busFailure s die ch grp off beat (attempts tries) (decide (4 < tries)))

/-- R375: at the end of a diagnosis the spare takes the bad lane; the unit can be read again, but for an array word of it
that is uncorrectable in itself (R374). -/
def execLaneSwap (die ch grp lane : Nat) (off : Nat) (s : State) : Res :=
  if !s.d.diag.contains (die, ch, grp, off) then .fault .notEnabled
  else
    let s := { s with d := { s.d with
      diag := s.d.diag.erase (die, ch, grp, off)
      swapped := (die, ch, grp, lane) :: s.d.swapped
      poison := s.d.poison.filter (· != (die * 2 ^ 40 + off / 256 * 256, 256)) } }
    .next (busLog (tally s die 0x3A 1) die ch grp off 0 0 3 lane (groupFails s die ch grp))

end Sys2Proof.Machine
end

