-- ==== Sys2Proof/Machine/Uses.lean ====
section
/-! DEFINITION. Which registers an instruction reads and writes, implied ones included: for the promise of a pair (R17)
and for the register scoreboard (R297, R301). -/

namespace Sys2Proof.Machine

/-- Register names: x scalar, v vector, w weight, c control registers by index, and 0x1000 for the arm stack. -/
structure Uses where
  xr : List Nat := []
  xw : List Nat := []
  vr : List Nat := []
  vw : List Nat := []
  wr : List Nat := []
  ww : List Nat := []
  cr : List Nat := []
  cw : List Nat := []
  deriving DecidableEq, Repr

def armStackNo : Nat := 0x1000

def xopRegs : XOp → List Nat
  | .reg r => [r.toNat]
  | .imm _ => []

/-- The registers of a group named `r`. -/
def grpRegs (r : Reg) (n : Nat) : List Nat := (List.range n).map (fun i => r.toNat + i)

def vsrcRegs (b : VSrc) (g : Nat) : List Nat :=
  match b with
  | .reg r => grpRegs r g
  | _ => []
def vsrcX : VSrc → List Nat
  | .scalar r => [r.toNat]
  | _ => []
def vsrcW : VSrc → List Nat
  | .reg r => [r.toNat]
  | _ => []

/-- The weight registers of a W field (R25). -/
def wSel (w : BitVec 5) : List Nat := if w = 31 then [] else if w = 0 then [0] else [0, w.toNat]

/-- RM = 6 reads RMODE. -/
def dynUse (rm : RM) : List Nat := if rm == .dyn then [6] else []
/-- A register pair; field 0 names none: the null pip (R273), or no token. -/
def pairRegs (r : Reg) : List Nat := if r = 0 then [] else [r.toNat, r.toNat + 1]

def efbUse (h : Hart) (rm : RM) : List Nat := if rmOf h rm true == .efb then [7] else []

/-- The reads that come with arithmetic flags: FLOOR and FENABLE (R183). -/
def Uses.flagged (u : Uses) (on : Bool) : Uses := if on then { u with cr := u.cr ++ [5, 13] } else u
/-- The read that comes with a rounding mode (R45). -/
def Uses.rounded (u : Uses) (on : Bool) (rm : RM) : Uses := if on then { u with cr := u.cr ++ dynUse rm } else u
/-- Both: an instruction that rounds may raise NX. -/
def Uses.arith (u : Uses) (on : Bool) (rm : RM) : Uses := (u.flagged on).rounded on rm
/-- EFR, where the instruction rounds under EFB (R49). -/
def Uses.fedBack (u : Uses) (e : List Nat) : Uses := { u with cr := u.cr ++ e, cw := u.cw ++ e }
/-- SPACE, read by a vector access (R157). -/
def Uses.spaced (u : Uses) : Uses := { u with cr := 8 :: u.cr }

/-- A float immediate that its conversion to the element type may round, under RM (R62). -/
def roundsImm (et : ET) : VSrc → Bool
  | .imm _ => et.isFloat && et != .f32 && et != .f64
  | _ => false

/-- Every value of `et2`, a type without NaN and without a reserved code, converts into `et` with no flag (R41, R46, R47). -/
def holdsAll (et et2 : ET) : Bool :=
  let ends (p : Int → Bool) : Bool := p (intMin et2) && p (intMax et2)
  et2 != .t2 &&
    match et.cls, et2.cls with
    | .weight, .int | .weight, .weight => true
    | .int, .int => et == et2 || (et != .b1 && ends (fun i => decide (intMin et ≤ i ∧ i ≤ intMax et)))
    | .float, .int =>
      decide (intMax et2 < 2 ^ ((fmtOf et).fbits + 1)) && ends (fun i => (encVal et false .rne (.fin (qInt i))).2 == flNone)
    | .float, .weight => decide (15 ≤ (fmtOf et).fbits)
    | _, _ => false

/-- Whether a conversion rounds (R145, R113), and so looks at its rounding mode; and whether it may raise a flag: the residual
of EFB may make any that rounds inexact. -/
def convRounds (et et2 : ET) : Bool := !exactConv et et2
def convFlags (et et2 : ET) (rm : RM) : Bool := !holdsAll et et2 || (convRounds et et2 && (rm == .efb || rm == .dyn))

/-- A weighted instruction: its own operands, with the weights, VL and THETA that make elements live (R25, R26). -/
def vecUses (k : VCtl) (vr vw xr xw wr ww : List Nat) : Uses :=
  { xr := xr, xw := xw, vr := vr, vw := vw, wr := wSel k.w ++ wr, ww := ww, cr := [0, 4] }

/-- R17: the reads and writes of an instruction, by name. A register that no form of the instruction with these fields reads
is not listed: FLOOR and FENABLE are read by what may raise a flag, RMODE by what rounds, w0 and THETA by what has live
elements. What only some executions do is read from the encoding alone: `lbreak` counts as writing w0 whether or not a level
that it ends has a continuation weight, while the VL and FFI of a short strip of a bound source (R267), the strip that a read
of it takes up as its contents, the fade of w0 under a suppressed element of an arm (R185) and what the level of an END slot
reads and writes at its back edge or exit count as none; `vunbind`, `vopen` and `vclose` count as reading and writing the
register they name, and `tchk`, which asks only for the mark of its operand, as reading none (log 50, DESIGN CHOICE). `vins`
and `vext` take part in no weighting (R152). -/
def usesOf (h : Hart) : Instr → Uses
  | .add d a b | .sub d a b | .mul d a b | .mulh d a b | .mulhu d a b | .div d a b | .divu d a b | .rem d a b
  | .remu d a b | .and d a b | .or d a b | .xor d a b | .andn d a b | .shl d a b | .shr d a b | .sra d a b
  | .rotl d a b | .slt d a b | .sltu d a b | .min d a b | .max d a b | .minu d a b | .maxu d a b | .bext d a b
  | .ext d a b => { xr := a.toNat :: xopRegs b, xw := [d.toNat] }
  | .clz d a | .ctz d a | .popc d a => { xr := [a.toNat], xw := [d.toNat] }
  | .bins d a b c | .sel d a b c => { xr := a.toNat :: c.toNat :: xopRegs b, xw := [d.toNat] }
  | .lea d a b _ _ => { xr := [a.toNat, b.toNat], xw := [d.toNat] }
  | .li d _ => { xw := [d.toNat] }
  | .lih d _ => { xr := [d.toNat], xw := [d.toNat] }
  | .fadd d a b _ rm | .fsub d a b _ rm | .fmul d a b _ rm | .fdiv d a b _ rm =>
    { xr := a.toNat :: xopRegs b, xw := [d.toNat], cr := 13 :: dynUse rm }
  | .fmin d a b _ _ | .fmax d a b _ _ | .fcmp _ d a b _ _ => { xr := a.toNat :: xopRegs b, xw := [d.toNat], cr := [13] }
  | .fsqrt d a _ rm => { xr := [a.toNat], xw := [d.toNat], cr := 13 :: dynUse rm }
  | .ffma d a b c _ rm =>
    { xr := a.toNat :: c.toNat :: xopRegs b, xw := [d.toNat], cr := 13 :: dynUse rm }
  | .fcvt d a et et2 rm =>
    let r := convRounds et et2
    let u : Uses := { xr := [a.toNat], xw := [d.toNat], cr := if convFlags et et2 rm then [13] else [] }
    (u.rounded r rm).fedBack (if r then efbUse h rm else [])
  | .fclass d a _ _ => { xr := [a.toNat], xw := [d.toNat] }
  | .bCond _ a b _ => { xr := [a.toNat, b.toNat] }
  | .jr a | .ret a | .hexit a => { xr := [a.toNat] }
  | .call d _ => { xw := [d.toNat] }
  | .callr d a => { xr := [a.toNat], xw := [d.toNat] }
  | .loop _ a _ cw _ rot =>
    { xr := [a.toNat], wr := if cw = 0 then [] else [0, cw.toNat]
      ww := (if cw != 0 && !rot then [0] else []) ++ (if rot then [16, 17, 18, 19, 20, 21, 22, 23] else [])
      cr := 10 :: ((if cw = 0 then [] else [0, 4]) ++ (if cw != 0 || rot then [1] else [])) }
  | .lbreak _ => { ww := [0], cr := [10] }
  | .lspill a _ => { xr := [a.toNat], cr := [1, 9, 10, armStackNo], cw := [10, armStackNo] }
  | .lfill a _ => { xr := [a.toNat], cr := [1, 10], cw := [9, 10, armStackNo] }
  | .cbase a _ => { xr := [a.toNat], cw := [9] }
  | .wfork a _ _ => { wr := [0, a.toNat], ww := [0], cr := [0, 1, 4, 10, armStackNo], cw := [10, armStackNo] }
  | .warm _ => { wr := [0], ww := [0], cr := [0, 1, 4, 10, armStackNo], cw := [10, armStackNo] }
  | .wmerge => { wr := [0], ww := [0], cr := [10, armStackNo], cw := [10, armStackNo] }
  | .wcmp _ d a b k =>
    ((vecUses k (grpRegs a k.g.size ++ vsrcRegs b k.g.size) [] (vsrcX b) [] [] [d.toNat]).flagged k.et.isFloat).rounded
      (roundsImm k.et b) k.rm
  | .wramp d a b c k =>
    (vecUses k (grpRegs a k.g.size ++ vsrcRegs b k.g.size) [] (c.toNat :: vsrcX b) [] [] [d.toNat]).arith true k.rm
  | .wrampg d a b c k => (vecUses k (grpRegs a k.g.size) (grpRegs d k.g.size) [c.toNat] [] [b.toNat] []).arith true k.rm
  | .wmul d a b k | .wadd d a b k | .wsub d a b k | .wmin d a b k | .wmax d a b k =>
    vecUses k [] [] (vsrcX b) [] (a.toNat :: vsrcW b) [d.toNat]
  | .wnot d a k | .wmov d a k => vecUses k [] [] [] [] [a.toNat] [d.toNat]
  | .wsplat d b k => vecUses k [] [] (vsrcX b) [] [] [d.toNat]
  | .wfromv d a k => (vecUses k (grpRegs a k.g.size) [] [] [] [] [d.toNat]).arith (k.et != .wt) k.rm
  | .wtov d a k => (vecUses k [] (grpRegs d k.g.size) [] [] [a.toNat] []).arith (k.et != .wt && k.et != .f32) k.rm
  | .wbound d a b k => vecUses k [] [] (a.toNat :: vsrcX b) [] [] [d.toNat]
  | .wany d k => vecUses k [] [] [] [d.toNat] [] []
  | .vjoin d a b c k =>
    (vecUses k (grpRegs a k.g.size ++ vsrcRegs b k.g.size) (grpRegs d k.g.size) (vsrcX b) [] [c.toNat] []).arith true k.rm
  | .vjoingw d a b c k =>
    (vecUses k (grpRegs a k.g.size ++ grpRegs b k.g.size ++ grpRegs c k.g.size) (grpRegs d k.g.size) [] [] [] []).arith true k.rm
  | .vadd d a b k | .vsub d a b k | .vmul d a b k | .vdiv d a b k =>
    (vecUses k (grpRegs a k.g.size ++ vsrcRegs b k.g.size) (grpRegs d k.g.size) (vsrcX b) [] [] []).arith k.et.isFloat k.rm
  | .vmin d a b k | .vmax d a b k =>
    ((vecUses k (grpRegs a k.g.size ++ vsrcRegs b k.g.size) (grpRegs d k.g.size) (vsrcX b) [] [] []).flagged
      k.et.isFloat).rounded (k.wp == .blend || roundsImm k.et b) k.rm
  | .vclamp d a b c k =>
    ((vecUses k (grpRegs a k.g.size ++ vsrcRegs b k.g.size ++ grpRegs c k.g.size) (grpRegs d k.g.size) (vsrcX b) [] []
      []).flagged k.et.isFloat).rounded (k.wp == .blend || roundsImm k.et b) k.rm
  | .vcsgn d a b k =>
    ((vecUses k (grpRegs a k.g.size ++ vsrcRegs b k.g.size) (grpRegs d k.g.size) (vsrcX b) [] [] []).flagged
      (k.wp == .blend)).rounded (k.wp == .blend || roundsImm k.et b) k.rm
  | .vwmul d a b k =>
    ((vecUses k (grpRegs a k.g.size ++ vsrcRegs b k.g.size) (grpRegs d k.g.size) (vsrcX b) [] [] []).flagged
      k.et.isFloat).rounded (k.wp == .blend || k.et2 == .bf16 || roundsImm k.et2 b) k.rm
  | .vwfma d a b c k | .vfma d a b c k | .vfms d a b c k | .vfnma d a b c k =>
    (vecUses k (grpRegs a k.g.size ++ vsrcRegs b k.g.size ++ grpRegs c k.g.size) (grpRegs d k.g.size) (vsrcX b) [] []
      []).arith k.et.isFloat k.rm
  | .vand d a b k | .vor d a b k | .vxor d a b k | .vandn d a b k | .vshl d a b k | .vshr d a b k | .vsra d a b k
  | .vaddsat d a b k | .vsubsat d a b k | .vmulh d a b k | .vavg d a b k =>
    vecUses k (grpRegs a k.g.size ++ vsrcRegs b k.g.size) (grpRegs d k.g.size) (vsrcX b) [] [] []
  | .vcmp _ d a b k =>
    ((vecUses k (grpRegs a k.g.size ++ vsrcRegs b k.g.size) (grpRegs d k.g.size) (vsrcX b) [] [] []).flagged
      k.et.isFloat).rounded (roundsImm k.et b) k.rm
  | .vsel d a b c k =>
    (vecUses k (grpRegs a k.g.size ++ vsrcRegs b k.g.size ++ grpRegs c k.g.size) (grpRegs d k.g.size) (vsrcX b) [] []
      []).rounded (roundsImm k.et b) k.rm
  | .vslup d a b k | .vsldn d a b k => vecUses k (grpRegs a k.g.size) (grpRegs d k.g.size) (vsrcX b) [] [] []
  | .vsqrt d a k | .vrsqrt d a k | .vrcp d a k | .vexp2 d a k | .vlog2 d a k | .vunpack d a k =>
    (vecUses k (grpRegs a k.g.size) (grpRegs d k.g.size) [] [] [] []).arith true k.rm
  | .vabs d a k | .vneg d a k =>
    (vecUses k (grpRegs a k.g.size) (grpRegs d k.g.size) [] [] [] []).arith (k.wp == .blend) k.rm
  | .vscanAdd d a k | .vscanXadd d a k =>
    (vecUses k (grpRegs a k.g.size) (grpRegs d k.g.size) [] [] [] []).arith k.et.isFloat k.rm
  | .vscanMax d a k | .vscanMin d a k | .vscanXmax d a k | .vscanXmin d a k =>
    (vecUses k (grpRegs a k.g.size) (grpRegs d k.g.size) [] [] [] []).flagged k.et.isFloat
  | .vclass d a k | .vmv d a k | .vexpand d a k | .vrev d a k | .vtopk d a _ _ k =>
    vecUses k (grpRegs a k.g.size) (grpRegs d k.g.size) [] [] [] []
  | .vcvt d a k | .vcvtSat d a k =>
    let r := convRounds k.et k.et2
    let b := k.wp == .blend
    (((vecUses k (grpRegs a k.g.size) (grpRegs d k.g.size) [] [] [] []).flagged (b || convFlags k.et k.et2 k.rm)).rounded
      (b || r) k.rm).fedBack (if r then efbUse h k.rm else [])
  | .vpack d a k =>
    ((vecUses k (grpRegs a k.g.size) (grpRegs d k.g.size) [] [] [] []).arith true k.rm).fedBack (efbUse h k.rm)
  | .vredsum d a k => (vecUses k (grpRegs a k.g.size) [] [] [d.toNat] [] []).arith k.et.isFloat k.rm
  | .vredmax d a k | .vredmin d a k => (vecUses k (grpRegs a k.g.size) [] [] [d.toNat] [] []).flagged k.et.isFloat
  | .vfirst d k | .vcount d k => vecUses k [] [] [] [d.toNat] [] []
  | .vsplat d b k => (vecUses k [] (grpRegs d k.g.size) (vsrcX b) [] [] []).rounded (roundsImm k.et b) k.rm
  | .vid d k => vecUses k [] (grpRegs d k.g.size) [] [] [] []
  | .vperm d a b k => vecUses k (grpRegs a k.g.size ++ grpRegs b k.g.size) (grpRegs d k.g.size) [] [] [] []
  | .vcompress d a c k => vecUses k (grpRegs a k.g.size) (grpRegs d k.g.size) [] [c.toNat] [] []
  | .vrand d a b k => vecUses k [] (grpRegs d k.g.size) (a.toNat :: vsrcX b) [a.toNat] [] []
  | .vins d a b k => { xr := a.toNat :: vsrcX b, vw := grpRegs d k.g.size, cr := [0] }
  | .vext d a b k => { xr := vsrcX b, xw := [d.toNat], vr := grpRegs a k.g.size, cr := [0] }
  | .setvl d a _ _ => { xr := [a.toNat], xw := [d.toNat], cr := [1], cw := [0, 1, 2] }
  | .setsp d b => { xr := xopRegs b, xw := [d.toNat], cr := [8], cw := [8] }
  | .setth d b => { xr := xopRegs b, xw := [d.toNat], cr := [4], cw := [4] }
  | .setfl d b => { xr := xopRegs b, xw := [d.toNat], cr := [5], cw := [5] }
  | .setrm d b => { xr := xopRegs b, xw := [d.toNat], cr := [6], cw := [6] }
  | .getcr d cr => { xw := [d.toNat], cr := [cr.toNat] }
  | .putcr cr a => { xr := [a.toNat], cw := [cr.toNat] }
  | .ld d a _ _ => { xr := [a.toNat], xw := [d.toNat] }
  | .st c a _ _ => { xr := [c.toNat, a.toNat] }
  | .pfch a _ => { xr := [a.toNat] }
  | .vld d a _ k => ((vecUses k [] (grpRegs d k.g.size) [a.toNat] [] [] []).arith (k.wp == .blend) k.rm).spaced
  | .vldff d a _ k =>
    let u := vecUses k [] (grpRegs d k.g.size) [a.toNat] [] [] []
    { u.spaced with cw := [0, 3] }
  | .vlds d a b _ k =>
    ((vecUses k [] (grpRegs d k.g.size) [a.toNat, b.toNat] [] [] []).arith (k.wp == .blend) k.rm).spaced
  | .vldx d a b _ k =>
    ((vecUses k (grpRegs b (idxGroup k.g k.et)) (grpRegs d k.g.size) [a.toNat] [] [] []).arith (k.wp == .blend) k.rm).spaced
  | .vst c a _ k | .vstu c a _ k =>
    ((vecUses k (grpRegs c k.g.size) [] [a.toNat] [] [] []).arith (k.wp == .blend || k.wp == .scale) k.rm).spaced
  | .vsts c a b _ k =>
    ((vecUses k (grpRegs c k.g.size) [] [a.toNat, b.toNat] [] [] []).arith (k.wp == .blend || k.wp == .scale) k.rm).spaced
  | .vstx c a b _ k =>
    ((vecUses k (grpRegs c k.g.size ++ grpRegs b (idxGroup k.g k.et)) [] [a.toNat] [] [] []).arith
      (k.wp == .blend || k.wp == .scale) k.rm).spaced
  | .vbind d a _ _ => { xr := [a.toNat], vw := [d.toNat], cr := [0] }
  | .vunbind d | .vopen d | .vclose d => { vr := [d.toNat], vw := [d.toNat] }
  | .amoSwap d a c _ _ _ _ | .amoAnd d a c _ _ _ _ | .amoOr d a c _ _ _ _ | .amoXor d a c _ _ _ _ =>
    { xr := [a.toNat, c.toNat], xw := [d.toNat] }
  | .amoAdd d a c _ et _ _ | .amoMin d a c _ et _ _ | .amoMax d a c _ et _ _ =>
    { xr := [a.toNat, c.toNat], xw := [d.toNat], cr := if et.isFloat then [13] else [] }
  | .amocas d a b c _ _ _ _ => { xr := [a.toNat, b.toNat, c.toNat], xw := [d.toNat] }
  | .vamoSwap d a b c _ k _ _ | .vamoAnd d a b c _ k _ _ | .vamoOr d a b c _ k _ _ | .vamoXor d a b c _ k _ _ =>
    (vecUses k (grpRegs c k.g.size ++ grpRegs b (idxGroup k.g k.et)) (if d = 0 then [] else grpRegs d k.g.size) [a.toNat] [] []
      []).spaced
  | .vamoAdd d a b c _ k _ _ | .vamoMin d a b c _ k _ _ | .vamoMax d a b c _ k _ _ | .vamoBlend d a b c _ k _ _ =>
    ((vecUses k (grpRegs c k.g.size ++ grpRegs b (idxGroup k.g k.et)) (if d = 0 then [] else grpRegs d k.g.size) [a.toNat] [] []
      []).flagged
      k.et.isFloat).spaced
  | .bar d a _ _ => { xr := [a.toNat], xw := [d.toNat] }
  | .waiteq d a b _ _ _ => { xr := [a.toNat, b.toNat], xw := [d.toNat] }
  | .hid d | .fgrab d | .nid d | .slabTake d | .slabGive d | .replay d => { xw := [d.toNat] }
  | .launch d a b => { xr := a.toNat :: xopRegs b, xw := [d.toNat] }
  | .farm d a | .fdone d a | .xlate d a _ | .slabQuery d a => { xr := [a.toNat], xw := [d.toNat] }
  | .cwb a b _ | .cinv a b _ => { xr := a.toNat :: xopRegs b }
  | .ppin d a b | .pnode d a b =>
    { xr := [b.toNat], xw := pairRegs d, vr := [a.toNat] }
  | .pread d a b => { xr := b.toNat :: pairRegs a, vr := [d.toNat], vw := [d.toNat] }
  | .pinc d a b | .pdec d a b => { xr := b.toNat :: pairRegs a, xw := [d.toNat] }
  | .pswap d a b c _ => { xr := a.toNat :: pairRegs b ++ pairRegs c, xw := pairRegs d }
  | .cpy d a b c _ _ _ => { xr := [a.toNat, b.toNat, c.toNat], xw := [d.toNat] }
  | .cpys d a b c _ _ _ => { xr := [a.toNat, a.toNat + 1, b.toNat, b.toNat + 1, c.toNat], xw := [d.toNat] }
  | .cfill d a b c _ _ _ => { xr := [a.toNat, b.toNat, c.toNat], xw := [d.toNat] }
  | .tchk d _ => { xw := [d.toNat] }
  | .mshape d a => { xr := [a.toNat], xw := [d.toNat] }
  | .mstride a b _ _ => { xr := [a.toNat, b.toNat] }
  | .mzero d _ _ => { xw := [d.toNat] }
  | .mmul d a b _ _ _ _ _ _ => { xr := [a.toNat, b.toNat], xw := [d.toNat] }
  | .mmulc d _ b _ _ _ _ rm _ => { xr := [b.toNat], xw := [d.toNat], cr := dynUse rm ++ efbUse h rm, cw := efbUse h rm }
  | .mout d _ b c _ r _ et rm _ =>
    let e := if et.isInt then [] else efbUse h rm
    let u : Uses := { xr := if r then [] else [b.toNat], xw := [d.toNat], vw := if r then [c.toNat] else [] }
    (u.rounded (!et.isInt) rm).fedBack e
  | .fopen _ b c _ _ => { xr := [b.toNat, c.toNat] }
  | .fadv d _ b => { xr := [b.toNat], xw := [d.toNat] }
  | .fend d _ => { xw := [d.toNat] }
  | .fisect d _ _ c _ _ | .funion d _ _ c _ _ =>
    { xr := pairRegs c, xw := pairRegs d }
  | .fsplit d a b c _ _ _ =>
    { xr := [a.toNat, a.toNat + 1, b.toNat, c.toNat], xw := pairRegs d }
  | .fcount d _ b _ => { xr := [b.toNat], xw := pairRegs d }
  | .dput d a b c _ _ _ _ => { xr := [a.toNat, b.toNat, c.toNat], xw := [d.toNat] }
  | .dwait d a _ _ => { xr := [a.toNat], xw := [d.toNat] }
  | .dclose d a b c _ _ _ _ => { xr := [a.toNat, b.toNat, c.toNat], xw := [d.toNat] }
  | .pout d a b c _ _ =>
    { xr := pairRegs a ++ [b.toNat, c.toNat, c.toNat + 1], xw := pairRegs d }
  | .vsend a b k =>
    vecUses k (grpRegs a k.g.size ++ grpRegs b (idxGroup k.g k.et)) [] [] [] [] []
  | .vrecv d b c k =>
    { xw := [c.toNat], vw := grpRegs d k.g.size ++ grpRegs b (idxGroup k.g k.et), cr := [0] }
  | .csrrd d csr => { xw := [d.toNat], cr := [csr.toNat] }
  | .csrwr d csr a => { xr := [a.toNat], xw := [d.toNat], cr := [csr.toNat], cw := [csr.toNat] }
  | .frqpop d a _ => { xr := [a.toNat], xw := [d.toNat] }
  | .tlbinv a b _ _ => { xr := [a.toNat, b.toNat] }
  | .ringrd d a b _ => { xr := [a.toNat, b.toNat], xw := [d.toNat] }
  | .ctxsave d a _ _ _ => { xr := [a.toNat], xw := [d.toNat] }
  | .ctxload a _ => { xr := [a.toNat] }
  | _ => {}

def meets (a b : List Nat) : Bool := a.any (fun x => b.contains x)

/-- The major opcode of an instruction; 0 for a step of another agent. -/
def opOf (i : Instr) : Nat := match i.toFields with | some f => f.op.toNat | none => 0

/-- The accumulator tiles that an instruction reads, and those it writes. -/
def tilesOf : Instr → List Nat × List Nat
  | .mzero _ t _ => ([], [t.toNat])
  | .mmul _ _ _ t _ _ _ _ _ => ([t.toNat], [t.toNat])
  | .mmulc _ src _ t _ _ _ _ _ => ([src.toNat, t.toNat], [t.toNat])
  | .mout _ src _ _ _ _ _ _ _ _ => ([src.toNat], [])
  | _ => ([], [])

/-- The fibre registers that an instruction uses. -/
def fibresOf : Instr → List Nat
  | .fopen f _ _ _ _ | .fadv _ f _ | .fend _ f | .fclose f | .fcount _ f _ _ => [f.toNat]
  | .fisect _ fa fb _ _ _ | .funion _ fa fb _ _ _ => [fa.toNat, fb.toNat]
  | _ => []

/-- R126: a name that the carousel maps is an implied read of CBASE. -/
def readsCbase (u : Uses) : Bool := (u.vr ++ u.vw).any (48 ≤ ·) || (u.wr ++ u.ww).any (16 ≤ ·)

/-- R17: whether the promise of independence of a pair is false. x0 plays no part. -/
def promiseFalse (h : Hart) (i j : Instr) : Bool :=
  let a := usesOf h i
  let b := usesOf h j
  let hit (w r w' : List Nat) : Bool := meets w r || meets w w'
  let nz (l : List Nat) : List Nat := l.filter (· != 0)
  let crOf (u : Uses) : List Nat := if readsCbase u then 9 :: u.cr else u.cr
  let oi := opOf i
  let oj := opOf j
  decide (0x28 ≤ oi ∧ oi ≤ 0x2F) || decide (0xE0 ≤ oi ∧ oi ≤ 0xEF) || decide (0xE0 ≤ oj ∧ oj ≤ 0xEF) ||
    hit (nz a.xw) b.xr b.xw || hit a.vw b.vr b.vw || hit a.ww b.wr b.ww || hit a.cw (crOf b) b.cw ||
    meets (nz a.xr) b.xw || meets a.vr b.vw || meets a.wr b.ww || meets (crOf a) b.cw ||
    hit (tilesOf i).2 (tilesOf j).1 (tilesOf j).2 || meets (tilesOf i).1 (tilesOf j).2

/-! ### The register scoreboard (R297, R301, R335) -/

/-- The token and result registers of a command. -/
def tokenRegs : Instr → List Nat
  | .cpy d .. | .cpys d .. | .cfill d .. | .mzero d .. | .mmul d .. | .mmulc d .. | .mout d .. | .dput d ..
  | .dclose d .. => if d = 0 then [] else [d.toNat]
  | .fisect d .. | .funion d .. | .fsplit d .. | .fcount d .. | .pout d .. => if d = 0 then [] else [d.toNat, d.toNat + 1]
  | _ => []

/-- A scoreboard name: x by number, the S bank at 64, physical v at 128, tiles at 192, fibres at 200, EFR at 208. -/
def xName (sMode : Bool) (r : Nat) : Nat := if sMode && 1 ≤ r && r ≤ 4 then 64 + r else r

/-- What a command that has not ended leaves pending. A register destination of `mout` is a physical number, kept with
the command. -/
def pendNames (c : Cmd) : List Nat :=
  (tokenRegs c.instr).map (xName c.bankS) ++ (tilesOf c.instr).2.map (192 + ·) ++
    (match c.instr with
     | .mout _ _ _ _ _ true _ _ _ _ => c.conv.map (128 + ·)
     | .fisect .. | .funion .. | .fcount .. => (fibresOf c.instr).map (200 + ·)
     | _ => []) ++
    (if c.efrUsed then [208] else [])

/-- What an instruction reads or writes, by scoreboard name. -/
def usedNames (h : Hart) (i : Instr) : List Nat :=
  let u := usesOf h i
  ((u.xr ++ u.xw).filter (· != 0)).map (xName (h.mode == .S)) ++ (u.vr ++ u.vw).map (fun n => 128 + vPhys h n) ++
    ((tilesOf i).1 ++ (tilesOf i).2).map (192 + ·) ++ (fibresOf i).map (200 + ·) ++
    (if (u.cr ++ u.cw).contains 7 then [208] else [])

/-- R297, R308: the instruction stalls on a pending register; `tchk` never does. -/
def stalls (h : Hart) (i : Instr) : Bool :=
  match i with
  | .tchk .. => false
  | _ => meets (usedNames h i) (h.cmds.flatMap pendNames)

end Sys2Proof.Machine
end

