-- ==== Sys2Proof/Machine/Fetch.lean ====
section
/-! DEFINITION. Fetching an instruction: code lines, their checks and parity (R16, R56 to R58, R256), the checks made
before a slot issues, in order (R60), pairs (R17, R59), privilege (R73), and what holds an instruction back at its issue
(R122, R297). -/

namespace Sys2Proof.Machine

/-- R56: slot `k` and the line word of a line. -/
def lineSlot (l : BitVec 512) (k : Nat) : Slot := l.extractLsb' (96 * k) 96
def lineWord (l : BitVec 512) : BitVec 32 := l.extractLsb' 480 32
/-- R57. -/
def lineKind (l : BitVec 512) : BitVec 2 := (lineWord l).extractLsb' 14 2
def lineResv (l : BitVec 512) : BitVec 16 := (lineWord l).extractLsb' 16 16
def lineTarget (l : BitVec 512) (k : Nat) : Bool := (lineWord l).getLsbD (9 + k)
def linePair (l : BitVec 512) (k : Nat) : Bool := k < 4 && (lineWord l).getLsbD (5 + k)

/-- R58: the exclusive OR of the 96 bits of a slot. -/
def slotParity (s : Slot) : Bool := (List.range 96).foldl (fun p k => p ^^ s.getLsbD k) false

/-- The PARITY bits that fail. -/
def badParity (l : BitVec 512) : Nat :=
  (List.range 5).foldr (fun k acc => (if slotParity (lineSlot l k) != (lineWord l).getLsbD k then 1 else 0) + 2 * acc) 0

/-- What the checks of R60 find at a slot: a trap of the fetch, of the line's kind, of the decode, or an instruction,
with the one that issues beside it if a pair forms. -/
inductive Check where
  | trap (t : Trap)
  | line (va : Word) (w : BitVec 32)
  | slot (hi : BitVec 32) (sub : Nat)
  | ok (i : Instr) (mate : Option Instr)
  deriving DecidableEq, Repr

/-- The line at a physical address: the core's buffered copy, or memory (R256). -/
def lineAt (s : State) (core pa : Nat) : BitVec 512 :=
  match s.d.fetch.find? (fun f => f.core == core && f.addr == pa) with
  | some f => f.bits
  | none => BitVec.ofNat 512 (memRead s.mem pa 64)

/-- A line held by a core's fetch buffer. -/
def holdLine (s : State) (core pa : Nat) (l : BitVec 512) : State :=
  { s with d := { s.d with fetch := ⟨core, pa, l⟩ :: s.d.fetch.filter (fun f => !(f.core == core && f.addr == pa)) } }

def lineKindOk (l : BitVec 512) : Bool := lineKind l == 0 && lineResv l == 0

/-- R16, R58: a code line whose parity holds, after at most one refetch; `pa` is the line's physical address. -/
def checkedLine (s : State) (core pa : Nat) (va : Word) : Except Check (BitVec 512 × State) :=
  let l := lineAt s core pa
  if !lineKindOk l then .error (.line va (lineWord l))
  else if badParity l == 0 then .ok (l, s)
  else
    let l2 := BitVec.ofNat 512 (memRead s.mem pa 64)
    if !lineKindOk l2 then .error (.line va (lineWord l2))
    else if badParity l2 == 0 then .ok (l2, holdLine s core pa l2)
    else .error (.trap { code := 5, val := va, val2 := BitVec.ofNat 64 (badParity l2) })

/-- R73: OP 0xE0, but for `ecall` and `ebreak`. -/
def privileged (f : Fields) : Bool := f.op == 0xE0 && f.fn != 3 && f.fn != 4

/-- R72, R73: the instruction of a slot in a mode, or STVAL and STVAL2 of the trap. -/
def decodeIn (m : Mode) (w : Slot) : Except (BitVec 32 × Nat) Instr :=
  match decode w with
  | .error _ => .error (w.extractLsb' 64 32, 0)
  | .ok i => if m == .U && privileged (Fields.ofSlot w) then .error (w.extractLsb' 64 32, 1) else .ok i

/-- R59: the slot is the END slot of an active level. -/
def endsLevel (h : Hart) (pc : Word) : Bool := h.loops.toList.any (fun l => l.act && l.tail == pc)

/-- R60: the checks for the slot at `pc`, reached by a transfer from `from_` if any; `alone` for a slot that issues as
the second of a pair or under `replay`. A transfer to an address that is no slot raises its target fault before anything is
fetched there (log 44, DESIGN CHOICE). -/
def fetchCheck (s : State) (h : Hart) (pc : Word) (from_ : Option Word) (alone : Bool) : Check × State :=
  if !isSlot pc then (.trap { code := 3, val := from_.getD 0, val2 := 0, pc := some pc }, s)
  else
    let va := pc &&& ~~~ 63
    match translate s h .fetch va 64 with
    | .error f => (.trap (memTrap { f with va := pc } none), s)
    | .ok (pa, s1) =>
      let core := coreOf h.gid
      match checkedLine s1 core pa va with
      | .error c => (c, s1)
      | .ok (l, s2) =>
        let k := pc.toNat % 64 / 12
        match from_ with
        | some f =>
          if lineTarget l k then slotCheck s2 core pa l k else (.trap { code := 3, val := f, val2 := 0, pc := some pc }, s2)
        | none => slotCheck s2 core pa l k
where
  /-- Checks 4 and 5. A line of which a pair issues is held until its second slot has issued. -/
  slotCheck (s : State) (core pa : Nat) (l : BitVec 512) (k : Nat) : Check × State :=
    match decodeIn h.mode (lineSlot l k) with
    | .error (hi, sub) => (.slot hi sub, s)
    | .ok i =>
      if alone || !linePair l k then (.ok i none, s)
      else match decodeIn h.mode (lineSlot l (k + 1)) with
        | .error _ => (.ok i none, s)
        | .ok j =>
          if promiseFalse h i j || endsLevel h pc then (.trap { code := 2, val := seqNext pc, val2 := 0 }, s)
          else (.ok i (some j), holdLine s core pa l)

/-- R122: the checks made before the END slot of the innermost active level issues: ARMSP against the ASP of every
active level that ends there, then OP 0x2A. -/
def endCheck (h : Hart) (i : Instr) : Option Trap :=
  match endLevel h with
  | none => none
  | some k =>
    if (List.range (k + 1)).any (fun j => (lvlGet h j).act && (lvlGet h j).tail == h.pc && (lvlGet h j).asp.toNat != h.armsp) then
      some { code := 15, val := BitVec.ofNat 64 h.armsp, val2 := 3 }
    else if opOf i == 0x2A then some { code := 14, val := 3, val2 := 0 }
    else none

/-! ### Boundaries (R339, R347, R348) -/

/-- A pending imprecise trap may be taken (R339). -/
def pendReady (h : Hart) : Bool := !h.pend.isEmpty && !inh h
def machineCheckReady (h : Hart) : Bool := h.pend.any (fun p => p.code == 21) && !inh h

/-- R339: an interrupt is taken. -/
def interruptReady (h : Hart) : Bool :=
  (h.sip &&& h.sie) != 0 && !inh h && (h.mode == .U || h.sstatus.getLsbD ssIEN)

/-- A pre-emption has been acknowledged: the hart issues nothing until its context is saved (R347, R348). -/
def stopped (h : Hart) : Bool := h.stop == some 0 && !inh h

/-- The hart is in the middle of a pair or of a `replay`, and not parked there: no boundary. -/
def midPair (h : Hart) : Bool := h.run == .running && (h.second || h.replay.isSome)
/-- No trap is taken there: nor in the middle of a `vsend` that has begun. -/
def midway (h : Hart) : Bool := midPair h || h.sending.isSome

/-- R347: the instruction in issue has ended; a pre-emption that arrived within it waits at the next boundary. One that a
lane's retirement stopped (R373) goes on. -/
def settle (r : Res) : Res :=
  match r with
  | .next s => .next (setH s { s.h with stop := s.h.stop.map (fun _ => 0), pause := none })
  | r => r

/-! ### The clk and the agenda -/

/-- CYCLES of R381 on every counter that counts it: a die's counter counts those of its 24 cores (log 9, DESIGN CHOICE). -/
def countCycles (s : State) (n : Nat) : State :=
  let s := s.d.coreCtrs.foldl (fun s (k, c) => if ctrCounts c 1 then bumpCore s k c n else s) s
  [0, 1, 2, 3].foldl (fun s d => countDie s d 1 (Config.coresPerDie * n)) s

/-- ISSUED and PAIRS of R381. -/
def countIssue (s : State) (pair : Bool) : State :=
  let s := countEv s 2 1
  if pair then countEv s 3 1 else s

/-- A hart that is neither parked nor gone; one that stalls may try again. -/
def mayIssue (h : Hart) : Bool := h.run == .running || h.run == .parked .stall

/-- The harts of the core of a place that may issue. -/
def issuing (s : State) (gid : Nat) : List Hart :=
  (s.h :: s.others).filter (fun h => mayIssue h && coreOf h.gid == coreOf gid)

/-- R210: a turn that names a place whose hart may issue is one of its core, and the core has a choice where another of its
harts may issue too. A parked hart's own boundary is no issue of the core (log 5, DESIGN CHOICE). -/
def hasChoice (s : State) (gid : Nat) : Bool := (findHart s gid).any mayIssue && decide (1 < (issuing s gid).length)

/-- The clk that a turn takes: at least one, and what more is free (log 6, DESIGN CHOICE). A core with a choice of harts takes
its turns at one STAMP modulo 8 after the other, so that R210 guarantees each of its harts one of eight (log 5, DESIGN
CHOICE). -/
def turnClk (s : State) (t : Turn) : Nat :=
  match t with
  | .hart gid =>
    if hasChoice s gid then 1 + (tabGet s.d.coreTurn (coreOf gid) 0 + 7 * s.clk) % 8 + 8 * Config.stallClk s.steps
    else 1 + Config.stallClk s.steps
  | _ => 1 + Config.stallClk s.steps

/-- The clk at which a core with a choice of harts had its turn. -/
def noteTurn (s : State) (gid : Nat) : State :=
  if hasChoice s gid then { s with d := { s.d with coreTurn := tabSet s.d.coreTurn (coreOf gid) s.clk } } else s

/-- One step of the machine passes, of `n` clk. -/
def tick (n : Nat) (s : State) : State :=
  countUnstated (countWalks (countCycles { s with clk := s.clk + n, steps := s.steps + 1 } n))

/-- A step of the environment. -/
def envStep (s : State) : Env → State
  | .tlbEvict n => { s with d := { s.d with tlb := s.d.tlb.eraseIdx n } }
  | .tlbAbsent gid va =>
    match findHart s gid with
    | none => s
    | some h =>
      match walk s h.walkroot va.toNat with
      | .error .notValid =>
        { s with d := { s.d with absent := ⟨coreOf gid, h.ctxid, va.toNat % 2 ^ 57 / 2 ^ 16⟩ :: s.d.absent } }
      | _ => s
  | .tlbAbsentDrop n => { s with d := { s.d with absent := s.d.absent.eraseIdx n } }
  | .fetchFill core addr => holdLine s core (addr / 64 * 64) (BitVec.ofNat 512 (memRead s.mem (addr / 64 * 64) 64))
  | .fetchDrop core addr =>
    { s with d := { s.d with fetch := s.d.fetch.filter (fun f => !(f.core == core && f.addr == addr)) } }
  | .rfError gid lane hard two g => rfError s gid lane hard two g
  | .arrayError addr layer bank sym two => arrayError s addr layer bank sym two
  | .scratchError addr => poisonWord s addr 8
  | .busError addr grp beat tries failed => busError s addr grp beat tries failed

/-- The turn to take, and the state without it: the front of the agenda, or the hart in front. -/
def popTurn (s : State) : Turn × State :=
  match s.agenda with
  | [] => (.hart s.h.gid, s)
  | t :: rest => (t, { s with agenda := rest })

/-! ### Placing an instruction where the next step fetches it -/

/-- A code line that holds one slot at number `k`, its TARGET bits set. -/
def oneSlotLine (w : Slot) (k : Nat) : Nat :=
  w.toNat <<< (96 * k) + (0x3E00 + (if slotParity w then 2 ^ k else 0)) <<< 480

/-- A translation entry that maps the 64 KiB page of `pc` onto the page at `pa`, to execute, read and write. -/
def codeEntry (h : Hart) (pc : Word) (pa : Nat) : Tlb :=
  { core := coreOf h.gid, ctx := h.ctxid, size := 0, page := pc.toNat % 2 ^ 57 / 2 ^ 16
    leaf := BitVec.ofNat 64 (pa + 0x3F), leafAt := 0, dirty := [] }

/-- The hart in front made to run in S mode, at a boundary, with the slot `w` at its PC in a line of its own. -/
def placeSlot (s : State) (w : Slot) : State :=
  let pc : Word := if isSlot s.h.pc && canonical s.h.pc.toNat then s.h.pc else 0
  let pa := 0x10000
  let la := pa + pc.toNat % 2 ^ 16 / 64 * 64
  let h := { s.h with run := .running, mode := .S, pc := pc, xfer := none, second := false, stop := none, pause := none, replay := none
                      fmrun := false, ending := none, sending := none, sip := 0, pend := [], cmds := [] }
  { s with
    h := h
    mem := memWrite s.mem la 64 (oneSlotLine w (pc.toNat % 64 / 12))
    agenda := []
    d := { s.d with tlb := codeEntry h pc pa :: s.d.tlb
                    fetch := s.d.fetch.filter (fun f => !(f.core == coreOf h.gid && f.addr == la)) } }

end Sys2Proof.Machine
end

