-- ==== Sys2Proof/Machine/Float.lean ====
section
/-! DEFINITION. Scalar floating point, OP 0x20 (R111 to R114), and one conversion between element types (R41, R44 to
R48), which the vector conversions share. -/

namespace Sys2Proof.Machine

/-- R105, R111: a scalar operand of a float type. -/
def fReg (h : Hart) (et : ET) (r : Reg) : Val := decFloat (fmtOf et) ((xGet h r).toNat % 2 ^ et.bits)
def fOp (h : Hart) (et : ET) (rm : RM) : XOp → Val
  | .reg r => fReg h et r
  | .imm v => decFloat (fmtOf et) (immCode et rm v)

/-- The code and flags of an exact result with the flags of its operation. -/
def rounded (et : ET) (rm : RM) (r : Val × Fl) : Nat × Fl :=
  let (c, f) := encFloat et false rm r.1
  (c, r.2 ||| f)

/-- R114: writes a float result. -/
def finishF (s : State) (d : Reg) (r : Nat × Fl) : Res := finishFloat s d (BitVec.ofNat 64 r.1) r.2

/-- R111: an instruction of two operands. `f` takes whether the mode is RDN, which decides the sign of a zero sum. -/
def sfp2 (f : Bool → Val → Val → Val × Fl) (d a : Reg) (b : XOp) (et : ET) (rm : RM) (s : State) : Res :=
  let m := rmOf s.h rm false
  finishF s d (rounded et m (f (m == .rdn) (fReg s.h et a) (fOp s.h et m b)))

def execFadd (d a : Reg) (b : XOp) (et : ET) (rm : RM) (s : State) : Res := sfp2 vAdd d a b et rm s
def execFsub (d a : Reg) (b : XOp) (et : ET) (rm : RM) (s : State) : Res := sfp2 vSub d a b et rm s
def execFmul (d a : Reg) (b : XOp) (et : ET) (rm : RM) (s : State) : Res := sfp2 (fun _ => vMul) d a b et rm s
def execFdiv (d a : Reg) (b : XOp) (et : ET) (rm : RM) (s : State) : Res := sfp2 (fun _ => vDiv) d a b et rm s
def execFsqrt (d a : Reg) (et : ET) (rm : RM) (s : State) : Res :=
  finishF s d (rounded et (rmOf s.h rm false) (vSqrt (fReg s.h et a)))
def execFfma (d a : Reg) (b : XOp) (c : Reg) (et : ET) (rm : RM) (s : State) : Res :=
  sfp2 (fun rdn x y => vFma rdn x y (fReg s.h et c)) d a b et rm s

/-- R112: no rounding, so RM is ignored. -/
def execFmin (d a : Reg) (b : XOp) (et : ET) (rm : RM) (s : State) : Res := sfp2 (fun _ => vMinMax false) d a b et rm s
def execFmax (d a : Reg) (b : XOp) (et : ET) (rm : RM) (s : State) : Res := sfp2 (fun _ => vMinMax true) d a b et rm s
def execFcmp (cond : Cond) (d a : Reg) (b : XOp) (et : ET) (rm : RM) (s : State) : Res :=
  let x := fReg s.h et a
  let y := fOp s.h et (rmOf s.h rm false) b
  finishF s d ((if condHolds cond (vCmp x y) then 1 else 0), sigFl x ||| sigFl y)
def execFclass (d a : Reg) (et : ET) (_rm : RM) (s : State) : Res :=
  finishF s d (classMask (fmtOf et) (fReg s.h et a), flNone)

/-- One conversion from `et2` to `et` under a mode that is not EFB: the code and its flags. -/
def convElem (et et2 : ET) (sat : Bool) (rm : RM) (raw : Nat) : Nat × Fl :=
  let (v, f) := valOf et2 raw
  let (c, g) := encVal et sat rm v
  (c, f ||| sigFl v ||| g)

/-- The same under EFB with a residual, which is the third component of the result (R48). -/
def convEfb (et et2 : ET) (sat : Bool) (raw efr : Nat) : Nat × Fl × Nat :=
  let (v, f) := valOf et2 raw
  let (c, g, r) := efbStep et sat v efr
  (c, f ||| sigFl v ||| g, r)

/-- R113, R114: a trapped conversion leaves EFR, like xD, as it was. -/
def execFcvt (d a : Reg) (et et2 : ET) (rm : RM) (s : State) : Res :=
  let raw := (xGet s.h a).toNat
  let m := rmOf s.h rm (!exactConv et et2)
  if m == .efb then
    let (c, f, r) := convEfb et et2 false raw s.h.efr.toNat
    let s := if enabledOf s.h f != 0 then s else setH s { s.h with efr := BitVec.ofNat 32 r }
    finishFloat s d (scalarOf et c) f
  else
    let (c, f) := convElem et et2 false m raw
    finishFloat s d (scalarOf et c) f

end Sys2Proof.Machine
end

