-- ==== Sys2Proof/Machine/Stream.lean ====
section
/-! DEFINITION. Bound streams (R265 to R269): the control block, decoding a strip, filling the queue and popping it. A
binding counts its position in stream elements. Strips are read at their place in program order: right after the
`vbind`, and right after the instruction that pops one (R268). -/

namespace Sys2Proof.Machine

/-! ### The control block (R265) -/

/-- The element type of a code, for the codes that memory formats use. -/
def etOf (n : Nat) : ET := (ET.ofCode (BitVec.ofNat 5 n)).getD .f32

def Binding.fmt (b : Binding) : ET := etOf (b.ctl.toNat % 32)
def Binding.mode (b : Binding) : Nat := b.ctl.toNat / 2 ^ 14 % 4
def Binding.space (b : Binding) : Space := spaceOf (b.ctl.toNat / 2 ^ 16 % 8)
def Binding.scaleCode (b : Binding) : Nat := b.ctl.toNat / 2 ^ 19 % 32
def Binding.scaleEt (b : Binding) : ET := etOf b.scaleCode
def Binding.grp (b : Binding) : Nat := 2 ^ (b.ctl.toNat / 2 ^ 24 % 16)

/-- R266: FMT can be read into ET. -/
def readsInto (fmt et : ET) : Bool := fmt == et || (fmt.inCV && et.inCV) || (fmt.isBlock && et.inVF)

/-- R266: the block is refused. -/
def bindRefused (b : Binding) (resv : Nat) (full : Bool) : Bool :=
  let c := b.ctl.toNat
  c / 2 ^ 28 != 0 || c / 2 ^ 5 % 512 != 0 || resv != 0 || b.mode == 3 || 4 < c / 2 ^ 16 % 8 || 25 < c % 32 ||
    !readsInto b.fmt b.et || (b.mode != 0 && !b.fmt.wholeBytes) ||
    (b.scale != 0 && !b.et.isFloat) || !(b.scaleCode == ET.f32.code.toNat || b.scaleCode == ET.bf16.code.toNat) || b.strip == 0 ||
    (b.fmt.isBlock && (b.strip % 16 != 0 || b.count.toNat % 16 != 0)) || full

/-! ### Decoding a strip (R267, R268) -/

/-- Reads an aligned value of `n` bytes. R268 lets a stream read fault by a page fault or an access fault alone, so a
misaligned one is an access fault (log 37, DEDUCED). -/
def readAligned (s : State) (h : Hart) (sp : Space) (a : Word) (al n : Nat) : Except Flt (Nat × State) :=
  if a.toNat % al != 0 then .error ⟨11, a, 0⟩ else readRun s h sp a n

/-- The address of element `k` where its format has whole bytes, or of its block. -/
def elemAddr (s : State) (h : Hart) (b : Binding) (k : Nat) : Except Flt (Word × State) :=
  let m := if b.fmt.isBlock then b.fmt.blockBytes else b.fmt.memBits / 8
  match b.mode with
  | 0 => .ok (b.base + BitVec.ofNat 64 ((if b.fmt.isBlock then k / 16 else k) * m), s)
  | 1 => .ok (b.base + BitVec.ofNat 64 k * b.stride, s)
  | _ =>
    match readAligned s h b.space (b.index + BitVec.ofNat 64 (4 * k)) 4 4 with
    | .error f => .error f
    | .ok (x, s) => .ok (b.base + BitVec.ofNat 64 (x * m), s)

/-- The raw bits of element `k`: its code, or the whole block that holds it. -/
def elemBits (s : State) (h : Hart) (b : Binding) (k : Nat) : Except Flt (Nat × State) :=
  if b.fmt.isBlock then
    match elemAddr s h b k with
    | .error f => .error f
    | .ok (a, s) => readAligned s h b.space a 2 b.fmt.blockBytes
  else if b.fmt.wholeBytes then
    match elemAddr s h b k with
    | .error f => .error f
    | .ok (a, s) => readAligned s h b.space a (b.fmt.memBits / 8) (b.fmt.memBits / 8)
  else
    let w := b.fmt.bits
    let o := k * w
    match readRun s h b.space (b.base + BitVec.ofNat 64 (o / 8)) ((o % 8 + w + 7) / 8) with
    | .error f => .error f
    | .ok (v, s) => .ok (v / 2 ^ (o % 8) % 2 ^ w, s)

/-- Element `k` decoded into ET under RNE, with its scale if one is named; a currant ET takes its bytes of the block. -/
def streamElem (s : State) (h : Hart) (b : Binding) (k : Nat) : Except Flt (Nat × Fl × State) :=
  match elemBits s h b k with
  | .error f => .error f
  | .ok (raw, s) =>
    if b.et.isBlock then .ok (raw / 2 ^ (8 * b.et.regBytes * (k % 16)) % 2 ^ (8 * b.et.regBytes), flNone, s)
    else
      let (v, f0) := if b.fmt.isBlock then
          let v := blockVal b.fmt raw (k % 16)
          (v, if vIsNan v then flNV else flNone)
        else valOf b.fmt raw
      if b.scale = 0 then
        let (c, f1) := encVal b.et false .rne v
        .ok (c, f0 ||| sigFl v ||| f1, s)
      else
        let n := b.scaleEt.memBits / 8
        match readAligned s h b.space (b.scale + BitVec.ofNat 64 (k / b.grp * n)) n n with
        | .error f => .error f
        | .ok (x, s) =>
          let (p, f1) := vMul v (valOf b.scaleEt x).1
          let (c, f2) := encVal b.et false .rne p
          .ok (c, f0 ||| f1 ||| f2, s)

/-- Elements `k` onward, `n` of them, up to a fault. -/
def stripFrom (s : State) (h : Hart) (b : Binding) (k : Nat) : Nat → Strip × State
  | 0 => (⟨[], flNone, none⟩, s)
  | n + 1 =>
    match streamElem s h b k with
    | .error f => (⟨[], flNone, some (f.code, f.va, f.sub)⟩, s)
    | .ok (c, fl, s) =>
      let (st, s) := stripFrom s h b (k + 1) n
      (⟨c :: st.elems, fl ||| st.fl, st.fault⟩, s)

/-- The stream position at which the next strip of the queue begins. -/
def Binding.nextPos (b : Binding) : Nat := b.popped + (b.queue.map (fun st => st.elems.length)).foldl (· + ·) 0

/-- The next strip of a binding. -/
def fetchStrip (s : State) (h : Hart) (b : Binding) : Strip × State :=
  stripFrom s h b b.nextPos (Nat.min b.strip (b.count.toNat - b.nextPos))

def putBinding (h : Hart) (b : Binding) : Hart :=
  { h with binds := h.binds.map (fun c => if c.reg == b.reg then b else c) }

/-- The queue of a binding can take one more strip ahead of its reader (R267). -/
def canPrefetch (b : Binding) : Bool :=
  decide (b.queue.length < 4) && decide (b.nextPos < b.count.toNat) && b.queue.all (fun st => st.fault.isNone)

/-- The hart in front with one more strip in the queue of `b`. -/
def pushStrip (s : State) (b : Binding) : State :=
  let (st, s) := fetchStrip s s.h b
  setH s (putBinding s.h { b with queue := b.queue ++ [st] })

/-- R268: the strips that come next are read, up to `n` of them. -/
def fillQueue (p : Nat) : Nat → State → State
  | 0, s => s
  | n + 1, s =>
    match bindingOf s.h p with
    | some b => if canPrefetch b then fillQueue p n (pushStrip s b) else s
    | none => s

/-- R303: the bytes that elements `k` onward, `n` of them, of a stream read. -/
def streamRanges (s : State) (h : Hart) (b : Binding) (k n : Nat) : List Range :=
  (List.range n).flatMap (fun j =>
    let e := k + j
    let m := if b.fmt.isBlock then b.fmt.blockBytes else b.fmt.memBits / 8
    let here (a : Word) (len : Nat) : List Range := rangesOf h b.space a len false
    let index := if b.mode == 2 then here (b.index + BitVec.ofNat 64 (4 * e)) 4 else []
    let scale := if b.scale = 0 then [] else
      here (b.scale + BitVec.ofNat 64 (e / b.grp * (b.scaleEt.memBits / 8))) (b.scaleEt.memBits / 8)
    let data := if b.fmt.wholeBytes || b.fmt.isBlock then
        match elemAddr s h b e with | .ok (a, _) => here a m | .error _ => []
      else here (b.base + BitVec.ofNat 64 (e * b.fmt.bits / 8)) ((e * b.fmt.bits % 8 + b.fmt.bits + 7) / 8)
    index ++ scale ++ data)

/-- R303: a strip that the hart would read next, after `pops` more pops, conflicts with a command of its own. -/
def streamHeld (s : State) (h : Hart) (b : Binding) (pops : Nat) : Bool :=
  !h.cmds.isEmpty &&
    interlocked h (streamRanges s h b b.nextPos (Nat.min ((4 + pops - b.queue.length) * b.strip) (b.count.toNat - b.nextPos)))

/-- The same for any of the registers that an instruction reads, once for each reading of it. -/
def streamsHeld (s : State) (ps : List Nat) : Bool :=
  ps.any (fun p => match bindingOf s.h p with | some b => streamHeld s s.h b (ps.count p) | none => false)

/-- A strip to read, `k` strips behind the head: a queue that has been discarded or cut short by a fault fetches at the
reader's issue; a faulting strip without elements is the trap of R268. -/
def needStrip (s : State) (p k : Nat) : Except Trap State :=
  match bindingOf s.h p with
  | none => .ok s
  | some b =>
    let s := match b.queue[k]? with
      | none => pushStrip s b
      | some ⟨[], _, some _⟩ => pushStrip s { b with queue := b.queue.take k }
      | _ => s
    match bindingOf s.h p with
    | some b' =>
      match b'.queue[k]? with
      | some ⟨[], _, some (code, va, sub)⟩ => .error (memTrap ⟨code, va, sub⟩ none)
      | _ => .ok s
    | none => .ok s

/-- Elements of the strip `k` behind the head of a bound register. -/
def stripLen (h : Hart) (p k : Nat) : Option Nat :=
  (bindingOf h p).map (fun b => match b.queue[k]? with | some st => st.elems.length | none => 0)

/-- R267: a strip shorter than VL, `k` behind the head, sets VL and FFI at its reader's issue. -/
def lowerVl (h : Hart) (p k : Nat) : Hart :=
  match stripLen h p k with
  | some n => if n < h.vl then { h with vl := n, ffi := n } else h
  | none => h

/-- The image of a strip: its elements at the width of ET, zeros above. -/
def stripImage (et : ET) (l : List Nat) : Nat :=
  l.foldr (fun c acc => c % 2 ^ (8 * et.regBytes) + acc <<< (8 * et.regBytes)) 0

/-- The head of a binding's queue moves on, its strip read and not popped: a reader that has not retired (R267). -/
def passStrip (h : Hart) (p : Nat) : Hart :=
  { h with binds := h.binds.map (fun b =>
      if b.reg == p then { b with queue := b.queue.drop 1, popped := b.popped + (b.queue.head?.map (fun st => st.elems.length)).getD 0 }
      else b) }

/-- R267: the head strip becomes the contents of the register, and the head advances; the strip that R268 places there is
read. -/
def popStrip (s : State) (p : Nat) : State :=
  match bindingOf s.h p with
  | none => s
  | some b =>
    match b.queue with
    | [] => s
    | st :: rest =>
      let h := orFlags s.h st.fl
      let img := BitVec.ofNat 196608 (stripImage b.et st.elems % 2 ^ (8 * vBytes h))
      let h := { h with v := h.v.setIfInBounds p img, dead := h.dead &&& ~~~ BitVec.ofNat 64 (2 ^ p) }
      fillQueue p 4 (countEv (setH s (putBinding h { b with queue := rest, popped := b.popped + st.elems.length })) 0x20 1)

end Sys2Proof.Machine
end

