-- ==== Sys2Proof/Machine/VCore.lean ====
section
/-! DEFINITION. What every vector instruction shares: its operands as data (R134, R135), the element loop that writes a
destination under a weight (R165), flags that trap or are suppressed (R183 to R185), issue checks (R36, R134, R267),
failures and fault records (R160, R342, R343), early decision (R31, R32, R139, R140), and retirement (R28). Sources are
read as they stood when the instruction began (log 14, DEDUCED). -/

namespace Sys2Proof.Machine

/-- R135. -/
inductive VKind where
  | L | V | S
  deriving DecidableEq, Repr

/-- A vector source field: the register it names, how many registers, bytes of an element, its last-read mark. -/
structure VField where
  reg  : Nat
  regs : Nat
  b    : Nat
  mark : Bool
  deriving DecidableEq, Repr

/-- A destination: a vector register or group with its element bytes, or a weight register. -/
inductive VDst where
  | none
  | vec (reg regs b : Nat)
  | wt (reg : Nat)
  deriving DecidableEq, Repr

/-- One execution: the hart as it began, its kind and W field, v0 through a link (element bytes, image), the element
at which it stops short (R33), the elements cancelled (R31). -/
structure VCtx where
  h      : Hart
  kind   : VKind
  w      : BitVec 5
  link   : Option (Nat × Nat)
  lim    : Nat
  cancel : List Nat
  deriving DecidableEq, Repr

/-- What an execution has done so far. The lists have the newest first. -/
structure VAcc where
  s      : State
  out    : Nat := 0                  -- v0 as written
  trapE  : List (Nat × Fl) := []     -- trapping elements with their enabled flags
  faults : List (Nat × Flt) := []    -- elements with a memory fault
  more   : List Nat := []            -- elements that FMASK names beside them (R156)
  keep   : Bool := false             -- a suppressed value of a tree stands: another element traps (R406)
  supp   : List Nat := []            -- suppressed elements
  wrote  : List Nat := []            -- physical vector registers written
  stop   : Option Nat := none        -- the element at which it has stopped
  xw     : List (Reg × Word) := []   -- scalar results, written at retirement
  newVl  : Option Nat := none        -- VL and FFI of a first-faulting load
  addr   : Option (Nat × Nat) := none  -- lowest and highest address accessed
  deriving DecidableEq, Repr

/-- The result of one live element: a value to be blended and rounded, or a code; flags; under EFB the new residual. -/
structure ERes where
  val  : Val := .fin (qZero false)
  code : Option Nat := none
  fl   : Fl := flNone
  sat  : Bool := false
  efr  : Option Nat := none
  deriving DecidableEq, Repr

/-- A vector instruction. -/
structure VOp where
  instr  : Instr
  kind   : VKind
  k      : VCtl
  srcs   : List VField
  dst    : VDst
  wide   : Nat                     -- bytes of the widest element type read or written (R33)
  cb     : Bool := false           -- a currant type: VL is a multiple of 16 (R36)
  efbOk  : Bool := false           -- rounds under EFB where RM says so (R50)
  first  : Bool := false           -- stops at its first trapping element (R184)
  mem    : Bool := false           -- a memory instruction, in the retire trace
  frq    : Option Nat := none      -- KIND of its fault records (R343)
  stream : Bool := false           -- has a δ in R137
  blk    : Bool := false           -- writes by the block rule of R155
  check  : State → Option Trap := fun _ => none
  /-- R303: the first live element whose access conflicts with a command of the hart. -/
  hits : VCtx → State → Option Nat := fun _ _ => none
  /-- R31: whether the result of an element is the same for every value of v0 between two reals. -/
  decider : Option (VCtx → Nat → Q → Q → Bool) := none
  elem   : VCtx → Nat → Nat → ERes := fun _ _ _ => {}
  body   : VCtx → VAcc → VAcc

/-! ### Reading -/

/-- Element `i` of a source field: through a link, or of the register (R30). -/
def VCtx.src (c : VCtx) (f : VField) (i : Nat) : Nat :=
  if f.reg = 0 then
    match c.link with
    | some (b, img) => if b == f.b then img >>> (8 * b * i) % 2 ^ (8 * b) else 0
    | none => 0
  else vSrcElem c.h f.reg f.b i

def VCtx.ew (c : VCtx) (i : Nat) : Nat := ewOf c.h c.w i
def VCtx.live (c : VCtx) (i : Nat) : Bool := liveAt c.h c.w (c.kind == .L) i
def VCtx.passed (c : VCtx) (i : Nat) : Bool := untouched c.h (c.kind == .L) i
/-- The elements that this execution processes. -/
def VCtx.elems (c : VCtx) : List Nat := (List.range c.lim).drop c.h.vstart
/-- The live ones among them. -/
def VCtx.lives (c : VCtx) : List Nat := c.elems.filter c.live

/-! ### Writing -/

/-- `n` bits at bit `o` of a number replaced. -/
def putBits (x o n v : Nat) : Nat := x - (x >>> o % 2 ^ n) <<< o + (v % 2 ^ n) <<< o

/-- Element `i` of the destination. -/
def VOp.put (op : VOp) (c : VCtx) (a : VAcc) (i code : Nat) : VAcc :=
  match op.dst with
  | .none => a
  | .wt r =>
    let p := wPhys c.h r
    { a with s := setH a.s (wPut a.s.h p (wSetCode (wGet a.s.h p) i code)) }
  | .vec r _ b =>
    if r = 0 then { a with out := putBits a.out (8 * b * i) (8 * b) code }
    else
      let p := vRegOf c.h r (i * b)
      { a with s := setH a.s (vPutElem a.s.h r b i code), wrote := if a.wrote.contains p then a.wrote else p :: a.wrote }

/-- The physical registers of the vector destination. -/
def VOp.dstRegs (op : VOp) (h : Hart) : List Nat :=
  match op.dst with
  | .vec r g _ => if r = 0 then [] else (List.range g).map (fun j => vPhys h (r + j))
  | _ => []
/-- The physical registers that the sources mark as last read (R27). -/
def VOp.marks (op : VOp) (h : Hart) : List Nat :=
  (op.srcs.filter (·.mark)).flatMap (fun f => (List.range f.regs).map (fun j => vPhys h (f.reg + j)))
/-- R28: the destination registers that the instruction also marks: the writes come after the marks, so the old contents
count as zero. An open or bound register ignores its mark (R253, R267). -/
def VOp.reborn (op : VOp) (h : Hart) : List Nat :=
  (op.dstRegs h).filter (fun p => (op.marks h).contains p && !isOpen h p && (bindingOf h p).isNone)

/-- The old value of element `i` of a float destination; v0 keeps none, nor does a register that the instruction marks
(R28). -/
def VOp.old (op : VOp) (c : VCtx) (i : Nat) : Val :=
  match op.dst with
  | .vec r _ b =>
    if r = 0 || (op.reborn c.h).contains (vRegOf c.h r (i * b)) then .fin (qZero false) else (valOf op.k.et (vElem c.h r b i)).1
  | _ => .fin (qZero false)

/-- The destination as a retiring execution finds it: in a register that it also marks, every element from VSTART on that it
may touch is zero (R28, R22, R344). -/
def VOp.emptied (op : VOp) (c : VCtx) (h : Hart) : Hart :=
  match op.dst with
  | .vec r _ b =>
    let n := vBytes h
    (op.reborn c.h).foldl (fun h p =>
      let lo := (op.dstRegs c.h).idxOf p * n
      let below := (vImg h p).toNat % 2 ^ (8 * (Nat.min (c.h.vstart * b) (lo + n) - lo))
      let kept := if c.h.fmrun then c.elems.filter (fun i => c.passed i && vRegOf c.h r (i * b) == p) else []
      let img := kept.foldl (fun v i => imgPut v (i * b % n) b (vElem c.h r b i)) (BitVec.ofNat 196608 below)
      { h with v := h.v.setIfInBounds p img }) h
  | _ => h

/-- The exact result of element `i` under its policy, and the flags of forming it (R165). -/
def VOp.exact (op : VOp) (c : VCtx) (i : Nat) (r : ERes) : Val × Fl :=
  if op.k.wp == .blend then
    let (v, f) := vBlend (rmOf c.h op.k.rm false == .rdn) (c.ew i) r.val (op.old c i)
    (v, r.fl ||| f)
  else (r.val, r.fl)

/-- Its code and flags. Under `blend` the saturation of `vcvt.sat` (R46) acts on the blended sum, an infinite old value's
included, with NX (log 54, DESIGN CHOICE). -/
def VOp.round (op : VOp) (c : VCtx) (i : Nat) (r : ERes) : Nat × Fl :=
  match r.code with
  | some x => (x, r.fl)
  | none =>
    let (v, f) := op.exact c i r
    let (x, g) := encVal op.k.et r.sat (rmOf c.h op.k.rm false) v
    (x, f ||| g)

/-! ### Flags under a weight (R183 to R185) -/

/-- What becomes of a live element's result. -/
inductive Fate where
  | write | zero | omit
  deriving DecidableEq, Repr

/-- The flags that a cancelled element may raise (R32). -/
def cancelMask : Fl := flNV ||| flDZ ||| flOF

/-- The flags of element `i` are raised; an enabled one traps or is suppressed. -/
def VCtx.fate (c : VCtx) (a : VAcc) (i : Nat) (fl : Fl) : VAcc × Fate :=
  let fl := if c.cancel.contains i then fl &&& cancelMask else fl
  let a := { a with s := setH a.s (orFlags a.s.h fl) }
  let en := enabledOf c.h fl
  if en = 0 then (a, .write)
  else if c.h.floor.toNat ≤ c.ew i then ({ a with trapE := (i, en) :: a.trapE }, .omit)
  else ({ a with supp := i :: a.supp }, .zero)

def VOp.efb (op : VOp) (h : Hart) : Bool := op.efbOk && rmOf h op.k.rm true == .efb
/-- R184: stops at the first trapping element. -/
def VOp.stopsFirst (op : VOp) (h : Hart) : Bool := op.first || op.efb h

def putEfr (a : VAcc) (r : Option Nat) : VAcc :=
  match r with
  | some e => { a with s := setH a.s { a.s.h with efr := BitVec.ofNat 32 e } }
  | none => a

/-- R155: a block is live when one of its elements is, and passed over when all are. -/
def VCtx.blkLive (c : VCtx) (k : Nat) : Bool := (List.range 16).any (fun j => c.live (16 * k + j))
def VCtx.blkPassed (c : VCtx) (k : Nat) : Bool := (List.range 16).all (fun j => c.passed (16 * k + j))

/-- R165: one element of a register destination. A conversion under EFB whose element is suppressed leaves the residual of
the value that it would have delivered (R48, R185; log 41, DESIGN CHOICE). -/
def VOp.one (op : VOp) (c : VCtx) (a : VAcc) (i : Nat) : VAcc :=
  if a.stop.isSome || (if op.blk then c.blkPassed (i / 16) else c.passed i) then a
  else if !(if op.blk then c.blkLive (i / 16) else c.live i) then (if op.k.wp == .zero then op.put c a i 0 else a)
  else
    let r := op.elem c a.s.h.efr.toNat i
    let (x, fl) := op.round c i r
    let (a, fate) := c.fate a i fl
    match fate with
    | .write => op.put c (putEfr a r.efr) i x
    | .zero => op.put c (putEfr a r.efr) i 0
    | .omit => if op.stopsFirst c.h then { a with stop := some i } else a

/-- The element loop. -/
def VOp.loop (op : VOp) (c : VCtx) (a : VAcc) : VAcc := c.elems.foldl (op.one c) a

/-- R185: the suppressed elements are counted, and inside an arm fade from the ambient weight. -/
def endSupp (a : VAcc) : State :=
  let es := a.supp.eraseDups
  let n := es.length
  if n = 0 then a.s
  else
    let h := addPruned a.s.h n
    let h := if h.armsp = 0 then h else es.foldl (fun h i => wPut h 0 (wSetCode (wGet h 0) i 0)) h
    countEv (setH a.s h) 0x0A n

/-! ### Issue checks (R36, R134, R267) -/

/-- A member of a chain, with the PC of its slot. -/
structure Member where
  pc : Word
  op : VOp

def VDst.fits (d : VDst) (h : Hart) : Bool :=
  match d with
  | .vec _ g b => decide (h.vl ≤ capacity h g b)
  | _ => true

/-- R267: the destination is a bound register. -/
def VDst.bound (d : VDst) (h : Hart) : Bool :=
  match d with
  | .vec r g _ => r != 0 && (List.range g).any (fun j => (bindingOf h (vPhys h (r + j))).isSome)
  | _ => false

/-- The bound registers that the sources name. -/
def VOp.boundSrcs (op : VOp) (h : Hart) : List Nat :=
  ((op.srcs.filter (fun f => f.reg != 0)).flatMap (fun f => (List.range f.regs).map (fun j => vPhys h (f.reg + j)))).eraseDups.filter
    (fun p => (bindingOf h p).isSome)

/-- R267: a strip for each bound source stands ready at issue, behind those that `pops`, the earlier members of the chain,
read; a short one lowers VL. -/
def VOp.strips (op : VOp) (pops : List Nat) (s : State) : Except Trap State :=
  (op.boundSrcs s.h).foldl (fun r p =>
    match r with
    | .error t => .error t
    | .ok s =>
      match needStrip s p (pops.count p) with
      | .error t => .error t
      | .ok s => .ok (setH s (lowerVl s.h p (pops.count p)))) (.ok s)

/-- The checks made before any effect. -/
def VOp.issue (op : VOp) (pops : List Nat) (s : State) : Except Trap State :=
  match op.strips pops s with
  | .error t => .error t
  | .ok s =>
    let h := s.h
    if op.srcs.any (fun f => decide (capacity h f.regs f.b < h.vl)) || !op.dst.fits h || op.dst.bound h ||
        (op.cb && h.vl % 16 != 0) then .error (illegalTrap op.instr 2)
    else match op.check s with
      | some t => .error t
      | none => .ok s

/-! ### Failures (R160, R184, R340, R342, R343) -/

def fmaskOf (es : List Nat) : BitVec 24576 := es.foldl (fun m i => m ||| BitVec.ofNat 24576 (2 ^ i)) 0

/-- A failed execution: its lowest failing element, the VSTART that a trap which stops at an element leaves, the trap, the
fault records, and whether the last of them says that others were not entered. -/
structure Failure where
  elem : Nat
  at_  : Option Nat
  trap : Trap
  recs : List Frq
  excess : Bool
  deriving DecidableEq, Repr

/-- The records that the faulting elements enter, in ascending order. -/
def VOp.records (op : VOp) (c : VCtx) (a : VAcc) : List Frq :=
  match op.frq with
  | none => []
  | some kind => a.faults.reverse.map (fun (i, f) =>
      { pc := c.h.pc, va := f.va, elem := BitVec.ofNat 32 i, weight := BitVec.ofNat 16 (c.ew i), kind := kind
        cause := f.code, gid := c.h.gid, ovf := false, seq := BitVec.ofNat 32 a.s.clk })

/-- R344, R184: the elements of an execution that stopped at element `e` which FMASK must name beside the failing ones: those
not reached, where the execution runs under FMASK alone already, or where a deferred arithmetic trap below `e` needs FMASK
(log 46, DESIGN CHOICE); none where VSTART alone says where to resume. -/
def VOp.unreached (op : VOp) (c : VCtx) (a : VAcc) (e : Nat) : Option (List Nat) :=
  if c.h.fmrun || (!op.stopsFirst c.h && !a.trapE.isEmpty) then
    some (((List.range c.h.vl).drop e).filter (fun i => !c.passed i))
  else none

/-- The trap of an execution: that of its lowest failing element, a memory fault or trapping flags, whichever it is (R160, R184;
log 57, DESIGN CHOICE). -/
def VOp.failure (op : VOp) (c : VCtx) (a : VAcc) : Option Failure :=
  let es := (a.faults.map (·.1) ++ a.trapE.map (·.1))
  match es.min? with
  | none => none
  | some low =>
    let t := match a.faults.find? (fun p => p.1 == low) with
      | some (i, f) => memTrap f (some i)
      | none => arithTrap (a.trapE.foldl (fun fl p => fl ||| p.2) flNone) low
    let named := match a.stop with
      | some e => op.unreached c a e
      | none => some []
    let t := match named with | some l => { t with fmask := some (fmaskOf (es ++ a.more ++ l)) } | none => t
    let rs := op.records c a
    some ⟨low, if named.isNone then a.stop else none, t, rs.take Config.frqPerExecution, decide (Config.frqPerExecution < rs.length)⟩

/-- Enters records in the die's queue while it has room; whether one was left out. -/
def enterFrq (s : State) (rs : List Frq) (excess : Bool) : State × Bool :=
  let die := dieOf s.h.gid
  let q := s.d.frq.toList.getD die []
  let fit := rs.take (Config.frqRecords - q.length)
  let ovf := excess || decide (fit.length < rs.length)
  let fit := if ovf then fit.dropLast ++ (match fit.getLast? with | some r => [{ r with ovf := true }] | none => []) else fit
  let s := { s with d := { s.d with frq := s.d.frq.setIfInBounds die (q ++ fit) } }
  (if ovf then countDie s die 0x3D 1 else s, ovf)

/-- The trap of a failure with its records entered. -/
def takeFailure (s : State) (f : Failure) (fix : Trap → Trap) : State :=
  let (s, ovf) := if f.recs.isEmpty then (s, false) else enterFrq s f.recs f.excess
  takeTrap s (fix { f.trap with ovf := ovf })

/-! ### Early decision (R31, R32, R139, R140) -/

/-- R140: the digits that the result of element `i` leaves undone, where the consumer decides it. -/
def digitsLeft (et : ET) (const : Q → Q → Bool) (x : Q) : Option Nat :=
  let f := fmtOf et
  let emax : Int := (f.maxMag >>> f.fbits : Nat) - (f.bias : Int)
  let q := if qIsZero x || x.num == 0 then f.emin else max f.emin (min emax (qExp x))
  let holds (e : Int) : Bool := const (qAdd false x (qDyad true 1 e)) (qAdd false x (qDyad false 1 e))
  let n := (f.fbits + 4) / 2
  if !holds (q - f.fbits) then none
  else some (n - (((List.range n).map (· + 1)).find? (fun j => holds (q + 1 - 2 * (j : Nat)))).getD n)

/-- R185: inside an arm the element is suppressed in the producer even where it is cancelled, and so is dead in a consumer
that uses the ambient weight. -/
def fades (prod : VOp) (c : VCtx) (cons : VOp) (i : Nat) : Bool :=
  c.h.armsp != 0 && cons.k.w != 31 && decide (c.ew i < c.h.floor.toNat) &&
    enabledOf c.h ((prod.round c i (prod.elem c 0 i)).2 &&& cancelMask) != 0

/-- The elements of a producer that the consumer through v0 decides, with the digits each leaves. A consumer of another ET
than the producer's decides none, though it may read v0 at the same width (R31; log 40, DESIGN CHOICE). -/
def decided (prod : VOp) (c : VCtx) (cons : VOp) : List (Nat × Nat) :=
  match cons.decider with
  | none => []
  | some const =>
    if !prod.stream || !prod.k.et.isFloat || prod.k.et != cons.k.et then []
    else
      let c2 : VCtx := { c with kind := cons.kind, w := cons.k.w }
      c.lives.filterMap (fun i =>
        if !c2.live i || fades prod c cons i then none
        else match (prod.exact c i (prod.elem c 0 i)).1 with
          | .fin x => (digitsLeft prod.k.et (const c2 i) x).map (fun n => (i, n))
          | _ => none)

/-! ### Retirement (R22, R28, R166, R267) -/

/-- A source reads a dead register, or v0 other than as its consumer. -/
def VOp.deadRead (op : VOp) (c : VCtx) : Bool :=
  op.srcs.any (fun f =>
    if f.reg = 0 then (match c.link with | some (b, _) => b != f.b | none => true)
    else (List.range f.regs).any (fun j => isDead c.h (vPhys c.h (f.reg + j))))

/-- The marked registers that become dead: not those that the instruction writes, in this execution or in an earlier part
of it (log 15, DEDUCED). -/
def VOp.marked (op : VOp) (c : VCtx) (a : VAcc) : List Nat :=
  (op.marks c.h).filter (fun p => !(a.wrote.contains p || ((c.h.vstart != 0 || c.h.fmrun) && (op.dstRegs c.h).contains p)))

/-- The effects of a retirement that are not the PC's. -/
def VOp.retire (op : VOp) (c : VCtx) (a : VAcc) : State :=
  let s := a.s
  let live := c.lives.length
  let s := (op.boundSrcs c.h).foldl popStrip s
  let s := setH s ((op.marked c a).foldl markDead s.h)
  let s := if op.deadRead c then countEv (setH s (setDeadRead s.h)) 0x0B 1 else s
  let h := a.xw.foldl (fun h p => xSet h p.1 p.2) s.h
  let h := match a.newVl with | some n => { h with vl := n, ffi := n } | none => h
  let s := setH s (clearFm { h with vstart := 0 })
  let n := Nat.max 1 (c.h.lanes * 16 / op.wide)
  let s := countEv (countEv s 4 ((c.h.vl - c.h.vstart + n - 1) / n)) 5 live
  let s := if live = 0 then countEv s 6 1 else s
  let (lo, hi) := a.addr.getD (0, 0)
  traceRetire s (if op.mem then 1 else 0) op.k.et.code.toNat lo hi (if op.mem then c.h.space.toNat else 0) live

end Sys2Proof.Machine
end

