-- ==== Sys2Proof/Machine/VChain.lean ====
section
/-! DEFINITION. Running a vector instruction with the chain that it begins (R30, R33, R34): finding the members, the
checks before the first begins, the run, the frontier of a trap or a pre-emption, retirement. `look` gives the vector
instruction that an instruction is, if any. -/

namespace Sys2Proof.Machine

def VOp.readsV0 (op : VOp) : Bool := op.srcs.any (fun f => f.reg == 0)
/-- The element width at which the destination is v0. -/
def VOp.v0Width (op : VOp) : Option Nat :=
  match op.dst with
  | .vec 0 _ b => some b
  | _ => none

/-- R30: the members that follow `m`, at most `n`; whether the last forms a pair with the slot after it; the state after
the fetches. A slot that fails a check of R60 is no consumer; nor is a reader at another width alone. R34 names only a slot
that does not decode: one whose fetch faults, or whose line, parity or pairing is bad, ends the chain in the same way, and the
producer's value is gone (log 52, DESIGN CHOICE). -/
def chainAfter (look : Instr → Option VOp) (s : State) (m : Member) : Nat → List Member × Option Bool × State
  | 0 => ([], none, s)
  | n + 1 =>
    match m.op.v0Width with
    | none => ([], none, s)
    | some b =>
      if endsLevel s.h m.pc then ([], none, s)
      else
        let pc := seqNext m.pc
        match fetchCheck s s.h pc none false with
        | (.ok i mate, s1) =>
          match look i with
          | some op =>
            if op.readsV0 && (m.op.kind != .L || op.srcs.any (fun f => f.reg == 0 && f.b == b)) then
              let (ms, mt, s2) := chainAfter look s1 ⟨pc, op⟩ n
              (⟨pc, op⟩ :: ms, some (mt.getD mate.isSome), s2)
            else ([], none, s)
          | none => ([], none, s)
        | _ => ([], none, s)

/-- The checks of every member before the first begins (R30, R34, R50): the first that fails, or the state with the
strips read and VL as they leave it; `pops` are the bound registers that the members before read. The illegal-instruction
trap of a producer that is not group-local, or of a second member that rounds under EFB, is among them, and is delivered
as R34 delivers the others (log 39, DESIGN CHOICE). -/
def chainIssue (s : State) (efb : Bool) (first : Bool) (pops : List Nat) : List Member → Except Trap State
  | [] => .ok s
  | m :: rest =>
    let e := m.op.efb s.h
    if m.op.kind != .L && !rest.isEmpty then .error (illegalTrap m.op.instr 2)
    else if e && efb then .error (illegalTrap m.op.instr 2)
    else match (if first then none else endCheck { s.h with pc := m.pc } m.op.instr) with
      | some t => .error t
      | none =>
        match m.op.issue pops s with
        | .error t => .error t
        | .ok s => chainIssue s (efb || e) false (m.op.boundSrcs s.h ++ pops) rest

/-- A run of the members so far: the state, the VSTART at which every member begins (R33), v0 as the last one left it, the
lowest failure, and the lowest element whose access conflicts with a command of the hart (R303). -/
structure ChainRun where
  s     : State
  from_ : Nat
  link  : Option (Nat × Nat)
  worst : Option Failure
  held  : Option Nat
  deriving DecidableEq, Repr

def ChainRun.start (s : State) : ChainRun := ⟨s, s.h.vstart, none, none, none⟩

def ChainRun.note (r : ChainRun) (f : Option Failure) : ChainRun :=
  match f, r.worst with
  | some f, some g => if f.elem < g.elem then { r with worst := some f } else r
  | some f, none => { r with worst := some f }
  | none, _ => r

def ChainRun.hold (r : ChainRun) (e : Option Nat) : ChainRun :=
  match e, r.held with
  | some e, some g => { r with held := some (Nat.min e g) }
  | some e, none => { r with held := some e }
  | none, _ => r

/-- A member that does not retire: its effects so far, its strips read and not popped, VL as a first-faulting load that has
stopped leaves it. -/
def VOp.unretired (op : VOp) (c : VCtx) (a : VAcc) : State :=
  let s := endSupp a
  let h := (op.boundSrcs c.h).foldl passStrip s.h
  setH s (match a.stop, a.newVl with | some _, some n => { h with vl := n, ffi := n } | _, _ => h)

/-- The members run in order. With `lim` they stop at that element and none retires; a last member of kind V or S runs only
if it has begun, `vs`. -/
def runMembers (lim : Option Nat) (vs : Bool) (r : ChainRun) : List Member → ChainRun
  | [] => r
  | m :: rest =>
    let s := setH r.s { r.s.h with pc := m.pc, vstart := r.from_ }
    let l := match lim with | some l => Nat.min l s.h.vl | none => s.h.vl
    if m.op.kind != .L && (r.worst.isSome || r.held.isSome || !vs) then r
    else
      let c0 : VCtx := { h := s.h, kind := m.op.kind, w := m.op.k.w, link := r.link, lim := l, cancel := [] }
      let cut := match rest with | c :: _ => decided m.op c0 c.op | [] => []
      let c := { c0 with cancel := cut.map (·.1) }
      let s := countEv s 8 (cut.foldl (fun n p => n + p.2) 0)
      let a := m.op.body c { s := s }
      let f := m.op.failure c a
      let held := (m.op.hits c s).filter (fun e => a.stop.all (e ≤ ·))
      let retires := lim.isNone && f.isNone && held.isNone
      let a := if retires && !(m.op.reborn s.h).isEmpty then m.op.body c { s := setH s (m.op.emptied c s.h) } else a
      let s1 := if retires then m.op.retire c { a with s := endSupp a } else m.op.unretired c a
      let link := match m.op.v0Width with | some b => some (b, a.out) | none => none
      runMembers lim vs (ChainRun.hold (ChainRun.note { r with s := s1, link := link } f) held) rest

/-- R33: the frontier: nothing has retired, no strip is popped, and the chain reissues from its first member. -/
def frontier (s : State) (binds : List Binding) (pc : Word) (lim : Nat) : State :=
  countEv (setH s { s.h with pc := pc, vstart := lim, linkpc := pc ||| 1, second := false, xfer := none, binds := binds }) 9 1

/-- The trap at a frontier (R34, R340). -/
def frontierTrap (pc : Word) (t : Trap) : Trap := { t with pc := some pc, f := true }

/-- Elements of an element group of the chain (R33). -/
def groupSize (h : Hart) (ms : List Member) : Nat :=
  Nat.max 1 (h.lanes * 16 / ms.foldl (fun w m => Nat.max w m.op.wide) 1)

/-- The element groups below VL. -/
def groupsOf (h : Hart) (ms : List Member) : Nat := (h.vl + groupSize h ms - 1) / groupSize h ms

/-- The element of a frontier at group `g`, never below the VSTART of a chain that resumes (log 36, DEDUCED). -/
def frontierAt (h : Hart) (ms : List Member) (g : Nat) : Nat := Nat.max h.vstart (g * groupSize h ms)

/-- R160, R184: the trap of an instruction that is no chain. -/
def finishAlone (s0 : State) (r : ChainRun) (f : Failure) : Res :=
  .next (takeFailure (setH r.s { r.s.h with vstart := f.at_.getD r.s.h.vstart, binds := s0.h.binds }) f id)

/-- A run that has failed at a chain: the groups below the failing one again, then the trap at the frontier. -/
def finishChain (s0 : State) (ms : List Member) (pc : Word) (f : Failure) (lastVS : Bool) : Res :=
  let lim := if lastVS then s0.h.vl else frontierAt s0.h ms (f.elem / groupSize s0.h ms)
  let r := runMembers (some lim) lastVS (.start s0) ms
  let f := { f with trap := { f.trap with fmask := some (f.trap.fmask.getD (fmaskOf [f.elem])) } }
  .next (takeFailure (frontier r.s s0.h.binds pc lim) f (frontierTrap pc))

/-- R303: the access of element `e` of an instruction that is no chain waits for a command: the elements below are done, and
it issues again from there. One with faulting elements among them, which it reports at its end, waits whole, and so does one
that `replay` runs, which a pre-emption may undo (log 25, DEDUCED). -/
def waitAt (s s0 : State) (ms : List Member) (e : Nat) : Res :=
  let e := if ms.any (fun m => m.op.cb) then e / 16 * 16 else e
  let q := runMembers (some e) false (.start s0) ms
  if s0.h.replay.isSome then stall (countEv s 0x14 1)
  else match q.worst with
  | none => stall (countEv (setH q.s { q.s.h with vstart := Nat.max s0.h.vstart e, binds := s0.h.binds }) 0x14 1)
  | some f => if f.at_.isSome then finishAlone s0 q f else stall (countEv s 0x14 1)

/-- R33, R347, R373: the element at which a pre-emption within the instruction stops it: a chain at a frontier, whatever its
members have done once the first has begun, until the last ends; a group-local instruction at a group. -/
def preemptAt (h : Hart) (ms : List Member) (chain lastL : Bool) (end_ : Nat) : Option Nat :=
  match stopGroup h with
  | some g =>
    if chain then (if g ≤ groupsOf h ms then some (frontierAt h ms g) else none)
    else if lastL && frontierAt h ms g < end_ then some (frontierAt h ms g) else none
  | none => none

/-- A vector instruction with the members `ms` of its chain, itself the first. The second of a pair that is stopped within
itself issues again as the first of a pair of its own, if its slot has one (R59; log 55, DESIGN CHOICE). -/
def runChain (s : State) (ms : List Member) (mate : Option Bool) : Res :=
  let pc := s.h.pc
  let chain := decide (1 < ms.length)
  if (ms.drop 1).any (fun m => stalls s.h m.op.instr) then stall (countEv s 0x15 1)
  else if streamsHeld s (ms.flatMap (fun m => m.op.boundSrcs s.h)) then stall (countEv s 0x14 1)
  else match chainIssue s false true [] ms with
    | .error t =>
      if chain && !(ms.head?.any (fun m => m.op.kind != .L)) then
        .next (takeTrap (frontier s s.h.binds pc s.h.vstart) (frontierTrap pc t))
      else trap s t
    | .ok s1 =>
      let s2 := (ms.drop 1).foldl (fun s _ => countIssue s false) s1
      let lastL := ms.getLast?.all (fun m => m.op.kind == .L)
      let r := runMembers none true (.start s2) ms
      -- a last member that is not group-local has begun only if every earlier one came to its end
      let before := if lastL then r.worst else (runMembers none true (.start s2) ms.dropLast).worst
      -- a pre-emption below the first fault comes first
      let cut := (preemptAt s1.h ms chain lastL r.s.h.vl).filter (fun lim =>
        !before.any (fun f => decide (f.elem < lim) || !chain && f.at_.isNone))
      match cut with
      | some lim =>
        let q := runMembers (some lim) false (.start s2) ms
        if q.held.isSome then (if chain then stall (countEv s 0x14 1) else waitAt s s2 ms (q.held.getD 0))
        else if chain then .next (frontier q.s s2.h.binds pc lim)
        else .next (setH q.s { q.s.h with pc := pc, vstart := lim, second := false, binds := s2.h.binds })
      | none =>
        match r.worst, r.held with
        | none, none =>
          let h := r.s.h
          let h := if chain then { h with linkpc := h.linkpc &&& ~~~ 1, second := mate.getD false } else h
          next (countEv (setH r.s h) 7 (ms.length - 1))
        | worst, some e =>
          if !chain then waitAt s s2 ms e
          else match worst with
            | some f => if f.elem < e then finishChain s2 ms pc f false else stall (countEv s 0x14 1)
            | none => stall (countEv s 0x14 1)
        | some f, none =>
          if chain then finishChain s2 ms pc f (!lastL && before.isNone)
          else finishAlone s2 r f

/-- The meaning of a vector instruction. One that `replay` runs begins no chain. -/
def runVec (look : Instr → Option VOp) (op : VOp) (s : State) : Res :=
  let m : Member := ⟨s.h.pc, op⟩
  if s.h.replay.isSome then runChain s [m] none
  else
    let (ms, mate, s1) := chainAfter look s m 4
    runChain s1 (m :: ms) mate

end Sys2Proof.Machine
end

