-- ==== Sys2Proof/Machine/VFloat.lean ====
section
/-! DEFINITION. Vector arithmetic, OP 0x40 to 0x43 (R137, R139, R141 to R145): each instruction as a VOp. -/

namespace Sys2Proof.Machine

/-! ### Fields -/

def fldA (a : Reg) (k : VCtl) (b : Nat) : VField := ⟨a.toNat, k.g.size, b, k.lr.getLsbD 2⟩
def fldB (r : Reg) (k : VCtl) (b : Nat) : VField := ⟨r.toNat, k.g.size, b, k.lr.getLsbD 1⟩
def fldC (r : Reg) (k : VCtl) (b : Nat) : VField := ⟨r.toNat, k.g.size, b, k.lr.getLsbD 0⟩
/-- The field that a B operand reads, if it is a vector register. -/
def fldsB (b : VSrc) (k : VCtl) (n : Nat) : List VField :=
  match b with
  | .reg r => [fldB r k n]
  | _ => []
def dstV (d : Reg) (k : VCtl) (b : Nat) : VDst := .vec d.toNat k.g.size b

/-- The code of B for element `i` (R62). A float immediate is rounded under the RM of the instruction, also of one that ignores
RM in its result, as `wcmp` does (log 66, DESIGN CHOICE). -/
def VCtx.bCode (c : VCtx) (b : VSrc) (k : VCtl) (et : ET) (i : Nat) : Nat :=
  match b with
  | .reg r => c.src (fldB r k et.regBytes) i
  | b => (splatCode c.h b et (rmOf c.h k.rm false)).getD 0

/-- An operand as a value of a float type, and as an integer. -/
def fval (et : ET) (x : Nat) : Val := decFloat (fmtOf et) (codeOf et x)
def ival (et : ET) (x : Nat) : Int := (decInt et x).1

def VCtx.rdn (c : VCtx) (k : VCtl) : Bool := rmOf c.h k.rm false == .rdn

/-- The widest of a set of fields and a destination. -/
def widest (fs : List VField) (d : VDst) : Nat :=
  fs.foldl (fun w f => Nat.max w f.b) (match d with | .vec _ _ b => b | .wt _ => 2 | .none => 1)

/-- A group-local instruction that computes each element of its destination. -/
def elemOp (i : Instr) (k : VCtl) (srcs : List VField) (dst : VDst) (f : VCtx → Nat → Nat → ERes) : VOp :=
  let op : VOp := { instr := i, kind := .L, k := k, srcs := srcs, dst := dst, wide := widest srcs dst, elem := f
                    body := fun _ a => a }
  { op with body := op.loop }

/-- The same with its element loop taken anew, for an op whose fields have been changed. -/
def VOp.looped (op : VOp) : VOp := { op with body := op.loop }

/-! ### Arithmetic of one type -/

/-- A result of a float type, or a code of an integer type. -/
def numRes (k : VCtl) (f : Val × Fl) (n : Int) : ERes :=
  if k.et.isFloat then { val := f.1, fl := f.2 } else { code := some (encInt k.et n) }

/-- vD, vA, b with a float and an integer function. -/
def opBin (ff : Bool → Val → Val → Val × Fl) (fi : Int → Int → Int) (i : Instr) (d a : Reg) (b : VSrc) (k : VCtl) : VOp :=
  let n := k.et.regBytes
  let A := fldA a k n
  elemOp i k (A :: fldsB b k n) (dstV d k n) (fun c _ j =>
    let x := c.src A j
    let y := c.bCode b k k.et j
    numRes k (ff (c.rdn k) (fval k.et x) (fval k.et y)) (fi (ival k.et x) (ival k.et y)))

/-- vD, vA. -/
def opUn (ff : Val → Val × Fl) (fi : Int → Int) (i : Instr) (d a : Reg) (k : VCtl) : VOp :=
  let n := k.et.regBytes
  let A := fldA a k n
  elemOp i k [A] (dstV d k n) (fun c _ j =>
    let x := c.src A j
    numRes k (ff (fval k.et x)) (fi (ival k.et x)))

/-- vD, vA, b, vC. -/
def opTern (ff : Bool → Val → Val → Val → Val × Fl) (fi : Int → Int → Int → Int) (i : Instr) (d a : Reg) (b : VSrc)
    (e : Reg) (k : VCtl) : VOp :=
  let n := k.et.regBytes
  let A := fldA a k n
  let C := fldC e k n
  elemOp i k (A :: fldsB b k n ++ [C]) (dstV d k n) (fun c _ j =>
    let x := c.src A j
    let y := c.bCode b k k.et j
    let z := c.src C j
    numRes k (ff (c.rdn k) (fval k.et x) (fval k.et y) (fval k.et z)) (fi (ival k.et x) (ival k.et y) (ival k.et z)))

/-- A streaming producer (R138). -/
def streaming (op : VOp) : VOp := VOp.looped { op with stream := true }

/-! ### Deciding consumers (R31, R139) -/

/-- The same result, as a real value with its sign. -/
def sameVal (a b : Val) : Bool :=
  match a, b with
  | .nan _, .nan _ => true
  | .inf x, .inf y => x == y
  | .fin p, .fin q => p.neg == q.neg && qCmp p q == 0
  | _, _ => false

/-- An operand in which `q` stands if its field names v0. -/
def VCtx.valAt (c : VCtx) (f : VField) (et : ET) (q : Q) (j : Nat) : Val :=
  if f.reg = 0 then .fin q else fval et (c.src f j)
def VCtx.bValAt (c : VCtx) (b : VSrc) (k : VCtl) (q : Q) (j : Nat) : Val :=
  match b with
  | .reg r => c.valAt (fldB r k k.et.regBytes) k.et q j
  | b => fval k.et (c.bCode b k k.et j)

/-- A result that never falls as v0 rises is constant if it is the same at both ends. -/
def monotone (res : VCtx → Nat → Q → Val) (c : VCtx) (j : Nat) (lo hi : Q) : Bool :=
  sameVal (res c j lo) (res c j hi)

/-- R139: a comparison is constant if it agrees at both ends and at the other operand where it lies between them. -/
def cmpConst (cond : Cond) (a b : Q → Val) (lo hi : Q) : Bool :=
  let at_ (q : Q) : Bool := condHolds cond (vCmp (a q) (b q))
  let between (v : Val) : List Q :=
    match v with
    | .fin q => if qCmp lo q ≤ 0 && qCmp q hi ≤ 0 then [q] else []
    | _ => []
  (hi :: (between (a lo) ++ between (b lo))).all (fun q => at_ q == at_ lo)

/-! ### OP 0x40 (R141, R142) -/

def opVadd := fun d a b k => streaming (opBin vAdd (· + ·) (.vadd d a b k) d a b k)
def opVsub := fun d a b k => streaming (opBin vSub (· - ·) (.vsub d a b k) d a b k)
def opVmul := fun d a b k => streaming (opBin (fun _ => vMul) (· * ·) (.vmul d a b k) d a b k)
def opVfma := fun d a b e k => streaming (opTern vFma (fun x y z => x * y + z) (.vfma d a b e k) d a b e k)
def opVfms := fun d a b e k =>
  streaming (opTern (fun r x y z => vFma r x y (vNeg z)) (fun x y z => x * y - z) (.vfms d a b e k) d a b e k)
def opVfnma := fun d a b e k =>
  streaming (opTern (fun r x y z => vFma r (vNeg x) y z) (fun x y z => z - x * y) (.vfnma d a b e k) d a b e k)
def opVdiv := fun d a b k => streaming (opBin (fun _ => vDiv) (fun x _ => x) (.vdiv d a b k) d a b k)
def opVsqrt := fun d a k => streaming (opUn vSqrt id (.vsqrt d a k) d a k)
def opVrsqrt := fun d a k => streaming (opUn vRsqrt id (.vrsqrt d a k) d a k)
def opVrcp := fun d a k => streaming (opUn vRcp id (.vrcp d a k) d a k)
def opVexp2 := fun d a k => opUn vExp2 id (.vexp2 d a k) d a k
def opVlog2 := fun d a k => opUn vLog2 id (.vlog2 d a k) d a k

/-- `vmin` and `vmax` decide with a splatted operand (R31): it is f(i) that decides, also where WP blends it (log 40, DESIGN
CHOICE). -/
def minMaxOp (isMax : Bool) (i : Instr) (d a : Reg) (b : VSrc) (k : VCtl) : VOp :=
  let op := opBin (fun _ => vMinMax isMax) (if isMax then max else min) i d a b k
  let A := fldA a k k.et.regBytes
  match b with
  | .reg _ => op
  | b => { op with decider := some (monotone (fun c j q => (vMinMax isMax (c.valAt A k.et q j) (c.bValAt b k q j)).1)) }
def opVmin := fun d a b k => minMaxOp false (.vmin d a b k) d a b k
def opVmax := fun d a b k => minMaxOp true (.vmax d a b k) d a b k

/-- The sign set by `f` from those of a and b; a NaN operand gives the canonical NaN. -/
def withSign (f : Bool → Bool) (a : Val) : Val × Fl :=
  (match a with
   | .nan _ => .nan false
   | .inf n => .inf (f n)
   | .fin q => .fin { q with neg := f q.neg }, flNone)
def opVabs := fun d a k => opUn (withSign (fun _ => false)) (fun x => (x.natAbs : Int)) (.vabs d a k) d a k
def opVneg := fun d a k => opUn (withSign (fun n => !n)) (fun x => -x) (.vneg d a k) d a k
def signOf : Val → Bool
  | .nan _ => false
  | .inf n => n
  | .fin q => q.neg
def opVcsgn := fun d a b k =>
  opBin (fun _ x y => if vIsNan y then (.nan false, flNone) else withSign (fun _ => signOf y) x) (fun x _ => x)
    (.vcsgn d a b k) d a b k
def opVclass := fun (d a : Reg) (k : VCtl) =>
  let A := fldA a k k.et.regBytes
  elemOp (.vclass d a k) k [A] (dstV d k k.et.regBytes)
    (fun c _ j => { code := some (classMask (fmtOf k.et) (fval k.et (c.src A j))) })

/-- min(max(a, b), c). -/
def clampVal (x y z : Val) : Val × Fl :=
  let (m, f) := vMinMax true x y
  let (r, g) := vMinMax false m z
  (r, f ||| g)
/-- As for `vmin`, f(i) decides (log 40, DESIGN CHOICE). -/
def opVclamp := fun (d a : Reg) (b : VSrc) (e : Reg) (k : VCtl) =>
  let A := fldA a k k.et.regBytes
  let C := fldC e k k.et.regBytes
  { opTern (fun _ => clampVal) (fun x y z => min (max x y) z) (.vclamp d a b e k) d a b e k with
    decider := some (monotone (fun c j q => (clampVal (c.valAt A k.et q j) (c.bValAt b k q j) (c.valAt C k.et q j)).1)) }

/-! ### OP 0x41 (R144): A and B at ET2 -/

def opWide (i : Instr) (d a : Reg) (b : VSrc) (e : Option Reg) (k : VCtl) : VOp :=
  let n := k.et2.regBytes
  let A := fldA a k n
  let cs := match e with | some r => [fldC r k k.et.regBytes] | none => []
  streaming (elemOp i k (A :: fldsB b k n ++ cs) (dstV d k k.et.regBytes) (fun c _ j =>
    let x := c.src A j
    let y := c.bCode b k k.et2 j
    match cs with
    | C :: _ =>
      let z := c.src C j
      numRes k (vFma (c.rdn k) (fval k.et2 x) (fval k.et2 y) (fval k.et z)) (ival k.et2 x * ival k.et2 y + ival k.et z)
    | [] => numRes k (vMul (fval k.et2 x) (fval k.et2 y)) (ival k.et2 x * ival k.et2 y)))
def opVwmul := fun d a b k => opWide (.vwmul d a b k) d a b none k
def opVwfma := fun d a b e k => opWide (.vwfma d a b e k) d a b (some e) k

/-! ### OP 0x42 (R145, R48) -/

def opConv (sat : Bool) (i : Instr) (d a : Reg) (k : VCtl) : VOp :=
  let A := fldA a k k.et2.regBytes
  VOp.looped { elemOp i k [A] (dstV d k k.et.regBytes) (fun c efr j =>
    let raw := c.src A j
    if rmOf c.h k.rm (!exactConv k.et k.et2) == .efb then
      let (y, fl, r) := convEfb k.et k.et2 sat raw efr
      { val := (valOf k.et y).1, code := if k.wp == .blend then none else some y, fl := fl, efr := some r }
    else
      let (v, f) := valOf k.et2 raw
      { val := v, fl := f ||| sigFl v, sat := sat }) with efbOk := !exactConv k.et k.et2 }
def opVcvt := fun d a k => opConv false (.vcvt d a k) d a k
def opVcvtSat := fun d a k => opConv true (.vcvtSat d a k) d a k

/-! ### OP 0x43 (R143) -/

/-- An operation on codes at ET's width. -/
def opInt (f : ET → Nat → Nat → Nat) (i : Instr) (d a : Reg) (b : VSrc) (k : VCtl) : VOp :=
  let n := k.et.regBytes
  let A := fldA a k n
  elemOp i k (A :: fldsB b k n) (dstV d k n)
    (fun c _ j => { code := some (f k.et (codeOf k.et (c.src A j)) (codeOf k.et (c.bCode b k k.et j)) % 2 ^ k.et.bits) })

/-- Into the range of ET. -/
def clampInt (et : ET) (n : Int) : Nat := encInt et (max (intMin et) (min (intMax et) n))
/-- Sign fill copies the top bit of the code. -/
def sraCode (et : ET) (x n : Nat) : Nat :=
  encInt et ((if x.testBit (et.bits - 1) then (x : Int) - 2 ^ et.bits else x) / 2 ^ n)
def opVand := fun d a b k => opInt (fun _ x y => x &&& y) (.vand d a b k) d a b k
def opVor := fun d a b k => opInt (fun _ x y => x ||| y) (.vor d a b k) d a b k
def opVxor := fun d a b k => opInt (fun _ x y => x ^^^ y) (.vxor d a b k) d a b k
def opVandn := fun d a b k => opInt (fun et x y => x &&& (2 ^ et.bits - 1 - y)) (.vandn d a b k) d a b k
def opVshl := fun d a b k => opInt (fun et x y => x <<< (y % et.bits)) (.vshl d a b k) d a b k
def opVshr := fun d a b k => opInt (fun et x y => x >>> (y % et.bits)) (.vshr d a b k) d a b k
def opVsra := fun d a b k => opInt (fun et x y => sraCode et x (y % et.bits)) (.vsra d a b k) d a b k
def opVaddsat := fun d a b k => opInt (fun et x y => clampInt et (ival et x + ival et y)) (.vaddsat d a b k) d a b k
def opVsubsat := fun d a b k => opInt (fun et x y => clampInt et (ival et x - ival et y)) (.vsubsat d a b k) d a b k
def opVmulh := fun d a b k =>
  opInt (fun et x y => encInt et (ival et x * ival et y / 2 ^ et.bits)) (.vmulh d a b k) d a b k
def opVavg := fun d a b k => opInt (fun et x y => encInt et ((ival et x + ival et y + 1) / 2)) (.vavg d a b k) d a b k

end Sys2Proof.Machine
end

