-- ==== Sys2Proof/Machine/VReduce.lean ====
section
/-! DEFINITION. Compare, select, reductions, scans and counts, OP 0x44 (R146 to R149, R52, R53, R406). -/

namespace Sys2Proof.Machine

/-! ### Compare and select (R146) -/

def oneCode (et : ET) : Nat := if et.isFloat then (encFloat et false .rne (.fin (qInt 1))).1 else 1

def opVcmp := fun (cond : Cond) (d a : Reg) (b : VSrc) (k : VCtl) =>
  let n := k.et.regBytes
  let A := fldA a k n
  { elemOp (.vcmp cond d a b k) k (A :: fldsB b k n) (dstV d k n) (fun c _ j =>
      let x := (valOf k.et (c.src A j)).1
      let y := (valOf k.et (c.bCode b k k.et j)).1
      { code := some (if condHolds cond (vCmp x y) then oneCode k.et else 0), fl := sigFl x ||| sigFl y }) with
    decider := some (fun c j lo hi => cmpConst cond (fun q => c.valAt A k.et q j) (fun q => c.bValAt b k q j) lo hi) }

def opVsel := fun (d a : Reg) (b : VSrc) (e : Reg) (k : VCtl) =>
  let n := k.et.regBytes
  let A := fldA a k n
  let C := fldC e k n
  elemOp (.vsel d a b e k) k (A :: fldsB b k n ++ [C]) (dstV d k n) (fun c _ j =>
    { code := some (codeOf k.et (if codeOf k.et (c.src C j) != 0 then c.src A j else c.bCode b k k.et j)) })

/-! ### The tree (R52, R406): a node is absent, or a code with its lowest live leaf -/

inductive TreeOp where
  | add | max | min
  deriving DecidableEq, Repr

/-- R52: op in a type, with the flags it raises; max and min give the canonical NaN for a NaN operand. -/
def treeOp (o : TreeOp) (et : ET) (rm : RM) (x y : Nat) : Nat × Fl :=
  if et.isFloat then
    let a := fval et x
    let b := fval et y
    match o with
    | .add =>
      let (v, f) := vAdd (rm == .rdn) a b
      let (c, g) := encFloat et false rm v
      (c, f ||| g)
    | .max => ((encFloat et false .rne (if vIsNan a || vIsNan b then .nan false else if vLess a b then b else a)).1, flNone)
    | .min => ((encFloat et false .rne (if vIsNan a || vIsNan b then .nan false else if vLess b a then b else a)).1, flNone)
  else
    let a := ival et x
    let b := ival et y
    (encInt et (match o with | .add => a + b | .max => max a b | .min => min a b), flNone)

/-- R52: the empty values. -/
def emptyCode (o : TreeOp) (et : ET) : Nat :=
  let f := fmtOf et
  match o with
  | .add => 0
  | .max => if et.isFloat then f.withSign true f.infMag else encInt et (intMin et)
  | .min => if et.isFloat then f.infMag else encInt et (intMax et)

abbrev Node := Option (Nat × Nat)

/-- A flag of an operation or a leaf belongs to element `i`, which may trap or be suppressed; a suppressed value is 0, unless
another element traps. -/
def noted (c : VCtx) (a : VAcc) (i code : Nat) (fl : Fl) : VAcc × Nat :=
  let (a, f) := c.fate a i fl
  (a, if f == .zero && !a.keep then 0 else code)

def combine (o : TreeOp) (et : ET) (c : VCtx) (rm : RM) (a : VAcc) (x y : Node) : VAcc × Node :=
  match x, y with
  | some (p, i), some (q, j) =>
    let (r, fl) := treeOp o et rm p q
    let (a, r) := noted c a (Nat.min i j) r fl
    (a, some (r, Nat.min i j))
  | none, y => (a, y)
  | x, none => (a, x)

/-- One level of the up-sweep. -/
def pairUp (o : TreeOp) (et : ET) (c : VCtx) (rm : RM) : VAcc → List Node → VAcc × List Node
  | a, x :: y :: r =>
    let (a, z) := combine o et c rm a x y
    let (a, zs) := pairUp o et c rm a r
    (a, z :: zs)
  | a, r => (a, r)

/-- The levels of the tree above `row`, the root first, `row` last. -/
def upSweep (o : TreeOp) (et : ET) (c : VCtx) (rm : RM) : Nat → VAcc → List Node → List (List Node) → VAcc × List (List Node)
  | 0, a, row, acc => (a, row :: acc)
  | n + 1, a, row, acc =>
    let (a, up) := pairUp o et c rm a row
    upSweep o et c rm n a up (row :: acc)

/-- The prefixes of a level's nodes from those of the level above. -/
def downRow (o : TreeOp) (et : ET) (c : VCtx) (rm : RM) : VAcc → List Node → List Node → VAcc × List Node
  | a, p :: ps, l :: _ :: row =>
    let (a, q) := combine o et c rm a p l
    let (a, r) := downRow o et c rm a ps row
    (a, p :: q :: r)
  | a, _, _ => (a, [])

/-- The down-sweep over the levels below the root. -/
def downSweep (o : TreeOp) (et : ET) (c : VCtx) (rm : RM) : VAcc → List Node → List (List Node) → VAcc × List Node
  | a, pre, [] => (a, pre)
  | a, pre, row :: rows =>
    let (a, pre) := downRow o et c rm a pre row
    downSweep o et c rm a pre rows

/-- log2 of P. -/
def treeDepth (n : Nat) : Nat := if n ≤ 1 then 0 else Nat.log2 (n - 1) + 1

/-- The leaves, converted exactly into the tree's type; a signalling NaN raises NV. -/
def leaves (et et2 : ET) (c : VCtx) (A : VField) (a : VAcc) : VAcc × List Node :=
  (List.range (2 ^ treeDepth c.h.vl)).foldr (fun i (a, row) =>
    if i < c.h.vl && decide (c.h.vstart ≤ i) && c.live i then
      let (v, _) := valOf et (c.src A i)
      let (a, x) := noted c a i (encVal et2 false .rne v).1 (sigFl v)
      (a, some (x, i) :: row)
    else (a, none :: row)) (a, [])

def baseOp (i : Instr) (kind : VKind) (k : VCtl) (srcs : List VField) (dst : VDst) (body : VCtx → VAcc → VAcc) : VOp :=
  { instr := i, kind := kind, k := k, srcs := srcs, dst := dst, wide := widest srcs dst, body := body }

/-- R406: the flags of a tree without replacement say whether an element traps; if one does, nothing is suppressed. If none
does, the tree is formed again with each suppressed value replaced by 0; one that traps only then suppresses none either
(log 47, DEDUCED). -/
def treeRun {α : Type} (a : VAcc) (f : VAcc → VAcc × α) : VAcc × α :=
  let (a1, x1) := f { a with keep := true }
  if !a1.trapE.isEmpty || a1.supp.isEmpty then ({ a1 with supp := [], keep := false }, x1)
  else
    let (a2, x2) := f a
    if a2.trapE.isEmpty then (a2, x2) else ({ a2 with supp := [] }, x2)

/-- R147: a trap writes nothing. -/
def opReduce (o : TreeOp) (i : Instr) (d a : Reg) (k : VCtl) : VOp :=
  let A := fldA a k k.et.regBytes
  { baseOp i .S k [A] .none (fun c acc =>
      let rm := rmOf c.h k.rm false
      let (acc, x) := treeRun acc (fun acc =>
        let (acc, row) := leaves k.et k.et2 c A acc
        let (acc, lv) := upSweep o k.et2 c rm (treeDepth c.h.vl) acc row []
        (acc, match lv with | (some (x, _) :: _) :: _ => x | _ => emptyCode o k.et2))
      if acc.trapE.isEmpty then { acc with xw := [(d, scalarOf k.et2 x)] } else acc) with
    wide := Nat.max k.et.regBytes k.et2.regBytes }
def opVredsum := fun d a k => opReduce .add (.vredsum d a k) d a k
def opVredmax := fun d a k => opReduce .max (.vredmax d a k) d a k
def opVredmin := fun d a k => opReduce .min (.vredmin d a k) d a k

/-- R53, R148. -/
def opScan (o : TreeOp) (incl : Bool) (i : Instr) (d a : Reg) (k : VCtl) : VOp :=
  let A := fldA a k k.et.regBytes
  let op := baseOp i .V k [A] (dstV d k k.et.regBytes) (fun _ a => a)
  { op with body := fun c acc =>
      let rm := rmOf c.h k.rm false
      let (acc, outs) := treeRun acc (fun acc =>
        let (acc, row) := leaves k.et k.et c A acc
        let (acc, lv) := upSweep o k.et c rm (treeDepth c.h.vl) acc row []
        let (acc, pre) := downSweep o k.et c rm acc [none] (lv.drop 1)
        (pre.zip row).foldr (fun (p, x) (acc, outs) =>
          match x with
          | none => (acc, 0 :: outs)
          | some _ =>
            let (acc, r) := if incl then combine o k.et c rm acc p x else (acc, p)
            (acc, (match r with | some (v, _) => v | none => emptyCode o k.et) :: outs)) (acc, []))
      if acc.trapE.isEmpty then VOp.loop { op with elem := fun _ _ j => { code := some (outs.getD j 0) } } c acc else acc }
def opVscanAdd := fun d a k => opScan .add true (.vscanAdd d a k) d a k
def opVscanMax := fun d a k => opScan .max true (.vscanMax d a k) d a k
def opVscanMin := fun d a k => opScan .min true (.vscanMin d a k) d a k
def opVscanXadd := fun d a k => opScan .add false (.vscanXadd d a k) d a k
def opVscanXmax := fun d a k => opScan .max false (.vscanXmax d a k) d a k
def opVscanXmin := fun d a k => opScan .min false (.vscanXmin d a k) d a k

/-! ### Counts (R149) -/

def opVfirst := fun (d : Reg) (k : VCtl) =>
  baseOp (.vfirst d k) .S k [] .none (fun c a =>
    { a with xw := [(d, match c.lives.head? with | some i => BitVec.ofNat 64 i | none => -1)] })
def opVcount := fun (d : Reg) (k : VCtl) =>
  baseOp (.vcount d k) .S k [] .none (fun c a => { a with xw := [(d, BitVec.ofNat 64 c.lives.length)] })

end Sys2Proof.Machine
end

