-- ==== Sys2Proof/Machine/VMove.lean ====
section
/-! DEFINITION. Data movement, OP 0x45 (R150 to R156), and currant blocks in registers (R36, R42, R155). -/

namespace Sys2Proof.Machine

/-! ### Currant blocks in registers -/

/-- Block `k` of a source field, its slot's bytes as a number. -/
def VCtx.block (c : VCtx) (f : VField) (k : Nat) : Nat :=
  (List.range 16).foldr (fun j acc => c.src f (16 * k + j) + acc <<< (8 * f.b)) 0

/-- Writing block `k` of the destination whole. -/
def VOp.putBlock (op : VOp) (c : VCtx) (a : VAcc) (k blk : Nat) : VAcc :=
  let b := op.k.et.regBytes
  (List.range 16).foldl (fun a j => op.put c a (16 * k + j) (blk >>> (8 * b * j) % 2 ^ (8 * b))) a

/-- The blocks that an execution processes. Where VSTART is no multiple of 16, loads, stores and `vpack` process the whole
block that holds it, while `vmv` copies only its elements from VSTART on (R22, R155; log 38, DESIGN CHOICE). -/
def VCtx.blocks (c : VCtx) : List Nat := (List.range (c.lim / 16)).drop (c.h.vstart / 16)

/-- R155: one block of a register destination; `f` computes a live one. -/
def VOp.oneBlock (op : VOp) (c : VCtx) (f : VAcc → Nat → VAcc) (a : VAcc) (k : Nat) : VAcc :=
  if a.stop.isSome || c.blkPassed k then a
  else if c.blkLive k then f a k
  else if op.k.wp == .zero then op.putBlock c a k 0 else a

/-! ### Copies (R150) -/

/-- A block slot is copied as it stands, its padding included (R36, R150; log 53, DESIGN CHOICE). -/
def opVmv := fun (d a : Reg) (k : VCtl) =>
  let n := k.et.regBytes
  let A := fldA a k n
  VOp.looped { elemOp (.vmv d a k) k [A] (dstV d k n) (fun c _ j =>
      { code := some (if k.et.isBlock then c.src A j else codeOf k.et (c.src A j)) }) with cb := k.et.isBlock, blk := k.et.isBlock }
def opVsplat := fun (d : Reg) (b : VSrc) (k : VCtl) =>
  elemOp (.vsplat d b k) k [] (dstV d k k.et.regBytes) (fun c _ j => { code := some (c.bCode b k k.et j) })
def opVid := fun (d : Reg) (k : VCtl) =>
  elemOp (.vid d k) k [] (dstV d k k.et.regBytes) (fun _ _ j => { code := some (j % 2 ^ k.et.bits) })

/-- A whole-vector instruction that takes each element from one of vA, by index; none gives 0. -/
def opPick (f : VCtx → Nat → Option Nat) (more : List VField) (i : Instr) (d a : Reg) (k : VCtl) : VOp :=
  let n := k.et.regBytes
  let A := fldA a k n
  { elemOp i k (A :: more) (dstV d k n) (fun c _ j =>
      match f c j with
      | none => { code := some 0 }
      | some m => { code := some (codeOf k.et (c.src A m)) }) with kind := .V }

def opVslup := fun (d a : Reg) (b : VSrc) (k : VCtl) =>
  let op := opPick (fun c j => some (j - amountOf c.h b)) [] (.vslup d a b k) d a k
  { op with body := fun c acc => (c.elems.filter (fun j => amountOf c.h b ≤ j)).foldl (op.one c) acc }
def opVsldn := fun (d a : Reg) (b : VSrc) (k : VCtl) =>
  opPick (fun c j => if j + amountOf c.h b < c.h.vl then some (j + amountOf c.h b) else none) [] (.vsldn d a b k) d a k
def opVperm := fun (d a b : Reg) (k : VCtl) =>
  let B := fldB b k k.et.regBytes
  opPick (fun c j => let m := codeOf k.et (c.src B j); if m < c.h.vl then some m else none) [B] (.vperm d a b k) d a k
def opVrev := fun (d a : Reg) (k : VCtl) => opPick (fun c j => some (c.h.vl - 1 - j)) [] (.vrev d a k) d a k

/-! ### Compress and expand (R151) -/

def opVcompress := fun (d a e : Reg) (k : VCtl) =>
  let A := fldA a k k.et.regBytes
  let op := baseOp (.vcompress d a e k) .V k [A] (dstV d k k.et.regBytes) (fun _ a => a)
  { op with body := fun c acc =>
      let ls := c.lives
      let acc := ls.zipIdx.foldl (fun acc (i, n) => op.put c acc (c.h.vstart + n) (codeOf k.et (c.src A i))) acc
      let acc := if k.wp == WP.zero then (c.elems.drop ls.length).foldl (fun acc i => op.put c acc i 0) acc else acc
      { acc with xw := [(e, BitVec.ofNat 64 ls.length)] } }
def opVexpand := fun (d a : Reg) (k : VCtl) =>
  opPick (fun c j => some (c.h.vstart + c.lives.idxOf j)) [] (.vexpand d a k) d a k

/-! ### Single elements (R152) -/

/-- R152, R40: an element as a scalar: extended by its type; T2 and B1 codes, which have no signedness, with zeros (log 53, DESIGN
CHOICE). -/
def movedOf (et : ET) (code : Nat) : Word := if et == .t2 || et == .b1 then BitVec.ofNat 64 code else scalarOf et code

def opVins := fun (d a : Reg) (b : VSrc) (k : VCtl) =>
  let op := baseOp (.vins d a b k) .L k [] (dstV d k k.et.regBytes) (fun _ a => a)
  { op with body := fun c acc =>
      let n := amountOf c.h b
      if c.h.vstart ≤ n && n < c.lim && !c.passed n then op.put c acc n (codeOf k.et (xGet c.h a).toNat) else acc }
/-- `vext` gives its element below VL whatever VSTART is, and where no element is live (log 53, DESIGN CHOICE). -/
def opVext := fun (d a : Reg) (b : VSrc) (k : VCtl) =>
  let A := fldA a k k.et.regBytes
  baseOp (.vext d a b k) .S k [A] .none (fun c acc =>
    let n := amountOf c.h b
    { acc with xw := [(d, if n < c.h.vl then movedOf k.et (codeOf k.et (c.src A n)) else 0)] })

/-! ### Random numbers (R153) -/

def randZ (key ctr : Word) (i : Nat) : Word :=
  let z := key + (ctr + BitVec.ofNat 64 i + 1) * 0x9E3779B97F4A7C15
  let z := (z ^^^ (z >>> 30)) * 0xBF58476D1CE4E5B9
  let z := (z ^^^ (z >>> 27)) * 0x94D049BB133111EB
  z ^^^ (z >>> 31)
def randKey (h : Hart) : VSrc → Word
  | .reg _ => 0
  | .scalar r => xGet h r
  | .imm v => v.signExtend 64
def opVrand := fun (d a : Reg) (b : VSrc) (k : VCtl) =>
  let op := elemOp (.vrand d a b k) k [] (dstV d k k.et.regBytes)
    (fun c _ j => { code := some (codeOf k.et (randZ (randKey c.h b) (xGet c.h a) j).toNat) })
  { op with body := fun c acc => { op.loop c acc with xw := [(a, xGet c.h a + BitVec.ofNat 64 c.h.vl)] } }

/-! ### The largest of each segment (R154) -/

/-- `x` comes before `y` in the order of R154, at equal rank the lower index. -/
def topBefore (v : Nat → Val) (x y : Nat) : Bool :=
  match vIsNan (v x), vIsNan (v y) with
  | true, true => decide (x < y)
  | true, false => false
  | false, true => true
  | false, false =>
    match vCmp (v x) (v y) with
    | some o => decide (0 < o) || (o == 0 && decide (x < y))
    | none => false
def topInsert (v : Nat → Val) (x : Nat) : List Nat → List Nat
  | [] => [x]
  | y :: r => if topBefore v x y then x :: y :: r else y :: topInsert v x r
def topSort (v : Nat → Val) (l : List Nat) : List Nat := l.foldr (topInsert v) []

/-- R154. It raises no flag, for a signalling NaN either (log 65, DESIGN CHOICE). -/
def opVtopk := fun (d a : Reg) (seg cnt : BitVec 16) (k : VCtl) =>
  let A := fldA a k k.et.regBytes
  let op := baseOp (.vtopk d a seg cnt k) .V k [A] (dstV d k k.et2.regBytes) (fun _ a => a)
  { op with body := fun c acc =>
      let s := seg.toNat
      let n := cnt.toNat
      let vl := c.h.vl
      (List.range ((vl + s - 1) / s)).foldl (fun acc j =>
        let mine := c.lives.filter (fun i => j * s ≤ i && i < j * s + s)
        let top := topSort (fun i => (valOf k.et (c.src A i)).1) mine
        (List.range n).foldl (fun acc t =>
          let o := j * n + t
          if o < vl && c.h.vstart ≤ o then
            op.put c acc o (match top[t]? with | some i => i % 2 ^ k.et2.bits | none => 2 ^ k.et2.bits - 1)
          else acc) acc) acc }

/-! ### Currant packing (R156, R43, R44, R48) -/

/-- The flags of a block's elements belong to them: all are raised; the ones that trap, the ones suppressed. -/
def blockFlags (c : VCtx) (k : Nat) (fls : List Fl) : Fl × List (Nat × Fl) × List Nat :=
  let es : List (Nat × Fl) := fls.zipIdx.map (fun p => (16 * k + p.2, p.1))
  let exc : List (Nat × Fl) := (es.map (fun p => (p.1, enabledOf c.h p.2))).filter (fun p => p.2 != 0 && c.live p.1)
  (fls.foldl (· ||| ·) flNone, exc.filter (fun p => decide (c.h.floor.toNat ≤ c.ew p.1)),
    (exc.filter (fun p => decide (c.ew p.1 < c.h.floor.toNat))).map (·.1))

/-- A block packed from the values that remain, until no further element is suppressed (R156; log 36, DEDUCED): the block, every flag
raised, the residual, the trapping elements, the suppressed ones. -/
def packRounds (pack : List (Val × Bool) → Nat × List Fl × Nat) (c : VCtx) (n : Nat) (xs : List (Val × Bool)) :
    Nat → Fl → List Nat → Nat × Fl × Nat × List (Nat × Fl) × List Nat
  | fuel, fl, supp =>
    let (blk, fls, r) := pack (xs.zipIdx.map (fun (p, j) => if supp.contains (16 * n + j) then (.fin (qZero false), p.2) else p))
    let (f, traps, more) := blockFlags c n fls
    let traps := traps.filter (fun p => !supp.contains p.1)
    let more := more.filter (fun i => !supp.contains i)
    match fuel with
    | 0 => (blk, fl ||| f, r, traps, supp)
    | k + 1 => if !traps.isEmpty || more.isEmpty then (blk, fl ||| f, r, traps, supp)
               else packRounds pack c n xs k (fl ||| f) (more ++ supp)

def opVpack := fun (d a : Reg) (k : VCtl) =>
  let A := fldA a k 4
  let op := { baseOp (.vpack d a k) .L k [A] (dstV d k k.et.regBytes) (fun _ a => a) with cb := true, efbOk := true, blk := true }
  { op with body := fun c acc =>
      let efb := op.efb c.h
      let pack (efr : Nat) (xs : List (Val × Bool)) : Nat × List Fl × Nat :=
        if efb then packBlockEfb k.et xs efr
        else let (b, f) := packBlock k.et (rmOf c.h k.rm false) (xs.map Prod.fst); (b, f, efr)
      let one (acc : VAcc) (n : Nat) : VAcc :=
        let xs : List (Val × Bool) := (List.range 16).map (fun j =>
          let i := 16 * n + j
          if c.live i then (fval .f32 (c.src A i), true) else (.fin (qZero false), false))
        let (blk, fl, r, traps, supp) := packRounds (pack acc.s.h.efr.toNat) c n xs 16 flNone []
        let acc := { acc with s := setH acc.s (orFlags acc.s.h fl) }
        if !traps.isEmpty then
          let acc := { acc with trapE := traps.reverse ++ acc.trapE }
          if efb then { acc with stop := some (16 * n) }
          else { acc with more := ((List.range 16).map (16 * n + ·)).filter c.live ++ acc.more }
        else op.putBlock c (putEfr { acc with supp := supp ++ acc.supp } (if efb then some r else none)) n blk
      c.blocks.foldl (op.oneBlock c one) acc }

def opVunpack := fun (d a : Reg) (k : VCtl) =>
  let A := fldA a k k.et2.regBytes
  VOp.looped { elemOp (.vunpack d a k) k [A] (dstV d k k.et.regBytes) (fun c _ j =>
      let v := blockVal k.et2 (c.block A (j / 16)) (j % 16)
      { val := v, fl := if vIsNan v then flNV else flNone }) with cb := true }

end Sys2Proof.Machine
end

