-- ==== Sys2Proof/Machine/Weights.lean ====
section
/-! DEFINITION. Weight instructions, OP 0x30 (R167 to R173, R181), joins, OP 0x32 (R180), arms, OP 0x2C (R174 to R178). -/

namespace Sys2Proof.Machine

/-! ### Operands -/

def dstW (d : Reg) : VDst := .wt d.toNat
/-- Code `j` of a weight register field. -/
def VCtx.wt (c : VCtx) (r : Reg) (j : Nat) : Nat := wCode (wGet c.h (wPhys c.h r.toNat)) j
/-- R168: B as a weight operand. -/
def VCtx.wB (c : VCtx) (b : VSrc) (j : Nat) : Nat :=
  match b with
  | .reg r => c.wt r j
  | .scalar r => wtRead ((xGet c.h r).toNat % 65536)
  | .imm v => wtRead (v.toNat % 65536)

/-- A weight operation on codes. -/
def opW (i : Instr) (d : Reg) (k : VCtl) (f : VCtx → Nat → Nat) : VOp :=
  elemOp i k [] (dstW d) (fun c _ j => { code := some (f c j) })

/-! ### Conditions and ramps (R169, R170, R181) -/

def opWcmp := fun (cond : Cond) (d a : Reg) (b : VSrc) (k : VCtl) =>
  let n := k.et.regBytes
  let A := fldA a k n
  { elemOp (.wcmp cond d a b k) k (A :: fldsB b k n) (dstW d) (fun c _ j =>
      let x := (valOf k.et (c.src A j)).1
      let y := (valOf k.et (c.bCode b k k.et j)).1
      { code := some (if condHolds cond (vCmp x y) then 0x8000 else 0), fl := sigFl x ||| sigFl y }) with
    decider := some (fun c j lo hi => cmpConst cond (fun q => c.valAt A k.et q j) (fun q => c.bValAt b k q j) lo hi) }

/-- τ of R170. -/
def VCtx.tau (c : VCtx) (e : Reg) : Val := fval .f32 (xGet c.h e).toNat

/-- R170: the ramp's code and flags. -/
def rampCode (rm : RM) (a b tau : Val) : Nat × Fl :=
  let (d, _) := vSub false b a
  let bad := vIsNan d || (match tau, d with
    | .nan _, _ => true
    | .inf _, .inf _ => true
    | .inf n, _ => n
    | .fin q, _ => qIsZero q || q.neg)
  if bad then (0, flNV)
  else
    let (v, _) := vAdd false (.fin ⟨false, 1, 2, false⟩) (vDiv d tau).1
    toWt rm v

def opWramp := fun (d a : Reg) (b : VSrc) (e : Reg) (k : VCtl) =>
  let n := k.et.regBytes
  let A := fldA a k n
  { elemOp (.wramp d a b e k) k (A :: fldsB b k n) (dstW d) (fun c _ j =>
      let (x, fl) := rampCode (rmOf c.h k.rm false) (fval k.et (c.src A j)) (fval k.et (c.bCode b k k.et j)) (c.tau e)
      { code := some x, fl := fl }) with
    decider := some (fun c j lo hi =>
      let at_ (q : Q) : Nat := (rampCode (rmOf c.h k.rm false) (c.valAt A k.et q j) (c.bValAt b k q j) (c.tau e)).1
      at_ lo == at_ hi) }

def opWrampg := fun (d a b e : Reg) (k : VCtl) =>
  let n := k.et.regBytes
  let A := fldA a k n
  elemOp (.wrampg d a b e k) k [A] (dstV d k n) (fun c _ j =>
    let w := c.wt b j
    if 0 < w && w < 0x8000 then
      let (v, fl) := vDiv (vNeg (fval k.et (c.src A j))) (c.tau e)
      { val := v, fl := fl }
    else { code := some 0 })

/-! ### Weight arithmetic (R171) and conversions (R172) -/

def opWmul := fun d a b k => opW (.wmul d a b k) d k (fun c j => wtMul (c.wt a j) (c.wB b j))
def opWadd := fun d a b k => opW (.wadd d a b k) d k (fun c j => Nat.min (c.wt a j + c.wB b j) 0x8000)
def opWsub := fun d a b k => opW (.wsub d a b k) d k (fun c j => c.wt a j - c.wB b j)
def opWnot := fun d a k => opW (.wnot d a k) d k (fun c j => 0x8000 - c.wt a j)
def opWmin := fun d a b k => opW (.wmin d a b k) d k (fun c j => Nat.min (c.wt a j) (c.wB b j))
def opWmax := fun d a b k => opW (.wmax d a b k) d k (fun c j => Nat.max (c.wt a j) (c.wB b j))
def opWmov := fun d a k => opW (.wmov d a k) d k (fun c j => c.wt a j)
def opWsplat := fun d b k => opW (.wsplat d b k) d k (fun c j => c.wB b j)

def opWfromv := fun (d a : Reg) (k : VCtl) =>
  let A := fldA a k k.et.regBytes
  elemOp (.wfromv d a k) k [A] (dstW d) (fun c _ j =>
    if k.et == .wt then { code := some (wtRead (c.src A j)) }
    else
      let v := fval k.et (c.src A j)
      let (x, fl) := toWt (rmOf c.h k.rm false) v
      { code := some x, fl := fl ||| sigFl v })
def opWtov := fun (d a : Reg) (k : VCtl) =>
  elemOp (.wtov d a k) k [] (dstV d k k.et.regBytes) (fun c _ j =>
    if k.et == .wt then { code := some (c.wt a j) } else { val := .fin (wtVal (c.wt a j)) })

/-! ### Bounds (R173) -/

def opWbound := fun (d a : Reg) (b : VSrc) (k : VCtl) =>
  opW (.wbound d a b k) d k (fun c j => if (xGet c.h a).toNat + j < amountOf c.h b then 0x8000 else 0)
def opWany := fun (d : Reg) (k : VCtl) =>
  baseOp (.wany d k) .S k [] .none (fun c acc => { acc with xw := [(d, if c.lives.isEmpty then 0 else 1)] })

/-! ### Joins (R180) -/

def opVjoin := fun (d a : Reg) (b : VSrc) (e : Reg) (k : VCtl) =>
  let n := k.et.regBytes
  let A := fldA a k n
  elemOp (.vjoin d a b e k) k (A :: fldsB b k n) (dstV d k n) (fun c _ j =>
    let (v, fl) := vBlend (c.rdn k) (c.wt e j) (fval k.et (c.src A j)) (fval k.et (c.bCode b k k.et j))
    { val := v, fl := fl })
/-- P − Q is rounded under no mode, but as an exact zero it has the sign of one under rm, which g multiplies (log 67, DESIGN
CHOICE). -/
def opVjoingw := fun (d a b e : Reg) (k : VCtl) =>
  let n := k.et.regBytes
  let A := fldA a k n
  let B := fldB b k n
  let C := fldC e k n
  elemOp (.vjoingw d a b e k) k [A, B, C] (dstV d k n) (fun c _ j =>
    let (x, f1) := vSub (c.rdn k) (fval k.et (c.src B j)) (fval k.et (c.src C j))
    let (v, f2) := vMul (fval k.et (c.src A j)) x
    { val := v, fl := f1 ||| f2 })

/-! ### Arms (R174 to R178) -/

/-- The arm stack's top entry. -/
def topArm (h : Hart) : Arm := h.arms.toList.getD (h.armsp - 1) Arm.zero

/-- A jump past a side with no live element. -/
def armSkip (s : State) (d : Nat) : Res := transfer (countEv s 0x0D 1) (slotPlus s.h.pc d)

/-- R175. -/
def execWfork (a : Reg) (els jn : BitVec 16) (s : State) : Res :=
  let h := s.h
  if 8 ≤ h.armsp then armTrap s 1
  else
    let sa := wGet h 0
    let sc := wGet h (wPhys h a.toNat)
    let cap (w : WImage) : WImage := wFill 0 h.vlcap (wCode w)
    let h1 := { h with arms := h.arms.setIfInBounds h.armsp { sa := cap sa, sc := cap sc }, armsp := h.armsp + 1 }
    if !anyAbove sa h.vl h.theta then armSkip (setH s h1) jn.toNat
    else
      let w := wProd sa sa sc h.vlcap
      let s1 := setH s (wPut h1 0 w)
      if !anyAbove w h.vl h.theta then armSkip s1 els.toNat else next s1

/-- R176. -/
def execWarm (jn : BitVec 16) (s : State) : Res :=
  let h := s.h
  if h.armsp ≤ armBase h then armTrap s 2
  else
    let t := topArm h
    let w := wFill (wGet h 0) h.vlcap (fun i => wtMul (wRaw t.sa i) (0x8000 - wCode t.sc i))
    let s1 := setH s (wPut h 0 w)
    if !anyAbove w h.vl h.theta then armSkip s1 jn.toNat else next s1

/-- R177. -/
def execWmerge (s : State) : Res :=
  let h := s.h
  if h.armsp ≤ armBase h then armTrap s 2
  else
    let h1 := wPut h 0 (wFill (wGet h 0) h.vlcap (wCode (topArm h).sa))
    next (setH s { h1 with armsp := h.armsp - 1 })

end Sys2Proof.Machine
end

