-- ==== Sys2Proof/Machine/VMem.lean ====
section
/-! DEFINITION. Vector loads and stores, OP 0x81 FN 0 to 7 (R157 to R162, R182, R246), bindings and register windows
(R253, R266, R269), and vector atomics, OP 0x91 (R237, R240). -/

namespace Sys2Proof.Machine

/-! ### Accesses of one element -/

/-- The parts of a run that are placed one by one. -/
def partsOf (sp : Space) (a : Word) (n : Nat) : List (Word × Nat) :=
  if sp == .N then (List.range n).map (fun j => (a + BitVec.ofNat 64 j, 1)) else chunks a n

/-- The places of the parts of a run, or its first fault. -/
def placeParts (h : Hart) (sp : Space) (acc : Acc) : State → List (Word × Nat) → Except Flt (List (Loc × Nat) × State)
  | s, [] => .ok ([], s)
  | s, (a, n) :: rest =>
    match place s h sp acc a n with
    | .error f => .error f
    | .ok (l, s) =>
      match placeParts h sp acc s rest with
      | .error f => .error f
      | .ok (ls, s) => .ok ((l, n) :: ls, s)

/-- The places of `n` bytes at `a`: one place for an aligned value, the parts of a run otherwise. -/
def placeRun (s : State) (h : Hart) (sp : Space) (acc : Acc) (a : Word) (n : Nat) (whole : Bool) :
    Except Flt (List (Loc × Nat) × State) :=
  placeParts h sp acc s (if whole then [(a, n)] else partsOf sp a n)

def locsRead (s : State) (ls : List (Loc × Nat)) : Nat :=
  ls.foldr (fun (l, n) acc => locRead s l n + acc <<< (8 * n)) 0
def locsWrite (s : State) : List (Loc × Nat) → Nat → State
  | [], _ => s
  | (l, n) :: rest, v => locsWrite (locWrite s l n (v % 2 ^ (8 * n))) rest (v >>> (8 * n))

/-- R372, R374: a place read holds an uncorrectable word. -/
def locsBad (s : State) (ls : List (Loc × Nat)) : Bool :=
  ls.any (fun (l, n) => match l with | .mem a => poisoned s.d.poison a n | _ => false)

/-- How an access finds its elements (R157). -/
inductive VMode where
  | unit
  | stride (b : Reg)
  | index (f : VField)
  deriving DecidableEq, Repr

/-- Alignment of an element address (R158). -/
def memAlign (et : ET) : Nat := if et.isBlock then 2 else if et.wholeBytes then et.memBits / 8 else 1

/-- Where element `i`, or the block that begins there, lies: byte address, bit offset, bytes touched. -/
def VCtx.elemAt (c : VCtx) (et : ET) (ea : Word) (m : VMode) (i : Nat) : Word × Nat × Nat :=
  if et.isBlock then (ea + BitVec.ofNat 64 (i / 16 * et.blockBytes), 0, et.blockBytes)
  else
    match m with
    | .stride b => (ea + BitVec.ofNat 64 i * xGet c.h b, 0, et.memBits / 8)
    | .index f => (ea + (BitVec.ofNat 32 (c.src f i)).signExtend 64, 0, et.memBits / 8)
    | .unit =>
      let o := i * et.memBits
      (ea + BitVec.ofNat 64 (o / 8), o % 8, (o % 8 + et.memBits + 7) / 8)

/-- An access of the element, after its alignment check where it is indexed. -/
def VCtx.reach (c : VCtx) (s : State) (acc : Acc) (et : ET) (ea : Word) (m : VMode) (i : Nat) :
    Except Flt (List (Loc × Nat) × Nat × State) :=
  let (a, bit, n) := c.elemAt et ea m i
  let bad := match m with | .index _ => a.toNat % memAlign et != 0 | _ => false
  if bad then .error ⟨6, a, 0⟩
  else match placeRun s c.h (spaceOf c.h.space.toNat) acc a n et.wholeBytes with
    | .error f => .error f
    | .ok (ls, s) => .ok (ls, bit, s)

/-- R351: the lowest and highest address. -/
def VAcc.saw (a : VAcc) (x : Word) (n : Nat) : VAcc :=
  let lo := x.toNat
  let hi := x.toNat + n - 1
  { a with addr := some (match a.addr with | some (l, h) => (Nat.min l lo, Nat.max h hi) | none => (lo, hi)) }
def VCtx.sawElem (c : VCtx) (a : VAcc) (et : ET) (ea : Word) (m : VMode) (i : Nat) : VAcc :=
  let (x, _, n) := c.elemAt et ea m i
  a.saw x n

/-- R158: ea and the stride are checked once, if any element is live. The trap reports ea and the first live element, also where
the stride alone is misaligned (log 57, DESIGN CHOICE). -/
def alignCheck (k : VCtl) (a : Reg) (disp : BitVec 32) (m : VMode) (s : State) : Option Trap :=
  let h := s.h
  let ea := xGet h a + disp.signExtend 64
  let al := memAlign k.et
  let bad := ea.toNat % al != 0 || (match m with | .stride b => (xGet h b).toNat % al != 0 | _ => false)
  match m with
  | .index _ => none
  | _ => if bad then ((elemRange h).find? (liveAt h k.w true)).map (fun i => misTrap ea (some i)) else none

/-- R303: the first live element whose bytes conflict with a command of the hart. -/
def memHit (k : VCtl) (a : Reg) (disp : BitVec 32) (m : VMode) (wr : Bool) (c : VCtx) (s : State) : Option Nat :=
  let h := s.h
  if h.cmds.isEmpty then none
  else
    let ea := xGet c.h a + disp.signExtend 64
    c.lives.find? (fun i =>
      let (x, _, n) := c.elemAt k.et ea m i
      interlocked h (rangesOf h (spaceOf c.h.space.toNat) x n wr))

/-! ### The banked port (R248) -/

/-- The bank words of the scratchpads that `n` bytes at a place touch, numbered through all the cores of the device. -/
def bankWords (ls : List (Loc × Nat)) : List Nat :=
  ls.flatMap (fun (l, n) =>
    match l with
    | .mem a =>
      if scrBase ≤ a ∧ a < scrAddr Config.cores 0 then
        let o := a - scrBase
        (List.range ((o + n + 3) / 4 - o / 4)).map (o / 4 + ·)
      else []
    | _ => [])

/-- A bank of a core's port. -/
def bankOf (w : Nat) : Nat := w / 2 ^ 21 * 32 + w % 32

/-- Passes beyond the first of a group whose elements touch these words: a bank serves a distinct word per pass of a read,
an element per pass of a write. -/
def groupPasses (wr : Bool) (els : List (List Nat)) : Nat :=
  let ws := (if wr then els.flatMap List.eraseDups else els.flatten.eraseDups).map bankOf
  ws.eraseDups.foldl (fun m b => Nat.max m (ws.count b)) 0 - 1

/-- BANK_PASSES of the live elements of an instruction that were accessed, group by group. -/
def VOp.bankPasses (op : VOp) (m : VMode) (wr : Bool) (ea : Word) (c : VCtx) (a : VAcc) : Nat :=
  match m with
  | .unit => 0
  | _ =>
    let g := Nat.max 1 (c.h.lanes * 16 / op.wide)
    let els := c.lives.filterMap (fun i =>
      if a.faults.any (fun f => f.1 == i) || (match a.stop with | some n => decide (n ≤ i) | none => false) then none
      else match c.reach a.s (if wr then .store else .load) op.k.et ea m i with
        | .ok (ls, _, _) => some (i / g, bankWords ls)
        | .error _ => none)
    (els.map (·.1)).eraseDups.foldl (fun n k => n + groupPasses wr ((els.filter (fun e => e.1 == k)).map (·.2))) 0

/-- The access, then its passes. -/
def VOp.banked (op : VOp) (m : VMode) (wr : Bool) (ea : Word) (c : VCtx) (a : VAcc) : VAcc :=
  match m with
  | .unit => a
  | _ => { a with s := countEv a.s 0x0E (op.bankPasses m wr ea c a) }

/-- The parts that every vector access shares. -/
def memOp (i : Instr) (k : VCtl) (a : Reg) (disp : BitVec 32) (m : VMode) (wr : Bool) (srcs : List VField) (dst : VDst)
    (body : VOp → Word → VCtx → VAcc → VAcc) : VOp :=
  let fs := srcs ++ (match m with | .index f => [f] | _ => [])
  let op : VOp :=
    { baseOp i .L k fs dst (fun _ acc => acc) with
      wide := Nat.max k.et.regBytes (widest fs dst), cb := k.et.isBlock, blk := k.et.isBlock, mem := true
      frq := (match m with | .index _ => some (if !wr then 0 else if k.wp == .blend then 2 else 1) | _ => none)
      check := alignCheck k a disp m, hits := memHit k a disp m wr }
  let ea (c : VCtx) : Word := xGet c.h a + disp.signExtend 64
  { op with body := fun c acc => op.banked m wr (ea c) c (body op (ea c) c acc) }

/-! ### Loads (R159 to R161) -/

/-- What a load does at a fault. -/
inductive OnFault where
  | stop | collect | first
  deriving DecidableEq, Repr

def loadFault (o : OnFault) (head : Option Nat) (a : VAcc) (i : Nat) (f : Flt) : VAcc :=
  match o with
  | .collect => { a with faults := (i, f) :: a.faults }
  | .stop => { a with faults := [(i, f)], stop := some i }
  | .first =>
    if head == some i then { a with faults := [(i, f)], stop := some i, newVl := none }
    else { a with stop := some i, newVl := some i }

/-- One element of a load. -/
def VOp.loadOne (op : VOp) (o : OnFault) (m : VMode) (ea : Word) (c : VCtx) (a : VAcc) (i : Nat) : VAcc :=
  if a.stop.isSome || c.passed i then a
  else if !c.live i then (if op.k.wp == .zero then op.put c a i 0 else a)
  else
    match c.reach a.s .load op.k.et ea m i with
    | .error f => loadFault o c.lives.head? a i f
    | .ok (ls, bit, s) =>
      let raw := codeOf op.k.et (locsRead s ls >>> bit)
      let r : ERes := if op.k.wp == .blend then { val := (valOf op.k.et raw).1 } else { code := some raw }
      let (x, fl) := op.round c i r
      let (a, fate) := c.fate (c.sawElem { a with s := s } op.k.et ea m i) i fl
      match fate with
      | .write => op.put c a i x
      | .zero => op.put c a i 0
      | .omit => a

/-- One block of a load of a currant type. A fault is at its first element, live or not (R160, R161; log 57, DESIGN CHOICE). -/
def VOp.loadBlock (op : VOp) (o : OnFault) (ea : Word) (c : VCtx) (a : VAcc) (n : Nat) : VAcc :=
  match c.reach a.s .load op.k.et ea .unit (16 * n) with
  | .error f => loadFault o ((c.blocks.find? c.blkLive).map (16 * ·)) a (16 * n) f
  | .ok (ls, _, s) => op.putBlock c (c.sawElem { a with s := s } op.k.et ea .unit (16 * n)) n (locsRead s ls)

def VOp.load (op : VOp) (o : OnFault) (m : VMode) (ea : Word) (c : VCtx) (a : VAcc) : VAcc :=
  let a := if o == .first then { a with newVl := some c.h.vl } else a
  if op.k.et.isBlock then c.blocks.foldl (op.oneBlock c (op.loadBlock o ea c)) a
  else c.elems.foldl (op.loadOne o m ea c) a

/-- The index field of R157. -/
def fldIdx (b : Reg) (k : VCtl) : VField := ⟨b.toNat, idxGroup k.g k.et, 4, k.lr.getLsbD 1⟩

def loadOp (o : OnFault) (m : VMode) (i : Instr) (d a : Reg) (disp : BitVec 32) (k : VCtl) : VOp :=
  memOp i k a disp m false [] (dstV d k k.et.regBytes) (fun op ea c acc => op.load o m ea c acc)
def opVld := fun d a disp k => loadOp .stop .unit (.vld d a disp k) d a disp k
def opVlds := fun d a b disp k => loadOp .stop (.stride b) (.vlds d a b disp k) d a disp k
def opVldx := fun d a b disp k => loadOp .collect (.index (fldIdx b k)) (.vldx d a b disp k) d a disp k
def opVldff := fun d a disp k => loadOp .first .unit (.vldff d a disp k) d a disp k

/-! ### Stores (R159, R160, R163, R182) -/

/-- The code that element `i` stores over `old`, and its flags. -/
def VOp.stored (op : VOp) (C : VField) (c : VCtx) (i old : Nat) : Nat × Fl :=
  let raw := codeOf op.k.et (c.src C i)
  let rm := rmOf c.h op.k.rm false
  let v := (valOf op.k.et raw).1
  match op.k.wp with
  | .blend =>
    let (r, f) := vBlend (rm == .rdn) (c.ew i) v (valOf op.k.et old).1
    let (x, g) := encVal op.k.et false rm r
    (x, f ||| g)
  | .scale =>
    let (r, f) := vMul (.fin (wtVal (c.ew i))) v
    let (x, g) := encVal op.k.et false rm r
    (x, f ||| g)
  | _ => (raw, flNone)

/-- What a store does at a fault or a trapping element. -/
def storeStop (stops : Bool) (a : VAcc) (i : Nat) (f : Option Flt) : VAcc :=
  let a := match f with | some f => { a with faults := (i, f) :: a.faults } | none => a
  if stops then { a with stop := some i } else a

/-- One element of a store. A blend reads what it stores over, and takes its machine check (R163, R374). -/
def VOp.storeOne (op : VOp) (C : VField) (m : VMode) (stops : Bool) (ea : Word) (c : VCtx) (a : VAcc) (i : Nat) : VAcc :=
  if a.stop.isSome || c.passed i || !c.live i then a
  else
    match c.reach a.s .store op.k.et ea m i with
    | .error f => storeStop stops a i (some f)
    | .ok (ls, bit, s) =>
      if op.k.wp == .blend && locsBad s ls then storeStop stops a i (some ⟨21, (c.elemAt op.k.et ea m i).1, 2⟩)
      else
      let old := locsRead s ls
      let (x, fl) := op.stored C c i (codeOf op.k.et (old >>> bit))
      let (a, fate) := c.fate (c.sawElem { a with s := s } op.k.et ea m i) i fl
      let w := if op.k.et.wholeBytes then op.k.et.memBits else op.k.et.bits
      let put (x : Nat) : VAcc := { a with s := locsWrite a.s ls (putBits old bit w x) }
      match fate with
      | .write => put x
      | .zero => put 0
      | .omit => storeStop stops a i none

/-- One live block of a store. A fault is at its first element, live or not (R160; log 57, DESIGN CHOICE). -/
def VOp.storeBlock (op : VOp) (C : VField) (stops : Bool) (ea : Word) (c : VCtx) (a : VAcc) (n : Nat) : VAcc :=
  if a.stop.isSome || !c.blkLive n then a
  else match c.reach a.s .store op.k.et ea .unit (16 * n) with
    | .error f => storeStop stops a (16 * n) (some f)
    | .ok (ls, _, s) =>
      let a := c.sawElem { a with s := s } op.k.et ea .unit (16 * n)
      { a with s := locsWrite a.s ls (c.block C n) }

def VOp.store (op : VOp) (C : VField) (m : VMode) (stops : Bool) (ea : Word) (c : VCtx) (a : VAcc) : VAcc :=
  if op.k.et.isBlock then c.blocks.foldl (op.storeBlock C stops ea c) a
  else c.elems.foldl (op.storeOne C m stops ea c) a

/-- R160: the elements of a `vstu` above the faulting one that were written. -/
def VOp.storeAfter (op : VOp) (C : VField) (ea : Word) (c : VCtx) (a : VAcc) : VAcc :=
  match a.stop with
  | none => a
  | some f =>
    let on : VAcc := { a with stop := none, faults := [] }
    let go (i : Nat) : Bool := f < i && Config.vstuWritten a.s.steps i
    let b := if op.k.et.isBlock then (c.blocks.filter (fun n => go (16 * n))).foldl (op.storeBlock C false ea c) on
      else (c.elems.filter go).foldl (op.storeOne C .unit false ea c) on
    { b with stop := a.stop, faults := a.faults }

def storeOp (m : VMode) (stops : Bool) (i : Instr) (e a : Reg) (disp : BitVec 32) (k : VCtl) : VOp :=
  let C := fldC e k k.et.regBytes
  { memOp i k a disp m true [C] .none (fun op ea c acc => op.store C m stops ea c acc) with first := stops }
def opVst := fun e a disp k => storeOp .unit true (.vst e a disp k) e a disp k
def opVsts := fun e a b disp k => storeOp (.stride b) true (.vsts e a b disp k) e a disp k
def opVstx := fun e a b disp k => storeOp (.index (fldIdx b k)) false (.vstx e a b disp k) e a disp k
def opVstu := fun (e a : Reg) (disp : BitVec 32) (k : VCtl) =>
  let C := fldC e k k.et.regBytes
  memOp (.vstu e a disp k) k a disp .unit true [C] .none (fun op ea c acc =>
    op.storeAfter C ea c (op.store C .unit true ea c acc))

/-! ### Atomics (R237) -/

inductive AmoFn where
  | swap | add | and | or | xor | min | max | blend
  deriving DecidableEq, Repr

/-- The new value and its flags; `e` is the weight of a blend. -/
def amoNew (f : AmoFn) (et : ET) (e old x : Nat) : Nat × Fl :=
  match f with
  | .swap => (x, flNone)
  | .and => (old &&& x, flNone)
  | .or => (old ||| x, flNone)
  | .xor => (old ^^^ x, flNone)
  | .blend =>
    let (v, a) := vBlend false e (fval et x) (fval et old)
    let (c, b) := encFloat et false .rne v
    (c, a ||| b)
  | .add =>
    if et.isFloat then
      let (v, a) := vAdd false (fval et old) (fval et x)
      let (c, b) := encFloat et false .rne v
      (c, a ||| b)
    else (encInt et (ival et old + ival et x), flNone)
  | .min | .max =>
    if et.isFloat then
      let (v, a) := vMinMax (f == .max) (fval et old) (fval et x)
      ((encFloat et false .rne v).1, a)
    else
      let a := ival et old
      let b := ival et x
      (encInt et (if f == .max then max a b else min a b), flNone)

/-- One element of a `vamo`: a read as well, so an uncorrectable word is a fault of the element (R240, R374). -/
def VOp.amoOne (op : VOp) (f : AmoFn) (C : VField) (m : VMode) (ea : Word) (c : VCtx) (a : VAcc) (i : Nat) : VAcc :=
  if c.passed i then a
  else if !c.live i then (if op.k.wp == .zero then op.put c a i 0 else a)
  else
    match c.reach a.s .store op.k.et ea m i with
    | .error e => { a with faults := (i, e) :: a.faults }
    | .ok (ls, _, s) =>
      if locsBad s ls then { a with faults := (i, ⟨21, (c.elemAt op.k.et ea m i).1, 2⟩) :: a.faults }
      else
      let old := locsRead s ls
      let (x, fl) := amoNew f op.k.et (c.ew i) old (codeOf op.k.et (c.src C i))
      let (a, fate) := c.fate (c.sawElem a op.k.et ea m i) i fl
      let stored (x : Nat) : VAcc := { a with s := locsWrite { a.s with mem := s.mem, d := s.d } ls x }
      match fate with
      | .write => op.put c (stored x) i old
      | .zero => op.put c (stored 0) i 0
      | .omit =>
        -- it has read its location, and writes nothing (R184, R262)
        match c.reach a.s .load op.k.et ea m i with
        | .ok (_, _, s) => { a with s := { a.s with mem := s.mem, d := s.d } }
        | .error _ => a

def vamoOp (f : AmoFn) (i : Instr) (d a b e : Reg) (disp : BitVec 32) (k : VCtl) : VOp :=
  let C := fldC e k k.et.regBytes
  let m := VMode.index (fldIdx b k)
  { memOp i k a disp m true [C] (if d = 0 then .none else dstV d k k.et.regBytes)
      (fun op ea c acc => c.elems.foldl (op.amoOne f C m ea c) acc) with frq := some 3 }
def opVamoSwap := fun d a b e disp k o sc => vamoOp .swap (.vamoSwap d a b e disp k o sc) d a b e disp k
def opVamoAdd := fun d a b e disp k o sc => vamoOp .add (.vamoAdd d a b e disp k o sc) d a b e disp k
def opVamoAnd := fun d a b e disp k o sc => vamoOp .and (.vamoAnd d a b e disp k o sc) d a b e disp k
def opVamoOr := fun d a b e disp k o sc => vamoOp .or (.vamoOr d a b e disp k o sc) d a b e disp k
def opVamoXor := fun d a b e disp k o sc => vamoOp .xor (.vamoXor d a b e disp k o sc) d a b e disp k
def opVamoMin := fun d a b e disp k o sc => vamoOp .min (.vamoMin d a b e disp k o sc) d a b e disp k
def opVamoMax := fun d a b e disp k o sc => vamoOp .max (.vamoMax d a b e disp k o sc) d a b e disp k
def opVamoBlend := fun d a b e disp k o sc => vamoOp .blend (.vamoBlend d a b e disp k o sc) d a b e disp k

/-! ### Bindings (R266, R269) and register windows (R253) -/

/-- The trace entry of an instruction of OP 0x81 that has no elements, then its retirement (R22, R351). -/
def retireBind (s : State) (et : ET) (lo hi : Nat) : Res :=
  next (traceRetire (setH s { s.h with vstart := 0 }) 1 et.code.toNat lo hi 0 0)

def execVbind (d a : Reg) (disp : BitVec 32) (et : ET) (s : State) : Res :=
  let h := s.h
  let ea := xGet h a + disp.signExtend 64
  let p := vPhys h d.toNat
  if ea.toNat % 64 != 0 then trap s (misTrap ea none)
  else if interlocked h [⟨0, ea.toNat, ea.toNat + 63, false⟩] then stall (countEv s 0x14 1)
  else match translate s h .load ea 64 with
    | .error f => trap s (memTrap f none)
    | .ok (pa, s1) =>
      let w (i : Nat) : Word := BitVec.ofNat 64 (memRead s1.mem (pa + 8 * i) 8)
      let b : Binding :=
        { reg := p, et := et, block := ea, base := w 0, index := w 1, stride := w 2, scale := w 3, count := w 4
          ctl := w 5, strip := h.vl, popped := 0, queue := [] }
      let rest := h.binds.filter (fun c => c.reg != p)
      if bindRefused b ((w 6).toNat + (w 7).toNat) (4 ≤ rest.length) then
        trap s { code := 11, val := ea, val2 := memVal2 none 0 }
      else if streamHeld s1 s1.h b 0 then stall (countEv s 0x14 1)
      else
        let h1 := s1.h
        let v := if isDead h1 p then h1.v.setIfInBounds p 0 else h1.v
        let h2 := { h1 with binds := rest ++ [b], v := v, dead := h1.dead &&& ~~~ BitVec.ofNat 64 (2 ^ p) }
        retireBind (fillQueue p 4 (setH s1 h2)) et ea.toNat (ea.toNat + 63)

def execVunbind (d : Reg) (s : State) : Res :=
  let p := vPhys s.h d.toNat
  retireBind (setH s { s.h with binds := s.h.binds.filter (fun c => c.reg != p) }) .f32 0 0

/-- R253: a dead register becomes live with all elements zero. -/
def execVopen (d : Reg) (s : State) : Res :=
  let h := s.h
  let p := vPhys h d.toNat
  let h := if isDead h p then { h with v := h.v.setIfInBounds p 0, dead := h.dead &&& ~~~ BitVec.ofNat 64 (2 ^ p) } else h
  retireBind (setH s { h with opened := h.opened ||| BitVec.ofNat 64 (2 ^ p) }) .f32 0 0
def execVclose (d : Reg) (s : State) : Res :=
  let p := vPhys s.h d.toNat
  retireBind (setH s { s.h with opened := s.h.opened &&& ~~~ BitVec.ofNat 64 (2 ^ p) }) .f32 0 0

end Sys2Proof.Machine
end

