-- ==== Sys2Proof/Machine/Amo.lean ====
section
/-! DEFINITION. Scalar atomics, OP 0x90 (R237 to R239), and synchronising, OP 0x92: fences (R241), barriers (R218 to
R220), `waiteq` (R242), with the steps that wake a parked hart. -/

namespace Sys2Proof.Machine

/-- An atomic access of `n` bytes, translated as a store: `k` takes the place, the state if nothing is written (D and
the dirty bitmap stay, R239), and the state if it is. -/
def gAtomic (s : State) (ea : Word) (n : Nat) (k : Nat → State → State → Res) : Res :=
  gAccess s .store ea n n (fun p sw =>
    match translate s s.h .load ea n with
    | .ok (_, sr) => k p sr sw
    | .error f => trap s (memTrap f none))

/-- R238. -/
def amoRun (f : AmoFn) (d a c : Reg) (disp : BitVec 32) (et : ET) (s : State) : Res :=
  let n := et.memBits / 8
  gAtomic s (effAddr s.h a disp) n (fun p sr sw =>
    let old := memRead sr.mem p n
    let (new, fl) := amoNew f et 0 old (codeOf et (xGet s.h c).toNat)
    if enabledOf s.h fl != 0 then trap (setH sr (orFlags sr.h fl)) (arithTrap (enabledOf s.h fl) 0)
    else
      let s' := { sw with mem := memWrite sw.mem p n new }
      nextX (setH s' (orFlags s'.h fl)) d (extendTo et old))

def execAmoSwap (d a c : Reg) (disp : BitVec 32) (et : ET) (_o : Ord) (_sc : Scope) (s : State) : Res :=
  amoRun .swap d a c disp et s
def execAmoAdd (d a c : Reg) (disp : BitVec 32) (et : ET) (_o : Ord) (_sc : Scope) (s : State) : Res :=
  amoRun .add d a c disp et s
def execAmoAnd (d a c : Reg) (disp : BitVec 32) (et : ET) (_o : Ord) (_sc : Scope) (s : State) : Res :=
  amoRun .and d a c disp et s
def execAmoOr (d a c : Reg) (disp : BitVec 32) (et : ET) (_o : Ord) (_sc : Scope) (s : State) : Res :=
  amoRun .or d a c disp et s
def execAmoXor (d a c : Reg) (disp : BitVec 32) (et : ET) (_o : Ord) (_sc : Scope) (s : State) : Res :=
  amoRun .xor d a c disp et s
def execAmoMin (d a c : Reg) (disp : BitVec 32) (et : ET) (_o : Ord) (_sc : Scope) (s : State) : Res :=
  amoRun .min d a c disp et s
def execAmoMax (d a c : Reg) (disp : BitVec 32) (et : ET) (_o : Ord) (_sc : Scope) (s : State) : Res :=
  amoRun .max d a c disp et s

/-- R239. -/
def execAmocas (d a b c : Reg) (disp : BitVec 32) (et : ET) (_o : Ord) (_sc : Scope) (s : State) : Res :=
  let n := et.memBits / 8
  gAtomic s (effAddr s.h a disp) n (fun p sr sw =>
    let old := memRead sr.mem p n
    if old == codeOf et (xGet s.h b).toNat then
      nextX { sw with mem := memWrite sw.mem p n (codeOf et (xGet s.h c).toNat) } d (extendTo et old)
    else nextX sr d (extendTo et old))

/-- R241: every access of the model is performed when it is made (log 7, DESIGN CHOICE). -/
def execFence (_o : Ord) (_sc : Scope) (s : State) : Res := next s

/-! ### Barriers -/

def barBroken (w : Nat) : Bool := w.testBit 49
def barPhase (w : Nat) : Nat := w / 2 ^ 32 % 65536
def barArrived (w : Nat) : Nat := w / 2 ^ 16 % 65536
def barCount (w : Nat) : Nat := w % 65536
/-- The word after a release: ARRIVED 0, PHASE one more, STALLED 0. -/
def barReleased (w : Nat) : Nat :=
  barCount w + (barPhase w + 1) % 65536 * 2 ^ 32 + (if w.testBit 49 then 2 ^ 49 else 0) + w / 2 ^ 50 * 2 ^ 50
def barPut (w arrived : Nat) : Nat := w - barArrived w * 2 ^ 16 + arrived % 65536 * 2 ^ 16

/-- The members of a hart's record that still run, itself among them, but for those that are saved; a hart without a
record is a farm of one. -/
def runningMembers (s : State) (h : Hart) : List Hart :=
  if h.record = 0 then [h] else (s.h :: s.others).filter (fun o => hartExists o && o.record == h.record)
/-- The members of a record that are saved: they run on once they are placed again. -/
def savedMembers (s : State) (record : Nat) : List Saved :=
  if record = 0 then [] else (s.d.recs.filter (fun r => r.id == record)).flatMap (·.saved)
/-- R219: the members still running, for `.f`. -/
def memberCount (s : State) (h : Hart) : Nat := (runningMembers s h).length + (savedMembers s h.record).length

/-- R219: what a parked `bar` sees in its word: its status, or none. -/
def barSees (w : Nat) (phase : BitVec 16) : Option Word :=
  if barPhase w != phase.toNat then some 0 else if barBroken w then some 1 else none

/-- R218, R219. A `bar` whose arrival has been made reads its word again; a wait on another word stands. -/
def execBar (d a : Reg) (disp : BitVec 32) (sc : Scope) (s : State) : Res :=
  let ea := effAddr s.h a disp
  match s.h.barWait.find? (fun b => b.ea == ea) with
  | some b =>
    gAccess s .load ea 8 8 (fun p s =>
      match barSees (memRead s.mem p 8) b.phase with
      | some r => nextX (setH s { s.h with barWait := s.h.barWait.filter (fun b => b.ea != ea) }) d r
      | none => park s (.bar ea))
  | none =>
    gAtomic s ea 8 (fun p sr sw =>
      let own (s : State) : State := setH s { s.h with barWord := some ea }
      let w := memRead sr.mem p 8
      if barBroken w then nextX (own sr) d 1
      else if w / 2 ^ 50 != 0 || (sc != .farm && (barCount w == 0 || barCount w ≤ barArrived w)) then nextX (own sr) d 2
      else
        let n := if sc == .farm then memberCount sr sr.h else barCount w
        let put (w : Nat) : State := own { sw with mem := memWrite sw.mem p 8 w }
        if n ≤ barArrived w + 1 then nextX (put (barReleased w)) d 0
        else
          let s1 := put (barPut w (barArrived w + 1))
          park (setH s1 { s1.h with barWait := ⟨ea, BitVec.ofNat 16 (barPhase w), sc == .farm⟩ :: s1.h.barWait }) (.bar ea))

/-- The hart in front parked, with what lets it go on. -/
def wakeIf (s : State) (p : Park) (ok : Bool) : Res :=
  if s.h.run == .parked p && ok then .next (setH s { s.h with run := .running }) else .fault .notEnabled

/-- R219: the phase has changed, or BROKEN is set: the `bar` issues again. -/
def execBarWake (s : State) : Res :=
  match s.h.run with
  | .parked (.bar ea) =>
    wakeIf s (.bar ea) (match s.h.barWait.find? (fun b => b.ea == ea) with
      | none => true
      | some b =>
        match translate s s.h .load ea 8 with
        | .error _ => false
        | .ok (p, _) => (barSees (memRead s.mem p 8) b.phase).isSome)
  | _ => .fault .notEnabled

/-- R219: after the end of a member, `h` as it was, the `.f` word of a wait is released if its arrivals have reached those
that still run. -/
def releaseFarmBar (h : Hart) (s : State) (b : BarWait) : State :=
  match translate s h .store b.ea 8 with
  | .error _ => s
  | .ok (p, s1) =>
    let w := memRead s1.mem p 8
    if barPhase w == b.phase.toNat && barArrived w != 0 && memberCount s h ≤ barArrived w then
      { s1 with mem := memWrite s1.mem p 8 (barReleased w) }
    else s
/-- The same for the waits that its record had when it ended, its own among them: an arrival that it made in a word's phase
stands. -/
def releaseFarmBars (s : State) (h : Hart) (waits : List BarWait) : State := waits.foldl (releaseFarmBar h) s

/-- R242. -/
def execWaiteq (d a b : Reg) (disp : BitVec 32) (_o : Ord) (_sc : Scope) (s : State) : Res :=
  gAccess s .load (effAddr s.h a disp) 8 8 (fun p s =>
    let v : Word := BitVec.ofNat 64 (memRead s.mem p 8)
    if v != xGet s.h b then nextX s d v else park (countEv s 0x1D 1) (.waiteq (effAddr s.h a disp) v))

/-- R242: the word has been written and differs: `waiteq` issues again and reads it. -/
def execWaiteqWake (s : State) : Res :=
  match s.h.run with
  | .parked (.waiteq ea v) =>
    wakeIf s (.waiteq ea v) (match translate s s.h .load ea 8 with
      | .error _ => false
      | .ok (p, _) => BitVec.ofNat 64 (memRead s.mem p 8) != v)
  | _ => .fault .notEnabled

end Sys2Proof.Machine
end

