-- ==== Sys2Proof/Machine/Cfg.lean ====
section
/-! DEFINITION. Configuration, OP 0x70 (R131 to R133). -/

namespace Sys2Proof.Machine

/-- R199: VLMAX. -/
def vlCeiling (s : State) (h : Hart) : Nat :=
  match recOf s h with
  | some r => (r.words.toList.getD 7 0).toNat % 32768
  | none => 0

/-- R131: the granted length, for a hart whose VLCAP has been taken anew. -/
def grantVl (cap ceiling req : Nat) (et : ET) (g : Grp) : Nat :=
  let n := Nat.min (Nat.min req (cap * g.size / et.regBytes)) cap
  let n := if ceiling != 0 then Nat.min n ceiling else n
  if et.isBlock then n / 16 * 16 else n

/-- R373: the registers of a hart repacked onto `n` live lanes. -/
def repack (h : Hart) (n : Nat) : Hart :=
  { h with lanes := n, v := h.v.map (fun x => BitVec.ofNat 196608 (x.toNat % 2 ^ (8 * (n * Config.laneBytes))))
           w := h.w.map (fun x => BitVec.ofNat 393216 (x.toNat % 2 ^ (16 * (n * Config.laneBytes)))) }

def execSetvl (d a : Reg) (et : ET) (g : Grp) (s : State) : Res :=
  let live := liveLanes s.d.retired s.h.gid s.h.clusters
  let h := if s.h.lanes == live then s.h else repack s.h live
  let cap := vBytes h
  let n := grantVl cap (vlCeiling s h) (xGet h a).toNat et g
  nextX (setH s { h with vlcap := cap, vl := n, vstart := 0 }) d (BitVec.ofNat 64 n)

/-- R132: the `putcr` of a register, returning its old value. -/
def setCr (i : Nat) (d : Reg) (b : XOp) (s : State) : Res :=
  let old := csrRead s s.h i
  nextX (setH s (crWrite s.h i (xopVal s.h b))) d old

def execSetsp (d : Reg) (b : XOp) (s : State) : Res := setCr 8 d b s
/-- Only b[15:0] is read. -/
def execSetth (d : Reg) (b : XOp) (s : State) : Res := setCr 4 d b s
def execSetfl (d : Reg) (b : XOp) (s : State) : Res := setCr 5 d b s
def execSetrm (d : Reg) (b : XOp) (s : State) : Res := setCr 6 d b s

/-- R133. -/
def execGetcr (d : Reg) (cr : BitVec 12) (s : State) : Res := nextX s d (csrRead s s.h cr.toNat)
def execPutcr (cr : BitVec 12) (a : Reg) (s : State) : Res := next (setH s (crWrite s.h cr.toNat (xGet s.h a)))

end Sys2Proof.Machine
end

