-- ==== Sys2Proof/Machine/Harts.lean ====
section
/-! DEFINITION. Harts and farms, OP 0xA0 (R212 to R217), and the end of a hart (R119, R217, R341). -/

namespace Sys2Proof.Machine

/-! ### Records and queues -/

/-- Applies `f` to a record. -/
def mapRec (s : State) (id : Nat) (f : Rec → Rec) : State :=
  { s with d := { s.d with recs := s.d.recs.map (fun r => if r.id == id then f r else r) } }

def ctl0 (r : Rec) : Nat := (r.words.toList.getD 6 0).toNat
def ctl1 (r : Rec) : Nat := (r.words.toList.getD 7 0).toNat
/-- R199. -/
def recMembers (r : Rec) : Nat := ctl1 r / 2 ^ 15 % 1024

def queueGet (s : State) (q : Nat) : Queue := tabGet s.d.queues q Queue.zero
def queuePut (s : State) (q : Nat) (u : Queue) : State := { s with d := { s.d with queues := tabSet s.d.queues q u } }

/-- R193: the address of a ring slot in the numbering of Mem, and whether it can be accessed: it lies in no carve-out of `ps`
(R272). -/
def ringSlotAt (ps : Vector Word 4) (u : Queue) (k : BitVec 32) : Nat × Bool :=
  let a := u.base.toNat / 64 * 64 + 64 * (k.toNat % 2 ^ u.log2n.toNat)
  if u.base.getLsbD 0 then (hostBase + a % 2 ^ 52, true) else (a, normalPa a && !inCarveOut ps a 64)

/-! ### Ringmasters: resume lists (R203) -/

def masterGet (s : State) (die : Nat) : Master := s.d.masters.toList.getD die Master.zero
def masterPut (s : State) (die : Nat) (m : Master) : State := { s with d := { s.d with masters := s.d.masters.setIfInBounds die m } }

/-- The resume list replaced; its first entry is a candidate, as source 64, from the clk at which it became first. -/
def setResume (m : Master) (clk : Nat) (l : List Nat) : Master :=
  if l.head? == m.resume.head? then { m with resume := l }
  else
    let rest := m.ready.filter (fun r => r.1 != 64)
    { m with resume := l, ready := if l.isEmpty then rest else rest ++ [(64, clk)] }

/-- A source of a ringmaster is no ready candidate any more: its effective priority starts again from PRIO (R204). -/
def unready (s : State) (die src : Nat) : State :=
  let m := masterGet s die
  masterPut s die { m with ready := m.ready.filter (fun p => p.1 != src) }

/-- R195: a queue's ERR is set, and its head record is no candidate. -/
def queueErr (s : State) (q : Nat) : State :=
  let u := queueGet s q
  unready (queuePut s q { u with err := true }) u.home q

/-- CTL1 of a record written back with STATE and EXIT replaced (R199); a slot that cannot be written sets ERR. -/
def writeCtl1 (s : State) (r : Rec) (state exit : Nat) : State :=
  let u := queueGet s r.queue
  let (a, ok) := ringSlotAt s.d.pscfg u r.ringIdx
  let v := ctl1 r % 2 ^ 53 + state * 2 ^ 53 + exit % 256 * 2 ^ 56
  let s1 := mapRec s r.id (fun r => { r with words := r.words.set 7 (BitVec.ofNat 64 v) })
  if 64 ≤ r.queue then s1
  else if ok then { s1 with mem := memWrite s1.mem (a + 56) 8 v }
  else queueErr s1 r.queue

/-- Every member of a record has ended or is saved, and some is saved: the record joins its home die's resume list (R206,
R207), or waits for its image to be written (R367). -/
def recordStopped (s : State) (r : Rec) : State :=
  let m := masterGet s r.home
  let s := mapRec s r.id (fun r => { r with at_ := .resume, stopping := if r.stopping == some .pack then r.stopping else none })
  match r.stopping with
  | some .budget => masterPut (writeCtl1 s r 3 0) r.home (setResume m s.clk (m.resume ++ [r.id]))
  | some .pack => s
  | _ => masterPut s r.home (setResume m s.clk (r.id :: m.resume))

/-- After a member has ended or been saved. -/
def recordSettle (s : State) (id : Nat) : State :=
  match s.d.recs.find? (fun r => r.id == id) with
  | some r =>
    if !r.places.isEmpty || r.at_ != .running then s
    else if r.saved.isEmpty then mapRec s id (fun r => { r with at_ := .completing })
    else recordStopped s r
  | none => s

/-! ### The end of a hart (R217) -/

/-- R217: a hart that has ended: its grants are returned, its windows closed, its loop, arm and carousel state discarded, which
leaves no level active and ARMSP and CBASE 0, with the other fields of a level as they were (R188), and its bindings (log 21,
DEDUCED). Its registers keep their values (log 1, DESIGN CHOICE). -/
def Hart.gone (h : Hart) : Hart :=
  { h with
    run := .ended, clusters := 0, lanes := 0, slabs := [], tiles := [], record := 0, xfer := none, second := false, stop := none
    pause := none, replay := none, fmrun := false, ending := none, opened := 0
    loops := h.loops.map (fun l => { l with act := false }), armsp := 0, cbase := 0
    fibres := Vector.replicate 8 Fibre.closed, binds := [], cmds := [], barWord := none, barWait := [], sending := none, pend := [] }

/-- R217, R343: the hart in front ends with a status; `killed` for an S-mode end. Its place, grants, windows and fault
records go with it; its record counts it, and a `.f` barrier of its record is released if it waited for it alone. -/
def finishHart (s : State) (status : BitVec 8) (killed : Bool) : State :=
  let h := s.h
  let s1 := mapRec s h.record (fun r =>
    let left := r.places.filter (· != h.gid)
    { r with places := left, ended := r.ended + 1, exitor := r.exitor ||| status, killed := r.killed || killed })
  let s2 := { s1 with d := { s1.d with frq := s1.d.frq.map (fun l => l.filter (fun f => f.gid != h.gid)) } }
  recordSettle (releaseFarmBars (setH s2 h.gone) h (farmWaits s h.record)) h.record

/-! ### Identity, launch -/

/-- R213. -/
def hidWord (s : State) (h : Hart) : Word :=
  let (q, n) := match recOf s h with | some r => (r.queue, recMembers r) | none => (0, 0)
  BitVec.ofNat 64 (h.member % 1024 + n * 2 ^ 10 + h.clusters * 2 ^ 20 + liveLanes s.d.retired h.gid h.clusters * 2 ^ 24 +
    hartNo h.gid * 2 ^ 32 + coreInDie h.gid * 2 ^ 35 + dieOf h.gid * 2 ^ 40 + q % 64 * 2 ^ 42 + h.slabs.length * 2 ^ 48 + h.tiles.length * 2 ^ 53)
def execHid (d : Reg) (s : State) : Res := nextX s d (hidWord s s.h)

/-- R214: the record `rec` enqueued in queue `q`: the result and the state. -/
def launchInto (s : State) (q : Word) (rec : Nat) : Word × State :=
  if 63 < q.toNat then (-3, s)
  else
    let u := queueGet s q.toNat
    if !(u.en && u.devfed) || u.err || u.context != s.h.ctxid then (-2, s)
    else if (u.tail - u.prog).toNat == 2 ^ u.log2n.toNat then (-1, s)
    else
      let (a, ok) := ringSlotAt s.d.pscfg u u.tail
      let s1 := if ok then { s with mem := memWrite s.mem a 64 rec } else s
      let s2 := queuePut s1 q.toNat { u with tail := u.tail + 1, shadow := u.tail + 1 }
      (u.tail.setWidth 64, if ok then s2 else queueErr s2 q.toNat)

def execLaunch (d a : Reg) (b : XOp) (s : State) : Res :=
  gAccess s .load (xGet s.h a) 64 64 (fun p s =>
    let (r, s1) := launchInto s (xopVal s.h b) (memRead s.mem p 64)
    nextX s1 d r)

/-! ### Farms (R215, R216) -/

/-- SET, TOTAL, NEXT, DONE of the hart's record. -/
structure FarmState where
  set   : BitVec 16
  total : Word
  next  : Word
  done  : Word
  deriving DecidableEq, Repr

def farmOf (s : State) : FarmState :=
  match recOf s s.h with
  | some r => ⟨r.set, r.total, r.next, r.done⟩
  | none => ⟨0, 0, 0, 0⟩
def farmPut (s : State) (f : FarmState) : State :=
  mapRec s s.h.record (fun r => { r with set := f.set, total := f.total, next := f.next, done := f.done })

/-- The next set may open: every member still running has joined the current one, one that is saved among them, and its strips
are retired. -/
def farmMayOpen (s : State) : Bool :=
  let f := farmOf s
  f.done == f.total && (runningMembers s s.h).all (fun h => h.fgen == f.set) &&
    (savedMembers s s.h.record).all (fun v => v.fgen == f.set)

def execFarm (d a : Reg) (s : State) : Res :=
  let f := farmOf s
  if s.h.fgen == f.set then
    if farmMayOpen s then
      let s1 := farmPut s ⟨f.set + 1, xGet s.h a, 0, 0⟩
      nextX (setH s1 { s1.h with fgen := f.set + 1 }) d (xGet s.h a)
    else park s .farm
  else nextX (setH s { s.h with fgen := f.set }) d f.total

/-- R215: the wait of an opener is over; its `farm` issues again. -/
def execFarmOpenWaitEnd (s : State) : Res := wakeIf s .farm (farmMayOpen s || s.h.fgen != (farmOf s).set)

def execFgrab (d : Reg) (s : State) : Res :=
  let f := farmOf s
  if s.h.fgen == f.set && f.next.ult f.total then nextX (farmPut s { f with next := f.next + 1 }) d f.next
  else nextX s d (-1)

def execFdone (d a : Reg) (s : State) : Res :=
  let f := farmOf s
  let x := xGet s.h a
  if s.h.fgen != f.set || !x.ult f.total || f.done == f.total then
    trap s { code := 11, val := x, val2 := memVal2 none 11 }
  else nextX (farmPut s { f with done := f.done + 1 }) d (f.total - (f.done + 1))

end Sys2Proof.Machine
end

