-- ==== Sys2Proof/Machine/Levels.lean ====
section
/-! DEFINITION. Memory levels, OP 0xA8: `xlate` (R263), `cwb` and `cinv` (R257), `slab` (R249). -/

namespace Sys2Proof.Machine

/-! ### `xlate` -/

/-- The outcome of a walk for a read (0), a write (1) or a fetch (2). -/
def xlateWord (s : State) (h : Hart) (va : Word) (kind : Nat) : Word :=
  let fail (n : Nat) : Word := BitVec.ofNat 64 (2 ^ 63 + n)
  let acc : Acc := match kind with | 0 => .load | 1 => .store | _ => .fetch
  if !canonical va.toNat then fail 3
  else match walk s h.walkroot va.toNat with
    | .error .notValid => fail 1
    | .error .malformed => fail 4
    | .ok l =>
      let t : Tlb := ⟨coreOf h.gid, h.ctxid, l.lvl, 0, BitVec.ofNat 64 l.word, l.at_, []⟩
      match leafAllows acc l.word va with
      | some f => fail (if f.sub == 6 then 4 else 2)
      | none =>
        if pteKind l.word == 3 && !(leafPlace s acc t va 0).toBool then fail 4
        else
          let pa := leafPa t va.toNat
          BitVec.ofNat 64 ((if h.mode == .U then pa % 2 ^ 16 else pa % 2 ^ 52) + l.word / 2 % 8 * 2 ^ 52 +
            l.word / 16 % 4 * 2 ^ 55 + pteCache l.word * 2 ^ 57 + pteKind l.word * 2 ^ 59 + l.lvl * 2 ^ 61)

def execXlate (d a : Reg) (kind : BitVec 2) (s : State) : Res := nextX s d (xlateWord s s.h (xGet s.h a) kind.toNat)

/-! ### `cwb` and `cinv` -/

/-- The physical ranges of the lines that touch a range, pages without a line skipped; or the fault of a malformed
entry or address. -/
def lineRanges (s : State) (h : Hart) (a : Word) (n : Nat) : Except Flt (List (Nat × Nat)) :=
  let a0 := a &&& ~~~ 63
  let len := if n = 0 then 0 else ((a.toNat % 64 + n + 63) / 64) * 64
  (chunks a0 len).foldl (fun r (c, m) =>
    match r with
    | .error f => .error f
    | .ok rs =>
      if !canonical c.toNat then .error ⟨11, c, 4⟩
      else match findLeaf s (coreOf h.gid) h.ctxid h.walkroot c.toNat with
        | .error .notValid => .ok rs
        | .error .malformed => .error ⟨11, c, 7⟩
        | .ok (t, _) =>
          match pteKind t.leaf.toNat with
          | 0 => .ok ((leafPa t c.toNat, m) :: rs)
          | 2 => .ok ((hostBase + leafPa t c.toNat, m) :: rs)
          | _ => .ok rs) (.ok [])

/-- The length of a range: xB, or IMM zero-extended. -/
def lengthOf (h : Hart) : XOp → Word
  | .reg r => xGet h r
  | .imm v => v.setWidth 64

/-- A cache instruction over a range: `k` takes the physical ranges of its lines. -/
def overLines (a : Reg) (b : XOp) (s : State) (k : List (Nat × Nat) → Res) : Res :=
  let n := lengthOf s.h b
  if 2 ^ 24 < n.toNat then trap s (memTrap ⟨11, xGet s.h a, 0⟩ none)
  else match lineRanges s s.h (xGet s.h a) n.toNat with
    | .error f => trap s (memTrap f none)
    | .ok rs => k rs

/-- Memory holds what every cache holds (log 7, DESIGN CHOICE), so a write-back changes nothing. -/
def execCwb (a : Reg) (b : XOp) (_sc : Scope) (s : State) : Res := overLines a b s (fun _ => next s)

/-- The cores of a scope. -/
def inScope (sc : Scope) (own core : Nat) : Bool :=
  match sc with
  | .hart | .core => core == own
  | .die => core / 24 == own / 24
  | _ => true

def execCinv (a : Reg) (b : XOp) (sc : Scope) (s : State) : Res :=
  overLines a b s (fun rs =>
    let own := coreOf s.h.gid
    next { s with d := { s.d with fetch := s.d.fetch.filter (fun f =>
      !(inScope sc own f.core && rs.any (fun (lo, n) => decide (lo ≤ f.addr) && decide (f.addr < lo + n)))) } })

/-! ### `slab` -/

def execSlabQuery (d a : Reg) (s : State) : Res :=
  let x := xGet s.h a
  match s.h.slabs[x.toNat]? with
  | some p => nextX s d (BitVec.ofNat 64 (coreInDie s.h.gid * 2 ^ 43 + p * 2 ^ 19))
  | none => nextX s d (-1)

/-- Slabs of a core that no hart holds. -/
def ungranted (s : State) (gc : Nat) : List Nat :=
  (List.range 16).filter (fun p => !(s.h :: s.others).any (fun h => hartExists h && coreOf h.gid == gc && h.slabs.contains p))
/-- Slabs of a core that a preload has reserved (R208). -/
def reservedSlabs (s : State) (gc : Nat) : List Nat :=
  s.d.masters.toList.flatMap (fun m => m.preloads.flatMap (fun (c, _, ps) => if c == gc then ps else []))

/-- R208: the preload that reserves a slab of a core is discarded. -/
def discardPreload (s : State) (gc p : Nat) : State :=
  { s with d := { s.d with masters := s.d.masters.map (fun m =>
      { m with preloads := m.preloads.filter (fun (c, _, ps) => !(c == gc && ps.contains p)) }) } }

def execSlabTake (d : Reg) (s : State) : Res :=
  let gc := coreOf s.h.gid
  let free := ungranted s gc
  let rsv := reservedSlabs s gc
  match (free.filter (fun p => !rsv.contains p) ++ free).head? with
  | some p =>
    if 16 ≤ s.h.slabs.length then nextX s d (-1)
    else
      let n := s.h.slabs.length
      let s1 := discardPreload { s with mem := memClear s.mem (scrAddr gc (p * Config.slabBytes)) Config.slabBytes } gc p
      nextX (setH s1 { s1.h with slabs := s1.h.slabs ++ [p] }) d (BitVec.ofNat 64 n)
  | none => nextX s d (-1)

/-- A command of the hart names a slab. -/
def slabNamed (h : Hart) (p : Nat) : Bool :=
  let lo := scrAddr (coreOf h.gid) (p * Config.slabBytes)
  h.cmds.any (fun c => c.ranges.any (fun r => r.key == 1 && decide (lo ≤ r.hi) && decide (r.lo < lo + Config.slabBytes)))

def execSlabGive (d : Reg) (s : State) : Res :=
  match s.h.slabs.getLast? with
  | none => nextX s d (-1)
  | some p =>
    if slabNamed s.h p then stall s
    else nextX (setH s { s.h with slabs := s.h.slabs.dropLast }) d (BitVec.ofNat 64 (s.h.slabs.length - 1))

end Sys2Proof.Machine
end

