-- ==== Sys2Proof/Machine/Pips.lean ====
section
/-! DEFINITION. Pip regions, OP 0xB0 (R270 to R286): names, lookup or allocation, reference counts and their cascade, the
six instructions and the step of the home pip unit. -/

namespace Sys2Proof.Machine

/-! ### Lines -/

/-- R274, R273: the pip of a line at a collision index. -/
def pipName (key : BitVec 256) (inner : Bool) (data : BitVec 1024) : Nat :=
  leNat ((hmac256 (leBytes 32 key.toNat) ((if inner then (1 : Byte) else 0) :: leBytes 128 data.toNat)).take 15)
def pipOf (name index : Nat) : BitVec 128 := BitVec.ofNat 128 (index + name * 256)

/-- R275: slot `i` of an interior line. -/
def lineSlotAt (data : BitVec 1024) (i : Nat) : BitVec 128 := data.extractLsb' (128 * i) 128
/-- The children of an interior line, ascending. -/
def childrenOf (data : BitVec 1024) : List (BitVec 128) := ((List.range 8).map (lineSlotAt data)).filter (· != 0)

/-- The line of a pip; the null pip names none. -/
def Region.find (g : Region) (p : BitVec 128) : Option PLine := if p = 0 then none else g.lines.find? (fun l => l.pip == p)

def pipSat : Nat := 0xFFFFFFFF

/-- R277: one more reference to a line. -/
def Region.inc (g : Region) (p : BitVec 128) : Region :=
  { g with lines := g.lines.map (fun l => if l.pip == p && p != 0 then { l with count := Nat.min (l.count + 1) pipSat } else l) }
/-- Whether that reference saturates the count. -/
def Region.saturates (g : Region) (p : BitVec 128) : Bool :=
  match g.find p with | some l => l.count + 1 == pipSat | none => false

/-- R277, R278: one reference less: the region, and the children of a line that it frees. -/
def Region.dec (g : Region) (p : BitVec 128) : Region × List (BitVec 128) :=
  match g.find p with
  | none => (g, [])
  | some l =>
    if l.count == pipSat then (g, [])
    else if l.count ≤ 1 then
      ({ g with lines := g.lines.filter (fun m => m.pip != p) }, if l.inner then childrenOf l.data else [])
    else ({ g with lines := g.lines.map (fun m => if m.pip == p then { m with count := m.count - 1 } else m) }, [])

/-- R278: the cascade, depth-first. `n` bounds its decrements. -/
def Region.cascade (g : Region) (work : List (BitVec 128)) : Nat → Region
  | 0 => { g with pending := work }
  | n + 1 =>
    match work with
    | [] => { g with pending := [] }
    | p :: rest =>
      let (g', cs) := g.dec p
      Region.cascade g' (cs ++ rest) n

/-- R285, R286: every decrement that waits is made before a later operation on the region. -/
def Region.settle (g : Region) : Region :=
  if g.pending.isEmpty then g else g.cascade g.pending (9 * g.lines.length + g.pending.length + 1)

/-- Where the bytes of a line stand: in the LINES × 160 bytes of its die's store, at a word that the spec leaves open (R272;
log 64, DESIGN CHOICE). -/
def pipLineAt (s : State) (r : Nat) (g : Region) (p : BitVec 128) : Nat :=
  let w := (s.d.pscfg.toList.getD g.home 0).toNat
  g.home * 2 ^ 40 + w / 2 ^ 30 % 2 ^ 8 * 2 ^ 30 + 32 * (Config.lineWord r p % (5 * (w % 2 ^ 28) - 3))
/-- R374: a read of the line meets an uncorrectable word. -/
def lineBad (s : State) (r : Nat) (g : Region) (p : BitVec 128) : Bool := poisoned s.d.poison (pipLineAt s r g p) 128

/-! ### Lookup or allocation (R276) -/

inductive PinRes where
  | ok (p : BitVec 128) (fresh moved : Bool) (g : Region)
  | unread
  | full
  | collide (name : Nat)
  deriving DecidableEq, Repr

/-- Lines of a die's store, staged ones among them, every decrement that waits made (R285, R286). -/
def storeLines (s : State) (die : Nat) : Nat :=
  (s.d.regions.map (fun (_, g) => if g.home == die then g.settle.lines.length + g.staged.length else 0)).foldl (· + ·) 0
def storeFull (s : State) (die : Nat) : Bool :=
  decide ((s.d.pscfg.toList.getD die 0).toNat % 2 ^ 28 ≤ storeLines s die)

/-- R276: the line under the name that holds the contents, or a line of its own; `unread` where a line to compare with has an
uncorrectable word (R374; log 64, DESIGN CHOICE). -/
def pinLine (s : State) (r : Nat) (g : Region) (inner : Bool) (data : BitVec 1024) : PinRes :=
  let name := pipName g.key inner data
  let first := if name = 0 then 1 else 0
  let idx := (List.range 256).drop first
  match idx.find? (fun j => g.lines.any (fun l =>
      l.pip == pipOf name j && l.inner == inner && (l.data == data || lineBad s r g l.pip))) with
  | some j => if lineBad s r g (pipOf name j) then .unread else .ok (pipOf name j) false false (g.inc (pipOf name j))
  | none =>
    if (g.quota != 0 && decide (g.quota.toNat ≤ g.lines.length)) || storeFull s g.home then .full
    else match idx.find? (fun j => !g.lines.any (fun l => l.pip == pipOf name j)) with
      | none => .collide name
      | some j =>
        let moved := j != first
        .ok (pipOf name j) true moved
          { g with lines := g.lines ++ [⟨pipOf name j, inner, data, 1⟩]
                   collides := if moved && g.collides != 0xFFFFFFFF then g.collides + 1 else g.collides }

/-! ### Regions (R270) -/

def regionGet (s : State) (r : Nat) : Region := tabGet s.d.regions r Region.zero
def regionPut (s : State) (r : Nat) (g : Region) : State := { s with d := { s.d with regions := tabSet s.d.regions r g } }

/-- The region that a region address names, with its cascade made, and the state after the walk. -/
def regionAt (s : State) (acc : Acc) (va : Word) : Except Flt (Nat × Region × State) :=
  match translate s s.h acc va 1 with
  | .error f => .error f
  | .ok (pa, s1) =>
    let r := pa / 2 ^ 16 % 256
    let g := regionGet s1 r
    if pa / 2 ^ 24 % 2 ^ 28 != 0 || !g.en || g.context != s.h.ctxid then .error ⟨11, va, 3⟩
    else .ok (r, g.settle, s1)

/-- One pip operation on a region: `k` takes its number and itself. A fault leaves the registers as `s0`, before the strip of a
bound source was read, has them (R285). -/
def pipOp (s0 s : State) (acc : Acc) (b : Reg) (k : Nat → Region → State → Res) : Res :=
  match regionAt s acc (xGet s.h b) with
  | .error f => trap s0 (memTrap f none)
  | .ok (r, g, s1) => k r g (countDie s1 g.home 0x32 1)

/-! ### Registers -/

/-- R273: the pip in a register pair; field 0 is the null pip. -/
def pipGet (h : Hart) (r : Reg) : BitVec 128 := if r = 0 then 0 else xGet h (r + 1) ++ xGet h r
def pipPut (s : State) (r : Reg) (p : BitVec 128) : State :=
  if r = 0 then s else putX (putX s r (p.setWidth 64)) (r + 1) (p.extractLsb' 64 64)

/-- Bytes 0 to 127 of a vector source, the state at its issue (R267), and the one in which it has been read (R28). -/
def lineSource (s : State) (a : Reg) : Except Trap (BitVec 1024 × State × (State → State)) :=
  let p := vPhys s.h a.toNat
  match needStrip s p 0 with
  | .error t => .error t
  | .ok s1 =>
    match bindingOf s1.h p with
    | some b =>
      let st := (b.queue.head?.map (fun q => q.elems)).getD []
      .ok (BitVec.ofNat 1024 (stripImage b.et st), setH s1 (lowerVl s1.h p 0), fun s => popStrip s p)
    | none =>
      if isDead s1.h p then .ok (0, s1, fun s => countEv (setH s (setDeadRead s.h)) 0x0B 1)
      else .ok (BitVec.ofNat 1024 (imgGet (vImg s1.h p) 0 128), s1, id)

/-! ### The instructions (R280 to R284) -/

/-- R374: the machine check of a read of a line in which a word is uncorrectable. -/
def lineCheck (s : State) (b : Reg) : Res := trap s (memTrap ⟨21, xGet s.h b, 2⟩ none)

/-- The end of a pin: the pip, or its fault. -/
def pinEnd (s : State) (s0 : State) (r : Nat) (d b : Reg) (res : PinRes) (k : Region → Bool → State → State) : Res :=
  match res with
  | .unread => lineCheck s0 b
  | .full => trap s0 (memTrap ⟨11, xGet s0.h b, 2⟩ none)
  | .collide name => trap s0 { code := 16, val := xGet s0.h b, val2 := BitVec.ofNat 64 (name * 256) }
  | .ok p fresh moved g =>
    let s1 := if moved then countDie s g.home 0x34 1 else s
    let s2 := k g fresh (regionPut s1 r g)
    next (pipPut s2 d p)

/-- Counts a line whose count saturates (R277). -/
def countSat (s : State) (g : Region) (p : BitVec 128) : State := if g.saturates p then countDie s g.home 0x33 1 else s

def execPpin (d a b : Reg) (s : State) : Res :=
  if streamsHeld s [vPhys s.h a.toNat] then stall (countEv s 0x14 1)
  else match lineSource s a with
  | .error t => trap s t
  | .ok (data, s1, used) =>
    pipOp s s1 .pipW b (fun r g s2 =>
      let res := pinLine s2 r g false data
      let s3 := match res with | .ok p false _ _ => countSat s2 g p | _ => s2
      pinEnd s3 s r d b res (fun _ _ s => used s))

/-- References to the children, in ascending order of their slots. -/
def incAll (s : State) (g : Region) : List (BitVec 128) → Region × State
  | [] => (g, s)
  | p :: rest => incAll (countSat s g p) (g.inc p) rest

def execPnode (d a b : Reg) (s : State) : Res :=
  if streamsHeld s [vPhys s.h a.toNat] then stall (countEv s 0x14 1)
  else match lineSource s a with
  | .error t => trap s t
  | .ok (data, s1, used) =>
    pipOp s s1 .pipW b (fun r g s2 =>
      let cs := childrenOf data
      if cs.any (fun c => (g.find c).isNone) then trap s (memTrap ⟨11, xGet s.h b, 1⟩ none)
      else
        let res := pinLine s2 r g true data
        let s3 := match res with | .ok p false _ _ => countSat s2 g p | _ => s2
        pinEnd s3 s r d b res (fun g fresh s =>
          let s := used s
          if fresh then
            let (g', s') := incAll s g cs
            regionPut s' r g'
          else s))

def execPread (d a b : Reg) (s : State) : Res :=
  let p := vPhys s.h d.toNat
  if (bindingOf s.h p).isSome then .next (illegalAt s (.pread d a b) 2)
  else
    pipOp s s .pipR b (fun r g s1 =>
      let pip := pipGet s.h a
      let put (data : Nat) : Res :=
        let s1 := regionPut s1 r g
        let h := s1.h
        next (setH s1 (vPutImg h p (imgPut (if isDead h p then 0 else vImg h p) 0 128 data)))
      match g.find pip with
      | some l => if lineBad s1 r g pip then lineCheck s b else put l.data.toNat
      | none => if pip = 0 then put 0 else trap s (memTrap ⟨11, xGet s.h b, 1⟩ none))

def execPinc (d a b : Reg) (s : State) : Res :=
  pipOp s s .pipW b (fun r g s1 =>
    let p := pipGet s.h a
    match g.find p with
    | none => nextX (regionPut s1 r g) d (-1)
    | some l =>
      let s2 := countSat s1 g p
      nextX (regionPut s2 r (g.inc p)) d (BitVec.ofNat 64 (Nat.min (l.count + 1) pipSat)))

def execPdec (d a b : Reg) (s : State) : Res :=
  pipOp s s .pipW b (fun r g s1 =>
    match g.find (pipGet s.h a) with
    | none => nextX (regionPut s1 r g) d (-1)
    | some l =>
      let (g', cs) := g.dec l.pip
      nextX (regionPut s1 r { g' with pending := cs }) d
        (BitVec.ofNat 64 (if l.count == pipSat then pipSat else l.count - 1)))

/-- R284. -/
def execPswap (d a b c : Reg) (disp : BitVec 32) (s : State) : Res :=
  let ea := xGet s.h a + disp.signExtend 64
  gAtomic s ea 16 (fun p sr sw =>
    if peerBase ≤ p then trap s (memTrap ⟨11, ea, 6⟩ none)
    else
      let old := BitVec.ofNat 128 (memRead sr.mem p 16)
      if old == pipGet s.h b then next (pipPut { sw with mem := memWrite sw.mem p 16 (pipGet s.h c).toNat } d old)
      else next (pipPut sr d old))

/-- R278: the cascade of a region. -/
def execPipCascade (r : Nat) (s : State) : Res :=
  let g := regionGet s r
  if g.pending.isEmpty then .fault .notEnabled else .next (regionPut s r g.settle)

end Sys2Proof.Machine
end

