-- ==== Sys2Proof/Machine/VExec.lean ====
section
/-! DEFINITION. The vector and weight instructions: which instruction is which VOp, and their meanings, one over the
other. -/

namespace Sys2Proof.Machine

/-- The vector instruction that an instruction is. -/
def vopOf : Instr → Option VOp
  | .wcmp cond d a b k => some (opWcmp cond d a b k)
  | .wramp d a b c k => some (opWramp d a b c k)
  | .wrampg d a b c k => some (opWrampg d a b c k)
  | .wmul d a b k => some (opWmul d a b k)
  | .wadd d a b k => some (opWadd d a b k)
  | .wsub d a b k => some (opWsub d a b k)
  | .wnot d a k => some (opWnot d a k)
  | .wmin d a b k => some (opWmin d a b k)
  | .wmax d a b k => some (opWmax d a b k)
  | .wmov d a k => some (opWmov d a k)
  | .wsplat d b k => some (opWsplat d b k)
  | .wfromv d a k => some (opWfromv d a k)
  | .wtov d a k => some (opWtov d a k)
  | .wbound d a b k => some (opWbound d a b k)
  | .wany d k => some (opWany d k)
  | .vjoin d a b c k => some (opVjoin d a b c k)
  | .vjoingw d a b c k => some (opVjoingw d a b c k)
  | .vadd d a b k => some (opVadd d a b k)
  | .vsub d a b k => some (opVsub d a b k)
  | .vmul d a b k => some (opVmul d a b k)
  | .vfma d a b c k => some (opVfma d a b c k)
  | .vfms d a b c k => some (opVfms d a b c k)
  | .vfnma d a b c k => some (opVfnma d a b c k)
  | .vdiv d a b k => some (opVdiv d a b k)
  | .vsqrt d a k => some (opVsqrt d a k)
  | .vrsqrt d a k => some (opVrsqrt d a k)
  | .vrcp d a k => some (opVrcp d a k)
  | .vexp2 d a k => some (opVexp2 d a k)
  | .vlog2 d a k => some (opVlog2 d a k)
  | .vmin d a b k => some (opVmin d a b k)
  | .vmax d a b k => some (opVmax d a b k)
  | .vabs d a k => some (opVabs d a k)
  | .vneg d a k => some (opVneg d a k)
  | .vcsgn d a b k => some (opVcsgn d a b k)
  | .vclass d a k => some (opVclass d a k)
  | .vclamp d a b c k => some (opVclamp d a b c k)
  | .vwmul d a b k => some (opVwmul d a b k)
  | .vwfma d a b c k => some (opVwfma d a b c k)
  | .vcvt d a k => some (opVcvt d a k)
  | .vcvtSat d a k => some (opVcvtSat d a k)
  | .vand d a b k => some (opVand d a b k)
  | .vor d a b k => some (opVor d a b k)
  | .vxor d a b k => some (opVxor d a b k)
  | .vandn d a b k => some (opVandn d a b k)
  | .vshl d a b k => some (opVshl d a b k)
  | .vshr d a b k => some (opVshr d a b k)
  | .vsra d a b k => some (opVsra d a b k)
  | .vaddsat d a b k => some (opVaddsat d a b k)
  | .vsubsat d a b k => some (opVsubsat d a b k)
  | .vmulh d a b k => some (opVmulh d a b k)
  | .vavg d a b k => some (opVavg d a b k)
  | .vcmp cond d a b k => some (opVcmp cond d a b k)
  | .vsel d a b c k => some (opVsel d a b c k)
  | .vredsum d a k => some (opVredsum d a k)
  | .vredmax d a k => some (opVredmax d a k)
  | .vredmin d a k => some (opVredmin d a k)
  | .vscanAdd d a k => some (opVscanAdd d a k)
  | .vscanMax d a k => some (opVscanMax d a k)
  | .vscanMin d a k => some (opVscanMin d a k)
  | .vscanXadd d a k => some (opVscanXadd d a k)
  | .vscanXmax d a k => some (opVscanXmax d a k)
  | .vscanXmin d a k => some (opVscanXmin d a k)
  | .vfirst d k => some (opVfirst d k)
  | .vcount d k => some (opVcount d k)
  | .vmv d a k => some (opVmv d a k)
  | .vsplat d b k => some (opVsplat d b k)
  | .vid d k => some (opVid d k)
  | .vslup d a b k => some (opVslup d a b k)
  | .vsldn d a b k => some (opVsldn d a b k)
  | .vperm d a b k => some (opVperm d a b k)
  | .vcompress d a c k => some (opVcompress d a c k)
  | .vexpand d a k => some (opVexpand d a k)
  | .vrev d a k => some (opVrev d a k)
  | .vpack d a k => some (opVpack d a k)
  | .vunpack d a k => some (opVunpack d a k)
  | .vrand d a b k => some (opVrand d a b k)
  | .vins d a b k => some (opVins d a b k)
  | .vext d a b k => some (opVext d a b k)
  | .vtopk d a seg cnt k => some (opVtopk d a seg cnt k)
  | .vld d a disp k => some (opVld d a disp k)
  | .vlds d a b disp k => some (opVlds d a b disp k)
  | .vldx d a b disp k => some (opVldx d a b disp k)
  | .vldff d a disp k => some (opVldff d a disp k)
  | .vst c a disp k => some (opVst c a disp k)
  | .vsts c a b disp k => some (opVsts c a b disp k)
  | .vstx c a b disp k => some (opVstx c a b disp k)
  | .vstu c a disp k => some (opVstu c a disp k)
  | .vamoSwap d a b c disp k ord sc => some (opVamoSwap d a b c disp k ord sc)
  | .vamoAdd d a b c disp k ord sc => some (opVamoAdd d a b c disp k ord sc)
  | .vamoAnd d a b c disp k ord sc => some (opVamoAnd d a b c disp k ord sc)
  | .vamoOr d a b c disp k ord sc => some (opVamoOr d a b c disp k ord sc)
  | .vamoXor d a b c disp k ord sc => some (opVamoXor d a b c disp k ord sc)
  | .vamoMin d a b c disp k ord sc => some (opVamoMin d a b c disp k ord sc)
  | .vamoMax d a b c disp k ord sc => some (opVamoMax d a b c disp k ord sc)
  | .vamoBlend d a b c disp k ord sc => some (opVamoBlend d a b c disp k ord sc)
  | _ => none

def execWcmp (cond : Cond) (d a : Reg) (b : VSrc) (k : VCtl) (s : State) : Res := runVec vopOf (opWcmp cond d a b k) s
def execWramp (d a : Reg) (b : VSrc) (c : Reg) (k : VCtl) (s : State) : Res := runVec vopOf (opWramp d a b c k) s
def execWrampg (d a b c : Reg) (k : VCtl) (s : State) : Res := runVec vopOf (opWrampg d a b c k) s
def execWmul (d a : Reg) (b : VSrc) (k : VCtl) (s : State) : Res := runVec vopOf (opWmul d a b k) s
def execWadd (d a : Reg) (b : VSrc) (k : VCtl) (s : State) : Res := runVec vopOf (opWadd d a b k) s
def execWsub (d a : Reg) (b : VSrc) (k : VCtl) (s : State) : Res := runVec vopOf (opWsub d a b k) s
def execWnot (d a : Reg) (k : VCtl) (s : State) : Res := runVec vopOf (opWnot d a k) s
def execWmin (d a : Reg) (b : VSrc) (k : VCtl) (s : State) : Res := runVec vopOf (opWmin d a b k) s
def execWmax (d a : Reg) (b : VSrc) (k : VCtl) (s : State) : Res := runVec vopOf (opWmax d a b k) s
def execWmov (d a : Reg) (k : VCtl) (s : State) : Res := runVec vopOf (opWmov d a k) s
def execWsplat (d : Reg) (b : VSrc) (k : VCtl) (s : State) : Res := runVec vopOf (opWsplat d b k) s
def execWfromv (d a : Reg) (k : VCtl) (s : State) : Res := runVec vopOf (opWfromv d a k) s
def execWtov (d a : Reg) (k : VCtl) (s : State) : Res := runVec vopOf (opWtov d a k) s
def execWbound (d a : Reg) (b : VSrc) (k : VCtl) (s : State) : Res := runVec vopOf (opWbound d a b k) s
def execWany (d : Reg) (k : VCtl) (s : State) : Res := runVec vopOf (opWany d k) s
def execVjoin (d a : Reg) (b : VSrc) (c : Reg) (k : VCtl) (s : State) : Res := runVec vopOf (opVjoin d a b c k) s
def execVjoingw (d a b c : Reg) (k : VCtl) (s : State) : Res := runVec vopOf (opVjoingw d a b c k) s
def execVadd (d a : Reg) (b : VSrc) (k : VCtl) (s : State) : Res := runVec vopOf (opVadd d a b k) s
def execVsub (d a : Reg) (b : VSrc) (k : VCtl) (s : State) : Res := runVec vopOf (opVsub d a b k) s
def execVmul (d a : Reg) (b : VSrc) (k : VCtl) (s : State) : Res := runVec vopOf (opVmul d a b k) s
def execVfma (d a : Reg) (b : VSrc) (c : Reg) (k : VCtl) (s : State) : Res := runVec vopOf (opVfma d a b c k) s
def execVfms (d a : Reg) (b : VSrc) (c : Reg) (k : VCtl) (s : State) : Res := runVec vopOf (opVfms d a b c k) s
def execVfnma (d a : Reg) (b : VSrc) (c : Reg) (k : VCtl) (s : State) : Res := runVec vopOf (opVfnma d a b c k) s
def execVdiv (d a : Reg) (b : VSrc) (k : VCtl) (s : State) : Res := runVec vopOf (opVdiv d a b k) s
def execVsqrt (d a : Reg) (k : VCtl) (s : State) : Res := runVec vopOf (opVsqrt d a k) s
def execVrsqrt (d a : Reg) (k : VCtl) (s : State) : Res := runVec vopOf (opVrsqrt d a k) s
def execVrcp (d a : Reg) (k : VCtl) (s : State) : Res := runVec vopOf (opVrcp d a k) s
def execVexp2 (d a : Reg) (k : VCtl) (s : State) : Res := runVec vopOf (opVexp2 d a k) s
def execVlog2 (d a : Reg) (k : VCtl) (s : State) : Res := runVec vopOf (opVlog2 d a k) s
def execVmin (d a : Reg) (b : VSrc) (k : VCtl) (s : State) : Res := runVec vopOf (opVmin d a b k) s
def execVmax (d a : Reg) (b : VSrc) (k : VCtl) (s : State) : Res := runVec vopOf (opVmax d a b k) s
def execVabs (d a : Reg) (k : VCtl) (s : State) : Res := runVec vopOf (opVabs d a k) s
def execVneg (d a : Reg) (k : VCtl) (s : State) : Res := runVec vopOf (opVneg d a k) s
def execVcsgn (d a : Reg) (b : VSrc) (k : VCtl) (s : State) : Res := runVec vopOf (opVcsgn d a b k) s
def execVclass (d a : Reg) (k : VCtl) (s : State) : Res := runVec vopOf (opVclass d a k) s
def execVclamp (d a : Reg) (b : VSrc) (c : Reg) (k : VCtl) (s : State) : Res := runVec vopOf (opVclamp d a b c k) s
def execVwmul (d a : Reg) (b : VSrc) (k : VCtl) (s : State) : Res := runVec vopOf (opVwmul d a b k) s
def execVwfma (d a : Reg) (b : VSrc) (c : Reg) (k : VCtl) (s : State) : Res := runVec vopOf (opVwfma d a b c k) s
def execVcvt (d a : Reg) (k : VCtl) (s : State) : Res := runVec vopOf (opVcvt d a k) s
def execVcvtSat (d a : Reg) (k : VCtl) (s : State) : Res := runVec vopOf (opVcvtSat d a k) s
def execVand (d a : Reg) (b : VSrc) (k : VCtl) (s : State) : Res := runVec vopOf (opVand d a b k) s
def execVor (d a : Reg) (b : VSrc) (k : VCtl) (s : State) : Res := runVec vopOf (opVor d a b k) s
def execVxor (d a : Reg) (b : VSrc) (k : VCtl) (s : State) : Res := runVec vopOf (opVxor d a b k) s
def execVandn (d a : Reg) (b : VSrc) (k : VCtl) (s : State) : Res := runVec vopOf (opVandn d a b k) s
def execVshl (d a : Reg) (b : VSrc) (k : VCtl) (s : State) : Res := runVec vopOf (opVshl d a b k) s
def execVshr (d a : Reg) (b : VSrc) (k : VCtl) (s : State) : Res := runVec vopOf (opVshr d a b k) s
def execVsra (d a : Reg) (b : VSrc) (k : VCtl) (s : State) : Res := runVec vopOf (opVsra d a b k) s
def execVaddsat (d a : Reg) (b : VSrc) (k : VCtl) (s : State) : Res := runVec vopOf (opVaddsat d a b k) s
def execVsubsat (d a : Reg) (b : VSrc) (k : VCtl) (s : State) : Res := runVec vopOf (opVsubsat d a b k) s
def execVmulh (d a : Reg) (b : VSrc) (k : VCtl) (s : State) : Res := runVec vopOf (opVmulh d a b k) s
def execVavg (d a : Reg) (b : VSrc) (k : VCtl) (s : State) : Res := runVec vopOf (opVavg d a b k) s
def execVcmp (cond : Cond) (d a : Reg) (b : VSrc) (k : VCtl) (s : State) : Res := runVec vopOf (opVcmp cond d a b k) s
def execVsel (d a : Reg) (b : VSrc) (c : Reg) (k : VCtl) (s : State) : Res := runVec vopOf (opVsel d a b c k) s
def execVredsum (d a : Reg) (k : VCtl) (s : State) : Res := runVec vopOf (opVredsum d a k) s
def execVredmax (d a : Reg) (k : VCtl) (s : State) : Res := runVec vopOf (opVredmax d a k) s
def execVredmin (d a : Reg) (k : VCtl) (s : State) : Res := runVec vopOf (opVredmin d a k) s
def execVscanAdd (d a : Reg) (k : VCtl) (s : State) : Res := runVec vopOf (opVscanAdd d a k) s
def execVscanMax (d a : Reg) (k : VCtl) (s : State) : Res := runVec vopOf (opVscanMax d a k) s
def execVscanMin (d a : Reg) (k : VCtl) (s : State) : Res := runVec vopOf (opVscanMin d a k) s
def execVscanXadd (d a : Reg) (k : VCtl) (s : State) : Res := runVec vopOf (opVscanXadd d a k) s
def execVscanXmax (d a : Reg) (k : VCtl) (s : State) : Res := runVec vopOf (opVscanXmax d a k) s
def execVscanXmin (d a : Reg) (k : VCtl) (s : State) : Res := runVec vopOf (opVscanXmin d a k) s
def execVfirst (d : Reg) (k : VCtl) (s : State) : Res := runVec vopOf (opVfirst d k) s
def execVcount (d : Reg) (k : VCtl) (s : State) : Res := runVec vopOf (opVcount d k) s
def execVmv (d a : Reg) (k : VCtl) (s : State) : Res := runVec vopOf (opVmv d a k) s
def execVsplat (d : Reg) (b : VSrc) (k : VCtl) (s : State) : Res := runVec vopOf (opVsplat d b k) s
def execVid (d : Reg) (k : VCtl) (s : State) : Res := runVec vopOf (opVid d k) s
def execVslup (d a : Reg) (b : VSrc) (k : VCtl) (s : State) : Res := runVec vopOf (opVslup d a b k) s
def execVsldn (d a : Reg) (b : VSrc) (k : VCtl) (s : State) : Res := runVec vopOf (opVsldn d a b k) s
def execVperm (d a b : Reg) (k : VCtl) (s : State) : Res := runVec vopOf (opVperm d a b k) s
def execVcompress (d a c : Reg) (k : VCtl) (s : State) : Res := runVec vopOf (opVcompress d a c k) s
def execVexpand (d a : Reg) (k : VCtl) (s : State) : Res := runVec vopOf (opVexpand d a k) s
def execVrev (d a : Reg) (k : VCtl) (s : State) : Res := runVec vopOf (opVrev d a k) s
def execVpack (d a : Reg) (k : VCtl) (s : State) : Res := runVec vopOf (opVpack d a k) s
def execVunpack (d a : Reg) (k : VCtl) (s : State) : Res := runVec vopOf (opVunpack d a k) s
def execVrand (d a : Reg) (b : VSrc) (k : VCtl) (s : State) : Res := runVec vopOf (opVrand d a b k) s
def execVins (d a : Reg) (b : VSrc) (k : VCtl) (s : State) : Res := runVec vopOf (opVins d a b k) s
def execVext (d a : Reg) (b : VSrc) (k : VCtl) (s : State) : Res := runVec vopOf (opVext d a b k) s
def execVtopk (d a : Reg) (seg cnt : BitVec 16) (k : VCtl) (s : State) : Res := runVec vopOf (opVtopk d a seg cnt k) s
def execVld (d a : Reg) (disp : BitVec 32) (k : VCtl) (s : State) : Res := runVec vopOf (opVld d a disp k) s
def execVlds (d a b : Reg) (disp : BitVec 32) (k : VCtl) (s : State) : Res := runVec vopOf (opVlds d a b disp k) s
def execVldx (d a b : Reg) (disp : BitVec 32) (k : VCtl) (s : State) : Res := runVec vopOf (opVldx d a b disp k) s
def execVldff (d a : Reg) (disp : BitVec 32) (k : VCtl) (s : State) : Res := runVec vopOf (opVldff d a disp k) s
def execVst (c a : Reg) (disp : BitVec 32) (k : VCtl) (s : State) : Res := runVec vopOf (opVst c a disp k) s
def execVsts (c a b : Reg) (disp : BitVec 32) (k : VCtl) (s : State) : Res := runVec vopOf (opVsts c a b disp k) s
def execVstx (c a b : Reg) (disp : BitVec 32) (k : VCtl) (s : State) : Res := runVec vopOf (opVstx c a b disp k) s
def execVstu (c a : Reg) (disp : BitVec 32) (k : VCtl) (s : State) : Res := runVec vopOf (opVstu c a disp k) s
def execVamoSwap (d a b c : Reg) (disp : BitVec 32) (k : VCtl) (ord : Ord) (sc : Scope) (s : State) : Res :=
  runVec vopOf (opVamoSwap d a b c disp k ord sc) s
def execVamoAdd (d a b c : Reg) (disp : BitVec 32) (k : VCtl) (ord : Ord) (sc : Scope) (s : State) : Res :=
  runVec vopOf (opVamoAdd d a b c disp k ord sc) s
def execVamoAnd (d a b c : Reg) (disp : BitVec 32) (k : VCtl) (ord : Ord) (sc : Scope) (s : State) : Res :=
  runVec vopOf (opVamoAnd d a b c disp k ord sc) s
def execVamoOr (d a b c : Reg) (disp : BitVec 32) (k : VCtl) (ord : Ord) (sc : Scope) (s : State) : Res :=
  runVec vopOf (opVamoOr d a b c disp k ord sc) s
def execVamoXor (d a b c : Reg) (disp : BitVec 32) (k : VCtl) (ord : Ord) (sc : Scope) (s : State) : Res :=
  runVec vopOf (opVamoXor d a b c disp k ord sc) s
def execVamoMin (d a b c : Reg) (disp : BitVec 32) (k : VCtl) (ord : Ord) (sc : Scope) (s : State) : Res :=
  runVec vopOf (opVamoMin d a b c disp k ord sc) s
def execVamoMax (d a b c : Reg) (disp : BitVec 32) (k : VCtl) (ord : Ord) (sc : Scope) (s : State) : Res :=
  runVec vopOf (opVamoMax d a b c disp k ord sc) s
def execVamoBlend (d a b c : Reg) (disp : BitVec 32) (k : VCtl) (ord : Ord) (sc : Scope) (s : State) : Res :=
  runVec vopOf (opVamoBlend d a b c disp k ord sc) s

end Sys2Proof.Machine
end

