-- ==== Sys2Proof/Machine/Engine.lean ====
section
/-! DEFINITION. What the engines share (R293 to R305, R345, R346): accepting a command, its units, page faults and other
faults of its operands, its end. -/

namespace Sys2Proof.Machine

/-! ### Operand accesses -/

/-- The hart as its command sees it: in the mode in force at issue. -/
def engHart (h : Hart) (c : Cmd) : Hart := { h with mode := if c.bankS then .S else .U }

/-- The parts of a run that an engine places one by one: units of 8 bytes of the on-chip map, pages elsewhere. -/
def engParts (sp : Space) (a : Word) (n : Nat) : List (Word × Nat) :=
  if sp == .N then
    let f := Nat.min n (8 - a.toNat % 8)
    (List.range (1 + (n - f + 7) / 8)).filterMap (fun j =>
      let o := if j = 0 then 0 else f + (j - 1) * 8
      let len := if j = 0 then f else Nat.min 8 (n - o)
      if len = 0 then none else some (a + BitVec.ofNat 64 o, len))
  else chunks a n

/-- The places of a run; `normal` refuses a page of another KIND (R311). -/
def engPlace (s : State) (h : Hart) (sp : Space) (acc : Acc) (a : Word) (n : Nat) (normal : Bool) :
    Except Flt (List (Loc × Nat) × State) :=
  match placeParts h sp acc s (engParts sp a n) with
  | .error f => .error f
  | .ok (ls, s) =>
    if normal && sp == .G && ls.any (fun (l, _) => match l with | .mem p => decide (hostBase ≤ p) | _ => false) then
      .error ⟨11, a, 6⟩
    else .ok (ls, s)

def engRead (s : State) (h : Hart) (sp : Space) (a : Word) (n : Nat) (normal : Bool) : Except Flt (Nat × State) :=
  match engPlace s h sp .load a n normal with
  | .error f => .error f
  | .ok (ls, s) => .ok (locsRead s ls, s)

/-- Every byte is placed before the first is written. -/
def engWrite (s : State) (h : Hart) (sp : Space) (a : Word) (n v : Nat) (normal : Bool) : Except Flt State :=
  match engPlace s h sp .store a n normal with
  | .error f => .error f
  | .ok (ls, s) => .ok (locsWrite s ls v)

/-! ### Accepting a command (R296, R297, R302) -/

/-- The next number in the order of acceptance. -/
def nextOrd (h : Hart) : Nat :=
  Nat.max ((h.cmds.map (·.ord)).foldl Nat.max 0) ((h.pend.map (·.ord)).foldl Nat.max 0) + 1

/-- The lowest free interlock entry. -/
def freeEntry (h : Hart) : Option Nat :=
  (List.range Config.interlockEntries).find? (fun e => !h.cmds.any (fun c => c.entry == e))

def newCmd (s : State) (i : Instr) (ops : List Word) (ranges : List Range) : Cmd :=
  { entry := 0, instr := i, pc := s.h.pc, bankS := s.h.mode == .S, unit := 0, ops := ops, cfg := s.h.mat, st := .notBegun
    status := 0, flags := 0, efr := s.h.efr, efrUsed := false, faultVa := 0, stamp := BitVec.ofNat 32 s.clk, ranges := ranges
    home := ⟨s.h.gid, s.h.slabs, s.h.tiles⟩, count := 0, ord := nextOrd s.h, acc := s.clk, rm := .rne, conv := [], walk := [] }

/-- A command is accepted, one without units as one that has ended; a full table stalls it. -/
def accept (s : State) (c : Cmd) : Res :=
  match freeEntry s.h with
  | none => stall (countEv s 0x14 1)
  | some e => next (countEv (setH s { s.h with cmds := s.h.cmds ++ [{ c with entry := e }] }) 0x13 1)

/-- A register value outside its limits (R294). -/
def limitTrap (s : State) (i : Instr) : Res := .next (illegalAt s i 2)

/-- Ops of R345: the values of A, A+1, B, B+1, C, C+1. -/
def Cmd.op (c : Cmd) (k : Nat) : Word := c.ops.getD k 0

/-! ### Which command may go on (R303, R314, R324) -/

inductive EngKind where
  | copy | matrix | fibre | dispatch
  deriving DecidableEq, Repr

/-- R293. -/
def engOf : Instr → Option EngKind
  | .cpy .. | .cpys .. | .cfill .. | .pout .. => some .copy
  | .mzero .. | .mmul .. | .mmulc .. | .mout .. => some .matrix
  | .fisect .. | .funion .. | .fsplit .. | .fcount .. => some .fibre
  | .dput .. | .dclose .. => some .dispatch
  | _ => none

def chunked : Instr → Bool
  | .mmul .. | .mmulc .. => true
  | _ => false

/-- A command of a hart that waits for no other of that hart. -/
def clearToRun (h : Hart) (c : Cmd) : Bool :=
  let before := h.cmds.takeWhile (fun d => d.entry != c.entry)
  (c.st == .notBegun || c.st == .running) &&
    !before.any (fun d => c.ranges.any (fun r => d.ranges.any (Range.meet r))) &&
    (match c.instr with
     | .dclose .. => !before.any (fun d => d.st != .ended && (match d.instr with | .dput .. => true | _ => false))
     | _ => true) &&
    (engOf c.instr != some .matrix || !before.any (fun d => engOf d.instr == some .matrix && d.st != .ended))

/-- The matrix commands of a core that can go on, one of each hart, with its place. -/
def matWaiting (s : State) (core : Nat) : List (Nat × Cmd) :=
  ((s.h :: s.others).filter (fun h => hartExists h && coreOf h.gid == core)).filterMap (fun h =>
    (h.cmds.find? (fun c => engOf c.instr == some .matrix && clearToRun h c)).map (fun c => (h.gid, c)))

/-- The one of a list that goes first by a key. -/
def firstBy (key : Nat × Cmd → Nat) : List (Nat × Cmd) → Option (Nat × Cmd)
  | [] => none
  | x :: xs =>
    match firstBy key xs with
    | some y => if key x ≤ key y then some x else some y
    | none => some x

/-- R314: the hart whose command the matrix engine of a core performs: the one in progress, but after 64 chunks the next
waiting hart in ascending order, cyclically; where none is in progress, the first accepted. -/
def matrixNext (s : State) (core : Nat) : Option Nat :=
  let ws := matWaiting s core
  let cur := tabGet s.d.matCur core (core * 8)
  let next := match ws.find? (fun w => w.1 == cur && w.2.st == .running) with
    | some w =>
      if chunked w.2.instr && w.2.unit % 64 == 0 then
        firstBy (fun x => (hartNo x.1 + 7 - hartNo cur) % 8) (ws.filter (fun x => x.1 != cur)) |>.or (some w)
      else some w
    | none => firstBy (fun x => x.2.acc) ws
  next.map (·.1)

/-- A command of the hart in front may perform its next unit. -/
def mayRun (s : State) (c : Cmd) : Bool :=
  clearToRun s.h c && (engOf c.instr != some .matrix || matrixNext s (coreOf s.h.gid) == some s.h.gid)

/-- The matrix engine of the core performs a command of the hart in front. -/
def noteMatrix (s : State) (c : Cmd) : State :=
  if engOf c.instr == some .matrix then
    { s with d := { s.d with matCur := tabSet s.d.matCur (coreOf s.h.gid) s.h.gid } }
  else s

/-! ### A unit and what can stop it (R298, R305) -/

def putCmd (s : State) (c : Cmd) : State :=
  setH s { s.h with cmds := s.h.cmds.map (fun d => if d.entry == c.entry then c else d) }

/-- A unit done: the state and the command, which may have ended before the unit with a status. -/
abbrev UnitRes := Except Flt (State × Cmd)

/-- The unit is performed; the command ends after the last of `total`. -/
def unitDone (s : State) (c : Cmd) (total : Nat) : UnitRes :=
  .ok (s, { c with unit := c.unit + 1, st := if total ≤ c.unit + 1 then .ended else .running })
/-- The command ends before the unit. -/
def unitStop (s : State) (c : Cmd) (status : Nat) : UnitRes := .ok (s, { c with st := .ended, status := status })

def isPageFault (f : Flt) : Bool := 7 ≤ f.code && f.code ≤ 10
/-- R298: the status of a fault that is no page fault. -/
def statusOf (f : Flt) : Nat := match f.code with | 12 => 3 | 21 => 7 | _ => 2

/-- R305, R339, R340, R343: the command is suspended; its record enters the queue and its trap waits. -/
def suspend (s : State) (c : Cmd) (f : Flt) : State :=
  let rec_ : Frq :=
    { pc := c.pc, va := f.va, elem := BitVec.ofNat 32 c.unit, weight := 0x8000, kind := if f.code == 9 then 5 else 4
      cause := f.code, gid := s.h.gid, ovf := false, seq := c.stamp }
  let (s1, ovf) := enterFrq s [rec_] false
  let p : Pend :=
    { code := f.code, val := f.va, val2 := BitVec.ofNat 64 (c.unit % 2 ^ 32 + f.sub * 2 ^ 32 + (c.entry + 1) * 2 ^ 48)
      e := true, ovf := ovf, ord := c.ord, cmd := some c }
  let s2 := putCmd s1 { c with st := .suspended, faultVa := f.va }
  setH s2 { s2.h with pend := s2.h.pend ++ [p] }

/-- What a unit leaves. -/
def unitEnd (s : State) (c : Cmd) (r : UnitRes) : State :=
  match r with
  | .ok (s1, c1) => putCmd s1 c1
  | .error f => if isPageFault f then suspend s c f else putCmd s { c with st := .ended, status := statusOf f }

/-! ### The end of a command (R298 to R301) -/

def tokenOf (c : Cmd) : Word := if c.status = 0 then 0 else BitVec.ofNat 64 (c.unit * 256 + c.status)

/-- R301: an element of the command has been converted. -/
def Cmd.converted (c : Cmd) : Bool :=
  match c.instr with
  | .mmulc .. => !c.conv.isEmpty
  | _ => c.unit != 0

/-- Results, token, flags and EFR; the entry is free; a failed command without a token leaves a trap. -/
def tokenHart (h : Hart) (c : Cmd) : Hart :=
  let m : Mode := if c.bankS then .S else .U
  let h := match tokenRegs c.instr with
    | [d] => xSetIn h m d (tokenOf c)
    | [d, r] => xSetIn (xSetIn h m r (BitVec.ofNat 64 c.count)) m d (tokenOf c)
    | _ =>
      if c.status = 0 then h
      else { h with pend := h.pend ++ [{ code := 17, val := c.pc, val2 := tokenOf c, e := true, ovf := false, ord := c.ord, cmd := some c }] }
  let h := orFlags h c.flags
  let h := if c.efrUsed && c.converted then { h with efr := c.efr } else h
  { h with cmds := h.cmds.filter (fun d => d.entry != c.entry) }

def cmdAt (s : State) (e : Nat) : Option Cmd := s.h.cmds.find? (fun c => c.entry == e)

def execTokenWrite (e : Nat) (s : State) : Res :=
  match cmdAt s e with
  | some c => if c.st == .ended then .next (setH s (tokenHart s.h c)) else .fault .notEnabled
  | none => .fault .notEnabled

/-- R346: ENGCTL as a step of its own. -/
def engctlStep (s : State) (e action : Nat) : Res :=
  match cmdAt s e with
  | some c => if c.st == .suspended then .next (setH s (engAct s.h e action)) else .fault .notEnabled
  | none => .fault .notEnabled
def execEngctlResume (e : Nat) (s : State) : Res := engctlStep s e 1
def execEngctlEnd (e : Nat) (s : State) : Res := engctlStep s e 2

end Sys2Proof.Machine
end

