-- ==== Sys2Proof/Machine/Slots.lean ====
section
/-! DEFINITION. The dispatch engine, OP 0xC3 (R322 to R324). -/

namespace Sys2Proof.Machine

/-- R322: a slot word or done word with VALID set. -/
def slotWord (tag : BitVec 16) (len : Nat) : Nat := 2 ^ 63 + tag.toNat * 2 ^ 32 + len

def execDput (d a b c : Reg) (spA spB : Space) (tag : BitVec 16) (sc : Scope) (s : State) : Res :=
  let i : Instr := .dput d a b c spA spB tag sc
  let h := s.h
  let n := (xGet h c).toNat
  if n % 8 != 0 || n < 8 || 65536 < n then limitTrap s i
  else if (xGet h a).toNat % 8 != 0 then trap s (misTrap (xGet h a) none)
  else if (xGet h b).toNat % 8 != 0 then trap s (misTrap (xGet h b) none)
  else
    accept s (newCmd s i [xGet h a, 0, xGet h b, 0, xGet h c, 0]
      (rangesOf h spB (xGet h b) n false ++ rangesOf h spA (xGet h a) (n + 8) true))

def dputUnit (s : State) (c : Cmd) (spA spB : Space) (tag : BitVec 16) : UnitRes :=
  let n := (c.op 4).toNat
  let h := engHart s.h c
  match engRead s h spB (c.op 2) n false with
  | .error f => .error f
  | .ok (row, s) =>
    match engWrite s h spA (c.op 0) (n + 8) (row + slotWord tag n <<< (8 * n)) false with
    | .error f => .error f
    | .ok s => unitDone (countEv s 0x18 1) c 1

/-- R323. -/
def execDwait (d a : Reg) (spA : Space) (_sc : Scope) (s : State) : Res :=
  let x := xGet s.h a
  if x.toNat % 8 != 0 then trap s (misTrap x none)
  else if interlocked s.h (rangesOf s.h spA x 8 false) then stall (countEv s 0x14 1)
  else match place s s.h spA .load x 8 with
    | .error f => trap s (memTrap f none)
    | .ok (l, s) =>
      let v : Word := BitVec.ofNat 64 (locRead s l 8)
      if v.getLsbD 63 then nextX s d v else park s (.dwait spA x)

/-- R323: VALID has been set in the word: `dwait` issues again and reads it. -/
def execDwaitWake (s : State) : Res :=
  match s.h.run with
  | .parked (.dwait sp x) =>
    wakeIf s (.dwait sp x) (match place s s.h sp .load x 8 with
      | .error _ => false
      | .ok (l, _) => (BitVec.ofNat 64 (locRead s l 8)).getLsbD 63)
  | _ => .fault .notEnabled

/-- R324. -/
def execDclose (d a b c : Reg) (spA spC : Space) (tag : BitVec 16) (sc : Scope) (s : State) : Res :=
  let i : Instr := .dclose d a b c spA spC tag sc
  let h := s.h
  let n := (xGet h b).toNat
  if n = 0 ∨ 4096 < n then limitTrap s i
  else if (xGet h a).toNat % 8 != 0 then trap s (misTrap (xGet h a) none)
  else if (xGet h c).toNat % 4 != 0 then trap s (misTrap (xGet h c) none)
  else
    accept s (newCmd s i [xGet h a, 0, xGet h b, 0, xGet h c, 0]
      (rangesOf h spC (xGet h c) (4 * n) false ++ rangesOf h spA (xGet h a) (8 * n) true))

def dcloseUnit (s : State) (c : Cmd) (spA spC : Space) (tag : BitVec 16) : UnitRes :=
  let h := engHart s.h c
  match engRead s h spC (c.op 4 + BitVec.ofNat 64 (4 * c.unit)) 4 false with
  | .error f => .error f
  | .ok (n, s) =>
    match engWrite s h spA (c.op 0 + BitVec.ofNat 64 (8 * c.unit)) 8 (slotWord tag n) false with
    | .error f => .error f
    | .ok s => unitDone s c (c.op 2).toNat

end Sys2Proof.Machine
end

