-- ==== Sys2Proof/Machine/Links.lean ====
section
/-! DEFINITION. Flits on the Midway links: sending one, receiving one, acknowledgements, a port that goes down (R396,
R397). A memory operation of a hart on a peer's page is one step on the peer's memory (R389, log 16, DESIGN CHOICE), so the flits that a
hart's own instructions emit are its send elements. -/

namespace Sys2Proof.Machine

def portGet (s : State) (q : Nat) : Port := tabGet s.d.ports q Port.zero
def portPut (s : State) (q : Nat) (p : Port) : State := { s with d := { s.d with ports := tabSet s.d.ports q p } }

def emit (s : State) (o : Out) : State := { s with d := { s.d with out := o :: s.d.out } }

/-- KIND of a flit that the far end answers: read request, write, atomic, send element. -/
def answered (kind : Nat) : Bool := kind == 1 || kind == 3 || kind == 4 || kind == 6

/-- A flit goes onto the link of a port, with the next sequence number, a credit spent (one of KIND 9 needs none), and the
credits owed to the far end (log 17, DESIGN CHOICE). -/
def putFlit (s : State) (q kind : Nat) (f : Flit) : State :=
  let p := portGet s q
  let f1 := { f with seq := p.seq, credits := BitVec.ofNat 8 (Nat.min 255 p.owed) }
  let p1 := { p with seq := p.seq + 1, owed := p.owed - Nat.min 255 p.owed }
  emit (portPut s q
    (if kind = 9 then p1
     else { p1 with credits := p.credits - 1, flying := p.flying ++ [p.seq], unacked := p.unacked ++ [(kind, f1)] }))
    (.flit q kind f1)

/-- A flit leaves by a port, or waits there for a credit, behind those that wait already (log 17, DESIGN CHOICE). -/
def sendFlit (s : State) (q kind : Nat) (f : Flit) : State :=
  let p := portGet s q
  if p.credits = 0 || !p.waiting.isEmpty then portPut s q { p with waiting := p.waiting ++ [(kind, f)] } else putFlit s q kind f

/-- `n` credits have come back: the flits that waited for one leave. -/
def sendWaiting (s : State) (q : Nat) : List (Nat × Flit) → State
  | [] => s
  | (kind, f) :: rest =>
    let p := portGet s q
    if p.credits = 0 then portPut s q { p with waiting := (kind, f) :: rest }
    else sendWaiting (putFlit (portPut s q { p with waiting := [] }) q kind f) q rest

/-- A credit comes back for a flit that the far end has taken: that acknowledges one which is an answer itself (R397; log 17,
DESIGN CHOICE). -/
def creditBack (n : Nat) (p : Port) : Port :=
  let taken := p.flying.take n
  { p with credits := p.credits + n, flying := p.flying.drop n
           unacked := p.unacked.filter (fun u => answered u.1 || !taken.contains u.2.seq) }

def giveCredits (s : State) (q n : Nat) : State :=
  let p := portGet s q
  sendWaiting (portPut s q (creditBack n p)) q p.waiting

/-- A flit of the device to a node, with a payload. -/
def flitTo (dst src : Nat) (addr len data : Nat) : Flit :=
  { credits := 0, seq := 0, src := BitVec.ofNat 20 src, dst := BitVec.ofNat 20 dst, addr := addr, len := len, data := data, good := true
    macGood := true }

/-- The answer to a flit of KIND `kind` has arrived: the oldest such flit from `src` to `dst` is acknowledged. -/
def ackFlit (s : State) (q kind : Nat) (src dst : BitVec 20) : State :=
  let p := portGet s q
  match p.unacked.find? (fun u => u.1 == kind && u.2.src == src && u.2.dst == dst) with
  | some u => portPut s q { p with unacked := p.unacked.erase u }
  | none => s

/-- A flit goes by the port that its device is routed to; without a route it waits for one (log 17, DESIGN CHOICE). -/
def routeFlit (s : State) (kind : Nat) (f : Flit) : State :=
  match routePort s.d (f.dst.toNat / 1024) with
  | some r => sendFlit s r kind f
  | none => { s with d := { s.d with stranded := s.d.stranded ++ [(kind, f)] } }

/-- The flits in order, each by its route. -/
def routeFlits (s : State) (fs : List (Nat × Flit)) : State := fs.foldl (fun s (kind, f) => routeFlit s kind f) s

/-- A route may be there now: the flits that wait for one. -/
def freeStranded (s : State) : State := routeFlits { s with d := { s.d with stranded := [] } } s.d.stranded

/-- R397: a port is down: its flits without acknowledgement, then those that have not left, go each by the port that its
device is routed to. -/
def downPort (s : State) (q : Nat) (macfail : Bool) : State :=
  let p := portGet s q
  routeFlits (portPut s q { p with up := false, lanes := 0, macfail := p.macfail || macfail, credits := 0, owed := 0, unacked := []
                                   flying := [], waiting := [] }) (p.unacked ++ p.waiting)

/-- The credit of a flit that has been taken is owed to the far end; a flit of KIND 9 returns many at once (log 17, DESIGN
CHOICE). -/
def oweCredit (s : State) (q : Nat) : State :=
  let p := portGet s q
  let s1 := portPut s q { p with owed := p.owed + 1 }
  if p.owed < 127 then s1 else putFlit s1 q 9 (flitTo (p.peer.toNat * 1024) 0 0 0 0)

/-- A flit arrives at a port that is up, under its IDE session: its CRC, then its MAC, then its CREDITS and `k` (R396). -/
def arrive (s : State) (q : Nat) (f : Flit) (k : State → Res) : Res :=
  let p := portGet s q
  if !p.up || !s.d.ide then .fault .notEnabled
  else if !f.good then .next (portPut s q { p with replays := if p.replays == -1 then p.replays else p.replays + 1 })
  else if !f.macGood then .next (downPort s q true)
  else k (giveCredits s q f.credits.toNat)

/-- A flit that takes a receive credit, which is owed for it then. -/
def receive (s : State) (q : Nat) (f : Flit) (k : State → Res) : Res := arrive s q f (fun s => k (oweCredit s q))

/-- The answer to a flit goes back by the port that its source is routed to. -/
def answer (s : State) (kind : Nat) (f : Flit) (len data : Nat) : State :=
  routeFlit s kind { f with src := f.dst, dst := f.src, len := len, data := data }

end Sys2Proof.Machine
end

