-- ==== Sys2Proof/Machine/Sends.lean ====
section
/-! DEFINITION. Sends, OP 0xD0: receive rings (R390), `vsend` with its waits (R391 to R393), `vrecv` (R394), `nid`
(R387). -/

namespace Sys2Proof.Machine

/-! ### Receive rings (R390) -/

/-- Slab 0 of a hart, in the numbering of Mem. -/
def slab0 (h : Hart) : Nat := scrAddr (coreOf h.gid) (h.slabs.headD 0 * Config.slabBytes)
def ringHeadAt (h : Hart) : Nat := slab0 h + 458736
def ringTailAt (h : Hart) : Nat := slab0 h + 458744
/-- The slot of count `c`. -/
def ringSlot (h : Hart) (c : Nat) : Nat := slab0 h + 458752 + 16 * (c % Config.ringSlots)

def ringFree (s : State) (h : Hart) : Bool :=
  decide ((BitVec.ofNat 64 (memRead s.mem (ringTailAt h) 8) - BitVec.ofNat 64 (memRead s.mem (ringHeadAt h) 8)).toNat <
    Config.ringSlots)

/-- The slot word of an element. -/
def elemWord (src : Nat) (et : ET) (elem : Nat) : Nat :=
  2 ^ 63 + et.code.toNat * 2 ^ 35 + elem % 2 ^ 15 * 2 ^ 20 + src % 2 ^ 20

/-- The receiving core allocates slot TAIL, advances TAIL and writes the slot. -/
def ringPut (s : State) (h : Hart) (data word : Nat) : State :=
  let t := memRead s.mem (ringTailAt h) 8
  let m := memWrite s.mem (ringTailAt h) 8 ((t + 1) % 2 ^ 64)
  { s with mem := memWrite m (ringSlot h t) 16 (data % 2 ^ 64 + word % 2 ^ 64 * 2 ^ 64) }

/-! ### Resolving a place (R393) -/

/-- What a place of the device is to an element of a context. -/
inductive Place where
  | ring (h : Hart)
  | waits
  | stale
  deriving DecidableEq, Repr

def placeOf (s : State) (ctx : BitVec 16) (node : Nat) : Place :=
  let core := node / 8 % 32
  let gid := (node / 256 % 4 * 24 + core) * 8 + node % 8
  if Config.coresPerDie ≤ core then .stale
  else match findHart s gid with
    | some r => if r.ctxid == ctx && !r.slabs.isEmpty then .ring r else .stale
    | none => if s.d.saves.contains (gid, ctx) then .waits else .stale

/-! ### `vsend` (R392) -/

/-- What becomes of one element. -/
inductive Sent where
  | done (s : State)
  | fault (sub : Nat)
  | wait (p : Park)
  | away (s : State)
  deriving DecidableEq, Repr

/-- The element whose register bits at its ET are `data` (R36, R390), sent to a node. -/
def sendOne (s : State) (h : Hart) (et : ET) (i data node : Nat) : Sent :=
  let me := nodeOf s.d.devid h.gid
  let dev := node / 1024
  if node / 2 ^ 20 != 0 then .fault 4
  else if dev == s.d.devid.toNat then
    match placeOf s h.ctxid node with
    | .stale => .fault 5
    | .waits => .wait (.sendPlace node)
    | .ring r => if ringFree s r then .done (ringPut s r data (elemWord me et i)) else .wait (.sendSlot node)
  else match routePort s.d dev with
    | none => .fault 4
    | some q => .away (sendFlit s q 6 (flitTo node me h.ctxid.toNat 16 (data % 2 ^ 64 + elemWord me et i * 2 ^ 64)))

/-- The elements of `is` in order, up to one that waits: the state, the faults, and where it waits. -/
def sendRun (c : VCtx) (et : ET) (A B : VField) : State → List (Nat × Word × Nat) → List Nat →
    State × List (Nat × Word × Nat) × Option (Nat × Park)
  | s, fs, [] => (s, fs, none)
  | s, fs, i :: is =>
    if !c.live i then sendRun c et A B s fs is
    else
      let node := c.src B i
      match sendOne s c.h et i (codeOf et (c.src A i)) node with
      | .done s1 => sendRun c et A B s1 fs is
      | .fault sub => sendRun c et A B s ((i, BitVec.ofNat 64 node, sub) :: fs) is
      | .wait p => (s, fs, some (i, p))
      | .away s1 => (s1, fs, some (i, .sendAck node))

def opVsend (a b : Reg) (k : VCtl) : VOp :=
  { instr := .vsend a b k, kind := .L, k := k, srcs := [⟨a.toNat, k.g.size, k.et.regBytes, false⟩, ⟨b.toNat, idxGroup k.g k.et, 4, false⟩]
    dst := .none, wide := Nat.max k.et.regBytes 4, frq := some 1, body := fun _ acc => acc }

/-- A failure whose FMASK names the elements of `more` as well. -/
def Failure.alsoMask (f : Failure) (more : List Nat) : Failure :=
  if more.isEmpty then f else { f with trap := { f.trap with fmask := some (f.trap.fmask.getD 0 ||| fmaskOf more) } }

/-- The end of a `vsend` that began as `g` says: retirement, or the trap of its faulting elements; FMASK names those of
`more` too, which have not begun. -/
def sendEnd (op : VOp) (c : VCtx) (g : Sending) (s : State) (fs : List (Nat × Word × Nat)) (more : List Nat) : Res :=
  let c := { c with h := { c.h with vstart := g.start } }
  let s := setH s { s.h with sending := none, vstart := g.start }
  let a : VAcc := { s := s, faults := fs.map (fun (i, v, sub) => (i, ⟨11, v, sub⟩)) }
  match op.failure c a with
  | some f => .next (takeFailure s { f.alsoMask more with recs := f.recs.map (fun r => { r with seq := BitVec.ofNat 32 g.at_ }) } id)
  | none => next (op.retire c a)

/-- R392. One that `replay` runs is not stopped by a pre-emption but where it waits (R358). -/
def execVsend (a b : Reg) (k : VCtl) (s : State) : Res :=
  let op := opVsend a b k
  -- one that goes on after a wait was checked at its issue
  if s.h.sending.isNone && streamsHeld s (op.boundSrcs s.h) then stall (countEv s 0x14 1)
  else match (if s.h.sending.isSome then .ok s else op.issue [] s) with
  | .error t => trap s t
  | .ok s1 =>
    let h := s1.h
    let g := h.sending.getD ⟨h.vstart, s.clk, [], .vsend a b k, h.second⟩
    let lim := match stopGroup h with
      | some n => Nat.min h.vl (h.vstart + n)
      | none => h.vl
    let c : VCtx := { h := h, kind := .L, w := k.w, link := none, lim := lim, cancel := [] }
    let A : VField := ⟨a.toNat, k.g.size, k.et.regBytes, false⟩
    let B : VField := ⟨b.toNat, idxGroup k.g k.et, 4, false⟩
    let (s2, fs, w) := sendRun c k.et A B s1 g.faults c.elems
    let held (i : Nat) : Hart := { s2.h with vstart := i, sending := some { g with faults := fs }, second := false }
    match w with
    | some (i, p) => park (setH s2 (held i)) p
    | none =>
      let rest := ({ c with h := { h with vstart := lim }, lim := h.vl }).elems.filter c.live
      if lim < h.vl then (if fs.isEmpty then .next (setH s2 (held lim)) else sendEnd op { c with lim := h.vl } g s2 fs rest)
      else sendEnd op { c with lim := h.vl } g s2 fs []

/-- A send in progress, not waiting for an acknowledgement, some of whose elements have failed. -/
def sendFailed (h : Hart) : Bool :=
  (match h.run with | .running | .parked .stall | .parked (.sendSlot _) | .parked (.sendPlace _) => true | _ => false) &&
    (match h.sending with | some g => !g.faults.isEmpty | none => false)

/-- R348, R392: a pre-emption stops a `vsend` some of whose elements have failed: it traps for them, and FMASK names those
that have not begun too. -/
def sendCut (s : State) : Res :=
  match s.h.sending with
  | some g =>
    match g.instr with
    | .vsend a b k =>
      let op := opVsend a b k
      let c : VCtx := { h := s.h, kind := .L, w := k.w, link := none, lim := s.h.vl, cancel := [] }
      sendEnd op c g (setH s { s.h with run := .running }) g.faults (c.elems.filter c.live)
    | _ => .next s
  | none => .next s

/-- R392: a send waiting for a free slot finds one, or its place has changed: the `vsend` issues again. -/
def execSendSlotFree (s : State) : Res :=
  match s.h.run with
  | .parked (.sendSlot node) =>
    match placeOf s s.h.ctxid node with
    | .ring r => if ringFree s r then .next (setH s { s.h with run := .running }) else .fault .notEnabled
    | _ => .next (setH s { s.h with run := .running })
  | _ => .fault .notEnabled

/-- R393: the recheck of a place: the `vsend` issues again where the wait is over. The place of another device is asked
again. -/
def execSendPlaceRecheck (s : State) : Res :=
  match s.h.run with
  | .parked (.sendPlace node) =>
    if node / 1024 == s.d.devid.toNat && placeOf s s.h.ctxid node == .waits then .next s
    else .next (setH s { s.h with run := .running })
  | _ => .fault .notEnabled

/-- R390: the core of the place at `dest` fills a slot of the ring of the hart there. -/
def execRingSlotFill (dest : Nat) (src : BitVec 20) (et : ET) (elem data : Nat) (s : State) : Res :=
  match findHart s dest with
  | some r =>
    if !r.slabs.isEmpty && ringFree s r then .next (ringPut s r data (elemWord src.toNat et elem)) else .fault .notEnabled
  | none => .fault .notEnabled

/-! ### `vrecv` (R394) -/

/-- The slot word of count `c`. -/
def ringWord (s : State) (h : Hart) (c : Nat) : Nat := memRead s.mem (ringSlot h c + 8) 8
/-- Its element, VALID, is of a type. -/
def slotHolds (w : Nat) (et : ET) : Bool := w / 2 ^ 63 == 1 && w / 2 ^ 35 % 32 == et.code.toNat

/-- Slots of the hart's ring from count `c`, at most `n`, that hold an element of a type: DATA and SRC of each. -/
def recvSlots (s : State) (h : Hart) (et : ET) (c : Nat) : Nat → List (Nat × Nat)
  | 0 => []
  | n + 1 =>
    let word := ringWord s h c
    if slotHolds word et then (memRead s.mem (ringSlot h c) 8, word % 2 ^ 20) :: recvSlots s h et (c + 1) n else []

/-- The elements taken, into vD and vB from element `i`; those below VSTART are untouched (R22). -/
def recvPut (d b : Reg) (et : ET) (h : Hart) : Nat → List (Nat × Nat) → Hart
  | _, [] => h
  | i, (data, src) :: rest =>
    if i < h.vstart then recvPut d b et h (i + 1) rest
    else recvPut d b et (vPutElem (vPutElem h d.toNat et.regBytes i (codeOf et data)) b.toNat 4 i src) (i + 1) rest

/-- The slot words of `n` slots from count `c` cleared. -/
def recvClear (h : Hart) (m : Memory) (c : Nat) : Nat → Memory
  | 0 => m
  | n + 1 => recvClear h (memWrite m (ringSlot h c + 8) 8 0) (c + 1) n

/-- R372: the lowest address, in space L, of an uncorrectable word among HEAD and the first `n` slots at it. -/
def recvPoison (s : State) (h : Hart) (head n : Nat) : Option Nat :=
  let at_ (a : Nat) : Nat := a - slab0 h
  if poisoned s.d.poison (ringHeadAt h) 8 then some (at_ (ringHeadAt h))
  else ((List.range n).find? (fun k => poisoned s.d.poison (ringSlot h (head + k)) 16)).map (fun k => at_ (ringSlot h (head + k)))

/-- R394. Where VSTART is VL or more no element lies in its range: it makes no access of its ring and takes no fault (R22), so
the count is 0, and never -1, for which it would read slot(HEAD) (log 63, DESIGN CHOICE). -/
def execVrecv (d b c : Reg) (k : VCtl) (s : State) : Res :=
  let h := s.h
  let D : VDst := .vec d.toNat k.g.size k.et.regBytes
  let B : VDst := .vec b.toNat (idxGroup k.g k.et) 4
  if !D.fits h || !B.fits h || D.bound h || B.bound h then .next (illegalAt s (.vrecv d b c k) 2)
  else
    let done (s : State) (live : Nat) (x : Word) : Res :=
      let s1 := setH s { s.h with vstart := 0 }
      let g := Nat.max 1 (h.lanes * 16 / Nat.max k.et.regBytes 4)
      let s2 := countEv (countEv s1 4 ((h.vl - h.vstart + g - 1) / g)) 5 live
      nextX (traceRetire s2 0 k.et.code.toNat 0 0 0 live) c x
    if h.vl ≤ h.vstart then done s 0 0
    else if h.slabs.isEmpty then trap s { code := 11, val := 458736, val2 := memVal2 none 5 }
    else if interlocked h [⟨1, ringHeadAt h, slab0 h + 2 ^ 19 - 1, true⟩] then stall (countEv s 0x14 1)
    else
      let head := memRead s.mem (ringHeadAt h) 8
      let got := recvSlots s h k.et head h.vl
      let n := got.length
      -- the slots read: those taken and, where VL leaves room for it, the one after them; slot(HEAD) in any case
      match recvPoison s h head (Nat.max 1 (Nat.min (n + 1) h.vl)) with
      | some a => trap s { code := 21, val := BitVec.ofNat 64 a, val2 := 2 }
      | none =>
        let m := recvClear h s.mem head n
        let s1 := { s with h := recvPut d b k.et h 0 got
                           mem := if n = 0 then m else memWrite m (ringHeadAt h) 8 ((head + n) % 2 ^ 64) }
        let w := ringWord s h head
        let other := n == 0 && w / 2 ^ 63 == 1 && !slotHolds w k.et
        done s1 n (if other then -1 else BitVec.ofNat 64 n)

def execNid (d : Reg) (s : State) : Res := nextX s d (BitVec.ofNat 64 (nodeOf s.d.devid s.h.gid))

end Sys2Proof.Machine
end

