-- ==== Sys2Proof/Machine/System.lean ====
section
/-! DEFINITION. System instructions, OP 0xE0, but for `ctxsave` and `ctxload` (R353 to R360, R363), the boundaries of a
hart (R268, R339), the slots that are no instruction (R16, R72). -/

namespace Sys2Proof.Machine

/-! ### Registers (R354) -/

def execCsrrd (d : Reg) (csr : BitVec 12) (s : State) : Res := nextX s d (csrRead s s.h csr.toNat)

/-- The old value is read before the write, xA before xD is written. -/
def execCsrwr (d : Reg) (csr : BitVec 12) (a : Reg) (s : State) : Res :=
  let old := csrRead s s.h csr.toNat
  nextX (setH s (csrWrite s.h csr.toNat (xGet s.h a))) d old

/-! ### Returning from a trap (R355) -/

/-- The hart as `tret` leaves it, before the transfer to SEPC. -/
def tretHart (h : Hart) : Hart :=
  let h := clearFm h
  dropPpend { h with
    mode := sppMode h
    sstatus := setBit h.sstatus ssINH false
    vstart := h.svstart
    fmrun := fmr h && h.replay.isNone
    fmask := if fmr h then h.fmask else 0 }

def execTret (s : State) : Res :=
  let h := tretHart s.h
  .next (setH s (replayDone { h with pc := h.sepc, xfer := some s.h.pc, second := false, run := .running }))

/-! ### Calls of the supervisor (R356) -/

def execEcall (s : State) : Res :=
  trap s { code := 19, val := s.h.pc, val2 := if s.h.mode == .S then 1 else 0, pc := some (seqNext s.h.pc) }
def execEbreak (s : State) : Res := trap s { code := 18, val := s.h.pc, val2 := 0, pc := some (seqNext s.h.pc) }

/-! ### Fault records (R357) -/

/-- The 32 bytes of a fault record (R343). -/
def frqBits (devid : BitVec 10) (r : Frq) : Nat :=
  r.pc.toNat + r.va.toNat * 2 ^ 64 + r.elem.toNat * 2 ^ 128 + r.weight.toNat * 2 ^ 160 + r.kind % 256 * 2 ^ 176 +
    r.cause % 256 * 2 ^ 184 + (nodeOf devid r.gid + if r.ovf then 2 ^ 31 else 0) * 2 ^ 192 + r.seq.toNat * 2 ^ 224

/-- The queue of the die of `gid` replaced. -/
def frqSet (s : State) (gid : Nat) (q : List Frq) : State :=
  { s with d := { s.d with frq := s.d.frq.setIfInBounds (dieOf gid) q } }
def frqAll (s : State) (gid : Nat) : List Frq := s.d.frq.toList.getD (dieOf gid) []

/-- The queue without the oldest record of a hart. -/
def frqDrop (gid : Nat) : List Frq → List Frq
  | [] => []
  | r :: rest => if r.gid == gid then rest else r :: frqDrop gid rest

def execFrqpop (d a : Reg) (disp : BitVec 32) (s : State) : Res :=
  let ea := effAddr s.h a disp
  if ea.toNat % 32 != 0 then trap s (misTrap ea none)
  else match (frqOf s s.h.gid).head? with
    | none => nextX s d (-1)
    | some r =>
      gAccess s .store ea 32 32 (fun p s1 =>
        let s2 := frqSet { s1 with mem := memWrite s1.mem p 32 (frqBits s.d.devid r) } s.h.gid (frqDrop s.h.gid (frqAll s1 s.h.gid))
        nextX s2 d (BitVec.ofNat 64 (frqOf s2 s.h.gid).length))

/-! ### `replay` (R358) -/

/-- The hart runs the instruction at SEPC next, as `tret` would resume it. -/
def execReplay (d : Reg) (s : State) : Res :=
  let s := countEv s 0x1A 1
  let h := s.h
  if h.scause.getLsbD 13 then nextX (setH s { h with vstart := 0 }) d (-1)
  else
    .next (setH s { h with
      replay := some ⟨d, h.pc⟩
      mode := sppMode h
      pc := h.sepc
      vstart := h.svstart
      fmrun := fmr h
      xfer := none
      second := false })

/-! ### Translation entries (R359) -/

/-- R359: entries and held absences in scope are dropped, and later walks there take the CTXROOT of their hart (R336). -/
def execTlbinv (a b : Reg) (sc : Scope) (mode : BitVec 2) (s : State) : Res :=
  let h := s.h
  let va := (xGet h a).toNat
  let hit (t : Tlb) : Bool :=
    inScope sc (coreOf h.gid) t.core &&
      (match mode.toNat with
       | 0 => t.ctx == h.ctxid && t.page == va % 2 ^ 57 / 2 ^ pageShift t.size
       | 1 => t.ctx == h.ctxid
       | _ => t.ctx == (xGet h b).setWidth 16)
  let gone (t : Absence) : Bool :=
    inScope sc (coreOf h.gid) t.core &&
      (match mode.toNat with
       | 0 => t.ctx == h.ctxid && t.page == va % 2 ^ 57 / 2 ^ 16
       | 1 => t.ctx == h.ctxid
       | _ => t.ctx == (xGet h b).setWidth 16)
  let ctx := if mode.toNat < 2 then h.ctxid else (xGet h b).setWidth 16
  let root (o : Hart) : Hart := if inScope sc (coreOf h.gid) (coreOf o.gid) && o.ctxid == ctx then { o with walkroot := o.ctxroot } else o
  next { s with h := root h, others := s.others.map root
                d := { s.d with tlb := s.d.tlb.filter (fun t => !hit t), absent := s.d.absent.filter (fun t => !gone t) } }

/-! ### The retire trace (R360) -/

def execRingrd (d a b : Reg) (disp : BitVec 32) (s : State) : Res :=
  let x := (xGet s.h a).toNat
  let node := x % 2 ^ 20
  let k := x / 2 ^ 32 % 256
  let ea := effAddr s.h b disp
  let core := node / 8 % 32
  if ea.toNat % 32 != 0 then trap s (misTrap ea none)
  else if node / 1024 != s.d.devid.toNat || Config.coresPerDie ≤ core then nextX s d (-2)
  else match findHart s ((node / 256 % 4 * 24 + core) * 8 + node % 8) with
    | none => nextX s d (-2)
    | some t =>
      if t.ctxid != s.h.ctxid then nextX s d (-2)
      else if t.ringsince ≤ k then nextX s d (-1)
      else
        gAccess s .store ea 32 32 (fun p s1 =>
          nextX { s1 with mem := memWrite s1.mem p 32 (ringEntry t (255 - k)) } d 0)

/-! ### `wfi` (R363) -/

def pendingInt (h : Hart) : Bool := (h.sip &&& h.sie) != 0
def execWfi (s : State) : Res := if pendingInt s.h then next s else park s .wfi
def execWfiWake (s : State) : Res := wakeIf s .wfi (pendingInt s.h)

/-! ### Slots that are no instruction (R16, R72) -/

def execIllegalInstruction (hi : BitVec 32) (sub : Nat) (s : State) : Res :=
  trap s { code := 1, val := hi.setWidth 64, val2 := BitVec.ofNat 64 sub }
def execIllegalLine (line : Word) (lineWord : BitVec 32) (s : State) : Res :=
  trap s { code := 4, val := line, val2 := lineWord.setWidth 64 }

/-! ### Boundaries (R268, R339) -/

/-- R339: place in the order in which pending traps are taken. -/
def pendRank (p : Pend) : Nat × Nat :=
  if p.code == 21 then (0, p.ord) else if p.e then (1, p.ord) else if p.code == 18 then (2, 0) else (3, 0)
def pendBefore (p q : Pend) : Bool :=
  let (a, b) := pendRank p
  let (c, d) := pendRank q
  decide (a < c) || (a == c && decide (b < d))

/-- The pending trap that is taken next. -/
def nextPend : List Pend → Option Pend
  | [] => none
  | p :: ps =>
    match nextPend ps with
    | some q => if pendBefore q p then some q else some p
    | none => some p

def execImpreciseTrap (s : State) : Res :=
  match nextPend s.h.pend with
  | some p =>
    if inh s.h then .fault .notEnabled
    else
      .next (takeTrap (setH s { s.h with pend := s.h.pend.erase p })
        { code := p.code, val := p.val, val2 := p.val2, e := p.e, ovf := p.ovf, imprecise := true })
  | none => .fault .notEnabled

def execInterrupt (s : State) : Res :=
  if interruptReady s.h then
    .next (takeTrap s { code := 22, val := s.h.sip &&& s.h.sie, val2 := 0, imprecise := true })
  else .fault .notEnabled

/-- R267, R268: a bound stream reads its next strip ahead of its reader. -/
def execStreamStripFetch (r : Reg) (s : State) : Res :=
  match bindingOf s.h r.toNat with
  | some b => if canPrefetch b && !streamHeld s s.h b 0 then .next (pushStrip s b) else .fault .notEnabled
  | none => .fault .notEnabled

/-! ### Control windows as steps (R352) -/

def execStopctlHalt (s : State) : Res := .next (if hartExists s.h then setH s (stopHalt s.h) else s)
def execStopctlDoor (s : State) : Res := .next (if hartExists s.h then setH s (stopDoor s.h) else s)

end Sys2Proof.Machine
end

