-- ==== Sys2Proof/Machine/Copy.lean ====
section
/-! DEFINITION. The copy engine, OP 0xC0 (R306 to R308), and the copy-out of a bramble, OP 0xC4 (R288, R325). -/

namespace Sys2Proof.Machine

/-! ### Units of 4 KiB (R307) -/

/-- Units of a run of `n` bytes to `d`. -/
def copyUnits (d : Word) (n : Nat) : Nat :=
  if n = 0 then 0 else 1 + (n - Nat.min n (4096 - d.toNat % 4096) + 4095) / 4096
/-- Offset and length of a unit. -/
def copyUnit (d : Word) (n u : Nat) : Nat × Nat :=
  let f := Nat.min n (4096 - d.toNat % 4096)
  if u = 0 then (0, f) else (f + (u - 1) * 4096, Nat.min 4096 (n - (f + (u - 1) * 4096)))

/-- R307: some byte is written before, in ascending order, it would be read: destination above an overlapping source. -/
def descends (h : Hart) (sd : Space) (d : Word) (ss : Space) (a : Word) (n : Nat) : Bool :=
  if sd == ss then decide (0 < (d - a).toNat) && decide ((d - a).toNat < n)
  else (piecesOf h ss a n).any (fun p => (piecesOf h sd d n).any (fun q =>
    p.key == q.key && decide (p.at_ < q.at_ + q.len) && decide (q.at_ < p.at_ + p.len) && decide (q.off + p.at_ < p.off + q.at_)))

/-- The same, decided at issue: by the grants that the hart had then, wherever it runs on (R307, R326). -/
def Cmd.descends (c : Cmd) (sd : Space) (d : Word) (ss : Space) (a : Word) (n : Nat) : Bool :=
  Machine.descends { Hart.zero with gid := c.home.gid, slabs := c.home.slabs, tiles := c.home.tiles } sd d ss a n

/-- One unit: the source is read whole, then the destination is written. -/
def moveRun (s : State) (h : Hart) (sd : Space) (d : Word) (ss : Space) (a : Word) (n : Nat) : Except Flt State :=
  match engRead s h ss a n false with
  | .error f => .error f
  | .ok (v, s) => engWrite s h sd d n v false

/-! ### `cpy` and `cpys` -/

def execCpy (d a b c : Reg) (spA spB : Space) (sc : Scope) (s : State) : Res :=
  let i : Instr := .cpy d a b c spA spB sc
  let h := s.h
  let (dst, src, n) := (xGet h a, xGet h b, (xGet h c).toNat)
  if 2 ^ 40 < n then limitTrap s i
  else
    let rs := rangesOf h spB src n false ++ rangesOf h spA dst n true
    let k := newCmd s i [dst, 0, src, 0, xGet h c, 0] rs
    accept s { k with st := if n = 0 then .ended else .notBegun }

def cpyUnit (s : State) (c : Cmd) (spA spB : Space) : UnitRes :=
  let (dst, src, n) := (c.op 0, c.op 2, (c.op 4).toNat)
  let total := copyUnits dst n
  let (o, len) := copyUnit dst n (if c.descends spA dst spB src n then total - 1 - c.unit else c.unit)
  match moveRun s (engHart s.h c) spA (dst + BitVec.ofNat 64 o) spB (src + BitVec.ofNat 64 o) len with
  | .error f => .error f
  | .ok s => unitDone (countEv s 0x17 1) c total

/-- The bounding range of rows (R302). -/
def rowsRange (h : Hart) (sp : Space) (base stride : Word) (rows bytes : Nat) (wr : Bool) : List Range :=
  if rows = 0 ∨ bytes = 0 then []
  else
    let span := stride.toInt * ((rows : Int) - 1)
    rangesOf h sp (base + BitVec.ofInt 64 (min 0 span)) (span.natAbs + bytes) wr

def execCpys (d a b c : Reg) (spA spB : Space) (sc : Scope) (s : State) : Res :=
  let i : Instr := .cpys d a b c spA spB sc
  let h := s.h
  let (bytes, rows) := ((xGet h c).toNat % 2 ^ 32, (xGet h c).toNat / 2 ^ 32)
  let rs := rowsRange h spB (xGet h b) (xGet h (b + 1)) rows bytes false ++
    rowsRange h spA (xGet h a) (xGet h (a + 1)) rows bytes true
  let k := newCmd s i [xGet h a, xGet h (a + 1), xGet h b, xGet h (b + 1), xGet h c, 0] rs
  accept s { k with st := if rows = 0 ∨ bytes = 0 then .ended else .notBegun }

/-- The row that a unit lies in, and its number within the row, from row `r` of `left`. -/
def rowOfUnit (dst stride : Word) (bytes : Nat) (r u : Nat) : Nat → Nat × Nat
  | 0 => (r, u)
  | left + 1 =>
    let n := copyUnits (dst + BitVec.ofNat 64 r * stride) bytes
    if u < n then (r, u) else rowOfUnit dst stride bytes (r + 1) (u - n) left

def cpysUnit (s : State) (c : Cmd) (spA spB : Space) : UnitRes :=
  let (bytes, rows) := ((c.op 4).toNat % 2 ^ 32, (c.op 4).toNat / 2 ^ 32)
  let (r, u) := rowOfUnit (c.op 0) (c.op 1) bytes 0 c.unit rows
  let dst := c.op 0 + BitVec.ofNat 64 r * c.op 1
  let src := c.op 2 + BitVec.ofNat 64 r * c.op 3
  let h := engHart s.h c
  let per := copyUnits dst bytes
  let (o, len) := copyUnit dst bytes (if c.descends spA dst spB src bytes then per - 1 - u else u)
  match moveRun s h spA (dst + BitVec.ofNat 64 o) spB (src + BitVec.ofNat 64 o) len with
  | .error f => .error f
  | .ok s => unitDone (countEv s 0x17 1) c (if r + 1 = rows ∧ u + 1 = per then c.unit + 1 else c.unit + 2)

/-! ### `cfill` -/

def execCfill (d a b c : Reg) (spA : Space) (wc : BitVec 2) (sc : Scope) (s : State) : Res :=
  let i : Instr := .cfill d a b c spA wc sc
  let h := s.h
  let w := 2 ^ wc.toNat
  let n := (xGet h c).toNat
  if n % w != 0 then limitTrap s i
  else if (xGet h a).toNat % w != 0 then trap s (misTrap (xGet h a) none)
  else
    let k := newCmd s i [xGet h a, 0, xGet h b, 0, xGet h c, 0] (rangesOf h spA (xGet h a) n true)
    accept s { k with st := if n = 0 then .ended else .notBegun }

/-- `n` bytes of a pattern of `w` bytes. -/
def patternRun (p : Word) (w n : Nat) : Nat :=
  (List.range (n / w)).foldr (fun _ acc => p.toNat % 2 ^ (8 * w) + acc <<< (8 * w)) 0

/-- A unit begins at a multiple of the width, for the units are bounded by multiples of 4,096. -/
def cfillUnit (s : State) (c : Cmd) (spA : Space) (wc : BitVec 2) : UnitRes :=
  let n := (c.op 4).toNat
  let (o, len) := copyUnit (c.op 0) n c.unit
  match engWrite s (engHart s.h c) spA (c.op 0 + BitVec.ofNat 64 o) len (patternRun (c.op 2) (2 ^ wc.toNat) len) false with
  | .error f => .error f
  | .ok s => unitDone (countEv s 0x17 1) c (copyUnits (c.op 0) n)

/-! ### `tchk` -/

def execTchk (d a : Reg) (s : State) : Res :=
  let pending := a != 0 && (s.h.cmds.flatMap pendNames).contains (xName (s.h.mode == .S) a.toNat)
  nextX s d (if pending then 0 else 1)

/-! ### `pout` -/

def execPout (d a b c : Reg) (spC : Space) (sc : Scope) (s : State) : Res :=
  let i : Instr := .pout d a b c spC sc
  let h := s.h
  let root := pipGet h a
  let cap := (xGet h (c + 1)).toNat
  match regionAt s .pipR (xGet h b) with
  | .error f => trap s (memTrap f none)
  | .ok (r, g, s1) =>
    if cap % 128 != 0 then limitTrap s i
    else
      let ops := [root.setWidth 64, root.extractLsb' 64 64, xGet h b, BitVec.ofNat 64 r, xGet h c, xGet h (c + 1)]
      let k := newCmd s i ops (rangesOf h spC (xGet h c) cap true)
      accept (regionPut s1 r g) { k with walk := [root], st := if root = 0 then .ended else .notBegun }

/-- The interior lines below which, to a depth, no leaf, no missing line and none that is `bad` to read stands. -/
def barren (g : Region) (bad : BitVec 128 → Bool) : Nat → List (BitVec 128)
  | 0 => []
  | n + 1 =>
    let b := barren g bad n
    (g.lines.filter (fun l => l.inner && !bad l.pip && (childrenOf l.data).all b.contains)).map (·.pip)

/-- R288: the walk to its next leaf: the leaf with the stack after it; none at the end; or the status of a pip that names no
line, or of an uncorrectable word of a line that it reads (R298). -/
def nextLeaf (g : Region) (bad : BitVec 128 → Bool) (none_ : List (BitVec 128)) (stack : List (BitVec 128)) :
    Nat → Except Nat (Option (BitVec 1024 × List (BitVec 128)))
  | 0 => .error 6
  | n + 1 =>
    match stack with
    | [] => .ok none
    | p :: rest =>
      if p = 0 || none_.contains p then nextLeaf g bad none_ rest n
      else match g.find p with
        | none => .error 6
        | some l =>
          if bad p then .error 7
          else if l.inner then nextLeaf g bad none_ ((List.range 8).map (lineSlotAt l.data) ++ rest) n else .ok (some (l.data, rest))

/-- The walk with steps enough: a path to a leaf passes each line at most once, with eight slots. -/
def walkOn (g : Region) (bad : BitVec 128 → Bool) (stack : List (BitVec 128)) :
    Except Nat (Option (BitVec 1024 × List (BitVec 128))) :=
  nextLeaf g bad (barren g bad g.lines.length) stack (9 * g.lines.length + stack.length + 2)

def poutUnit (s : State) (c : Cmd) (spC : Space) : UnitRes :=
  let r := (c.op 3).toNat
  let g := (regionGet s r).settle
  let s := regionPut s r g
  let bad := lineBad s r g
  match walkOn g bad c.walk with
  | .error st => unitStop s c st
  | .ok none => unitStop s c 0
  | .ok (some (data, rest)) =>
    if (c.op 5).toNat < c.count + 128 then unitStop s c 5
    else match engWrite s (engHart s.h c) spC (c.op 4 + BitVec.ofNat 64 c.count) 128 data.toNat false with
      | .error f => .error f
      | .ok s =>
        let c := { c with count := c.count + 128, walk := rest }
        match walkOn g bad rest with
        | .ok none => unitDone s c 0
        | _ => unitDone s c (c.unit + 2)

end Sys2Proof.Machine
end

