-- ==== Sys2Proof/Machine/Fibres.lean ====
section
/-! DEFINITION. The fibre engine, OP 0xC2 (R315 to R321). -/

namespace Sys2Proof.Machine

/-! ### Coded streams (R315, R316, R321) -/

def fibreGet (h : Hart) (f : Nat) : Fibre := h.fibres.toList.getD f Fibre.closed
def fibrePut (s : State) (f : Nat) (x : Fibre) : State := setH s { s.h with fibres := s.h.fibres.setIfInBounds f x }

def Fibre.atEnd (f : Fibre) : Bool := decide (f.count.toNat ≤ f.cursor.toNat)
/-- CURSOR at COUNT, with the SOFF of code 0. -/
def Fibre.toEnd (f : Fibre) : Fibre :=
  { f with cursor := f.count, soff := if f.code = 0 then BitVec.ofNat 64 (32 * f.count.toNat) else f.soff }

/-- What is next in a fibre: its end, an order fault, or a position with the offset after it. -/
inductive Head where
  | atEnd | disorder
  | pos (p : Nat) (soff : Nat)
  deriving DecidableEq, Repr

/-- A field of whole bytes of the stream. -/
def Fibre.field (f : Fibre) (s : State) (h : Hart) (soff n : Nat) : Except Flt (Nat × State) :=
  engRead s h f.space (f.base + BitVec.ofNat 64 (soff / 8)) n false

/-- A position with its check against the one before. -/
def Fibre.ordered (f : Fibre) (p soff : Nat) : Head :=
  if (f.cursor != 0 && p ≤ f.pos.toNat) || 2 ^ 32 ≤ p then .disorder else .pos p soff

def Fibre.head (f : Fibre) (s : State) (h : Hart) : Except Flt (Head × State) :=
  if f.atEnd then .ok (.atEnd, s)
  else if f.code = 0 then
    match engRead s h f.space (f.base + BitVec.ofNat 64 (4 * f.cursor.toNat)) 4 false with
    | .error e => .error e
    | .ok (p, s) => .ok (f.ordered p (32 * (f.cursor.toNat + 1)), s)
  else
    let n := f.code.toNat
    let o := f.soff.toNat
    let pos (d o : Nat) : Head := f.ordered (if f.cursor = 0 then d else f.pos.toNat + d + 1) o
    match f.field s h o n with
    | .error e => .error e
    | .ok (d, s) =>
      if d + 1 == 2 ^ (8 * n) then
        match f.field s h (o + 8 * n) 4 with
        | .error e => .error e
        | .ok (d, s) => .ok (pos d (o + 8 * n + 32), s)
      else .ok (pos d (o + 8 * n), s)

/-- The fibre one position on. -/
def Fibre.advance (f : Fibre) (p soff : Nat) : Fibre :=
  { f with pos := BitVec.ofNat 32 p, cursor := f.cursor + 1, soff := BitVec.ofNat 64 soff }

/-- R321: the page boundaries that the stream has passed with the position. -/
def Fibre.splits (f : Fibre) (soff : Nat) : Nat :=
  let byte (o : Nat) : Nat := (f.base.toNat + (o / 8 - 1)) / 65536
  byte soff - byte f.soff.toNat

/-- The fibre read on to its end: none where a field cannot be read or is an order fault. -/
def Fibre.walkEnd (f : Fibre) (s : State) (h : Hart) : Nat → Option Fibre
  | 0 => if f.atEnd then some f else none
  | n + 1 =>
    match f.head s h with
    | .ok (.atEnd, _) => some f
    | .ok (.pos p soff, _) => (f.advance p soff).walkEnd s h n
    | _ => none

/-- R315, R316, R318: the fibre left at its end, with POS the value of its last position and SOFF the end of its stream. They
are the bytes' as they stand: nothing is accessed for them, and where the rest cannot be decoded they stay (log 27, DESIGN
CHOICE). -/
def Fibre.finish (f : Fibre) (s : State) (h : Hart) : Fibre :=
  if f.atEnd then f
  else if f.code = 0 then
    match engRead s h f.space (f.base + BitVec.ofNat 64 (4 * (f.count.toNat - 1))) 4 false with
    | .ok (p, _) => { f.toEnd with pos := BitVec.ofNat 32 p }
    | .error _ => f.toEnd
  else (f.walkEnd s h (f.count.toNat - f.cursor.toNat)).getD f.toEnd

/-- R318: the coded stream from BASE, a delta stream by the most its positions can take. -/
def fibreRange (h : Hart) (f : Fibre) : List Range :=
  rangesOf h f.space f.base (f.count.toNat * (if f.code = 0 then 4 else f.code.toNat + 4)) false

/-! ### Fibre registers (R315, R317) -/

/-- A use of a closed fibre. -/
def closedTrap (s : State) (f : BitVec 3) : Res := trap s { code := 11, val := f.setWidth 64, val2 := memVal2 none 12 }

def execFopen (f : BitVec 3) (b c : Reg) (spB : Space) (code : BitVec 2) (s : State) : Res :=
  let n := xGet s.h c
  let base := xGet s.h b
  if 2 ^ 32 ≤ n.toNat then limitTrap s (.fopen f b c spB code)
  else if code == 0 && base.toNat % 4 != 0 then trap s (misTrap base none)
  else
    next (fibrePut s f.toNat
      { opened := true, code := code, space := spB, pos := 0, base := base, count := n.setWidth 32, cursor := 0, soff := 0 })

/-- R317: the fibre advanced to the first position not below `x`, and the result. -/
def fibreSeek (s : State) (h : Hart) (f : Fibre) (x : Word) : Nat → Except Flt (Word × Fibre × State)
  | 0 => .ok (-1, f, s)
  | n + 1 =>
    match f.head s h with
    | .error e => .error e
    | .ok (.atEnd, s) => .ok (-1, f, s)
    | .ok (.disorder, s) => .ok (-2, f.finish s h, s)
    | .ok (.pos p soff, s) =>
      if x.toNat ≤ p then .ok (BitVec.ofNat 64 p, f, s)
      else fibreSeek (countDie s (dieOf h.gid) 0x31 (f.splits soff)) h (f.advance p soff) x n

def execFadv (d : Reg) (f : BitVec 3) (b : Reg) (s : State) : Res :=
  let g := fibreGet s.h f.toNat
  if !g.opened then closedTrap s f
  else if interlocked s.h (fibreRange s.h g) then stall (countEv s 0x14 1)
  else match fibreSeek s s.h g (xGet s.h b) (g.count.toNat + 1) with
    | .error e => trap s (memTrap e none)
    | .ok (r, g, s) => nextX (fibrePut s f.toNat g) d r

def execFend (d : Reg) (f : BitVec 3) (s : State) : Res :=
  let g := fibreGet s.h f.toNat
  if !g.opened then closedTrap s f else nextX s d (if g.atEnd then 1 else 0)

def execFclose (f : BitVec 3) (s : State) : Res :=
  if !(fibreGet s.h f.toNat).opened then closedTrap s f else next (fibrePut s f.toNat Fibre.closed)

/-! ### Fibre commands (R318 to R320) -/

def acceptSetOp (i : Instr) (fa fb : BitVec 3) (c : Reg) (spC : Space) (s : State) : Res :=
  let h := s.h
  let A := fibreGet h fa.toNat
  let B := fibreGet h fb.toNat
  if !A.opened then closedTrap s fa
  else if !B.opened then closedTrap s fb
  else
    let (out, cap) := if c = 0 then (0, 0) else (xGet h c, xGet h (c + 1))
    accept s (newCmd s i [0, 0, 0, 0, out, cap]
      (fibreRange h A ++ fibreRange h B ++ rangesOf h spC out (4 * cap.toNat) true))

def execFisect (d : Reg) (fa fb : BitVec 3) (c : Reg) (spC : Space) (sc : Scope) (s : State) : Res :=
  acceptSetOp (.fisect d fa fb c spC sc) fa fb c spC s
def execFunion (d : Reg) (fa fb : BitVec 3) (c : Reg) (spC : Space) (sc : Scope) (s : State) : Res :=
  acceptSetOp (.funion d fa fb c spC sc) fa fb c spC s

def execFcount (d : Reg) (fa : BitVec 3) (b : Reg) (sc : Scope) (s : State) : Res :=
  let A := fibreGet s.h fa.toNat
  if !A.opened then closedTrap s fa
  else accept s (newCmd s (.fcount d fa b sc) [0, 0, xGet s.h b, 0, 0, 0] (fibreRange s.h A))

/-- What a pass of a fibre command leaves: it goes on, the command has ended with a status, a fault of a stream read has
stopped it before the pass (R321), or one of the output before the unit (R305). -/
inductive Pass where
  | on (wrote : Bool) (s : State) (c : Cmd)
  | ended (s : State) (c : Cmd)
  | fault (f : Flt)
  | faultOut (f : Flt)
  deriving DecidableEq, Repr

/-- R321: one step is counted. -/
def countStep (s : State) : State := countDie s (dieOf s.h.gid) 0x30 1

/-- An order fault of a fibre. -/
def disordered (s : State) (c : Cmd) (f : Nat) : Pass :=
  .ended (fibrePut s f ((fibreGet s.h f).finish s (engHart s.h c))) { c with st := .ended, status := 4 }

/-- A head that has been passed is consumed. -/
def consume (s : State) (f p soff : Nat) : State :=
  let g := fibreGet s.h f
  countDie (fibrePut s f (g.advance p soff)) (dieOf s.h.gid) 0x31 (g.splits soff)

def Head.val : Head → Nat
  | .pos p _ => p
  | _ => 2 ^ 32
def Head.next (x : Head) (s : State) (f : Nat) : State :=
  match x with
  | .pos p soff => consume s f p soff
  | _ => s

/-- One pass of `fisect` or `funion`. Where fA and fB name one register, it passes each position once (log 61, DESIGN CHOICE). -/
def setPass (union out : Bool) (fa fb : Nat) (spC : Space) (s : State) (c : Cmd) : Pass :=
  let h := engHart s.h c
  match (fibreGet s.h fa).head s h with
  | .error f => .fault f
  | .ok (.disorder, s) => disordered s c fa
  | .ok (a, s) =>
    match (fibreGet s.h fb).head s h with
    | .error f => .fault f
    | .ok (.disorder, s) => disordered s c fb
    | .ok (b, s) =>
      if (a == .atEnd && b == .atEnd) || (!union && (a == .atEnd || b == .atEnd)) then
        let s1 := fibrePut s fa ((fibreGet s.h fa).finish s h)
        .ended (countStep (fibrePut s1 fb ((fibreGet s1.h fb).finish s1 h))) { c with st := .ended, unit := c.unit + 1 }
      else
        let p := Nat.min a.val b.val
        let ta := a.val == p
        let tb := b.val == p
        let on (wrote emit : Bool) (s : State) : Pass :=
          let s1 := if ta then a.next s fa else s
          let s2 := if tb && fb != fa then b.next s1 fb else s1
          .on wrote (countStep s2) { c with count := if emit then c.count + 1 else c.count }
        if !(union || (ta && tb)) then on false false s
        else if !out then on false true s
        else if c.count == (c.op 5).toNat then .ended (countStep s) { c with st := .ended, status := 5 }
        else match engWrite s h spC (c.op 4 + BitVec.ofNat 64 (4 * c.count)) 4 p false with
          | .error f => .faultOut f
          | .ok s => on true true s

/-- One pass of `fcount`. -/
def countPass (fa : Nat) (s : State) (c : Cmd) : Pass :=
  match (fibreGet s.h fa).head s (engHart s.h c) with
  | .error f => .fault f
  | .ok (.disorder, s) => disordered s c fa
  | .ok (a, s) =>
    let s1 := countStep s
    match a with
    | .pos p soff =>
      if p < (c.op 2).toNat then .on false (consume s1 fa p soff) { c with count := c.count + 1 }
      else .ended s1 { c with st := .ended, unit := c.unit + 1 }
    | _ => .ended s1 { c with st := .ended, unit := c.unit + 1 }

/-- The passes of one unit, which began at `s0` and `c0`: 256 steps, or 16 positions written. What earlier passes did
stands at a fault of a stream read; a page fault of the output leaves the unit undone. -/
def passes (f : State → Cmd → Pass) (s0 : State) (c0 : Cmd) (s : State) (c : Cmd) (wrote : Nat) : Nat → State
  | 0 => putCmd s { c with unit := c.unit + 1 }
  | n + 1 =>
    if 16 ≤ wrote then putCmd s { c with unit := c.unit + 1 }
    else match f s c with
      | .fault e => unitEnd (putCmd s c) c (.error e)
      | .faultOut e => if isPageFault e then unitEnd s0 c0 (.error e) else unitEnd (putCmd s c) c (.error e)
      | .ended s c => putCmd s c
      | .on w s c => passes f s0 c0 s c (if w then wrote + 1 else wrote) n

/-- One unit of a set operation or a count. -/
def fibreUnit (f : State → Cmd → Pass) (s : State) (c : Cmd) : State :=
  let c := { c with st := .running }
  passes f (putCmd s c) c (putCmd s c) c 0 256

/-- R320. -/
def execFsplit (d a b c : Reg) (spA spC : Space) (sc : Scope) (s : State) : Res :=
  let i : Instr := .fsplit d a b c spA spC sc
  let h := s.h
  let nr := (xGet h (a + 1)).toNat
  let S := (xGet h b).toNat
  if S = 0 ∨ 65536 < S ∨ 2 ^ 32 - 1 ≤ nr then limitTrap s i
  else if (xGet h a).toNat % 4 != 0 then trap s (misTrap (xGet h a) none)
  else if (xGet h c).toNat % 4 != 0 then trap s (misTrap (xGet h c) none)
  else
    accept s (newCmd s i [xGet h a, xGet h (a + 1), xGet h b, 0, xGet h c, 0]
      (rangesOf h spA (xGet h a) (4 * (nr + 1)) false ++ rangesOf h spC (xGet h c) (4 * (S + 1)) true))

/-- Entry `k` of the output. -/
def shareEntry (rel : List Nat) (nr nz S k : Nat) : Nat :=
  if k = 0 then 0 else if k = S then nr else (rel.findIdx? (fun r => (k * nz + S - 1) / S ≤ r)).getD nr

def fsplitUnit (s : State) (c : Cmd) (spA spC : Space) : UnitRes :=
  let nr := (c.op 1).toNat
  let S := (c.op 2).toNat
  let h := engHart s.h c
  match engRead s h spA (c.op 0) (4 * (nr + 1)) false with
  | .error f => .error f
  | .ok (v, s) =>
    let rp := (List.range (nr + 1)).map (fun r => v >>> (32 * r) % 2 ^ 32)
    if (rp.zip (rp.drop 1)).any (fun p => p.2 < p.1) then unitStop s c 4
    else
      let rel := rp.map (· - rp.headD 0)
      let nz := rel.getLastD 0
      let n := Nat.min 16 (S + 1 - 16 * c.unit)
      let data := (List.range n).foldr (fun j acc => shareEntry rel nr nz S (16 * c.unit + j) + acc <<< 32) 0
      match engWrite s h spC (c.op 4 + BitVec.ofNat 64 (64 * c.unit)) (4 * n) data false with
      | .error f => .error f
      | .ok s => unitDone s { c with count := nz } ((S + 16) / 16)

end Sys2Proof.Machine
end

