-- ==== Sys2Proof/Machine/Matrix.lean ====
section
/-! DEFINITION. The matrix engine, OP 0xC1 (R54, R309 to R313). -/

namespace Sys2Proof.Machine

/-! ### Configuration (R309, R310) -/

def execMshape (d a : Reg) (s : State) : Res :=
  let v := (xGet s.h a).toNat
  let m := Nat.min (v % 65536) 128
  let n := Nat.min (v / 65536 % 65536) 128
  let k := BitVec.ofNat 32 (v / 2 ^ 32)
  nextX (setH s { s.h with mat := { s.h.mat with m := m, n := n, k := k } }) d
    (BitVec.ofNat 64 (m + n * 65536 + k.toNat * 2 ^ 32))

def execMstride (a b : Reg) (ta tb : Bool) (s : State) : Res :=
  next (setH s { s.h with mat := { s.h.mat with
    sa := (xGet s.h a).setWidth 32, sb := (xGet s.h b).setWidth 32, ta := ta, tb := tb } })

/-! ### Tiles -/

/-- R8: a tile beyond the grant. A tile name has no address: STVAL holds its number, and the subcause is 5, as for a place that
is not granted (log 49, DESIGN CHOICE). -/
def tileTrap (s : State) (t : Nat) : Res := trap s { code := 11, val := BitVec.ofNat 64 t, val2 := memVal2 none 5 }
def hasTile (h : Hart) (t : BitVec 3) : Bool := decide (t.toNat < h.tiles.length)
/-- The place of a tile of the hart. -/
def tileAt (h : Hart) (t : BitVec 3) : Nat := accAddr (coreOf h.gid) (h.tiles.getD t.toNat 0 * Config.tileBytes)
def cellAt (h : Hart) (t : BitVec 3) (m n : Nat) : Nat := tileAt h t + 512 * m + 4 * n
def tileRange (h : Hart) (t : BitVec 3) (wr : Bool) : Range :=
  ⟨2, tileAt h t, tileAt h t + Config.tileBytes - 1, wr⟩

/-! ### Operands (R310) -/

/-- An operand: space, base, element type, stride, whether it is transposed. -/
structure MatOp where
  sp     : Space
  base   : Word
  et     : ET
  stride : Nat
  t      : Bool
  deriving DecidableEq, Repr

/-- The element offset of row `i`, column `j`. -/
def MatOp.off (o : MatOp) (i j : Nat) : Nat := if o.t then j * o.stride + i else i * o.stride + j

/-- Bytes from the base to the end of element `e` − 1. -/
def spanBytes (et : ET) (e : Nat) : Nat :=
  if et.isBlock then (e + 15) / 16 * et.blockBytes else (e * et.memBits + 7) / 8

/-- The checks at issue: an illegal orientation, or a breach of alignment. -/
inductive MatBad where
  | illegal | misaligned
  deriving DecidableEq, Repr

def MatOp.check (o : MatOp) (alongK : Bool) (k : Nat) : Option MatBad :=
  if o.et.isBlock then
    if !alongK then some .illegal
    else if o.stride % 16 != 0 || k % 16 != 0 || o.base.toNat % 2 != 0 then some .misaligned else none
  else if o.et.wholeBytes then (if o.base.toNat % (o.et.memBits / 8) != 0 then some .misaligned else none)
  else if o.stride * o.et.bits % 8 != 0 then some .misaligned else none

/-- Element `e`: its value and the flags of reading it (R40). -/
def MatOp.read (o : MatOp) (s : State) (h : Hart) (e : Nat) : Except Flt ((Val × Fl) × State) :=
  if o.et.isBlock then
    match engRead s h o.sp (o.base + BitVec.ofNat 64 (e / 16 * o.et.blockBytes)) o.et.blockBytes true with
    | .error f => .error f
    | .ok (b, s) => .ok ((blockVal o.et b (e % 16), flNone), s)
  else
    let bit := e * o.et.memBits
    match engRead s h o.sp (o.base + BitVec.ofNat 64 (bit / 8)) ((bit % 8 + o.et.memBits + 7) / 8) true with
    | .error f => .error f
    | .ok (v, s) => .ok (valOf o.et (v >>> (bit % 8)), s)

/-- Elements at a list of offsets. -/
def MatOp.readAll (o : MatOp) (s : State) (h : Hart) : List Nat → Except Flt (List (Val × Fl) × State)
  | [] => .ok ([], s)
  | e :: es =>
    match o.read s h e with
    | .error f => .error f
    | .ok (v, s) =>
      match MatOp.readAll o s h es with
      | .error f => .error f
      | .ok (vs, s) => .ok (v :: vs, s)

/-! ### One chunk (R54) -/

/-- The exact sum of products, and NV where it is a NaN; none where it is an exact zero. -/
def dotExact (xs ys : List Val) : Option (Val × Fl) :=
  let ps := (xs.zip ys).map (fun p => (vMul p.1 p.2).1)
  let pos := ps.any (fun v => v == .inf false)
  let neg := ps.any (fun v => v == .inf true)
  if ps.any vIsNan || (pos && neg) then some (.nan false, flNV)
  else if pos then some (.inf false, flNone)
  else if neg then some (.inf true, flNone)
  else
    let q := ps.foldl (fun a v => match v with | .fin q => qAdd false a q | _ => a) (qZero false)
    if qIsZero q then none else some (.fin q, flNone)

def dotInt (xs ys : List Val) : Int :=
  let i (v : Val) : Int := match v with | .fin q => if q.neg then -(q.num : Int) else q.num | _ => 0
  (xs.zip ys).foldl (fun a p => a + i p.1 * i p.2) 0

/-- The new contents of a tile element and the flags raised. -/
def accumulate (int : Bool) (old : Nat) (xs ys : List Val) : Nat × Fl :=
  if int then (encInt .n32 ((old : Int) + dotInt xs ys), flNone)
  else match dotExact xs ys with
    | none => (old, flNone)
    | some (s, f0) =>
      let (r, f1) := vAdd false (decFloat (fmtOf .f32) old) s
      let (c, f2) := encFloat .f32 false .rne r
      (c, f0 ||| f1 ||| f2)

/-- R372: some element read of the first `m` rows and `n` columns of a tile is uncorrectable. -/
def tilePoison (s : State) (h : Hart) (t : BitVec 3) (rows : List Nat) (n : Nat) : Bool :=
  rows.any (fun i => poisoned s.d.poison (cellAt h t i 0) (4 * n))
/-- The fault of such a read, which ends the command with MEMERR (R298, R372). -/
def tileErr : Flt := ⟨21, 0, 2⟩

/-- A chunk over every element of M × N: `a` gives row m of A, `b` column n of B, `n` deep. -/
def chunkInto (s : State) (h : Hart) (t : BitVec 3) (int : Bool) (m n : Nat) (a b : Nat → List Val) : State × Fl :=
  let bs := (List.range n).map b
  (List.range m).foldl (fun acc i =>
    let row := a i
    (bs.zipIdx).foldl (fun (acc : State × Fl) (col, j) =>
      let p := cellAt h t i j
      let (c, f) := accumulate int (memRead acc.1.mem p 4) row col
      ({ acc.1 with mem := memWrite acc.1.mem p 4 c }, acc.2 ||| f)) acc) (s, flNone)

def orFl (l : List (Val × Fl)) : Fl := l.foldl (fun f p => f ||| p.2) flNone
/-- The depth of a chunk. -/
def chunkDepth (k c : Nat) : Nat := Nat.min 16 (k - 16 * c)
def chunkCount (m : MatCfg) : Nat := if m.m = 0 ∨ m.n = 0 then 0 else (m.k.toNat + 15) / 16

/-! ### `mzero` -/

def execMzero (d : Reg) (tile : BitVec 3) (sc : Scope) (s : State) : Res :=
  let i : Instr := .mzero d tile sc
  if !hasTile s.h tile then tileTrap s tile.toNat
  else accept s (newCmd s i [] [tileRange s.h tile true])

def mzeroUnit (s : State) (c : Cmd) (tile : BitVec 3) : UnitRes :=
  unitDone { s with mem := memClear s.mem (tileAt s.h tile) Config.tileBytes } c 1

/-! ### `mmul` (R311) -/

def opA (m : MatCfg) (base : Word) (sp : Space) (et : ET) : MatOp := ⟨sp, base, et, m.sa.toNat, m.ta⟩
/-- B is indexed by column, then row of K: transposed, its rows are its columns. -/
def opB (m : MatCfg) (base : Word) (sp : Space) (et : ET) : MatOp := ⟨sp, base, et, m.sb.toNat, !m.tb⟩

/-- The range an operand of `r` rows, `k` deep, touches. -/
def MatOp.range (o : MatOp) (h : Hart) (r k : Nat) : List Range :=
  if r = 0 ∨ k = 0 then [] else rangesOf h o.sp o.base (spanBytes o.et (o.off (r - 1) (k - 1) + 1)) false

def matTrap (s : State) (i : Instr) (base : Word) : MatBad → Res
  | .illegal => limitTrap s i
  | .misaligned => trap s (misTrap base none)

def execMmul (d a b : Reg) (tile : BitVec 3) (spA spB : Space) (et et2 : ET) (sc : Scope) (s : State) : Res :=
  let i : Instr := .mmul d a b tile spA spB et et2 sc
  let h := s.h
  let m := h.mat
  let A := opA m (xGet h a) spA et
  let B := opB m (xGet h b) spB et2
  if !hasTile h tile then tileTrap s tile.toNat
  else match A.check (!m.ta) m.k.toNat, B.check m.tb m.k.toNat with
    | some e, _ => matTrap s i A.base e
    | none, some e => matTrap s i B.base e
    | none, none =>
      let rs := if chunkCount m = 0 then [] else A.range h m.m m.k.toNat ++ B.range h m.n m.k.toNat
      let k := newCmd s i [A.base, 0, B.base, 0, 0, 0] (tileRange h tile true :: rs)
      accept s { k with st := if chunkCount m = 0 then .ended else .notBegun }

def mmulUnit (s : State) (c : Cmd) (tile : BitVec 3) (spA spB : Space) (et et2 : ET) : UnitRes :=
  let m := c.cfg
  let h := engHart s.h c
  let A := opA m (c.op 0) spA et
  let B := opB m (c.op 2) spB et2
  let dep := chunkDepth m.k.toNat c.unit
  let offs (o : MatOp) (r : Nat) : List Nat :=
    (List.range r).flatMap (fun i => (List.range dep).map (fun j => o.off i (16 * c.unit + j)))
  match A.readAll s h (offs A m.m) with
  | .error f => .error f
  | .ok (as, s1) =>
    match B.readAll s1 h (offs B m.n) with
    | .error f => .error f
    | .ok (bs, s2) =>
      let row (l : List (Val × Fl)) (i : Nat) : List Val := ((l.drop (i * dep)).take dep).map (·.1)
      if tilePoison s s.h tile (List.range m.m) m.n then .error tileErr else
      let (s3, fl) := chunkInto s2 s2.h tile et.isInt m.m m.n (row as) (row bs)
      unitDone (countEv s3 0x16 1) { c with flags := c.flags ||| fl ||| orFl as ||| orFl bs } (chunkCount m)

/-! ### `mmulc` (R312) -/

def execMmulc (d : Reg) (src : BitVec 3) (b : Reg) (tile : BitVec 3) (spB : Space) (et et2 : ET) (rm : RM) (sc : Scope)
    (s : State) : Res :=
  let i : Instr := .mmulc d src b tile spB et et2 rm sc
  let h := s.h
  let m := h.mat
  let B := opB m (xGet h b) spB et2
  if !hasTile h src then tileTrap s src.toNat
  else if !hasTile h tile then tileTrap s tile.toNat
  else if 128 < m.k.toNat then limitTrap s i
  else if et.isBlock && m.k.toNat % 16 != 0 then trap s (misTrap B.base none)
  else match B.check m.tb m.k.toNat with
    | some e => matTrap s i B.base e
    | none =>
      let rs := if chunkCount m = 0 then [] else B.range h m.n m.k.toNat
      let k := newCmd s i [0, 0, B.base, 0, 0, 0] (tileRange h src false :: tileRange h tile true :: rs)
      accept s { k with st := if chunkCount m = 0 then .ended else .notBegun, rm := rmOf h rm true
                        efrUsed := rmOf h rm true == .efb }

/-- A conversion with its residual: one value, or a block of sixteen. -/
def convRun (et from_ : ET) (rm : RM) : List (List Nat) → Nat → List Nat × Fl × Nat
  | [], efr => ([], flNone, efr)
  | raws :: rest, efr =>
    let (cs, f, efr) :=
      if et.isBlock then
        let xs := raws.map (fun r => (valOf from_ r).1)
        if rm == .efb then
          let (b, fs, r) := packBlockEfb et (xs.map (fun v => (v, true))) efr
          ([b], fs.foldl (· ||| ·) flNone, r)
        else
          let (b, fs) := packBlock et rm xs
          ([b], fs.foldl (· ||| ·) flNone, efr)
      else
        raws.foldl (fun (acc : List Nat × Fl × Nat) raw =>
          if rm == .efb then
            let (c, g, r) := convEfb et from_ false raw acc.2.2
            (acc.1 ++ [c], acc.2.1 ||| g, r)
          else
            let (c, g) := convElem et from_ false rm raw
            (acc.1 ++ [c], acc.2.1 ||| g, acc.2.2)) ([], flNone, efr)
    let (cs', f', efr') := convRun et from_ rm rest efr
    (cs ++ cs', f ||| f', efr')

/-- The raw elements of rows of a tile in groups of `g`. -/
def tileGroups (s : State) (h : Hart) (t : BitVec 3) (rows : List Nat) (cols g : Nat) : List (List Nat) :=
  rows.flatMap (fun m => (List.range ((cols + g - 1) / g)).map (fun j =>
    (List.range (Nat.min g (cols - g * j))).map (fun i => memRead s.mem (cellAt h t m (g * j + i)) 4)))

/-- What comes before a unit: the converted A is formed whole before the first chunk, and EFR is read as the first element is
converted (R301, R312). -/
def prepare (s : State) (c : Cmd) : Cmd :=
  match c.instr with
  | .mmulc _ src _ _ _ et _ _ _ =>
    if c.unit = 0 ∧ c.conv = [] then
      let (cs, f, r) := convRun et .f32 c.rm (tileGroups s s.h src (List.range c.cfg.m) c.cfg.k.toNat 16) s.h.efr.toNat
      { c with conv := cs, flags := c.flags ||| f, efr := BitVec.ofNat 32 r }
    else c
  | .mout .. => if c.unit = 0 then { c with efr := s.h.efr } else c
  | _ => c

/-- Element (m, k) of the converted A. -/
def convAt (c : Cmd) (et : ET) (m k : Nat) : Val :=
  let K := c.cfg.k.toNat
  if et.isBlock then blockVal et (c.conv.getD (m * ((K + 15) / 16) + k / 16) 0) (k % 16)
  else (valOf et (c.conv.getD (m * K + k) 0)).1

def mmulcUnit (s : State) (c : Cmd) (src tile : BitVec 3) (spB : Space) (et et2 : ET) : UnitRes :=
  let m := c.cfg
  if c.unit = 0 && tilePoison s s.h src (List.range m.m) m.k.toNat then .error tileErr else
  let B := opB m (c.op 2) spB et2
  let dep := chunkDepth m.k.toNat c.unit
  let offs := (List.range m.n).flatMap (fun i => (List.range dep).map (fun j => B.off i (16 * c.unit + j)))
  match B.readAll s (engHart s.h c) offs with
  | .error f => .error f
  | .ok (bs, s1) =>
    let col (i : Nat) : List Val := ((bs.drop (i * dep)).take dep).map (·.1)
    let row (i : Nat) : List Val := (List.range dep).map (fun j => convAt c et i (16 * c.unit + j))
    if tilePoison s s.h tile (List.range m.m) m.n then .error tileErr else
    let (s2, fl) := chunkInto s1 s1.h tile false m.m m.n row col
    unitDone (countEv s2 0x16 1) { c with flags := c.flags ||| fl ||| orFl bs } (chunkCount m)

/-! ### `mout` (R313) -/

/-- The stride in elements. -/
def outStride (m : MatCfg) (stride : BitVec 22) : Nat := if stride = 0 then m.n else stride.toNat

def execMout (d : Reg) (src : BitVec 3) (b c : Reg) (spB : Space) (toReg : Bool) (stride : BitVec 22) (et : ET) (rm : RM)
    (sc : Scope) (s : State) : Res :=
  let i : Instr := .mout d src b c spB toReg stride et rm sc
  let h := s.h
  let m := h.mat
  let P := outStride m stride
  let base := xGet h b
  let vp := vPhys h c.toNat
  let k (rs : List Range) : Cmd :=
    { newCmd s i [0, 0, base, 0, 0, 0] (tileRange h src false :: rs) with
      st := if m.m = 0 ∨ m.n = 0 then .ended else .notBegun, rm := rmOf h rm (!et.isInt)
      efrUsed := rmOf h rm (!et.isInt) == .efb }
  if !hasTile h src then tileTrap s src.toNat
  else if toReg then
    if (bindingOf h vp).isSome || capacity h 1 et.regBytes < m.m * m.n then limitTrap s i
    else if et.isBlock && m.n % 16 != 0 then trap s (misTrap base none)
    else accept s { k [] with conv := [vp] }
  else if (if et.isBlock then m.n % 16 != 0 || P % 16 != 0 || base.toNat % 2 != 0 else base.toNat % (et.memBits / 8) != 0) then
    trap s (misTrap base none)
  else
    accept s (k (if m.m = 0 ∨ m.n = 0 then [] else rangesOf h spB base (spanBytes et ((m.m - 1) * P + m.n)) true))

/-- Elements of a row packed at a width. -/
def packRow (n : Nat) (l : List Nat) : Nat := l.foldr (fun c acc => c % 2 ^ (8 * n) + acc <<< (8 * n)) 0

def moutUnit (s : State) (c : Cmd) (src : BitVec 3) (spB : Space) (toReg : Bool) (stride : BitVec 22) (et : ET) : UnitRes :=
  let m := c.cfg
  if tilePoison s s.h src [c.unit] m.n then .error tileErr else
  let from_ : ET := if et.isInt then .i32 else .f32
  let (cs, f, r) := convRun et from_ c.rm (tileGroups s s.h src [c.unit] m.n 16) c.efr.toNat
  let c1 := { c with flags := c.flags ||| f, efr := BitVec.ofNat 32 r }
  if toReg then
    let p := c.conv.getD 0 0
    let n := if et.isBlock then 16 * et.regBytes else et.regBytes
    let o := if et.isBlock then c.unit * m.n / 16 * n else c.unit * m.n * n
    let h := s.h
    let img := imgPut (if isDead h p then 0 else vImg h p) o (n * cs.length) (packRow n cs)
    unitDone (setH s (vPutImg h p img)) c1 m.m
  else
    let n := if et.isBlock then et.blockBytes else et.memBits / 8
    let e := c.unit * outStride m stride
    let o := if et.isBlock then e / 16 * n else e * n
    match engWrite s (engHart s.h c) spB (c.op 2 + BitVec.ofNat 64 o) (n * cs.length) (packRow n cs) true with
    | .error f => .error f
    | .ok s => unitDone s c1 m.m

end Sys2Proof.Machine
end

