-- ==== Sys2Proof/Machine/Units.lean ====
section
/-! DEFINITION. A step of an engine: the next unit of an accepted command (R305). -/

namespace Sys2Proof.Machine

/-- The next unit of a command, and what it leaves. -/
def runUnit (s : State) (c : Cmd) : State :=
  let c := prepare s c
  let s := putCmd s c
  match c.instr with
  | .cpy _ _ _ _ spA spB _ => unitEnd s c (cpyUnit s c spA spB)
  | .cpys _ _ _ _ spA spB _ => unitEnd s c (cpysUnit s c spA spB)
  | .cfill _ _ _ _ spA wc _ => unitEnd s c (cfillUnit s c spA wc)
  | .pout _ _ _ _ spC _ => unitEnd s c (poutUnit s c spC)
  | .mzero _ tile _ => unitEnd s c (mzeroUnit s c tile)
  | .mmul _ _ _ tile spA spB et et2 _ => unitEnd s c (mmulUnit s c tile spA spB et et2)
  | .mmulc _ src _ tile spB et et2 _ _ => unitEnd s c (mmulcUnit s c src tile spB et et2)
  | .mout _ src _ _ spB toReg stride et _ _ => unitEnd s c (moutUnit s c src spB toReg stride et)
  | .fisect _ fa fb x spC _ => fibreUnit (setPass false (x != 0) fa.toNat fb.toNat spC) s c
  | .funion _ fa fb x spC _ => fibreUnit (setPass true (x != 0) fa.toNat fb.toNat spC) s c
  | .fcount _ fa _ _ => fibreUnit (countPass fa.toNat) s c
  | .fsplit _ _ _ _ spA spC _ => unitEnd s c (fsplitUnit s c spA spC)
  | .dput _ _ _ _ spA spB tag _ => unitEnd s c (dputUnit s c spA spB tag)
  | .dclose _ _ _ _ spA spC tag _ => unitEnd s c (dcloseUnit s c spA spC tag)
  | _ => s

/-- R303, R305: an engine performs the next unit of a command that waits for no other. -/
def execEngineUnit (e : Nat) (s : State) : Res :=
  match cmdAt s e with
  | some c => if mayRun s c then .next (runUnit (noteMatrix s c) c) else .fault .notEnabled
  | none => .fault .notEnabled

end Sys2Proof.Machine
end

