-- ==== Sys2Proof/Machine/Context.lean ====
section
/-! DEFINITION. The context of a hart as bytes (R349, R350): writing one, reading and checking one, making it a hart's
state; `ctxsave` and `ctxload` (R361, R362). Where R349 gives a section no layout of its own, log 12, DESIGN CHOICE. -/

namespace Sys2Proof.Machine

/-! ### Bytes -/

/-- `n` bytes at byte `o` of a little-endian number. -/
def bytesAt (x o n : Nat) : Nat := x >>> (8 * o) % 2 ^ (8 * n)
/-- Fields laid end to end: (bytes, value). -/
def packBytes : List (Nat × Nat) → Nat
  | [] => 0
  | (n, v) :: rest => v % 2 ^ (8 * n) + packBytes rest <<< (8 * n)
def align64 (n : Nat) : Nat := (n + 63) / 64 * 64

/-- A section: TYPE, size in bytes, contents. -/
structure Sect where
  typ  : Nat
  size : Nat
  data : Nat
  deriving DecidableEq, Repr

/-- Offsets of sections laid from `o`, each at a multiple of 64. -/
def placeSects (o : Nat) : List Sect → List (Nat × Sect)
  | [] => []
  | x :: rest => (o, x) :: placeSects (align64 (o + x.size)) rest

/-- A header, a directory and sections as one number, and its size. -/
def assemble (hdr : Nat → Nat) (xs : List Sect) : Nat × Nat :=
  let ps := placeSects (align64 (64 + 16 * xs.length)) xs
  let size := ps.foldl (fun n p => Nat.max n (p.1 + p.2.size)) (64 + 16 * xs.length)
  let dir := packBytes (ps.map (fun (o, x) => (16, x.typ + x.size * 2 ^ 32 + o * 2 ^ 64)))
  (ps.foldl (fun n (o, x) => n + (x.data % 2 ^ (8 * x.size)) <<< (8 * o)) (hdr size + dir <<< 512), size)

/-! ### The sections (R349) -/

def modeNo (m : Mode) : Nat := match m with | .U => 0 | .S => 1

/-- R350. -/
def scalarBits (s : State) (h : Hart) : Nat :=
  packBytes
    ((List.range 64).map (fun r => (8, (xGetIn h .U r).toNat)) ++
     [1, 2, 3, 4].map (fun r => (8, (xGetIn h .S r).toNat)) ++
     [(8, h.pc.toNat), (8, h.linkpc.toNat), (8, h.flags.toNat), (8, h.fenable.toNat), (8, s.clk), (8, h.dead.toNat),
      (8, h.opened.toNat), (2, h.vl), (2, h.vlcap), (2, h.vstart), (2, h.ffi), (2, h.theta.toNat), (2, h.floor.toNat),
      (1, h.rmode.toNat), (1, h.space.toNat), (1, h.cbase.toNat), (1, h.armsp), (4, h.efr.toNat), (1, modeNo h.mode), (3, 0),
      (8, h.sstatus.toNat), (8, h.svec.toNat), (8, h.sepc.toNat), (8, h.scause.toNat), (8, h.stval.toNat), (8, h.stval2.toNat)] ++
     h.sscratch.toList.map (fun x => (8, x.toNat)) ++
     [(8, h.sie.toNat), (8, h.sip.toNat), (8, h.ctxroot.toNat), (8, h.ringctl.toNat), (8, h.ringpos.toNat), (8, h.svstart)])

/-- The vector registers that are written. -/
def liveRegs (dead : BitVec 64) : List Nat := (List.range 64).filter (fun r => r != 0 && !dead.getLsbD r)

/-- R315. -/
def fibreBits (f : Fibre) : Nat :=
  if f.opened then
    packBytes [(1, 1), (1, f.code.toNat), (1, f.space.code.toNat), (1, 0), (4, f.pos.toNat), (8, f.base.toNat), (4, f.count.toNat),
      (4, f.cursor.toNat), (8, f.soff.toNat)]
  else 0

/-- Pending traps in the order in which their commands were accepted. -/
def sortPend (ps : List Pend) : List Pend := ps.foldr insert []
where
  insert (x : Pend) : List Pend → List Pend
    | [] => [x]
    | y :: ys => if x.ord ≤ y.ord then x :: y :: ys else y :: insert x ys

/-- A command of a context, whether only its traps wait, and those traps (R339). -/
structure CmdSave where
  cmd   : Cmd
  spent : Bool
  traps : List Pend
  deriving DecidableEq, Repr

/-- Commands in order of acceptance. -/
def sortCmds (cs : List CmdSave) : List CmdSave := cs.foldr insert []
where
  insert (x : CmdSave) : List CmdSave → List CmdSave
    | [] => [x]
    | y :: ys => if x.cmd.ord ≤ y.cmd.ord then x :: y :: ys else y :: insert x ys

/-- The traps that commands have left, and the others, the device's own. -/
def engTraps (h : Hart) : List Pend := h.pend.filter (fun p => p.cmd.isSome)
def ownTraps (h : Hart) : List Pend := h.pend.filter (fun p => p.cmd.isNone)

/-- The commands that a context holds, with their waiting traps: those that have not written their tokens, and those that have
and whose traps wait. -/
def savedCmds (h : Hart) : List CmdSave :=
  let of (n : Nat) : List Pend := (engTraps h).filter (fun p => p.ord == n)
  let gone := (((engTraps h).map (·.ord)).eraseDups.filter (fun n => !h.cmds.any (fun c => c.ord == n))).filterMap (fun n =>
    ((of n).head?.bind (·.cmd)).map (fun c => (⟨{ c with st := .ended }, true, of n⟩ : CmdSave)))
  sortCmds (h.cmds.map (fun c => ⟨c, false, of c.ord⟩) ++ gone)

/-- Progress records in order of acceptance, then their attachments; `off` is the section's offset in the context. -/
def commandsSect (h : Hart) (off : Nat) : Sect :=
  let cs := savedCmds h
  let (recs, atts, size) := cs.foldl (fun (rs, as, o) x =>
    let b := attachBytes x.cmd x.spent x.traps
    (rs ++ [(128, progressRecord x.cmd b.length (off + o))], as ++ b.map (fun x => (1, x.toNat)), o + b.length))
    ([], [], 128 * cs.length)
  ⟨7, size, packBytes (recs ++ atts)⟩

/-- A pending trap in its 8 bytes of MEMBER: bit 0 set, E, OVF, the code. -/
def trapWord (p : Pend) : Nat := 1 + (if p.e then 2 else 0) + (if p.ovf then 4 else 0) + p.code * 2 ^ 8
/-- P of a pending wait: bit 16 valid, bit 17 `.f`. -/
def waitWord (b : BarWait) : Nat := b.phase.toNat + 2 ^ 16 + (if b.farm then 2 ^ 17 else 0)

/-- The four words of MEMBER after its first four: pending traps, the device's own first; in words that they leave, older waits,
ea with bit 1 set and P. -/
def memberWords (h : Hart) : List Nat :=
  ((ownTraps h ++ sortPend (engTraps h)).map trapWord).take 4 ++
    (h.barWait.drop 1).flatMap (fun b => [b.ea.toNat + 2, waitWord b])

/-- MEMBER (log 12, DESIGN CHOICE, in what R349 does not give): FGEN; the word of the last `bar`, 1 for none; the newest pending
wait: ea, and P with the bits of `waitWord`, bit 18: FMR is set for the code that a handler interrupted, and not in force, the
trace entries written since EN was set from bit 20 on, and from bit 32 on the status of a double trap whose hart still waits for
its commands (R341), bit 32 set; then `memberWords`. -/
def memberBits (h : Hart) : Nat :=
  let b := h.barWait.head?
  let more := (if fmr h && !h.fmrun then 2 ^ 18 else 0) + Nat.min h.ringsince Config.traceEntries * 2 ^ 20 +
    (match h.ending with | some st => 2 ^ 32 + st.toNat * 2 ^ 40 | none => 0)
  packBytes ([(8, h.fgen.toNat), (8, (h.barWord.getD 1).toNat), (8, (b.map (·.ea.toNat)).getD 0), (8, (b.map waitWord).getD 0 + more)] ++
    (List.range 4).map (fun k => (8, (memberWords h).getD k 0)))

def loopBits (h : Hart) : Nat :=
  (loopVectors h true).foldl (fun x (j, w) => x + vecBits w h.vlcap <<< (8 * (256 + j * (h.vlcap * 2)))) (loopHeader h)

/-- The stores and fault records of a hart that a context may carry. -/
structure CtxParts where
  frq   : List Frq
  slabs : List Memory
  tiles : List Memory
  deriving DecidableEq, Repr

/-- Cells numbered from 0 as one number. -/
def cellSum (m : Memory) : Nat := m.foldl (fun x c => x + c.2.toNat <<< (8 * c.1)) 0

def liveParts (s : State) (h : Hart) : CtxParts :=
  let gc := coreOf h.gid
  { frq := frqOf s h.gid
    slabs := h.slabs.map (fun p => memSlice s.mem (scrAddr gc (p * Config.slabBytes)) Config.slabBytes)
    tiles := h.tiles.map (fun p => memSlice s.mem (accAddr gc (p * Config.tileBytes)) Config.tileBytes) }

/-- R373: the lanes that a context counts are those that live still. -/
def savedLanes (s : State) (h : Hart) : Nat := Nat.min h.lanes (liveLanes s.d.retired h.gid h.clusters)

/-- The sections of a context, `cmdsAt` being the offset of section 7. -/
def contextSects (s : State) (h : Hart) (ps : CtxParts) (slabs ring : Bool) (cmdsAt : Nat) : List Sect :=
  let lanes := savedLanes s h
  [⟨1, 1024, scalarBits s h⟩,
   ⟨2, (liveRegs h.dead).length * (lanes * Config.laneBytes),
     packBytes ((liveRegs h.dead).map (fun r => (lanes * Config.laneBytes, (vImg h r).toNat)))⟩,
   ⟨3, 48 * h.vlcap, packBytes ((List.range 24).map (fun r => (2 * h.vlcap, (wGet h r).toNat)))⟩,
   ⟨4, 256 + 40 * h.vlcap, loopBits h⟩,
   ⟨5, 8 * ((h.vlcap + 63) / 64), h.fmask.toNat⟩,
   ⟨6, 272, packBytes ((16, cfgBits h.mat) :: h.fibres.toList.map (fun f => (32, fibreBits f)))⟩,
   commandsSect h cmdsAt,
   ⟨8, 128, packBytes (h.binds.flatMap (fun b =>
      [(8, b.reg + b.et.code.toNat * 256), (8, b.block.toNat), (8, b.strip), (8, b.popped)]))⟩,
   ⟨9, 32 * ps.frq.length, packBytes (ps.frq.map (fun r => (32, frqBits s.d.devid r)))⟩,
   ⟨10, 64, memberBits h⟩] ++
  (if slabs then
    [⟨11, ps.slabs.length * Config.slabBytes, packBytes (ps.slabs.map (fun m => (Config.slabBytes, cellSum m)))⟩,
     ⟨12, ps.tiles.length * Config.tileBytes, packBytes (ps.tiles.map (fun m => (Config.tileBytes, cellSum m)))⟩] else []) ++
  (if ring then [⟨13, 8192, packBytes ((List.range 256).map (fun k => (32, ringEntry h k)))⟩] else [])

/-- A context as one number, and its size. -/
def contextBits (s : State) (h : Hart) (ps : CtxParts) (slabs ring : Bool) : Nat × Nat :=
  let xs0 := contextSects s h ps slabs ring 0
  let at7 := ((placeSects (align64 (64 + 16 * xs0.length)) xs0).find? (fun p => p.2.typ == 7)).elim 0 (fun p => p.1)
  let xs := contextSects s h ps slabs ring at7
  assemble (fun size => packBytes
    [(4, 0x1A585443), (1, 1), (1, 0), (2, Config.generation), (8, size), (2, xs.length), (1, savedLanes s h), (1, h.clusters),
     (4, nodeOf s.d.devid h.gid), (2, h.ctxid.toNat)]) xs

/-! ### Reading (R349, R362) -/

/-- The directory entries of `n` sections: TYPE, size, offset; none where one is malformed. -/
def readDir (dir n size : Nat) (maxTyp : Nat) : Option (List (Nat × Nat × Nat)) :=
  let es := (List.range n).map (fun k =>
    let e := bytesAt dir (16 * k) 16
    (e % 2 ^ 16, e / 2 ^ 16 % 2 ^ 16, e / 2 ^ 32 % 2 ^ 32, e / 2 ^ 64))
  let ok (e : Nat × Nat × Nat × Nat) : Bool :=
    e.1 != 0 && decide (e.1 ≤ maxTyp) && e.2.1 == 0 && e.2.2.2 % 64 == 0 && decide (64 + 16 * n ≤ e.2.2.2) &&
      decide (e.2.2.2 + e.2.2.1 ≤ size)
  if es.all ok && decide ((es.map (·.1)).eraseDups.length = n) then some (es.map (fun e => (e.1, e.2.2.1, e.2.2.2))) else none

/-- What a header names. -/
structure CtxHead where
  size  : Nat
  nsec  : Nat
  lanes : Nat
  clus  : Nat
  ctxid : Nat
  deriving DecidableEq, Repr

/-- R349: the header, or none where a field is refused. -/
def readCtxHead (h : Nat) : Option CtxHead :=
  let c : CtxHead := ⟨bytesAt h 8 8, bytesAt h 16 2, bytesAt h 18 1, bytesAt h 19 1, bytesAt h 24 2⟩
  if bytesAt h 0 4 == 0x1A585443 && bytesAt h 4 1 == 1 && bytesAt h 5 1 == 0 && bytesAt h 6 2 == Config.generation &&
      bytesAt h 20 4 / 2 ^ 20 == 0 && bytesAt h 26 38 == 0 && [1, 2, 4, 8].contains c.clus && decide (c.nsec ≤ 13) then some c
  else none

/-- A section's contents by TYPE, 0 where absent. -/
def sectOf (xs : List Sect) (t : Nat) : Sect := (xs.find? (fun x => x.typ == t)).getD ⟨t, 0, 0⟩

/-- Sizes that R349 fixes, for `v` elements of VLCAP and `l` live registers. -/
def sizesOk (c : CtxHead) (xs : List Sect) : Bool :=
  let sc := (sectOf xs 1).data
  let v := bytesAt sc 602 2
  let l := (liveRegs (BitVec.ofNat 64 (bytesAt sc 584 8))).length
  let is (t n : Nat) : Bool := (sectOf xs t).size == n
  (List.range 10).all (fun t => xs.any (fun x => x.typ == t + 1)) && is 1 1024 && decide (v ≤ 24576) &&
    is 2 (l * c.lanes * 768) && is 3 (48 * v) && is 4 (256 + 40 * v) && is 5 (8 * ((v + 63) / 64)) && is 6 272 && is 8 128 &&
    (sectOf xs 9).size % 32 == 0 && is 10 64 && (sectOf xs 11).size % Config.slabBytes == 0 &&
    (sectOf xs 12).size % Config.tileBytes == 0 && (is 13 0 || is 13 8192)

/-- The progress records of a section of `size` bytes, record `k` onward, `atts` bytes of attachments before it; none where
they do not fill it. -/
def recordsOf (data size k atts : Nat) : Nat → Option (List Nat)
  | 0 => if 128 * k + atts = size then some [] else none
  | n + 1 =>
    if 128 * k + atts = size then some []
    else if size < 128 * (k + 1) + atts then none
    else
      let r := bytesAt data (128 * k) 128
      (recordsOf data size (k + 1) (atts + bytesAt r 104 4) n).map (r :: ·)

/-- The progress records of a context. -/
def ctxRecords (xs : List Sect) : Option (List Nat) :=
  let x := sectOf xs 7
  recordsOf x.data x.size 0 0 (x.size / 128)

/-- R345: the reserved fields of CONFIG and of a progress record. -/
def configOk (b : Nat) : Bool := b / 2 ^ 18 % 2 ^ 14 == 0
def recordOk (r : Nat) : Bool :=
  bytesAt r 12 4 == 0 && configOk (bytesAt r 80 16) && decide (bytesAt r 96 1 ≤ 3) && bytesAt r 108 4 == 0

/-- Offset and mask of the reserved bits of registers in SCALAR, and bit 0 of DEAD (R350): LINKPC (R12), FLAGS, FENABLE (R11),
SSTATUS, SCAUSE (R337), SIE, SIP, CTXROOT, RINGCTL, RINGPOS (R336, R351). -/
def reservedBits : List (Nat × Word) :=
  [(552, 2), (560, 0xFFFFFF80), (568, ~~~ 0x1F), (584, 1), (624, ~~~ 0xF8), (648, ~~~ 0xF0FF), (704, ~~~ 3), (712, ~~~ 3),
   (720, ~~~ 0xFFFFFFFFFF000), (728, ~~~ 1), (736, 0xFFFFFFFF00000000)]
/-- A structure that the device reads holds zero in them (R4). -/
def scalarOk (sc : Nat) : Bool := reservedBits.all (fun (o, m) => BitVec.ofNat 64 (bytesAt sc o 8) &&& m == 0)
/-- The zero bits of an entry of the retire trace ring (R351). -/
def ringOk (e : Nat) : Bool := bytesAt e 8 8 / 2 ^ 62 == 0 && bytesAt e 16 8 / 2 ^ 60 == 0

/-- Reserved fields within sections (R362). -/
def fieldsOk (xs : List Sect) : Bool :=
  let sc := (sectOf xs 1).data
  let lp := (sectOf xs 4).data
  let eng := (sectOf xs 6).data
  let fr := sectOf xs 9
  scalarOk sc && (List.range ((sectOf xs 13).size / 32)).all (fun k => ringOk (bytesAt (sectOf xs 13).data (32 * k) 32)) &&
    bytesAt sc 621 3 == 0 && bytesAt sc 752 272 == 0 && decide (bytesAt sc 620 1 ≤ 1) &&
    !loopHeaderBad (lp % 2 ^ 2048) && bytesAt lp 132 4 == bytesAt sc 602 2 && configOk (bytesAt eng 0 16) &&
    (List.range 8).all (fun f => bytesAt eng (16 + 32 * f + 3) 1 == 0) &&
    (List.range (fr.size / 32)).all (fun k => bytesAt fr.data (32 * k + 24) 4 / 2 ^ 20 % 2 ^ 11 == 0) &&
    ((ctxRecords xs).elim false (fun rs => rs.all recordOk))

/-! ### Commands from their records (R326, R345) -/

/-- The scalar registers named by A, B and C of a command. -/
def cmdRegs : Instr → Reg × Reg × Reg
  | .cpy _ a b c _ _ _ | .cpys _ a b c _ _ _ | .cfill _ a b c _ _ _ | .dput _ a b c _ _ _ _ | .dclose _ a b c _ _ _ _
  | .fsplit _ a b c _ _ _ => (a, b, c)
  | .mmul _ a b _ _ _ _ _ _ => (a, b, 0)
  | .mmulc _ _ b _ _ _ _ _ _ | .mout _ _ b _ _ _ _ _ _ _ | .fcount _ _ b _ => (0, b, 0)
  | .fisect _ _ _ c _ _ | .funion _ _ _ c _ _ => (0, 0, c)
  | _ => (0, 0, 0)

/-- The acceptance of a command. -/
def acceptEng (i : Instr) (s : State) : Res :=
  match i with
  | .cpy d a b c spA spB sc => execCpy d a b c spA spB sc s
  | .cpys d a b c spA spB sc => execCpys d a b c spA spB sc s
  | .cfill d a b c spA wc sc => execCfill d a b c spA wc sc s
  | .mzero d t sc => execMzero d t sc s
  | .mmul d a b t spA spB et et2 sc => execMmul d a b t spA spB et et2 sc s
  | .mmulc d src b t spB et et2 rm sc => execMmulc d src b t spB et et2 rm sc s
  | .mout d src b c spB toReg stride et rm sc => execMout d src b c spB toReg stride et rm sc s
  | .fisect d fa fb c spC sc => execFisect d fa fb c spC sc s
  | .funion d fa fb c spC sc => execFunion d fa fb c spC sc s
  | .fsplit d a b c spA spC sc => execFsplit d a b c spA spC sc s
  | .fcount d fa b sc => execFcount d fa b sc s
  | .dput d a b c spA spB tag sc => execDput d a b c spA spB tag sc s
  | .dclose d a b c spA spC tag sc => execDclose d a b c spA spC tag sc s
  | _ => .fault .notEnabled

/-- The command that the values of its operand registers accept: its ranges, order of bytes and rounding mode. One that
the grants would not accept anew is a command without ranges; none where the slot is no engine command. -/
def reissued (s : State) (h : Hart) (i : Instr) (ops : List Word) (m : MatCfg) : Option Cmd :=
  let plain : Cmd := newCmd (setH s h) i ops []
  match i with
  | .pout _ _ _ _ spC _ =>
    some { plain with ranges := rangesOf h spC (ops.getD 4 0) (ops.getD 5 0).toNat true }
  | _ =>
    if (engOf i).isNone then none else
    let (a, b, c) := cmdRegs i
    let put (h : Hart) (r : Reg) (k : Nat) : Hart := xSet h r (ops.getD k 0)
    let h1 := put (put (put (put (put (put { h with mat := m, cmds := [] } (c + 1) 5) (b + 1) 3) (a + 1) 1) c 4) b 2) a 0
    match acceptEng i (setH s h1) with
    | .next s1 => some (s1.h.cmds.getLast?.getD plain)
    | _ => some plain

/-- The engine state of an attachment, after the bank and STAMP with which it begins (as `attachBytes` writes it). -/
def attached (c : Cmd) (att : Nat) : Cmd :=
  let w (k : Nat) : Nat := bytesAt att (8 * k) 8
  let rmOfCode (n : Nat) : RM := ([RM.rne, .rtz, .rup, .rdn, .rto, .efb].find? (fun r => r.code.toNat == n)).getD .rne
  match c.instr with
  | .mmulc _ _ _ _ _ et _ _ _ =>
    let n := if et.isBlock then et.blockBytes else et.regBytes
    { c with rm := rmOfCode (w 0), efrUsed := rmOfCode (w 0) == .efb
             conv := (List.range (w 1)).map (fun k => bytesAt att (16 + n * k) n) }
  | .mout _ _ _ _ _ toReg _ _ _ _ =>
    { c with rm := rmOfCode (w 0), efrUsed := rmOfCode (w 0) == .efb, conv := if toReg then [w 1] else [] }
  | .cpy .. | .cpys .. =>
    let nums (o n : Nat) : List Nat := (List.range n).map (fun k => w (o + k))
    if w 0 = 0 then c else { c with home := ⟨w 0 - 1, nums 3 (Nat.min (w 1) 16), nums (3 + Nat.min (w 1) 16) (Nat.min (w 2) 8)⟩ }
  | .pout .. => { c with count := w 0, walk := (List.range (w 1)).map (fun k => BitVec.ofNat 128 (bytesAt att (16 + 16 * k) 16)) }
  | .fisect .. | .funion .. | .fcount .. | .fsplit .. => { c with count := w 0 }
  | _ => c

def cfgOfBits (b : Nat) : MatCfg :=
  { m := b % 256, n := b / 2 ^ 8 % 256, ta := b.testBit 16, tb := b.testBit 17, k := BitVec.ofNat 32 (b / 2 ^ 32)
    sa := BitVec.ofNat 32 (b / 2 ^ 64), sb := BitVec.ofNat 32 (b / 2 ^ 96) }

/-- The traps with which an attachment of `len` bytes begins, left by the command `c`; none where it ends before they do. -/
def trapsOf (c : Cmd) (att len : Nat) : Option (List Pend) :=
  let n := bytesAt att 1 3
  if len != 0 && len < 8 + 24 * n then none
  else some ((List.range n).map (fun k =>
    let b := bytesAt att (8 + 24 * k) 24
    { code := bytesAt b 0 1, val := BitVec.ofNat 64 (bytesAt b 8 8), val2 := BitVec.ofNat 64 (bytesAt b 16 8), e := b.testBit 8
      ovf := b.testBit 9, ord := c.ord, cmd := some c }))

/-- A command read from its record, its attachment being the `len` bytes of `att`; `h` is the hart with everything else
restored. -/
def cmdOfRecord (s : State) (h : Hart) (ord rec att len : Nat) : Option CmdSave :=
  match decode (BitVec.ofNat 96 rec) with
  | .error _ => none
  | .ok i =>
    let ops := (List.range 6).map (fun k => BitVec.ofNat 64 (bytesAt rec (32 + 8 * k) 8))
    let m := cfgOfBits (bytesAt rec 80 16)
    let h := if len = 0 then h else { h with mode := if att.testBit 0 then .S else .U }
    (reissued s h i ops m).bind (fun c =>
      let c := attached { c with
        cfg := m
        stamp := BitVec.ofNat 32 (bytesAt att 4 4)
        entry := bytesAt rec 99 1 % 64
        pc := BitVec.ofNat 64 (bytesAt rec 16 8)
        unit := bytesAt rec 24 8
        st := match bytesAt rec 96 1 with | 0 => .notBegun | 1 => .running | 2 => .suspended | _ => .ended
        status := bytesAt rec 97 1
        flags := BitVec.ofNat 5 (bytesAt rec 98 1)
        efr := BitVec.ofNat 32 (bytesAt rec 100 4)
        faultVa := BitVec.ofNat 64 (bytesAt rec 120 8)
        ord := ord } (att / 2 ^ (64 + 192 * bytesAt att 1 3))
      (trapsOf c att len).map (fun ps => ⟨c, att.testBit 1, ps⟩))

/-- The commands of the records of a section at offset `off` of its context; none where an attachment lies outside it, or
a slot is no engine command. -/
def readCmds (s : State) (h : Hart) (x : Sect) (off k : Nat) : List Nat → Option (List CmdSave)
  | [] => some []
  | r :: rs =>
    let len := bytesAt r 104 4
    let at_ := bytesAt r 112 8
    if len != 0 && !(decide (off ≤ at_) && decide (at_ + len ≤ off + x.size)) then none
    else match cmdOfRecord s h (k + 1) r (bytesAt x.data (at_ - off) len) len, readCmds s h x off (k + 1) rs with
      | some c, some cs => some (c :: cs)
      | _, _ => none

/-! ### Making a context a hart's state (R362) -/

def bitsReg (sc o : Nat) : Word := BitVec.ofNat 64 (bytesAt sc o 8)

/-- CTXROOT of a SCALAR section, and of a context's sections. -/
def ctxRootOf (sc : Nat) : Word := bitsReg sc 720 &&& 0xFFFFFFFFFF000
def ctxRoot (xs : List Sect) : Word := ctxRootOf (sectOf xs 1).data

/-- The SCALAR section, under the rules of R13. -/
def loadScalar (h : Hart) (sc : Nat) : Hart :=
  let cap := bytesAt sc 602 2
  let mode : Mode := if bytesAt sc 620 1 = 0 then .U else .S
  let ss := bitsReg sc 624
  let h := { h with
    x := Vector.ofFn (fun r : Fin 64 => if r.val = 0 then 0 else bitsReg sc (8 * r.val))
    sx := Vector.ofFn (fun r : Fin 4 => bitsReg sc (512 + 8 * r.val))
    pc := bitsReg sc 544
    linkpc := bitsReg sc 552 &&& ~~~ 2
    dead := bitsReg sc 584 &&& ~~~ 1
    opened := bitsReg sc 592 &&& ~~~ 1
    vlcap := cap
    vl := Nat.min (bytesAt sc 600 2 % 32768) cap
    cbase := BitVec.ofNat 4 (bytesAt sc 614 1)
    armsp := if bytesAt sc 615 1 ≤ 8 then bytesAt sc 615 1 else h.armsp
    mode := mode
    sstatus := setBit (ss &&& 0x78) ssPPEND (h.stop.isSome && ss.getLsbD ssINH)
    fmrun := ss.getLsbD ssFMR
    svec := bitsReg sc 632
    sepc := bitsReg sc 640
    scause := bitsReg sc 648 &&& 0xF0FF
    stval := bitsReg sc 656
    stval2 := bitsReg sc 664
    sscratch := Vector.ofFn (fun r : Fin 4 => bitsReg sc (672 + 8 * r.val))
    sie := bitsReg sc 704 &&& 3
    sip := bitsReg sc 712 &&& 3
    ctxroot := ctxRootOf sc
    ringctl := bitsReg sc 728 &&& 1
    ringpos := BitVec.ofNat 32 (bytesAt sc 736 4)
    svstart := bytesAt sc 744 2 % 32768 }
  let put (h : Hart) (i o n : Nat) : Hart := crWrite h i (BitVec.ofNat 64 (bytesAt sc o n))
  [(0x00C, 560, 8), (0x00D, 568, 8), (0x002, 604, 2), (0x003, 606, 2), (0x004, 608, 2), (0x005, 610, 2), (0x006, 612, 1),
   (0x008, 613, 1), (0x007, 616, 4)].foldl (fun h (i, o, n) => put h i o n) h

/-- The registers and loop state. -/
def loadRegs (h : Hart) (c : CtxHead) (xs : List Sect) : Hart :=
  let vb := c.lanes * Config.laneBytes
  let vr := (sectOf xs 2).data
  let live := liveRegs h.dead
  let v (r : Nat) : VImage :=
    match live.findIdx? (fun q => q == r) with
    | some k => BitVec.ofNat 196608 (bytesAt vr (vb * k) vb)
    | none => 0
  let wr := (sectOf xs 3).data
  let lp := (sectOf xs 4).data
  let n := h.vlcap * 2
  let h := { h with
    v := Vector.ofFn (fun r : Fin 64 => v r.val)
    w := Vector.ofFn (fun r : Fin 24 => wClean (BitVec.ofNat 393216 (bytesAt wr (n * r.val) n)) h.vlcap)
    fmask := BitVec.ofNat 24576 (sectOf xs 5).data }
  fillLoops { h with
    loops := h.loops.map (fun l => { l with saved := 0 })
    arms := Vector.replicate 8 Arm.zero } (lp % 2 ^ 2048) ((List.range 20).map (fun j => (j, bytesAt lp (256 + j * n) n)))

def fibreOfBits (b : Nat) : Fibre :=
  if b % 2 = 0 then Fibre.closed
  else
    { opened := true, code := BitVec.ofNat 2 (bytesAt b 1 1), space := spaceOf (bytesAt b 2 1), pos := BitVec.ofNat 32 (bytesAt b 4 4)
      base := bitsReg b 8, count := BitVec.ofNat 32 (bytesAt b 16 4), cursor := BitVec.ofNat 32 (bytesAt b 20 4)
      soff := bitsReg b 24 }

/-- A binding whose control block is read again (R269); a block that cannot be read leaves a stream at its end. -/
def loadBinding (s : State) (h : Hart) (e : Nat) : Option (Binding × State) :=
  let reg := e % 64
  if reg = 0 then none
  else
    let b : Binding :=
      { reg := reg, et := etOf (bytesAt e 1 1), block := bitsReg e 8, base := 0, index := 0, stride := 0, scale := 0, count := 0
        ctl := 0, strip := bytesAt e 16 8, popped := bytesAt e 24 8, queue := [] }
    match translate s h .load b.block 64 with
    | .error _ => some (b, s)
    | .ok (pa, s1) =>
      let w (i : Nat) : Word := BitVec.ofNat 64 (memRead s1.mem (pa + 8 * i) 8)
      some ({ b with base := w 0, index := w 1, stride := w 2, scale := w 3, count := w 4, ctl := w 5 }, s1)

def loadBindings (h : Hart) (data : Nat) : State → Nat → List Binding × State
  | s, 0 => ([], s)
  | s, n + 1 =>
    let (bs, s1) := loadBindings h data s n
    match loadBinding s1 h (bytesAt data (32 * n) 32) with
    | some (b, s2) => (bs ++ [b], s2)
    | none => (bs, s1)

/-- A fault record of the hart at `gid` read from 32 bytes (R343). -/
def frqOfBits (gid b : Nat) : Frq :=
  { pc := bitsReg b 0, va := bitsReg b 8, elem := BitVec.ofNat 32 (bytesAt b 16 4), weight := BitVec.ofNat 16 (bytesAt b 20 2)
    kind := bytesAt b 22 1, cause := bytesAt b 23 1, gid := gid, ovf := (bytesAt b 24 4).testBit 31
    seq := BitVec.ofNat 32 (bytesAt b 28 4) }

/-- The device's own trap of a word of MEMBER. -/
def ownTrap (w : Nat) : Option Pend :=
  if w % 4 = 1 then [rfCheck, lanesGone, breakRequest].find? (fun p => p.code == bytesAt w 1 1) else none

/-- The older waits among words of MEMBER. -/
def olderWaits : List Nat → List BarWait
  | [] => []
  | [_] => []
  | w :: p :: rest =>
    if w % 8 = 2 then ⟨BitVec.ofNat 64 (w - 2), BitVec.ofNat 16 p, p.testBit 17⟩ :: olderWaits rest else olderWaits (p :: rest)

/-- MEMBER. -/
def loadMember (h : Hart) (xs : List Sect) : Hart :=
  let m := (sectOf xs 10).data
  let p := bytesAt m 24 8
  let word := bitsReg m 8
  let ws := (List.range 4).map (fun k => bytesAt m (32 + 8 * k) 8)
  { h with
    fgen := BitVec.ofNat 16 (bytesAt m 0 8)
    barWord := if word.toNat % 8 = 0 then some word else none
    barWait := (if p.testBit 16 then [⟨bitsReg m 16, BitVec.ofNat 16 p, p.testBit 17⟩] else []) ++ olderWaits ws
    fmrun := h.fmrun && !p.testBit 18
    pend := ws.filterMap ownTrap
    ending := if p.testBit 32 then some (BitVec.ofNat 8 (p / 2 ^ 40)) else none
    ringsince := if (sectOf xs 13).size = 0 then h.ringsince else p / 2 ^ 20 % 2 ^ 9 }

/-- Stores of a hart filled from a section, in order; an absent section leaves them. -/
def loadStores (m : Memory) (at_ : Nat → Nat) (bytes : Nat) (ps : List Nat) (x : Sect) : Memory :=
  (ps.zipIdx).foldl (fun m (p, k) =>
    if (k + 1) * bytes ≤ x.size then memWrite m (at_ (p * bytes)) bytes (bytesAt x.data (k * bytes) bytes) else m) m

/-- R362: the hart in front takes the state of a context: its sections, and the offset of section 7. -/
def loadContext (s : State) (c : CtxHead) (xs : List Sect) (cmdsAt : Nat) : Option State :=
  let gid := s.h.gid
  let gc := coreOf gid
  let h1 := loadMember (loadRegs (loadScalar s.h (sectOf xs 1).data) c xs) xs
  let eng := (sectOf xs 6).data
  let tr := sectOf xs 13
  let entries := ((List.range 256).map (fun k => bytesAt tr.data (32 * k) 32)).filter (fun e => e % 4 != 3)
  let h2 := { h1 with
    mat := cfgOfBits (bytesAt eng 0 16)
    fibres := Vector.ofFn (fun f : Fin 8 => fibreOfBits (bytesAt eng (16 + 32 * f.val) 32))
    ring := if tr.size = 0 then h1.ring else entries.reverse.map (fun e => BitVec.ofNat 256 e)
    xfer := none
    second := false
    replay := none
    sending := none
    run := if h1.ending.isSome then .parked .hexit else .running
    cmds := [] }
  let m1 := loadStores s.mem (scrAddr gc) Config.slabBytes h2.slabs (sectOf xs 11)
  let s1 := { s with mem := loadStores m1 (accAddr gc) Config.tileBytes h2.tiles (sectOf xs 12) }
  let (bs, s2) := loadBindings h2 (sectOf xs 8).data s1 4
  let x9 := sectOf xs 9
  let recs := (List.range (x9.size / 32)).map (fun k => frqOfBits gid (bytesAt x9.data (32 * k) 32))
  let others := (frqAll s2 gid).filter (fun r => r.gid != gid)
  let s3 := frqSet s2 gid (others ++ recs.take (Config.frqRecords - others.length))
  let h3 := { h2 with binds := bs }
  match (ctxRecords xs).bind (readCmds s3 h3 (sectOf xs 7) cmdsAt 0) with
  | some cs => some (setH s3 { h3 with
      cmds := (cs.filter (fun x => !x.spent)).map (·.cmd), pend := h3.pend ++ cs.flatMap (·.traps) })
  | none => none

/-! ### A context as one number -/

/-- The sections of a directory, of which the contents lie at `o` of a number. -/
def cutSects (bits o : Nat) (es : List (Nat × Nat × Nat)) : List Sect := es.map (fun (t, n, p) => ⟨t, n, bytesAt bits (o + p) n⟩)
/-- The offset of a section. -/
def offsetOf (es : List (Nat × Nat × Nat)) (t : Nat) : Nat := (es.find? (fun e => e.1 == t)).elim 0 (fun e => e.2.2)

/-- A context that begins a number of `limit` bytes: its header, its sections and the offset of section 7; none where R362 would
refuse its form. -/
def parseCtx (bits limit : Nat) : Option (CtxHead × List Sect × Nat) :=
  match readCtxHead (bytesAt bits 0 64) with
  | none => none
  | some c =>
    if limit < 64 || limit < c.size then none
    else match readDir (bytesAt bits 64 (16 * c.nsec)) c.nsec c.size 13 with
      | none => none
      | some es =>
        let xs := cutSects bits 0 es
        if sizesOk c xs && fieldsOk xs then some (c, xs, offsetOf es 7) else none

/-! ### `ctxsave` (R361) -/

/-- The hart as `tret` would resume it. -/
def savedHart (h : Hart) : Hart := { h with mode := sppMode h, pc := h.sepc, vstart := h.svstart, fmrun := fmr h }

/-- The first granted slab or tile, as an address of its space, in which a word is uncorrectable (R372). -/
def badStore (s : State) (h : Hart) : Option Word :=
  let gc := coreOf h.gid
  let first (at_ : Nat → Nat) (n : Nat) (ps : List Nat) : Option Nat := ps.findIdx? (fun p => poisoned s.d.poison (at_ (p * n)) n)
  (((first (scrAddr gc) Config.slabBytes h.slabs).map (· * Config.slabBytes)).or
    ((first (accAddr gc) Config.tileBytes h.tiles).map (· * Config.tileBytes))).map (BitVec.ofNat 64)

/-- R361. The slabs and tiles that it writes are read, and an uncorrectable word there is its machine check, before anything is
written; STVAL names the slab or tile (log 59, DESIGN CHOICE). -/
def execCtxsave (d a : Reg) (slabs ring : Bool) (disp : BitVec 32) (s : State) : Res :=
  let ea := effAddr s.h a disp
  let (x, n) := contextBits s (savedHart s.h) (liveParts s s.h) slabs ring
  if ea.toNat % 64 != 0 then trap s (misTrap ea none)
  else if interlocked s.h (rangesOf s.h .G ea n true) then stall (countEv s 0x14 1)
  else match (if slabs then badStore s s.h else none) with
    | some va => trap s (memTrap ⟨21, va, 2⟩ none)
    | none =>
      match writeRun s s.h .G ea n x with
      | (s1, some f) => trap s1 (memTrap f none)
      | (s1, none) => nextX (frqSet s1 s.h.gid ((frqAll s1 s.h.gid).filter (fun r => r.gid != s.h.gid))) d (BitVec.ofNat 64 n)

/-! ### `ctxload` (R362) -/

/-- Why a `ctxload` does not load: a precise trap, or bytes that a command of the hart still writes (R303). -/
inductive LoadStop where
  | trap (s : State) (t : Trap)
  | held
  deriving DecidableEq, Repr

/-- `n` bytes at offset `o` of the context at `ea`. -/
def ctxRead (s0 : State) (ea : Word) (o n : Nat) (s : State) : Except LoadStop (Nat × State) :=
  if n != 0 && interlocked s0.h (rangesOf s0.h .G (ea + BitVec.ofNat 64 o) n false) then .error .held
  else match readRun s s0.h .G (ea + BitVec.ofNat 64 o) n with
    | .error f => .error (.trap s (memTrap f none))
    | .ok r => .ok r

/-- The sections of a directory, read one by one. -/
def readSects (rd : Nat → Nat → State → Except LoadStop (Nat × State)) :
    State → List (Nat × Nat × Nat) → Except LoadStop (List Sect × State)
  | s, [] => .ok ([], s)
  | s, (t, n, o) :: rest =>
    match rd o n s with
    | .error f => .error f
    | .ok (x, s1) =>
      match readSects rd s1 rest with
      | .error f => .error f
      | .ok (xs, s2) => .ok (⟨t, n, x⟩ :: xs, s2)

/-- Every command that has not ended is killed. -/
def killCmds (h : Hart) : Hart :=
  { h with cmds := h.cmds.map (fun c => if c.st == .ended then c else { c with st := .ended, status := 8 }) }

/-- The checks of R362 on what has been read: the state before the load, and as the context leaves it. -/
def ctxApply (s : State) (ea : Word) (c : CtxHead) (dir : List (Nat × Nat × Nat)) (xs : List Sect) : Except LoadStop (State × State) :=
  let stop (t : Trap) : Except LoadStop (State × State) := .error (.trap s t)
  let refuse (sub : Nat) : Trap := { code := 11, val := ea, val2 := memVal2 none sub }
  let sizeOf (t : Nat) : Nat := (sectOf xs t).size
  let live := liveLanes s.d.retired s.h.gid s.h.clusters
  if !sizesOk c xs || !fieldsOk xs then stop (refuse 8)
  else if c.ctxid != s.h.ctxid.toNat then stop (refuse 8)
  else if s.h.slabs.length * Config.slabBytes < sizeOf 11 || s.h.tiles.length * Config.tileBytes < sizeOf 12 then stop (refuse 9)
  else if live < c.lanes then stop { code := 20, val := BitVec.ofNat 64 c.lanes, val2 := BitVec.ofNat 64 live }
  else match loadContext s c xs (offsetOf dir 7) with
    | none => stop (refuse 8)
    | some s1 => .ok (s, s1)

/-- What `ctxload` reads and checks before it changes anything. -/
def ctxloadState (a : Reg) (disp : BitVec 32) (s : State) : Except LoadStop (State × State) :=
  let ea := effAddr s.h a disp
  let refuse (s : State) : Except LoadStop (State × State) := .error (.trap s { code := 11, val := ea, val2 := memVal2 none 8 })
  if ea.toNat % 64 != 0 then .error (.trap s (misTrap ea none))
  else match ctxRead s ea 0 64 s with
    | .error e => .error e
    | .ok (hd, s1) =>
      match readCtxHead hd with
      | none => refuse s1
      | some c =>
        match ctxRead s ea 64 (16 * c.nsec) s1 with
        | .error e => .error e
        | .ok (dir, s2) =>
          match readDir dir c.nsec c.size 13 with
          | none => refuse s2
          | some es =>
            match readSects (ctxRead s ea) s2 es with
            | .error e => .error e
            | .ok (xs, s3) => ctxApply s3 ea c es xs

/-- R362: the hart's own commands that have not ended are killed, and the load waits for their tokens. -/
def execCtxload (a : Reg) (disp : BitVec 32) (s : State) : Res :=
  match ctxloadState a disp s with
  | .error .held => stall (countEv s 0x14 1)
  | .error (.trap s1 t) => trap s1 t
  | .ok (s1, s2) => if s1.h.cmds.isEmpty then .next s2 else stall (setH s1 (killCmds s1.h))

end Sys2Proof.Machine
end

