-- ==== Sys2Proof/Machine/Aes.lean ====
section
/-! DEFINITION. AES-256 (FIPS 197) and AES key wrap (RFC 3394), which wrap the region keys of an image (R368). A block is a
list of 16 bytes. -/

namespace Sys2Proof.Machine

/-- Multiplication by x in GF(2^8). -/
def xtime (b : Byte) : Byte := if b.getLsbD 7 then (b <<< 1) ^^^ 0x1B else b <<< 1

def gmulGo (a : Byte) (b : Nat) (acc : Byte) : Nat → Byte
  | 0 => acc
  | n + 1 => gmulGo (xtime a) (b / 2) (if b % 2 = 1 then acc ^^^ a else acc) n
/-- The product in GF(2^8). -/
def gmul (a b : Byte) : Byte := gmulGo a b.toNat 0 8

/-- a^254, the inverse of a nonzero a. -/
def ginv (a : Byte) : Byte :=
  let a2 := gmul a a
  let a4 := gmul a2 a2
  let a8 := gmul a4 a4
  let a16 := gmul a8 a8
  let a32 := gmul a16 a16
  let a64 := gmul a32 a32
  let a128 := gmul a64 a64
  gmul a128 (gmul a64 (gmul a32 (gmul a16 (gmul a8 (gmul a4 a2)))))

def sbox (a : Byte) : Byte :=
  let b := ginv a
  b ^^^ b.rotateLeft 1 ^^^ b.rotateLeft 2 ^^^ b.rotateLeft 3 ^^^ b.rotateLeft 4 ^^^ 0x63
def sboxInv (a : Byte) : Byte :=
  ginv (a.rotateLeft 1 ^^^ a.rotateLeft 3 ^^^ a.rotateLeft 6 ^^^ 0x05)

/-- The next words of the key schedule, from word `i`; `ws` has the newest first. -/
def keyGo (ws : List (List Byte)) (rcon : Byte) (i : Nat) : Nat → List (List Byte)
  | 0 => ws
  | n + 1 =>
    let t := ws.headD []
    let t := if i % 8 = 0 then
        match t with
        | [a, b, c, d] => [sbox b ^^^ rcon, sbox c, sbox d, sbox a]
        | t => t
      else if i % 8 = 4 then t.map sbox else t
    let w := List.zipWith (· ^^^ ·) (ws.getD 7 []) t
    keyGo (w :: ws) (if i % 8 = 0 then xtime rcon else rcon) (i + 1) n

/-- The fifteen round keys of a 256-bit key. -/
def roundKeys (key : List Byte) : List (List Byte) :=
  let w0 := ((List.range 8).map (fun k => (key.drop (4 * k)).take 4)).reverse
  let ws := (keyGo w0 1 8 52).reverse
  (List.range 15).map (fun r => ((ws.drop (4 * r)).take 4).flatten)

def addKey (s k : List Byte) : List Byte := List.zipWith (· ^^^ ·) s k
/-- Row `r` of column `c` is byte 4c + r. -/
def shiftRows (s : List Byte) : List Byte := (List.range 16).map (fun i => s.getD ((i / 4 + i % 4) % 4 * 4 + i % 4) 0)
def unshiftRows (s : List Byte) : List Byte := (List.range 16).map (fun i => s.getD ((i / 4 + 4 - i % 4) % 4 * 4 + i % 4) 0)

/-- Each column multiplied by a circulant row. -/
def mixWith (m : List Byte) (s : List Byte) : List Byte :=
  (List.range 16).map (fun i => (List.range 4).foldl (fun x j => x ^^^ gmul (m.getD ((j + 4 - i % 4) % 4) 0) (s.getD (i / 4 * 4 + j) 0)) 0)
def mixCols : List Byte → List Byte := mixWith [2, 3, 1, 1]
def unmixCols : List Byte → List Byte := mixWith [14, 11, 13, 9]

def aesEnc (key blk : List Byte) : List Byte :=
  let ks := roundKeys key
  let s := addKey blk (ks.headD [])
  let s := ((ks.drop 1).take 13).foldl (fun s k => addKey (mixCols (shiftRows (s.map sbox))) k) s
  addKey (shiftRows (s.map sbox)) (ks.getD 14 [])

def aesDec (key blk : List Byte) : List Byte :=
  let ks := roundKeys key
  let s := (unshiftRows (addKey blk (ks.getD 14 []))).map sboxInv
  let s := ((ks.drop 1).take 13).reverse.foldl (fun s k => (unshiftRows (unmixCols (addKey s k))).map sboxInv) s
  addKey s (ks.headD [])

/-! ### Key wrap (RFC 3394) of four 8-byte blocks -/

def wrapIv : List Byte := List.replicate 8 0xA6
/-- A step counter, 8 bytes, most significant first. -/
def stepBytes (t : Nat) : List Byte := List.replicate 7 0 ++ [BitVec.ofNat 8 t]

/-- Steps t + 1 onward. -/
def wrapGo (kek a : List Byte) (r : List (List Byte)) (t : Nat) : Nat → List Byte × List (List Byte)
  | 0 => (a, r)
  | n + 1 =>
    let b := aesEnc kek (a ++ r.getD (t % 4) [])
    wrapGo kek (addKey (b.take 8) (stepBytes (t + 1))) (r.set (t % 4) (b.drop 8)) (t + 1) n

/-- The 40 bytes that wrap a 32-byte key. -/
def keyWrap (kek key : List Byte) : List Byte :=
  let (a, r) := wrapGo kek wrapIv ((List.range 4).map (fun k => (key.drop (8 * k)).take 8)) 0 24
  a ++ r.flatten

/-- Steps t down to 1. -/
def unwrapGo (kek a : List Byte) (r : List (List Byte)) : Nat → List Byte × List (List Byte)
  | 0 => (a, r)
  | t + 1 =>
    let b := aesDec kek (addKey a (stepBytes (t + 1)) ++ r.getD (t % 4) [])
    unwrapGo kek (b.take 8) (r.set (t % 4) (b.drop 8)) t

/-- The key that 40 bytes wrap, if they pass the integrity check. -/
def keyUnwrap (kek wrapped : List Byte) : Option (List Byte) :=
  let (a, r) := unwrapGo kek (wrapped.take 8) ((List.range 4).map (fun k => (wrapped.drop (8 + 8 * k)).take 8)) 24
  if a = wrapIv then some r.flatten else none

end Sys2Proof.Machine
end

