-- ==== Sys2Proof/Machine/Records.lean ====
section
/-! DEFINITION. The ringmasters (R189 to R209): start records and their checks, readiness, selection, placement, starting
and resuming, budgets, pre-emption, completion; queues and their registers (R193 to R196, R202). -/

namespace Sys2Proof.Machine

/-! ### The start record (R198, R199) -/

def recWord (r : Rec) (k : Nat) : Word := r.words.toList.getD k 0
def entryPc (r : Rec) : Word := recWord r 0
def waitAddr (r : Rec) : Word := recWord r 2
def sigAddr (r : Rec) : Word := recWord r 4
def imgDesc (r : Rec) : Word := recWord r 5
def recFarm (r : Rec) : Bool := (ctl0 r).testBit 61
def recTiles (r : Rec) : Nat := ctl0 r / 2 ^ 57 % 16
def recSlabs (r : Rec) : Nat := ctl0 r / 2 ^ 52 % 32
def recClusters (r : Rec) : Nat := 2 ^ (ctl0 r / 2 ^ 50 % 4)
def recPrio (r : Rec) : Nat := ctl0 r / 2 ^ 48 % 4
def recBudget (r : Rec) : Nat := ctl0 r % 2 ^ 48
/-- The cores of the placement mask, in ascending order of die and core. -/
def maskCores (r : Rec) : List Nat :=
  (List.range Config.cores).filter (fun gc => (ctl1 r / 2 ^ 25).testBit (gc / 24) && (ctl1 r / 2 ^ 29).testBit (gc % 24))

/-- A record as read from its ring slot. -/
def newRec (id q : Nat) (u : Queue) (bits : Nat) : Rec :=
  { id := id, words := Vector.ofFn (fun k : Fin 8 => BitVec.ofNat 64 (bits / 2 ^ (64 * k.val))), queue := q, ctx := u.context, ringIdx := u.head
    home := u.home, at_ := .head, prio := 0, started := 0, counted := 0, budget := 0, set := 0, total := 0, next := 0, done := 0, places := []
    ended := 0, exitor := 0, killed := false, refused := none, stopping := none, saved := [] }

def recById (s : State) (id : Nat) : Option Rec := s.d.recs.find? (fun r => r.id == id)
def headRec (s : State) (q : Nat) : Option Rec := s.d.recs.find? (fun r => r.queue == q && r.at_ == .head)
/-- The head of the queue is held and has not started. -/
def headHeld (s : State) (q : Nat) : Bool := s.d.recs.any (fun r => r.queue == q && r.at_ == .held && r.saved.isEmpty)

/-! ### The context table (R197) -/

structure CtxEntry where
  root : Word
  svec : Word
  deriving DecidableEq, Repr

def ctxEntry (s : State) (ctx : BitVec 16) : Option CtxEntry :=
  let t := s.d.ctxtab.toNat
  let a := t / 2 ^ 16 % 2 ^ 36 * 2 ^ 16 + 64 * ctx.toNat
  let e := memRead s.mem a 64
  let root := e % 2 ^ 64
  if decide (ctx.toNat < 2 ^ (t % 32)) && normalPa a && !inCarveOut s.d.pscfg a 64 && !poisoned s.d.poison a 64 && bytesAt e 16 8 == 1 && bytesAt e 24 40 == 0 &&
      root % 2 ^ 12 == 0 && root / 2 ^ 52 == 0 && isSlot (BitVec.ofNat 64 (bytesAt e 8 8)) then
    some ⟨BitVec.ofNat 64 root, BitVec.ofNat 64 (bytesAt e 8 8)⟩
  else none

/-! ### The ringmaster's accesses (R198) -/

/-- A translation for a record: no entry is held for it. -/
def rmTranslate (s : State) (ctx : BitVec 16) (root : Word) (acc : Acc) (va : Word) (n : Nat) : Except Flt (Nat × State) :=
  match translateFor s Config.cores ctx root acc va n with
  | .error f => .error f
  | .ok (p, s1) => .ok (p, { s1 with d := { s1.d with tlb := s.d.tlb } })

/-- `n` bytes at a virtual address of a context. -/
def rmRead (s : State) (ctx : BitVec 16) (root va : Word) (n : Nat) : Except Flt (Nat × State) :=
  (chunks va n).foldl (fun r (a, len) =>
    match r with
    | .error f => .error f
    | .ok (v, s) =>
      match rmTranslate s ctx root .load a len with
      | .error f => .error f
      | .ok (p, s) => .ok (v + memRead s.mem p len <<< (8 * (a - va).toNat), s)) (.ok (0, s))

/-! ### Images (R97, R101) -/

/-- An image: whether of a tile, its index, size and bytes. -/
structure Image where
  tile : Bool
  idx  : Nat
  size : Nat
  data : Nat
  deriving DecidableEq, Repr

/-- An entry of an image list: a tile's or a slab's, its index, the image's size and address. -/
structure ImageEntry where
  tile : Bool
  idx  : Nat
  size : Nat
  addr : Word
  deriving DecidableEq, Repr

/-- The entries of a list up to its end, or up to one that is refused or cannot be read, with that refusal's cause (R200).
Bytes 13 to 15 of an entry are not looked at (log 45, DESIGN CHOICE). Fuel: no list fills the address space. -/
def imageList (s : State) (ctx : BitVec 16) (root : Word) (r : Rec) (tile : Bool) (a : Word) :
    Nat → List ImageEntry × Option Nat × State
  | 0 => ([], some 5, s)
  | n + 1 =>
    match rmRead s ctx root a 16 with
    | .error _ => ([], some 5, s)
    | .ok (e, s1) =>
      let size := bytesAt e 8 4
      let idx := bytesAt e 12 1
      if size = 0 then ([], none, s1)
      else if decide ((if tile then recTiles r else recSlabs r) ≤ idx) ||
          (if tile then size != Config.tileBytes else decide (Config.slabBytes < size)) then ([], some 4, s1)
      else
        let (es, c, s2) := imageList s1 ctx root r tile (a + 16) n
        (⟨tile, idx, size, BitVec.ofNat 64 e⟩ :: es, c, s2)

/-- The images of entries, in their order. -/
def readImages (ctx : BitVec 16) (root : Word) : State → List ImageEntry → Except Nat (List Image × State)
  | s, [] => .ok ([], s)
  | s, e :: es =>
    match rmRead s ctx root e.addr e.size with
    | .error _ => .error 5
    | .ok (x, s1) =>
      match readImages ctx root s1 es with
      | .error c => .error c
      | .ok (is, s2) => .ok (⟨e.tile, e.idx, e.size, x⟩ :: is, s2)

/-- The images of a record, slabs first, or the refusal cause: 4 for a bad entry of either list goes before 5 (R200). -/
def recImages (s : State) (ctx : BitVec 16) (root : Word) (r : Rec) : Except Nat (List Image × State) :=
  if imgDesc r = 0 then .ok ([], s)
  else match rmRead s ctx root (imgDesc r) 16 with
    | .error _ => .error 5
    | .ok (d, s1) =>
      let list (s : State) (tile : Bool) (a : Word) : List ImageEntry × Option Nat × State :=
        if a = 0 then ([], none, s) else imageList s ctx root r tile a (2 ^ 60)
      let (xs, cx, s2) := list s1 false (BitVec.ofNat 64 d)
      let (ys, cy, s3) := list s2 true (BitVec.ofNat 64 (d / 2 ^ 64))
      if cx == some 4 || cy == some 4 then .error 4
      else if cx.isSome || cy.isSome then .error 5
      else readImages ctx root s3 (xs ++ ys)

/-! ### Placement (R189 to R191, R205) -/

/-- What a core has to grant. -/
structure CoreFree where
  gc    : Nat
  clus  : List Nat
  slabs : List Nat
  tiles : List Nat
  deriving DecidableEq, Repr

/-- A grant: core, first cluster, clusters, slabs, tiles. -/
structure Grant where
  gc    : Nat
  first : Nat
  clus  : Nat
  slabs : List Nat
  tiles : List Nat
  deriving DecidableEq, Repr

/-- What one member needs: clusters, live lanes, slabs, tiles. -/
structure Need where
  clus  : Nat
  lanes : Nat
  slabs : Nat
  tiles : Nat
  deriving DecidableEq, Repr

/-- The harts on a core, but for those at the places listed. -/
def coreHarts (s : State) (gc : Nat) (except : List Nat) : List Hart :=
  (s.h :: s.others).filter (fun h => hartExists h && coreOf h.gid == gc && !except.contains h.gid)

/-- Free resources of a core for a record, its own preload's slabs first, those of other preloads last; as though the harts
at the places of `except` had gone. -/
def coreFree (s : State) (r : Rec) (except : List Nat) (gc : Nat) : CoreFree :=
  let hs := coreHarts s gc except
  let own := s.d.masters.toList.flatMap (fun m => m.preloads.flatMap (fun (c, id, ps) => if c == gc && id == r.id then ps else []))
  let rsv := reservedSlabs s gc
  let free := (List.range 16).filter (fun p => !hs.any (fun h => h.slabs.contains p))
  { gc := gc
    clus := (List.range 8).filter (fun c => !hs.any (fun h => decide (hartNo h.gid ≤ c) && decide (c < hartNo h.gid + h.clusters)))
    slabs := own ++ free.filter (fun p => !rsv.contains p) ++ free.filter (fun p => rsv.contains p && !own.contains p)
    tiles := (List.range 8).filter (fun t => !hs.any (fun h => h.tiles.contains t)) }

/-- A core with nothing on it. -/
def coreEmpty (gc : Nat) : CoreFree := ⟨gc, List.range 8, List.range 16, List.range 8⟩

/-- R190: among the free aligned blocks with lanes enough, the one inside the smallest larger free aligned block. -/
def pickBlock (s : State) (c : CoreFree) (n : Need) : Option Nat :=
  let free (b k : Nat) : Bool := (List.range k).all (fun j => c.clus.contains (b / k * k + j))
  let within (b : Nat) : Nat := (([1, 2, 4, 8].filter (fun k => decide (n.clus < k))).find? (free b)).getD n.clus
  let bs := (List.range 8).filter (fun b => b % n.clus == 0 && free b n.clus &&
    decide (n.lanes ≤ liveLanes s.d.retired (c.gc * 8 + b) n.clus))
  bs.foldl (fun best b =>
    match best with
    | none => some b
    | some a => if within b < within a then some b else some a) none

/-- Ascending order. -/
def sortNat (l : List Nat) : List Nat := l.foldr insert []
where
  insert (x : Nat) : List Nat → List Nat
    | [] => [x]
    | y :: ys => if x ≤ y then x :: y :: ys else y :: insert x ys

/-- One member on the core with the fewest free clusters that can grant it. -/
def placeOne (s : State) (cs : List CoreFree) (n : Need) : Option (Grant × List CoreFree) :=
  let can := cs.filter (fun c => decide (n.slabs ≤ c.slabs.length) && decide (n.tiles ≤ c.tiles.length) && (pickBlock s c n).isSome)
  let best := can.foldl (fun b c =>
    match b with
    | none => some c
    | some a => if c.clus.length < a.clus.length then some c else some a) (none : Option CoreFree)
  match best with
  | none => none
  | some c =>
    let b := (pickBlock s c n).getD 0
    let ps := c.slabs.take n.slabs
    let ts := c.tiles.take n.tiles
    let c' : CoreFree :=
      { c with clus := c.clus.filter (fun k => !(decide (b ≤ k) && decide (k < b + n.clus))), slabs := c.slabs.drop n.slabs
               tiles := c.tiles.drop n.tiles }
    some (⟨c.gc, b, n.clus, sortNat ps, ts⟩, cs.map (fun k => if k.gc == c.gc then c' else k))

def placeAll (s : State) (cs : List CoreFree) : List Need → Option (List Grant)
  | [] => some []
  | n :: ns =>
    match placeOne s cs n with
    | none => none
    | some (g, cs') => (placeAll s cs' ns).map (g :: ·)

/-- What the members of a record need; one that resumes, lanes enough and its slabs and tiles (R205). -/
def recNeeds (r : Rec) : List Need :=
  if r.saved.isEmpty then List.replicate (recMembers r) ⟨recClusters r, 0, recSlabs r, recTiles r⟩
  else r.saved.map (fun v => ⟨v.clusters, v.lanes, v.slabs, v.tiles⟩)

def heldRecs (s : State) : List Rec := s.d.masters.toList.filterMap (fun m => m.held.bind (recById s))

/-- A record was held before another. -/
def heldBefore (o r : Rec) : Bool := decide (o.started < r.started) || (o.started == r.started && decide (o.id < r.id))

/-- Cores on which a record may start no hart: those of another record that is held, before it if it is held itself; and for
a held one, those of the dies that have reserved for another (R205). -/
def blockedCores (s : State) (r : Rec) : List Nat :=
  (heldRecs s).flatMap (fun o =>
    if o.id == r.id || (r.at_ == .held && !heldBefore o r) then [] else maskCores o) ++
  (if r.at_ == .held then
    (maskCores r).filter (fun gc => match (masterGet s (gc / Config.coresPerDie)).reserved with
      | some o => o != r.id
      | none => false)
   else [])

/-! ### Reservations of a held record (R205, step 3) -/

/-- The dies of the placement mask. -/
def recDies (r : Rec) : List Nat := (List.range Config.dies).filter (fun d => (ctl1 r / 2 ^ 25).testBit d)

/-- A held record asks the dies of a list, in order, up to the first that has reserved for another. -/
def reserveDies (s : State) (r : Rec) : List Nat → State
  | [] => s
  | d :: ds =>
    let m := masterGet s d
    if m.reserved == none || m.reserved == some r.id then reserveDies (masterPut s d { m with reserved := some r.id }) r ds else s

/-- Held records, the longest held first. -/
def sortHeld (rs : List Rec) : List Rec := rs.foldr insert []
where
  insert (x : Rec) : List Rec → List Rec
    | [] => [x]
    | y :: ys => if heldBefore x y then x :: y :: ys else y :: insert x ys

/-- A record that is held no longer: what was reserved for it is free, and the held records ask again. -/
def releaseDies (s : State) (id : Nat) : State :=
  let s := { s with d := { s.d with masters := s.d.masters.map (fun m =>
    { m with reserved := if m.reserved == some id then none else m.reserved }) } }
  (sortHeld ((heldRecs s).filter (fun r => r.id != id))).foldl (fun s r => reserveDies s r (recDies r)) s

/-- Grants for every member at once, with the harts of `except` gone. -/
def placeNow (s : State) (r : Rec) (except : List Nat) : Option (List Grant) :=
  let blocked := blockedCores s r
  placeAll s (((maskCores r).filter (fun gc => !blocked.contains gc)).map (coreFree s r except)) (recNeeds r)
/-- Whether grants exist with every core empty. -/
def placeEver (s : State) (r : Rec) : Bool := (placeAll s ((maskCores r).map coreEmpty) (recNeeds r)).isSome

/-- R190: a core of the mask has a share of so many clusters with lanes enough, with every core free. -/
def laneOffered (s : State) (r : Rec) (clus lanes : Nat) : Bool :=
  (maskCores r).any (fun gc => (pickBlock s (coreEmpty gc) ⟨clus, lanes, 0, 0⟩).isSome)

/-! ### Checks at selection (R200) -/

def recordCause (s : State) (r : Rec) : Nat × State :=
  let a := ctl0 r
  let b := ctl1 r
  let ctx := r.ctx
  if !r.saved.isEmpty then (if r.saved.all (fun v => laneOffered s r v.clusters v.lanes) then 0 else 6, s)
  else if a / 2 ^ 62 != 0 || 16 < recSlabs r || 8 < recTiles r || 24576 < b % 2 ^ 15 || b / 2 ^ 53 != 0 ||
      (if recFarm r then recMembers r = 0 ∨ 768 < recMembers r else recMembers r ≠ 1) then (1, s)
  else if !isSlot (entryPc r) || [1, 2, 4, 5].any (fun k => (recWord r k).toNat % 8 != 0) then (2, s)
  else match ctxEntry s ctx with
    | none => (7, s)
    | some e =>
      if !placeEver s r then (3, s)
      else match recImages s ctx e.root r with
        | .error c => (c, s)
        | .ok (_, s1) => (0, s1)

/-! ### Starting (R192, R205) -/

/-- The hart of a place replaced, in front if the hart there stands in front. A saved hart is the place's last no more. -/
def putHart (s : State) (h : Hart) : State :=
  let s := { s with d := { s.d with
    saves := s.d.saves.filter (fun p => p.1 != h.gid)
    recs := s.d.recs.map (fun r => { r with saved := r.saved.map (fun v => if v.gid == h.gid then { v with last := false } else v) }) } }
  if s.h.gid == h.gid then setH s h else { s with others := s.others.filter (fun o => o.gid != h.gid) ++ [h] }

/-- A slab or tile zeroed, then its images. -/
def fillStore (m : Memory) (at_ bytes : Nat) (is : List Image) : Memory :=
  is.foldl (fun m i => memWrite m at_ i.size i.data) (memClear m at_ bytes)

def fillGrant (m : Memory) (gc : Nat) (slabs tiles : List Nat) (is : List Image) : Memory :=
  let m := slabs.zipIdx.foldl (fun m (p, k) =>
    fillStore m (scrAddr gc (p * Config.slabBytes)) Config.slabBytes (is.filter (fun i => !i.tile && i.idx == k))) m
  tiles.zipIdx.foldl (fun m (p, k) =>
    fillStore m (accAddr gc (p * Config.tileBytes)) Config.tileBytes (is.filter (fun i => i.tile && i.idx == k))) m

/-- R192: member `k` at its start. -/
def memberHart (s : State) (r : Rec) (ctx : BitVec 16) (e : CtxEntry) (g : Grant) (k : Nat) : Hart :=
  let gid := g.gc * 8 + g.first
  let lanes := liveLanes s.d.retired gid g.clus
  { Hart.zero with
    gid := gid, run := .running, clusters := g.clus, lanes := lanes, slabs := g.slabs, tiles := g.tiles, record := r.id
    member := k, pc := entryPc r, vlcap := lanes * Config.laneBytes, ctxid := ctx, ctxroot := e.root, walkroot := e.root, svec := e.svec
    x := ((Hart.zero.x.set 1 (recWord r 1)).set 2 (BitVec.ofNat 64 k)).set 3 (BitVec.ofNat 64 (recMembers r)) }

/-- Grants in ascending order of die, core and hart number. -/
def sortGrants (gs : List Grant) : List Grant := gs.foldr insert []
where
  insert (x : Grant) : List Grant → List Grant
    | [] => [x]
    | y :: ys => if x.gc * 8 + x.first ≤ y.gc * 8 + y.first then x :: y :: ys else y :: insert x ys

/-- Preloads of a record are used up, and those whose slabs are granted are discarded: the grants of a record that starts,
or of one rerun from its start record, take the slabs of a preload last (`coreFree`), so that a preload is kept where slabs
free of it exist (R208). -/
def spendPreloads (s : State) (id : Nat) (gs : List Grant) : State :=
  let s := { s with d := { s.d with masters := s.d.masters.map (fun m =>
    { m with preloads := m.preloads.filter (fun (_, i, _) => i != id) }) } }
  gs.foldl (fun s g => g.slabs.foldl (fun s p => discardPreload s g.gc p) s) s

/-- Every member of a record starts; or the cause that refuses it. -/
def startMembers (s : State) (r : Rec) (gs : List Grant) : Except Nat State :=
  let ctx := r.ctx
  match ctxEntry s ctx with
  | none => .error 7
  | some e =>
    match recImages s ctx e.root r with
    | .error c => .error c
    | .ok (is, s1) =>
      let gs := sortGrants gs
      let s2 := gs.zipIdx.foldl (fun s (g, k) =>
        putHart { s with mem := fillGrant s.mem g.gc g.slabs g.tiles is } (memberHart s r ctx e g k)) (spendPreloads s1 r.id gs)
      let s3 := mapRec s2 r.id (fun r =>
        { r with at_ := .running, places := gs.map (fun g => g.gc * 8 + g.first), started := s.clk, counted := s.clk, budget := recBudget r })
      let u := queueGet s3 r.queue
      let s4 := queuePut s3 r.queue { u with head := u.head + 1, lastStart := s.clk }
      .ok (countDie (unready s4 r.home r.queue) r.home 0x3F 1)

/-- A saved member on a grant (R206, R348): a fresh hart there takes the state of its context, walks being made from the root that
the context holds, and the waits that its ringmaster kept. -/
def resumeMember (s : State) (r : Rec) (v : Saved) (g : Grant) : State :=
  let gid := g.gc * 8 + g.first
  let h : Hart := { Hart.zero with
    gid := gid, run := .running, clusters := g.clus, lanes := liveLanes s.d.retired gid g.clus, slabs := g.slabs, tiles := g.tiles
    record := r.id, member := v.member, ctxid := v.ctx }
  let s := if v.last then { s with d := { s.d with saves := s.d.saves.filter (fun p => p.1 != v.gid) } } else s
  let front := s.h.gid
  let s1 := bringFront (putHart s h) gid
  match (parseCtx v.bits v.size).bind (fun (c, xs, at7) => loadContext (setH s1 { s1.h with walkroot := ctxRoot xs }) c xs at7) with
  | some s2 => bringFront (setH s2 { s2.h with barWait := v.waits }) front
  | none => bringFront s1 front

/-- A stopped record's members continue from their contexts. -/
def resumeMembers (s : State) (r : Rec) (gs : List Grant) : State :=
  let s1 := (r.saved.zip gs).foldl (fun s (v, g) => resumeMember s r v g) (spendPreloads s r.id gs)
  mapRec s1 r.id (fun r =>
    { r with at_ := .running, saved := [], places := gs.map (fun g => g.gc * 8 + g.first), started := s.clk, counted := s.clk
             budget := recBudget r, stopping := none })

/-- R200: a record is refused; it completes as such (R209). -/
def refuseRec (s : State) (r : Rec) (cause : Nat) : State :=
  let s := mapRec s r.id (fun r => { r with at_ := .completing, refused := some cause, saved := [] })
  if r.saved.isEmpty then
    let u := queueGet s r.queue
    unready (queuePut s r.queue { u with head := u.head + 1 }) r.home r.queue
  else
    let m := masterGet s r.home
    masterPut s r.home (setResume m s.clk (m.resume.filter (fun i => i != r.id)))

/-- A record with its grants starts or resumes, and is no longer held or listed. -/
def launchRec (s : State) (r : Rec) (gs : List Grant) : State :=
  let m := masterGet s r.home
  let s := releaseDies (masterPut s r.home
    (setResume { m with held := if m.held == some r.id then none else m.held } s.clk (m.resume.filter (fun i => i != r.id)))) r.id
  if r.saved.isEmpty then
    match startMembers s r gs with
    | .ok s1 => s1
    | .error c => refuseRec s r c
  else resumeMembers s r gs

/-- R205: a held record starts once every grant can be made. -/
def execRecordStart (die : Nat) (s : State) : Res :=
  match (masterGet s die).held.bind (recById s) with
  | none => .fault .notEnabled
  | some r =>
    match placeNow s r [] with
    | some gs => .next (launchRec s r gs)
    | none => .fault .notEnabled

/-! ### Readiness (R195, R201) -/

/-- A tail in range (R195). -/
def tailOk (u : Queue) : Bool := decide ((u.tail - u.prog).toNat ≤ 2 ^ u.log2n.toNat)
/-- A tail lies past the record at HEAD. -/
def pastHead (u : Queue) (tail : BitVec 32) : Bool := decide ((u.head - u.prog).toNat < (tail - u.prog).toNat)
/-- The queue may offer its head record (R204). -/
def offers (u : Queue) : Bool := u.en && u.active && !u.switching && !u.err && tailOk u && pastHead u u.tail

/-- The head record of a queue, which is read once (R195); none where the ring cannot be read. -/
def readHead (s : State) (q : Nat) : Option (Rec × State) :=
  match headRec s q with
  | some r => some (r, s)
  | none =>
    let u := queueGet s q
    let (a, ok) := ringSlotAt s.d.pscfg u u.head
    if !ok || poisoned s.d.poison a 64 then none
    else
      let r := newRec s.d.nextRec q u (memRead s.mem a 64)
      some (r, { s with d := { s.d with recs := s.d.recs ++ [r], nextRec := s.d.nextRec + 1 } })

/-- The record is ready; or none where its wait word cannot be read. A record that another cause will refuse is ready. -/
def recReady (s : State) (r : Rec) : Option (Bool × State) :=
  let ctx := r.ctx
  if waitAddr r = 0 || (waitAddr r).toNat % 8 != 0 then some (true, s)
  else match ctxEntry s ctx with
    | none => some (true, s)
    | some e =>
      match rmRead s ctx e.root (waitAddr r) 8 with
      | .error _ => none
      | .ok (v, s1) => some (decide ((recWord r 3).toNat ≤ v), s1)

/-- A pack-down stops selection from the queue (R367). -/
def packQueue (s : State) (q : Nat) : Bool := s.d.cc.busy && s.d.cc.cqmask.getLsbD q
/-- A pack-down stops selection of the context's listed records (R367). -/
def packCtx (s : State) (ctx : BitVec 16) : Bool := s.d.cc.busy && s.d.cc.context == ctx

def execWaitWordTest (q : Nat) (s : State) : Res :=
  let u := queueGet s q
  if !offers u || headHeld s q || packQueue s q then .fault .notEnabled
  else match readHead s q with
    | none => .next (queueErr s q)
    | some (r, s1) =>
      match recReady s1 r with
      | none => .next (refuseRec s1 r 8)
      | some (ok, s2) =>
        let m := masterGet s2 u.home
        if !ok then .next (unready s2 u.home q)
        else if m.ready.any (fun p => p.1 == q) then .next s2
        else .next (masterPut s2 u.home { m with ready := m.ready ++ [(q, s.clk)] })

/-! ### Selection (R203, R204, R207) -/

/-- The candidates of a die: source, record, effective priority. -/
def candidates (s : State) (die : Nat) : List (Nat × Rec × Nat) :=
  let m := masterGet s die
  m.ready.filterMap (fun (src, since) =>
    let r := if src = 64 then (m.resume.head?.bind (recById s)).filter (fun r => !packCtx s r.ctx)
      else if offers (queueGet s src) && !packQueue s src then headRec s src else none
    r.map (fun r => (src, r, Nat.min 3 (recPrio r + (s.clk - since) / 2 ^ 20))))

/-- A record whose mask lies wholly outside those of the held records (R205). -/
def outsideHeld (s : State) (r : Rec) : Bool :=
  let held := (heldRecs s).flatMap maskCores
  (maskCores r).all (fun gc => !held.contains gc)

/-- The next in turn among the candidates of the highest priority. -/
def chooseNext (m : Master) (cs : List (Nat × Rec × Nat)) : Option (Nat × Rec × Nat) :=
  let p := cs.foldl (fun p c => Nat.max p c.2.2) 0
  let last := ((m.served.find? (fun x => x.1 == p)).map (·.2)).getD 64
  let key (c : Nat × Rec × Nat) : Nat := (c.1 + 64 - last) % 65
  (cs.filter (fun c => c.2.2 == p)).foldl (fun b c =>
    match b with
    | none => some c
    | some a => if key c < key a then some c else some a) none

/-- A pre-emption of the hart at a place arrives (R341, R347). -/
def requestStop (s : State) (gid g : Nat) : State :=
  mapHart s gid (fun h =>
    { h with stop := some g, sstatus := if inh h then setBit h.sstatus ssPPEND true else h.sstatus })

/-- Every member of a record is stopped. -/
def stopRecord (s : State) (r : Rec) (why : Stopping) : State :=
  r.places.foldl (fun s gid => requestStop s gid 0) (mapRec s r.id (fun r => { r with stopping := some why }))

/-- R207: the records that may be stopped for `r`, in the order of choice. -/
def victims (s : State) (r : Rec) (prio : Nat) : List Rec :=
  let mask := maskCores r
  (s.d.recs.filter (fun v => v.at_ == .running && v.stopping.isNone && decide (recPrio v < prio) &&
    v.places.any (fun p => mask.contains (coreOf p)))).foldr insert []
where
  insert (x : Rec) : List Rec → List Rec
    | [] => [x]
    | y :: ys =>
      if decide (recPrio x < recPrio y) || (recPrio x == recPrio y && decide (y.started ≤ x.started)) then x :: y :: ys
      else y :: insert x ys

/-- Victims in order until the grants can be made. -/
def enough (s : State) (r : Rec) (gone : List Nat) : List Rec → Option (List Rec)
  | [] => none
  | v :: vs =>
    let gone := gone ++ v.places
    if (placeNow s r gone).isSome then some [v] else (enough s r gone vs).map (v :: ·)

/-- Records being stopped that will join a die's resume list. -/
def joining (s : State) (die : Nat) : Nat :=
  (s.d.recs.filter (fun r => r.home == die && r.at_ == .running && r.stopping.isSome)).length

/-- R207: a held pre-emptive record stops running records, if their resume lists can take them. -/
def preemptFor (s : State) (r : Rec) (prio : Nat) : Option State :=
  if !(queueGet s r.queue).preempt then none
  else
    let going := (s.d.recs.filter (fun v => v.at_ == .running && v.stopping.isSome)).flatMap (·.places)
    if (placeNow s r going).isSome then none
    else match enough s r going (victims s r prio) with
      | none => none
      | some vs =>
        let fits (die : Nat) : Bool :=
          decide ((masterGet s die).resume.length + joining s die + (vs.filter (fun v => v.home == die)).length ≤ Config.resumeCapacity)
        if [0, 1, 2, 3].all fits then some (vs.foldl (fun s v => stopRecord s v .preempt) s) else none

/-- A selected record: refused, started, or held where none is held yet. -/
def takeChosen (s : State) (die src : Nat) (r : Rec) (prio : Nat) : State :=
  let m := masterGet s die
  let s := masterPut s die { m with selAt := s.clk, served := (prio, src) :: m.served.filter (fun x => x.1 != prio) }
  let (cause, s) := recordCause s r
  if cause != 0 then refuseRec s r cause
  else match placeNow s r [] with
    | some gs => launchRec s r gs
    | none =>
      if (masterGet s die).held.isSome then s
      else
        let m := masterGet s die
        let m := if src = 64 then setResume m s.clk (m.resume.filter (fun i => i != r.id))
          else { m with ready := m.ready.filter (fun p => p.1 != src) }
        let s := mapRec (masterPut s die { m with held := some r.id }) r.id (fun r => { r with at_ := .held, prio := prio, started := s.clk })
        let r : Rec := { r with at_ := .held, prio := prio, started := s.clk }
        let s := reserveDies s r (recDies r)
        (preemptFor s r prio).getD s

def execRingmasterSelect (die : Nat) (s : State) : Res :=
  let m := masterGet s die
  if Config.dies ≤ die || (m.selAt != 0 && decide (s.clk < m.selAt + 16)) then .fault .notEnabled
  else match chooseNext m ((candidates s die).filter (fun c => outsideHeld s c.2.1)) with
    | some (src, r, prio) => .next (takeChosen s die src r prio)
    | none =>
      match m.held.bind (recById s) with
      | none => .fault .notEnabled
      | some r =>
        match preemptFor s r r.prio with
        | some s1 => .next (masterPut s1 die { masterGet s1 die with selAt := s.clk })
        | none => .fault .notEnabled

/-- R204: a whole 2^20 clk interval has passed for a ready candidate; its effective priority, a count of the intervals since
it became ready, rises with them. -/
def execPriorityAging (die : Nat) (s : State) : Res :=
  if (masterGet s die).ready.any (fun p => decide (p.2 + 2 ^ 20 ≤ s.clk)) then .next s else .fault .notEnabled

/-! ### Preloads (R208) -/

/-- The record that a ringmaster has next selected for a core: the held one, or the one that would be selected next among the
head records, ready or not, of its queues. -/
def preloadNext (s : State) (die gc : Nat) : Option Rec :=
  let m := masterGet s die
  match m.held.bind (recById s) with
  | some r => some r
  | none =>
    let cs := (List.range 64).filterMap (fun q =>
      let u := queueGet s q
      if u.home == die && offers u then (headRec s q).map (fun r => (q, r, recPrio r)) else none)
    (chooseNext m (cs.filter (fun c => (maskCores c.2.1).contains gc && outsideHeld s c.2.1))).map (fun c => c.2.1)

/-- The code line of a record's entry, copied into the fetch buffer of a core. -/
def preloadCode (s : State) (gc : Nat) (r : Rec) (root : Word) : State :=
  match rmTranslate s r.ctx root .fetch (entryPc r &&& ~~~ 63) 64 with
  | .ok (pa, s1) => holdLine s1 gc pa (BitVec.ofNat 512 (memRead s1.mem pa 64))
  | .error _ => s

/-- R208: the code line and the slab images of one more member of N, on a core where another record runs. -/
def execPreload (die core : Nat) (s : State) : Res :=
  let m := masterGet s die
  let gc := die * 24 + core
  match preloadNext s die gc with
  | none => .fault .notEnabled
  | some r =>
    let free := (ungranted s gc).filter (fun p => !(reservedSlabs s gc).contains p)
    let ctx := r.ctx
    if Config.coresPerDie ≤ core || !(maskCores r).contains gc || (coreHarts s gc []).isEmpty || !r.saved.isEmpty ||
        free.length < recSlabs r || recMembers r ≤ (m.preloads.filter (fun (_, id, _) => id == r.id)).length then .fault .notEnabled
    else match ctxEntry s ctx with
      | none => .fault .notEnabled
      | some e =>
        match recImages s ctx e.root r with
        | .error _ => .fault .notEnabled
        | .ok (is, s1) =>
          let ps := free.take (recSlabs r)
          let s2 := preloadCode { s1 with mem := fillGrant s1.mem gc ps [] is } gc r e.root
          .next (masterPut s2 die { masterGet s2 die with preloads := m.preloads ++ [(gc, r.id, ps)] })

/-! ### Completion (R209) -/

/-- PROG over the contiguous run of completed records (R196). -/
def advanceProg (u : Queue) : Nat → Queue
  | 0 => u
  | n + 1 =>
    if u.finished.contains u.prog then
      advanceProg { u with prog := u.prog + 1, finished := u.finished.filter (fun k => k != u.prog) } n
    else u

/-- Step 4: the signal word is incremented, or ERR is set. -/
def signalRec (s : State) (r : Rec) : State :=
  let fail := if r.queue < 64 then queueErr s r.queue else s
  let a := sigAddr r
  if a = 0 then s
  else match ctxEntry s r.ctx with
    | none => fail
    | some e =>
      if a.toNat % 8 != 0 then fail
      else match rmTranslate s r.ctx e.root .load a 8 with
        | .error _ => fail
        | .ok (_, s1) =>
          match rmTranslate s1 r.ctx e.root .store a 8 with
          | .error _ => fail
          | .ok (p, s2) => { s2 with mem := memWrite s2.mem p 8 ((memRead s2.mem p 8 + 1) % 2 ^ 64) }

/-- Steps 3 to 6. -/
def completeRec (s : State) (r : Rec) : State :=
  let s1 := match r.refused with
    | some c => writeCtl1 s r 4 c
    | none => writeCtl1 s r (if r.killed then 5 else 2) r.exitor.toNat
  let s2 := signalRec s1 r
  let u := queueGet s2 r.queue
  let s3 := if r.queue < 64 then queuePut s2 r.queue (advanceProg { u with finished := r.ringIdx :: u.finished } (u.finished.length + 1))
    else s2
  let s4 := if u.ien then emit s3 (.msix u.vector) else s3
  { s4 with d := { s4.d with recs := s4.d.recs.filter (fun x => x.id != r.id) } }

/-! ### Budgets (R206) -/

def execBudgetExpire (id : Nat) (s : State) : Res :=
  match recById s id with
  | none => .fault .notEnabled
  | some r =>
    if r.at_ != .running || r.stopping.isSome || r.budget = 0 || s.clk < r.counted + r.budget then .fault .notEnabled
    else if Config.resumeCapacity ≤ (masterGet s r.home).resume.length + joining s r.home then
      .next (countDie (mapRec s id (fun r => { r with counted := s.clk, budget := recBudget r })) r.home 0x3B 1)
    else .next (stopRecord s r .budget)

/-! ### Queues (R193 to R195, R202) -/

/-- A queue that a host write has left with a tail out of range. -/
def rangeCheck (u : Queue) : Queue := { u with err := u.err || !tailOk u }

/-- QCTL as it reads (R194). -/
def qctlBits (u : Queue) : Nat :=
  let b (x : Bool) (k : Nat) : Nat := if x then 2 ^ k else 0
  u.context.toNat * 2 ^ 24 + u.vector.toNat * 2 ^ 16 + u.home % 4 * 2 ^ 14 + b u.switching 13 + b u.active 12 + b u.err 11 +
    b u.ien 10 + b u.devfed 9 + b u.preempt 8 + b u.en 7 + u.log2n.toNat

/-- A write of QCTL (R194). A queue that goes to another die is no active queue there (R202). -/
def qctlWrite (s : State) (q : Nat) (v : Word) : State :=
  let u := queueGet s q
  let bits (k n : Nat) : Nat := v.toNat / 2 ^ k % 2 ^ n
  let u1 : Queue := { u with vector := BitVec.ofNat 8 (bits 16 8), ien := v.getLsbD 10, preempt := v.getLsbD 8
                             err := u.err && !v.getLsbD 11 }
  if u.en then (if v.getLsbD 7 then queuePut s q u1 else unready (queuePut s q { u1 with en := false }) u.home q)
  else
    let stays := bits 14 2 == u.home
    let u2 : Queue := { u1 with context := BitVec.ofNat 16 (bits 24 16), home := bits 14 2, devfed := v.getLsbD 9
                                log2n := BitVec.ofNat 5 (bits 0 5), active := u.active && stays, switching := u.switching && stays }
    if !v.getLsbD 7 then queuePut s q u2
    else if u2.log2n.toNat = 0 ∨ 16 < u2.log2n.toNat then queuePut s q { u2 with err := true }
    else
      let s := { s with d := { s.d with recs := s.d.recs.filter (fun r => !(r.queue == q && r.at_ == .head)) } }
      queuePut (unready s u2.home q) q
        { u2 with en := true, tail := u.shadow, head := u.shadow, prog := u.shadow, finished := [] }

/-- BAR0 answers once READY is set (R404). -/
def whenReady (s : State) (s1 : State) : Res := .next (if s.d.ready then s1 else s)

def execQueueEnable (q : Nat) (v : Word) (s : State) : Res := whenReady s (if q < 64 then qctlWrite s q v else s)
def execQueueDisable (q : Nat) (v : Word) (s : State) : Res := whenReady s (if q < 64 then qctlWrite s q v else s)

/-- R195: a host write of QTAIL. -/
def qtailPut (s : State) (q : Nat) (v : BitVec 32) : State :=
  let u := queueGet s q
  if u.devfed then s
  else if !u.active || u.switching then queuePut s q { u with shadow := v }
  else
    let u1 := rangeCheck { u with shadow := v, tail := v }
    if offers u1 then queuePut s q u1 else unready (queuePut s q u1) u.home q
def execQtailWrite (q : Nat) (v : BitVec 32) (s : State) : Res := whenReady s (if q < 64 then qtailPut s q v else s)

/-- A record of the queue has not been started. -/
def unstarted (u : Queue) : Bool := u.en && pastHead u (if u.active then u.tail else u.shadow)

/-- Queues that a die serves. -/
def dieQueues (s : State) (die : Nat) : List Nat := (List.range 64).filter (fun q => (queueGet s q).home == die)
/-- Switched-out queues of a die with an unstarted record. -/
def waitingQueues (s : State) (die : Nat) : List Nat :=
  (dieQueues s die).filter (fun q => let u := queueGet s q; !u.active && !u.switching && unstarted u && !packQueue s q)

/-- The next queue to be switched in, round robin. -/
def nextIn (s : State) (die : Nat) : Option Nat :=
  let w := waitingQueues s die
  let rr := (masterGet s die).rr
  match w.find? (fun q => decide (rr < q)) with
  | some q => some q
  | none => w.head?

/-- R202: a switch of a queue begins, or ends. -/
def execQueueSwitch (q : Nat) (s : State) : Res :=
  let u := queueGet s q
  let die := u.home
  if u.switching then
    let s := countDie s die 0x3E 1
    if u.active then .next (unready (queuePut s q { u with switching := false, active := false }) die q)
    else .next (queuePut s q (rangeCheck { u with switching := false, active := true, tail := u.shadow }))
  else if u.active then
    if !unstarted u && !(waitingQueues s die).isEmpty then .next (unready (queuePut s q { u with switching := true }) die q)
    else .fault .notEnabled
  else
    let act := (dieQueues s die).filter (fun k => let w := queueGet s k; w.active || w.switching)
    if nextIn s die == some q && act.length < Config.activeQueues then
      .next (masterPut (queuePut s q { u with switching := true }) die { masterGet s die with rr := q })
    else .fault .notEnabled

/-- R202: the active queue that has least recently started a record is switched out. -/
def execQueueRotate (die : Nat) (s : State) : Res :=
  let m := masterGet s die
  let act := (dieQueues s die).filter (fun q => let u := queueGet s q; u.active && !u.switching)
  if s.clk < m.rotAt + 2 ^ 16 || (waitingQueues s die).isEmpty then .fault .notEnabled
  else
    let old := act.foldl (fun b q =>
      match b with
      | none => some q
      | some a => if (queueGet s q).lastStart < (queueGet s a).lastStart then some q else some a) none
    let s := masterPut s die { m with rotAt := s.clk }
    match old with
    | some q => .next (unready (queuePut s q { queueGet s q with switching := true }) die q)
    | none => .fault .notEnabled

/-! ### Pip regions and stores (R271, R272) -/

/-- A write of RCTL. -/
def rctlWrite (s : State) (r : Nat) (v : Word) : State :=
  let g := regionGet s r
  let g1 : Region := { g with quota := BitVec.ofNat 28 (v.toNat / 2 ^ 5) }
  let g2 : Region := if g.en then g1 else { g1 with context := BitVec.ofNat 16 (v.toNat / 2 ^ 33), home := v.toNat / 2 ^ 3 % 4 }
  if v.getLsbD 0 then regionPut s r { g2 with en := true }
  else if g.en then regionPut s r { g2 with en := false, lines := [], pending := [], collides := 0 }
  else regionPut s r g2

def execRegionEnable (r : Nat) (v : Word) (s : State) : Res := whenReady s (if r < 256 then rctlWrite s r v else s)
def execRegionDisable (r : Nat) (v : Word) (s : State) : Res := whenReady s (if r < 256 then rctlWrite s r v else s)

/-- A write of PSCFG, ignored whole in the cases of R272. -/
def pscfgPut (s : State) (die : Nat) (v : Word) : State :=
  let lines := v.toNat % 2 ^ 28
  let base := v.toNat / 2 ^ 30 % 256 * 2 ^ 30
  if s.d.regions.any (fun (_, g) => g.en && g.home == die) || lines % 2 ^ 23 != 0 || 2 ^ 27 < lines ||
      Config.dieBytes < base + lines * 160 then s
  else { s with d := { s.d with pscfg := s.d.pscfg.setIfInBounds die (v &&& 0x3FCFFFFFFF) } }
def execPscfgWrite (die : Nat) (v : Word) (s : State) : Res := whenReady s (if die < 4 then pscfgPut s die v else s)

end Sys2Proof.Machine
end

