-- ==== Sys2Proof/Machine/Image.lean ====
section
/-! DEFINITION. The context command block (R364, R365): dirty tracking (R366), PACKDOWN and the image (R367 to R369), pip
lines across devices (R370) and SETUP (R371). -/

namespace Sys2Proof.Machine

/-! ### The block (R364) -/

/-- CCTL as it reads. -/
def cctlBits (c : CtxCmd) : Nat :=
  c.context.toNat * 2 ^ 48 + c.region.toNat * 2 ^ 40 + c.status.toNat * 2 ^ 32 + (if c.busy then 2 ^ 31 else 0) +
    (if c.hmem then 2 ^ 30 else 0) + c.op.toNat

def ccPut (s : State) (c : CtxCmd) : State := { s with d := { s.d with cc := c } }

/-- CONTEXT, REGION and HMEM from a write of CCTL. -/
def cctlFields (s : State) (v : Word) : State :=
  ccPut s { s.d.cc with context := v.extractLsb' 48 16, region := v.extractLsb' 40 8, hmem := v.getLsbD 30 }

/-- A write of CCTL that starts the command `op`; ignored while one runs, or before READY (R404). -/
def ccStart (s : State) (v : Word) (op : Nat) (k : State → State) : Res :=
  if v.toNat % 16 != op then .fault .notEnabled
  else if !s.d.ready || s.d.cc.busy then .next s
  else
    let s := cctlFields s v
    .next (k (ccPut s { s.d.cc with op := v.extractLsb' 0 4 }))

/-- The command ends with a status, CSIZE replaced where it changes. -/
def ccEnd (s : State) (status : Nat) (size : Option Nat) : State :=
  let c := s.d.cc
  ccPut s { c with busy := false, status := BitVec.ofNat 8 status, csize := (size.map (BitVec.ofNat 64)).getD c.csize }

/-- Where the buffer lies in the numbering of Mem, if `n` bytes of it can be accessed. -/
def ccBuffer (s : State) (n : Nat) : Option Nat :=
  let a := s.d.cc.caddr.toNat / 64 * 64
  if s.d.cc.hmem then some (hostBase + a % 2 ^ 52)
  else if normalPa a && decide (a % 2 ^ 40 + n ≤ Config.dieBytes) && !inCarveOut s.d.pscfg a n then some a else none

/-- `n` bytes at offset `o` of the buffer at `a`, unless some are uncorrectable. -/
def ccRead (s : State) (a o n : Nat) : Option Nat := if poisoned s.d.poison (a + o) n then none else some (memRead s.mem (a + o) n)

/-- R365: OP values 8 to 15. -/
def badopRun (s : State) : State := ccEnd s 9 none

def execBadop (v : Word) (s : State) : Res :=
  if v.toNat % 16 < 8 then .fault .notEnabled else ccStart s v (v.toNat % 16) badopRun

/-! ### Dirty tracking (R366) -/

def bitmapBytes : Nat := 393216
def bitmapAt (s : State) : Nat := s.d.cc.cbmap.toNat
/-- The bitmap lies in the device's DRAM, outside the pip stores (R272). -/
def bitmapFits (s : State) : Bool :=
  normalPa (bitmapAt s) && decide (bitmapAt s % 2 ^ 40 + bitmapBytes ≤ Config.dieBytes) && !inCarveOut s.d.pscfg (bitmapAt s) bitmapBytes

/-- Translation entries lose their written state. -/
def cleanTlb (s : State) (which : Tlb → Bool) : State :=
  { s with d := { s.d with tlb := s.d.tlb.map (fun t => if which t then { t with dirty := [] } else t) } }

/-- TRACK_ON. -/
def trackOnRun (s : State) : State :=
  if !bitmapFits s then ccEnd s 8 none
  else
    let c := s.d.cc.context
    let s := cleanTlb { s with mem := memClear s.mem (bitmapAt s) bitmapBytes } (fun t => t.ctx == c)
    ccEnd { s with d := { s.d with tracked := c :: s.d.tracked.filter (· != c) } } 0 none

def execTrackOn (v : Word) (s : State) : Res := ccStart s v 3 trackOnRun

/-- TRACK_OFF. -/
def trackOffRun (s : State) : State :=
  ccEnd { s with d := { s.d with tracked := s.d.tracked.filter (· != s.d.cc.context) } } 0 none

def execTrackOff (v : Word) (s : State) : Res := ccStart s v 4 trackOffRun

/-- Words `k` onward read, written out and zeroed. -/
def swapWords (m : Memory) (src dst k : Nat) : Nat → Memory
  | 0 => m
  | n + 1 =>
    let w := memRead m (src + 8 * k) 8
    swapWords (memWrite (memWrite m (dst + 8 * k) 8 w) (src + 8 * k) 8 0) src dst (k + 1) n

/-- DIRTY_SWAP. -/
def dirtySwapRun (s : State) : State :=
    if s.d.cc.csize.toNat < bitmapBytes then ccEnd s 4 (some bitmapBytes)
    else match ccBuffer s bitmapBytes with
      | none => ccEnd s 8 none
      | some dst =>
        if !bitmapFits s || poisoned s.d.poison (bitmapAt s) bitmapBytes then ccEnd s 8 none
        else
          let s := cleanTlb { s with mem := swapWords s.mem (bitmapAt s) dst 0 (bitmapBytes / 8) } (fun _ => true)
          ccEnd s 0 (some bitmapBytes)

def execDirtySwap (v : Word) (s : State) : Res := ccStart s v 5 dirtySwapRun

/-! ### Pip lines (R370) -/

/-- Lines in ascending pip order. -/
def sortLines (ls : List PLine) : List PLine := ls.foldr insert []
where
  insert (x : PLine) : List PLine → List PLine
    | [] => [x]
    | y :: ys => if x.pip.toNat ≤ y.pip.toNat then x :: y :: ys else y :: insert x ys

def kindNo (l : PLine) : Nat := if l.inner then 1 else 0

/-- PIP_EXPORT. -/
def pipExportRun (s : State) : State :=
    let g := (regionGet s s.d.cc.region.toNat).settle
    let size := 160 * g.lines.length
    if !g.en || g.context != s.d.cc.context then ccEnd s 5 none
    else if s.d.cc.csize.toNat < size then ccEnd s 4 (some size)
    else if g.lines.any (fun l => lineBad s s.d.cc.region.toNat g l.pip) then ccEnd s 8 none
    else match ccBuffer s size with
      | none => ccEnd s 8 none
      | some a =>
        let bits := packBytes ((sortLines g.lines).map (fun l =>
          (160, l.pip.toNat + packBytes [(1, kindNo l), (3, 0), (4, l.count), (8, 0), (128, l.data.toNat)] <<< 128)))
        ccEnd { s with mem := memWrite s.mem a size bits } 0 (some size)

def execPipExport (v : Word) (s : State) : Res := ccStart s v 6 pipExportRun

/-- A record of a PIP_INSTALL: a line to stage, nothing where it is staged already, or the status that ends the command. -/
def installRec (s : State) (g : Region) (b : Nat) : Except Nat (Option PLine) :=
  let pip := BitVec.ofNat 128 (bytesAt b 0 16)
  let inner := bytesAt b 16 1 == 1
  let data := BitVec.ofNat 1024 (bytesAt b 32 128)
  if bytesAt b 17 3 != 0 || bytesAt b 24 8 != 0 then .error 3
  else if 1 < bytesAt b 16 1 || pip == 0 || pip.toNat / 256 != pipName g.key inner data then .error 6
  else if g.staged.any (fun l => l.pip == pip) then .ok none
  else if storeFull s g.home then .error 4
  else .ok (some ⟨pip, inner, data, 0⟩)

/-- Records `k` onward of the buffer at `a`. -/
def installAll (s : State) (r a k : Nat) : Nat → State
  | 0 => ccEnd s 0 (some (160 * k))
  | n + 1 =>
    match ccRead s a (160 * k) 160 with
    | none => ccEnd s 8 (some (160 * k))
    | some b =>
      let g := regionGet s r
      match installRec s g b with
      | .error st => ccEnd s st (some (160 * k))
      | .ok none => installAll s r a (k + 1) n
      | .ok (some l) => installAll (regionPut s r { g with staged := g.staged ++ [l] }) r a (k + 1) n

/-- PIP_INSTALL. -/
def pipInstallRun (s : State) : State :=
    let r := s.d.cc.region.toNat
    let g := regionGet s r
    let n := s.d.cc.csize.toNat / 160
    if g.en then ccEnd s 5 none
    else if s.d.cc.csize = 0 then ccEnd (regionPut s r { g with staged := [] }) 0 (some 0)
    else match ccBuffer s (160 * n) with
      | none => ccEnd s 8 none
      | some a => installAll s r a 0 n

def execPipInstall (v : Word) (s : State) : Res := ccStart s v 7 pipInstallRun

/-! ### The image (R369) -/

/-- The records of an image: stopped, with contexts. -/
def packRecs (s : State) : List Rec :=
  s.d.recs.filter (fun r => r.ctx == s.d.cc.context && r.at_ == .resume)

/-- Queues of CQMASK, ascending. -/
def packQueues (s : State) : List Nat := (List.range 64).filter (fun q => s.d.cc.cqmask.getLsbD q)

def recordBits (s : State) (r : Rec) : Nat :=
  let respos := ((masterGet s r.home).resume.findIdx? (· == r.id)).getD 0
  let running := r.stopping == some .pack
  packBytes (r.words.toList.map (fun w => (8, w.toNat)) ++
    [(8, if running then r.budget - (s.clk - r.counted) else recBudget r), (8, r.total.toNat), (8, r.next.toNat), (8, r.done.toNat),
     (2, r.set.toNat), (1, if (packQueues s).contains r.queue then r.queue else 0xFF), (1, if running then 0 else 1), (1, respos),
     (1, r.exitor.toNat), (2, r.ended), (4, r.ringIdx.toNat)])

def queueBits (s : State) (q : Nat) : Nat :=
  let u := queueGet s q
  packBytes [(1, q), (7, 0), (8, u.base.toNat), (8, (tabGet s.d.cc.qctls q (BitVec.ofNat 64 (qctlBits u))).toNat), (4, u.tail.toNat),
    (4, u.shadow.toNat), (4, u.head.toNat), (4, u.prog.toNat)]

/-- The bytes of a 256-bit key, lowest first. -/
def keyBytes (k : BitVec 256) : List Byte := leBytes 32 k.toNat

def regionBits (mig : BitVec 256) (r : Nat) (g : Region) : Nat :=
  packBytes ([(1, r), (1, g.home), (2, 0), (4, g.lines.length), (4, g.quota.toNat), (4, g.collides.toNat),
      (40, leNat (keyWrap (keyBytes mig) (keyBytes g.key))), (8, 0)] ++
    (sortLines g.lines).flatMap (fun l => [(16, l.pip.toNat), (1, kindNo l), (3, 0), (4, l.count)]))

def regionSize (g : Region) : Nat := 64 + 24 * g.lines.length

/-- The context's enabled regions, ascending. -/
def packRegions (s : State) : List (Nat × Region) :=
  ((List.range 256).map (fun r => (r, regionGet s r))).filter (fun (_, g) => g.en && g.context == s.d.cc.context)

/-- Contexts laid from offset `o` of their section, each at a multiple of 64: record index, context, offset. -/
def placeContexts (o : Nat) : List (Nat × Saved) → List (Nat × Saved × Nat)
  | [] => []
  | (k, v) :: rest => (k, v, o) :: placeContexts (align64 (o + v.size)) rest

/-- The image as one number, and its size. -/
def imageBits (s : State) (mig : BitVec 256) : Nat × Nat :=
  let rs := packRecs s
  let cs := placeContexts 0 (rs.zipIdx.flatMap (fun (r, k) => r.saved.map (fun v => (k, v))))
  let regs := packRegions s
  let qs := packQueues s
  let root := match ctxEntry s s.d.cc.context with | some e => e.root.toNat | none => 0
  let tracked := s.d.tracked.contains s.d.cc.context
  let sects : List Sect :=
    [⟨1, 16 * cs.length, packBytes (cs.flatMap (fun (k, v, o) => [(4, k), (4, v.member), (8, o)]))⟩,
     ⟨2, cs.foldl (fun n (_, v, o) => Nat.max n (o + v.size)) 0, cs.foldl (fun n (_, v, o) => n + v.bits <<< (8 * o)) 0⟩,
     ⟨3, 128 * rs.length, packBytes (rs.map (fun r => (128, recordBits s r)))⟩,
     ⟨5, 64, root⟩,
     ⟨6, 64, packBytes [(8, bitmapAt s), (8, bitmapBytes), (1, if tracked then 1 else 0)]⟩,
     ⟨7, regs.foldl (fun n (_, g) => n + regionSize g) 0, packBytes (regs.map (fun (r, g) => (regionSize g, regionBits mig r g)))⟩,
     ⟨4, 64 * qs.length, packBytes (qs.map (fun q => (64, queueBits s q)))⟩]
  assemble (fun size => packBytes
    [(4, 0x1A494450), (1, 1), (1, 0), (2, Config.generation), (8, size), (2, sects.length), (2, cs.length), (2, s.d.cc.context.toNat),
     (2, rs.length), (4, if tracked then 1 else 0), (4, 0), (8, s.clk)]) sects

/-! ### PACKDOWN (R367) -/

/-- The records stopped for the image join their resume lists and run on. -/
def packRelease (s : State) : State :=
  s.d.recs.foldl (fun s r =>
    if r.stopping == some .pack && r.at_ == .resume then
      let m := masterGet s r.home
      masterPut (mapRec s r.id (fun r => { r with stopping := none })) r.home (setResume m s.clk (m.resume ++ [r.id]))
    else s) s

/-- STAMP of a context (R350). -/
def stampOf (xs : List Sect) : Nat := bytesAt (sectOf xs 1).data 576 8
def savedStamp (v : Saved) : Nat :=
  match parseCtx v.bits v.size with
  | some (_, xs, _) => stampOf xs
  | none => 0

/-- Steps 5 and 6 are done: the context's records leave the device, and its queues are left disabled. The places of its
harts stay saved out (R393). -/
def packLeave (s : State) : State :=
  let ctx := s.d.cc.context
  let s1 := (packRecs s).foldl (fun s r =>
    let m := masterGet s r.home
    masterPut s r.home (setResume m s.clk (m.resume.filter (· != r.id)))) s
  let s2 := (packQueues s).foldl (fun s q =>
    let u := queueGet s q
    unready (queuePut s q { u with en := false }) u.home q) s1
  { s2 with d := { s2.d with
      packed := (packRecs s).flatMap (fun r => r.saved.map (fun v => (ctx, v.gid, savedStamp v))) ++
        s2.d.packed.filter (fun p => p.1 != ctx)
      recs := s2.d.recs.filter (fun r => !((r.ctx == ctx && r.at_ == .resume) || ((packQueues s).contains r.queue && r.at_ == .head))) } }

/-- Steps 3 to 6. -/
def packFinish (s : State) : State :=
  let s1 := (packRegions s).foldl (fun s (r, g) => regionPut s r g.settle) s
  let cc := s1.d.cc
  if cc.migkey.isNone && !(packRegions s1).isEmpty then ccEnd (packRelease s1) 10 none
  else
    let (bits, size) := imageBits s1 (cc.migkey.getD 0)
    if cc.csize.toNat < size then ccEnd (packRelease s1) 4 (some size)
    else match ccBuffer s1 size with
      | none => ccEnd (packRelease s1) 8 none
      | some a => ccEnd (packLeave { s1 with mem := memWrite s1.mem a size bits }) 0 (some size)

/-- A running pack-down ends once no record of its context runs or completes. -/
def packSettle (s : State) : State :=
  if s.d.cc.busy && s.d.recs.all (fun r => r.ctx != s.d.cc.context || (r.at_ != .running && r.at_ != .completing)) then packFinish s
  else s

/-- A record of the context that is held is released. -/
def packUnhold (s : State) (die : Nat) : State :=
  let m := masterGet s die
  match m.held.bind (recById s) with
  | none => s
  | some r =>
    if r.ctx != s.d.cc.context && !s.d.cc.cqmask.getLsbD r.queue then s
    else if r.saved.isEmpty then
      releaseDies (masterPut (mapRec s r.id (fun r => { r with at_ := .head })) die { m with held := none }) r.id
    else releaseDies (masterPut (mapRec s r.id (fun r => { r with at_ := .resume })) die
      (setResume { m with held := none } s.clk (r.id :: m.resume))) r.id

/-- Steps 1 and 2. -/
def packBegin (s : State) : State :=
  let qs := packQueues s
  let s := ccPut s { s.d.cc with busy := true, qctls := qs.map (fun q => (q, BitVec.ofNat 64 (qctlBits (queueGet s q)))) }
  let s : State := [0, 1, 2, 3].foldl packUnhold s
  let s : State := qs.foldl (fun s q =>
    let u := queueGet s q
    unready (queuePut s q { u with active := false, switching := false }) u.home q) s
  let s : State := { s with d := { s.d with masters := s.d.masters.map (fun m => { m with preloads := [] }) } }
  s.d.recs.foldl (fun s r =>
    if r.ctx == s.d.cc.context && r.at_ == .running && r.stopping.isNone then stopRecord s r .pack else s) s

/-- PACKDOWN. -/
def packdownRun (s : State) : State := packSettle (packBegin s)

def execPackdown (v : Word) (s : State) : Res := ccStart s v 1 packdownRun

/-! ### SETUP (R371) -/

/-- An image as read: header fields, sections, and the offset of each in the image. -/
structure ImageIn where
  version : Bool
  ctxid   : Nat
  nharts  : Nat
  nrecs   : Nat
  tracked : Bool
  sects   : List Sect
  deriving DecidableEq, Repr

/-- A context of an image, ready to be placed: its record's index, its member, the node that it left and STAMP at its save. -/
structure HartIn where
  recIdx : Nat
  saved  : Saved
  node   : Nat
  stamp  : Nat
  deriving DecidableEq, Repr

/-- A region of an image: its number, home die, QUOTA, COLLIDES, wrapped key, line entries (pip, interior, COUNT). -/
structure RegionIn where
  num      : Nat
  home     : Nat
  quota    : Nat
  collides : Nat
  key      : Nat
  lines    : List (BitVec 128 × Bool × Nat)
  deriving DecidableEq, Repr

/-- The place that a node number names on its device. -/
def gidOfNode (node : Nat) : Nat := (node / 256 % 4 * 24 + node / 8 % 32) * 8 + node % 8

/-- A context at offset `o` of section 2 as a stopped member; none where it is malformed, or a command of it is none. -/
def readHart (s : State) (ctxid : Nat) (bits size o recIdx member : Nat) : Option HartIn :=
  match parseCtx (bits >>> (8 * o)) (size - o) with
  | none => none
  | some (c, xs, at7) =>
    if c.ctxid != ctxid || !xs.any (fun x => x.typ == 11) || !xs.any (fun x => x.typ == 12) then none
    else
      let nsl := (sectOf xs 11).size / Config.slabBytes
      let nti := (sectOf xs 12).size / Config.tileBytes
      let node := bytesAt bits (o + 20) 4
      let gid := gidOfNode node
      let h : Hart := { Hart.zero with
        gid := Config.cores * 8, run := .running, clusters := c.clus, lanes := c.lanes, slabs := List.range nsl, tiles := List.range nti
        ctxid := BitVec.ofNat 16 ctxid }
      (loadContext { s with h := h, others := s.h :: s.others } c xs at7).map (fun t =>
        { recIdx := recIdx, node := node, stamp := stampOf xs
          saved :=
            { gid := gid, member := member, ctx := BitVec.ofNat 16 ctxid, clusters := c.clus, lanes := c.lanes, slabs := nsl, tiles := nti
              waits := t.h.barWait, fgen := t.h.fgen, last := false, size := c.size, bits := bytesAt bits o c.size } })

/-- The harts of an image from entry `k` on. -/
def readHarts (s : State) (im : ImageIn) (k : Nat) : Nat → Option (List HartIn)
  | 0 => some []
  | n + 1 =>
    let e := bytesAt (sectOf im.sects 1).data (16 * k) 16
    let x2 := sectOf im.sects 2
    if im.nrecs ≤ bytesAt e 0 4 || bytesAt e 8 8 % 64 != 0 then none
    else match readHart s im.ctxid x2.data x2.size (bytesAt e 8 8) (bytesAt e 0 4) (bytesAt e 4 4), readHarts s im (k + 1) n with
      | some v, some vs => some (v :: vs)
      | _, _ => none

/-- The regions of section 7 from offset `o`; `n` bounds their number. -/
def readRegions (x : Sect) (o : Nat) : Nat → Option (List RegionIn)
  | 0 => if o = x.size then some [] else none
  | n + 1 =>
    if o = x.size then some []
    else if x.size < o + 64 then none
    else
      let b := bytesAt x.data o 64
      let nl := bytesAt b 4 4
      let ls := (List.range nl).map (fun k => bytesAt x.data (o + 64 + 24 * k) 24)
      if x.size < o + 64 + 24 * nl || bytesAt b 2 2 != 0 || bytesAt b 56 8 != 0 || 3 < bytesAt b 1 1 ||
          ls.any (fun l => 1 < bytesAt l 16 1 || bytesAt l 17 3 != 0) then none
      else
        (readRegions x (o + 64 + 24 * nl) n).map (fun rs =>
          { num := bytesAt b 0 1, home := bytesAt b 1 1, quota := bytesAt b 8 4, collides := bytesAt b 12 4, key := bytesAt b 16 40
            lines := ls.map (fun l => (BitVec.ofNat 128 (bytesAt l 0 16), bytesAt l 16 1 == 1, bytesAt l 20 4)) } :: rs)

/-- The sizes and reserved fields of the sections of an image, those of its start records (R199), its queue registers (R193,
R194), CTXROOT (R336) and CBMAP (R364) among them. -/
def imageFields (im : ImageIn) : Bool :=
  let x (t : Nat) : Sect := sectOf im.sects t
  (x 1).size == 16 * im.nharts && (x 3).size == 128 * im.nrecs && (x 4).size % 64 == 0 && (x 5).size == 64 && (x 6).size == 64 &&
    (List.range im.nrecs).all (fun k =>
      let r := bytesAt (x 3).data (128 * k) 128
      bytesAt r 108 20 == 0 && bytesAt r 48 8 / 2 ^ 62 == 0 && decide (bytesAt r 99 1 ≤ 1) && (decide (bytesAt r 98 1 < 64) || bytesAt r 98 1 == 0xFF)) &&
    (List.range ((x 4).size / 64)).all (fun k =>
      let q := bytesAt (x 4).data (64 * k) 64
      decide (bytesAt q 0 1 < 64) && bytesAt q 1 7 == 0 && bytesAt q 40 24 == 0 && bytesAt q 8 8 / 2 % 32 == 0 &&
        bytesAt q 16 8 / 2 ^ 40 == 0 && bytesAt q 16 8 / 2 ^ 5 % 4 == 0) &&
    BitVec.ofNat 64 (bytesAt (x 5).data 0 8) &&& ~~~ 0xFFFFFFFFFF000 == 0 && bytesAt (x 5).data 8 56 == 0 &&
    BitVec.ofNat 64 (bytesAt (x 6).data 0 8) &&& ~~~ 0xFFFFFFFFF0000 == 0 && bytesAt (x 6).data 17 47 == 0

/-- What SETUP reads: an image, or the status that ends the command and CSIZE. -/
def readImage (s : State) (a : Nat) : Except (Nat × Option Nat) ImageIn :=
  let cap := s.d.cc.csize.toNat
  if cap < 64 then .error (4, some 64)
  else match ccRead s a 0 64 with
    | none => .error (8, none)
    | some h =>
      let size := bytesAt h 8 8
      if bytesAt h 0 4 != 0x1A494450 || bytesAt h 28 4 != 0 || bytesAt h 40 24 != 0 || 1 < bytesAt h 24 4 then .error (3, none)
      else if cap < size then .error (4, some size)
      else if size < 64 then .error (3, none)
      else if (ccBuffer s size).isNone then .error (8, none)
      else match ccRead s a 0 size with
        | none => .error (8, none)
        | some b =>
          let n := bytesAt h 16 2
          match readDir (bytesAt b 64 (16 * n)) n size 7 with
          | none => .error (3, none)
          | some es =>
            let im : ImageIn :=
              { version := bytesAt h 4 1 == 1 && bytesAt h 5 1 == 0 && bytesAt h 6 2 == Config.generation
                ctxid := bytesAt h 20 2, nharts := bytesAt h 18 2, nrecs := bytesAt h 22 2, tracked := bytesAt h 24 4 == 1
                sects := cutSects b 0 es }
            if imageFields im then .ok im else .error (3, none)

/-- R371, check 4: the key that a region of an image wraps. -/
def regionKeyOk (s : State) (g : RegionIn) : Bool :=
  match s.d.cc.migkey with
  | none => false
  | some m => keyUnwrap (keyBytes m) (leBytes 40 g.key) == some (keyBytes (regionGet s g.num).key)

/-- Check 5: the status of the first line entry that is not staged as it should be. -/
def regionLines (s : State) (g : RegionIn) : Nat :=
  let st := (regionGet s g.num).staged
  let bad (e : BitVec 128 × Bool × Nat) : Option Nat :=
    match st.find? (fun l => l.pip == e.1) with
    | none => some 7
    | some l => if l.inner != e.2.1 then some 6 else none
  (g.lines.findSome? bad).getD 0

/-- Check 6: some allowed core has a share with a hart's live lanes. -/
def lanesOffered (s : State) (words : Nat) (v : Saved) : Bool := laneOffered s (newRec 0 0 Queue.zero words) v.clusters v.lanes

/-- A region of an image is enabled with its staged lines. -/
def enableRegion (s : State) (ctx : BitVec 16) (g : RegionIn) : State :=
  let r := regionGet s g.num
  let ls := r.staged.filterMap (fun l => (g.lines.find? (fun e => e.1 == l.pip)).map (fun e => { l with count := e.2.2 }))
  regionPut s g.num
    { r with context := ctx, quota := BitVec.ofNat 28 g.quota, home := g.home, en := true, collides := BitVec.ofNat 32 g.collides
             lines := ls, pending := [], staged := [] }

/-- A queue of an image: its registers, TAIL taken from SHADOW; `left` holds the ring indexes of the image's records of the
queue. -/
def restoreQueue (s : State) (b : Nat) (left : List (BitVec 32)) : State :=
  let q := bytesAt b 0 1
  let c := BitVec.ofNat 64 (bytesAt b 16 8)
  let f (k n : Nat) : Nat := c.toNat / 2 ^ k % 2 ^ n
  let head := BitVec.ofNat 32 (bytesAt b 32 4)
  let prog := BitVec.ofNat 32 (bytesAt b 36 4)
  let shadow := BitVec.ofNat 32 (bytesAt b 28 4)
  queuePut s q
    { base := BitVec.ofNat 64 (bytesAt b 8 8) &&& ~~~ 0x3E, context := BitVec.ofNat 16 (f 24 16), vector := BitVec.ofNat 8 (f 16 8), home := f 14 2
      switching := false, active := false, err := c.getLsbD 11, ien := c.getLsbD 10, devfed := c.getLsbD 9, preempt := c.getLsbD 8
      en := c.getLsbD 7, log2n := BitVec.ofNat 5 (f 0 5), tail := shadow, shadow := shadow, head := head, prog := prog
      finished := ((List.range ((head - prog).toNat % 131072)).map (fun k => prog + BitVec.ofNat 32 k)).filter (fun k => !left.contains k)
      lastStart := s.clk }

/-- A record of an image, with its members, under a new number. -/
def restoreRec (s : State) (ctx : BitVec 16) (b : Nat) (vs : List Saved) : Rec :=
  let id := s.d.nextRec
  let q := bytesAt b 98 1
  let r := newRec id q (queueGet s q) (bytesAt b 0 64)
  { r with
    ctx := ctx, ringIdx := BitVec.ofNat 32 (bytesAt b 104 4), at_ := .resume, total := bitsReg b 72, next := bitsReg b 80
    done := bitsReg b 88, set := BitVec.ofNat 16 (bytesAt b 96 2), exitor := BitVec.ofNat 8 (bytesAt b 101 1), ended := bytesAt b 102 2
    saved := vs }

/-- Members in ascending order. -/
def sortSaved (vs : List Saved) : List Saved := vs.foldr insert []
where
  insert (x : Saved) : List Saved → List Saved
    | [] => [x]
    | y :: ys => if x.member ≤ y.member then x :: y :: ys else y :: insert x ys

/-- The context of a member is one that the last image of its context written here holds: no other device has run the hart
since. -/
def packedHere (s : State) (ctx : BitVec 16) (v : HartIn) : Bool := s.d.packed.contains (ctx, v.saved.gid, v.stamp)

/-- Of two members that left one place, the second left it later: one that another device saved after those packed here, and
otherwise the one of the later STAMP. -/
def leftLater (s : State) (ctx : BitVec 16) (v w : HartIn) : Bool :=
  let (hv, hw) := (packedHere s ctx v, packedHere s ctx w)
  w.node == v.node && (if hv == hw then decide (v.stamp < w.stamp) else hv)

/-- R393: a member of an image left a place of this device's number as the last hart there, and no hart has taken it since: as
`saves` says where its context is one packed down here; where another device of this number has saved it, or this one before
others ran it, where no hart is there now (log 60, DEDUCED). -/
def leftLast (s : State) (ctx : BitVec 16) (hs : List HartIn) (v : HartIn) : Bool :=
  v.node / 1024 == s.d.devid.toNat && decide (v.node / 8 % 32 < Config.coresPerDie) && !hs.any (leftLater s ctx v) &&
    (if packedHere s ctx v then s.d.saves.contains (v.saved.gid, ctx) else (findHart s v.saved.gid).isNone)

/-- The members of an image with their places, which are saved out until they resume. A place that a hart of the context left
earlier, and that resumed elsewhere, is saved out no more. -/
def enterSaves (s : State) (ctx : BitVec 16) (hs : List HartIn) : List HartIn × State :=
  let hs := hs.map (fun v => { v with saved := { v.saved with last := leftLast s ctx hs v } })
  let ps := (hs.filter (·.saved.last)).map (fun v => (v.saved.gid, ctx))
  (hs, { s with d := { s.d with
    packed := s.d.packed.filter (fun p => p.1 != ctx)
    saves := ps ++ s.d.saves.filter (fun p => p.2 != ctx && !ps.any (fun q => q.1 == p.1)) } })

/-- A record of an image is added, and runs at once or joins its resume list: at the head if it was running. A place that a member
has taken before it is no saved-out one. -/
def addRec (s : State) (ctx : BitVec 16) (b : Nat) (vs : List Saved) : State :=
  let vs := vs.map (fun v => { v with last := v.last && s.d.saves.contains (v.gid, ctx) })
  let r := restoreRec s ctx b (sortSaved vs)
  let s := { s with d := { s.d with recs := s.d.recs ++ [r], nextRec := r.id + 1 } }
  let m := masterGet s r.home
  if bytesAt b 99 1 = 0 then
    match placeNow s r [] with
    | some gs =>
      mapRec (resumeMembers s r gs) r.id (fun r => { r with budget := if recBudget r = 0 then 0 else Nat.max 1 (bytesAt b 64 8) })
    | none => masterPut s r.home (setResume m s.clk (r.id :: m.resume))
  else masterPut s r.home (setResume m s.clk (m.resume ++ [r.id]))

/-- Records, listed ones in RESPOS order after the running ones. -/
def sortRecs (bs : List (Nat × Nat)) : List (Nat × Nat) := bs.foldr insert []
where
  key (b : Nat) : Nat := bytesAt b 99 1 * 256 + (if bytesAt b 99 1 = 0 then 0 else bytesAt b 100 1)
  insert (x : Nat × Nat) : List (Nat × Nat) → List (Nat × Nat)
    | [] => [x]
    | y :: ys => if key x.2 ≤ key y.2 then x :: y :: ys else y :: insert x ys

/-- What SETUP does once every check has passed. -/
def setupApply (s : State) (im : ImageIn) (hs : List HartIn) (gs : List RegionIn) : State :=
  let ctx := BitVec.ofNat 16 im.ctxid
  let rs := (List.range im.nrecs).map (fun k => (k, bytesAt (sectOf im.sects 3).data (128 * k) 128))
  let x4 := sectOf im.sects 4
  let s1 := gs.foldl (fun s g => enableRegion s ctx g) s
  let s2 := (List.range (x4.size / 64)).foldl (fun s k =>
    let b := bytesAt x4.data (64 * k) 64
    restoreQueue s b ((rs.filter (fun (_, r) => bytesAt r 98 1 == bytesAt b 0 1)).map (fun (_, r) => BitVec.ofNat 32 (bytesAt r 104 4)))) s1
  let (hs, s2) := enterSaves s2 ctx hs
  let s3 := (sortRecs rs).foldl (fun s (k, b) => addRec s ctx b ((hs.filter (fun v => v.recIdx == k)).map (·.saved))) s2
  if im.tracked then { s3 with d := { s3.d with tracked := ctx :: s3.d.tracked.filter (· != ctx) } } else s3

/-- Check 3. -/
def setupInUse (s : State) (im : ImageIn) (gs : List RegionIn) : Bool :=
  let ctx := BitVec.ofNat 16 im.ctxid
  let x4 := sectOf im.sects 4
  im.ctxid != s.d.cc.context.toNat || (s.h :: s.others).any (fun h => hartExists h && h.ctxid == ctx) ||
    s.d.recs.any (fun r => r.ctx == ctx && r.at_ != .head) || s.d.regions.any (fun (_, g) => g.en && g.context == ctx) ||
    (List.range (x4.size / 64)).any (fun k => (queueGet s (bytesAt x4.data (64 * k) 1)).en) ||
    gs.any (fun g => (regionGet s g.num).en) || (ctxEntry s ctx).isNone

def setupRun (s : State) : State :=
  match ccBuffer s 64 with
  | none => ccEnd s 8 none
  | some a =>
    match readImage s a with
    | .error (st, size) => ccEnd s st size
    | .ok im =>
      match readRegions (sectOf im.sects 7) 0 256, readHarts s im 0 im.nharts with
      | some gs, some hs =>
        if !im.version then ccEnd s 1 none
        else if setupInUse s im gs then ccEnd s 5 none
        else if !gs.all (regionKeyOk s) then ccEnd s 10 none
        else match (gs.map (regionLines s)).find? (· != 0) with
          | some st => ccEnd s st none
          | none =>
            let words (k : Nat) : Nat := bytesAt (sectOf im.sects 3).data (128 * k) 64
            if !hs.all (fun v => lanesOffered s (words v.recIdx) v.saved) then ccEnd s 2 none
            else ccEnd (setupApply s im hs gs) 0 (some (bytesAt ((ccRead s a 0 64).getD 0) 8 8))
      | _, _ => ccEnd s 3 none

def execSetup (v : Word) (s : State) : Res := ccStart s v 2 setupRun

/-- A write of CCTL (R364). -/
def cctlWrite (s : State) (v : Word) : State :=
  if s.d.cc.busy then s
  else
    let s1 := cctlFields s v
    let op := v.extractLsb' 0 4
    let s2 := ccPut s1 { s1.d.cc with op := op }
    if op = 0 then s1
    else match op.toNat with
      | 1 => packdownRun s2
      | 2 => setupRun s2
      | 3 => trackOnRun s2
      | 4 => trackOffRun s2
      | 5 => dirtySwapRun s2
      | 6 => pipExportRun s2
      | 7 => pipInstallRun s2
      | _ => badopRun s2

end Sys2Proof.Machine
end

