-- ==== Sys2Proof/Machine/Preempt.lean ====
section
/-! DEFINITION. The end of a hart (R119, R217, R341), pre-emption (R347, R348) and the completion of a record (R209). -/

namespace Sys2Proof.Machine

/-! ### The end of a hart (R217) -/

/-- R217: the end waits for the tokens of the hart's commands. -/
def endHart (status : BitVec 8) (s : State) : Res :=
  if s.h.cmds.isEmpty then .next (packSettle (finishHart s status (s.h.mode == .S))) else park s .hexit

def execHexit (a : Reg) (s : State) : Res := endHart ((xGet s.h a).setWidth 8) s
/-- R119. -/
def execHalt (s : State) : Res := endHart 0 s

/-- R217, R341: every command has written its token: the `hexit` issues again, or the hart of a double trap ends. -/
def execHexitTokensDone (s : State) : Res :=
  if s.h.run == .parked .hexit && s.h.cmds.isEmpty then
    match s.h.ending with
    | some st => .next (packSettle (finishHart s st true))
    | none => .next (setH s { s.h with run := .running })
  else .fault .notEnabled

/-! ### Pre-emption (R347, R348) -/

/-- A pre-emption of the hart in front is requested, at element group `g` of its instruction, by what stops its record (R206,
R207, R367) or by the supervisor of another hart (R347; log 5, DESIGN CHOICE): its record is stopped whole. No request is made of a record whose resume
list cannot take it. -/
def execPreemptRequest (g : Nat) (s : State) : Res :=
  match recOf s s.h with
  | none => .fault .notEnabled
  | some r =>
    if !hartExists s.h || r.at_ != .running then .fault .notEnabled
    else if r.stopping.isSome then .next (requestStop s s.h.gid g)
    else if !(s.h :: s.others).any (fun h => h.gid != s.h.gid && hartExists h && h.mode == .S) then .fault .notEnabled
    else if Config.resumeCapacity ≤ (masterGet s r.home).resume.length + joining s r.home then .fault .notEnabled
    else .next (requestStop (stopRecord s r .preempt) s.h.gid g)

/-- The hart is at a boundary of R347 with nothing before the pre-emption there: no trap, no interrupt, no element of a send and
no `replay` that issues. -/
def atRest (s : State) : Bool :=
  let h := s.h
  let fetched : Bool :=
    match h.run with
    | .running | .parked .stall =>
      h.sending.isSome || (match (fetchCheck s h h.pc h.xfer (h.second || h.replay.isSome)).1 with
       | .ok _ _ => true
       | _ => false)
    | .parked (.sendAck _) => false
    | .parked _ => true
    | _ => false
  stopped h && !midPair h && fetched && !sendFailed h && !(pendReady h && !midway h) &&
    !(interruptReady h && !midway h) && !machineCheckReady h

/-- Step 3: every cascade of the context's regions. -/
def settleRegions (s : State) (ctx : BitVec 16) : State :=
  { s with d := { s.d with regions := s.d.regions.map (fun (r, g) => (r, if g.context == ctx then g.settle else g)) } }

/-- Step 4: the context of the hart in front, slabs, tiles and trace ring included. -/
def savedOf (s : State) : Saved :=
  let h := undoReplay s.h
  let (bits, size) := contextBits s h (liveParts s h) true true
  { gid := h.gid, member := h.member, ctx := h.ctxid, clusters := h.clusters, lanes := savedLanes s h, slabs := h.slabs.length
    tiles := h.tiles.length, waits := h.barWait, fgen := h.fgen, last := true, size := size, bits := bits }

/-- Members in ascending order of their number. -/
def addSaved (vs : List Saved) (v : Saved) : List Saved := sortSaved (vs ++ [v])

/-- R348: the context of the hart in front is saved and its grants released. -/
def execContextSave (s : State) : Res :=
  match recOf s s.h with
  | none => .fault .notEnabled
  | some r =>
    if !atRest s then .fault .notEnabled
    else
      let h := s.h
      let v := savedOf s
      let s1 := settleRegions (countEv s 0x1B 1) h.ctxid
      let s2 := frqSet s1 h.gid ((frqAll s1 h.gid).filter (fun f => f.gid != h.gid))
      let s3 := mapRec s2 r.id (fun r => { r with places := r.places.filter (· != h.gid), saved := addSaved r.saved v })
      let s4 := { s3 with h := { Hart.zero with gid := h.gid }
                          d := { s3.d with saves := (h.gid, h.ctxid) :: s3.d.saves.filter (fun p => p.1 != h.gid) } }
      .next (packSettle (recordSettle s4 r.id))

/-! ### Completion (R209) -/

def execRecordComplete (rec_ : Nat) (s : State) : Res :=
  match recById s rec_ with
  | none => .fault .notEnabled
  | some r => if r.at_ == .completing then .next (packSettle (completeRec s r)) else .fault .notEnabled

end Sys2Proof.Machine
end

