-- ==== Sys2Proof/Machine/Device.lean ====
section
/-! DEFINITION. The device register window (R401) with every register in it, power and clocks (R403), resets, boot and the
alarm (R377, R379, R404). -/

namespace Sys2Proof.Machine

/-! ### DEVCTL and PWRCTL (R401, R403) -/

def boolNat (b : Bool) (k : Nat) : Nat := if b then 2 ^ k else 0

def devctlBits (d : Dev) : Nat := d.devid.toNat + boolNat d.lock 16 + boolNat d.ready 17
/-- A write of DEVCTL: DEVID under LOCK as it stands before, LOCK only set. -/
def devctlWrite (s : State) (v : Word) : State :=
  { s with d := { s.d with devid := if s.d.lock then s.d.devid else v.extractLsb' 0 10
                           lock := s.d.lock || v.getLsbD 16 } }

def pwrctlBits (d : Dev) : Nat :=
  d.pcap.toNat * 2 ^ 32 + boolNat d.throt 16 + d.cur.toNat * 2 ^ 8 + d.req.toNat

/-- A write of PWRCTL: REQ 3 is ignored; the point requested is in force, unless a limit holds a slower one. -/
def pwrctlWrite (s : State) (v : Word) : State :=
  let req := if v.extractLsb' 0 2 = 3 then s.d.req else v.extractLsb' 0 2
  { s with d := { s.d with
      pcap := v.extractLsb' 32 16
      req := req
      cur := if s.d.throt && req.ult s.d.cur then s.d.cur else req } }

/-- R401: a write of DEVCTL that sets LOCK. -/
def execDevidLock (v : Word) (s : State) : Res :=
  if v.getLsbD 16 then whenReady s (devctlWrite s v) else .fault .notEnabled

def execPowerPointRequest (v : Word) (s : State) : Res := whenReady s (pwrctlWrite s v)

/-- R403: the cap or a limit lowers the clock; by how many points is free. -/
def execThermalLimit (s : State) : Res :=
  let down := if Config.throttleDeep s.steps then 2 else 1
  .next { s with d := { s.d with throt := true, cur := BitVec.ofNat 2 (Nat.min 2 (s.d.cur.toNat + down)) } }

def execThermalLimitClear (s : State) : Res :=
  if s.d.throt then .next { s with d := { s.d with throt := false, cur := s.d.req } } else .fault .notEnabled

/-! ### CTXTAB, queues, regions -/

/-- R197. -/
def ctxtabWrite (s : State) (v : Word) : State :=
  let n := v.extractLsb' 0 5
  { s with d := { s.d with ctxtab := (v &&& 0xFFFFFFFFF0000) ||| (if 16 < n.toNat then 16 else n.setWidth 64) } }

/-- R193, R194. -/
def qbaseWrite (s : State) (q : Nat) (v : Word) : State :=
  let u := queueGet s q
  if u.en then s else queuePut s q { u with base := v &&& ~~~ 0x3E }

/-- Word `k` of a 256-bit key replaced. -/
def keyWord (key : BitVec 256) (k : Nat) (v : Word) : BitVec 256 :=
  BitVec.ofNat 256 (key.toNat - (key.toNat / 2 ^ (64 * k) % 2 ^ 64) * 2 ^ (64 * k) + v.toNat * 2 ^ (64 * k))

/-- R271. -/
def regionKeyWrite (s : State) (r k : Nat) (v : Word) : State :=
  let g := regionGet s r
  if g.en then s else regionPut s r { g with key := keyWord g.key k v }

def rctlBits (g : Region) : Nat :=
  g.context.toNat * 2 ^ 33 + g.quota.toNat * 2 ^ 5 + g.home % 4 * 2 ^ 3 + boolNat g.en 0
def rstatBits (g : Region) : Nat := g.collides.toNat * 2 ^ 32 + g.lines.length % 2 ^ 28

/-! ### Event counters (R380) -/

def evselBits (c : Ctr) : Nat :=
  c.harts.toNat * 2 ^ 16 + boolNat c.ovf 9 + boolNat c.int 8 + boolNat c.en 7 + c.event.toNat
/-- A write of EVSEL; `core` for a core's counter. -/
def evselWrite (c : Ctr) (core : Bool) (v : Word) : Ctr :=
  { c with harts := if core then v.extractLsb' 16 8 else 0, ovf := c.ovf && !v.getLsbD 9, int := v.getLsbD 8, en := v.getLsbD 7
           event := v.extractLsb' 0 6 }

/-- The counter block: which counter an offset from it names, and whether it is EVSEL: a core's (true) or a die's. -/
def counterAt (o : Nat) : Option (Bool × Nat × Bool) :=
  let sel := o / 8 % 2 == 1
  if o < 0x6000 then (if o % 256 < 128 then some (true, o / 256 * 8 + o % 256 / 16, sel) else none)
  else if o < 0x6400 then some (false, (o - 0x6000) / 256 * 16 + o % 256 / 16, sel)
  else none

def counterRead (s : State) (o : Nat) : Nat :=
  match counterAt o with
  | none => 0
  | some (core, k, sel) =>
    let c := tabGet (if core then s.d.coreCtrs else s.d.dieCtrs) k Ctr.zero
    if sel then evselBits c else c.cnt.toNat

def counterWrite (s : State) (o : Nat) (v : Word) : State :=
  match counterAt o with
  | none => s
  | some (core, k, sel) =>
    let put (c : Ctr) : Ctr := if sel then evselWrite c core v else { c with cnt := v.setWidth 48 }
    if core then { s with d := { s.d with coreCtrs := tabSet s.d.coreCtrs k (put (tabGet s.d.coreCtrs k Ctr.zero)) } }
    else { s with d := { s.d with dieCtrs := tabSet s.d.dieCtrs k (put (tabGet s.d.dieCtrs k Ctr.zero)) } }

/-! ### Midway registers (R397) -/

def mwstatBits (p : Port) : Nat :=
  p.peer.toNat * 2 ^ 54 + p.replays.toNat * 2 ^ 22 + p.lanes % 16 * 2 ^ 18 + boolNat p.macfail 1 + boolNat p.up 0

/-- A write of MWCTL; a port that is disabled goes down. -/
def mwctlWrite (s : State) (q : Nat) (v : Word) : State :=
  let s1 := portPut s q { portGet s q with en := v.getLsbD 0 }
  if !v.getLsbD 0 && (portGet s q).up then downPort s1 q false else s1

def routeGet (d : Dev) (v : Nat) : BitVec 16 := tabGet d.routes v (0 : BitVec 16)
/-- The entries of the route table that an access at the one of device `k` reaches: four where the offset is one of 8 bytes,
else that one alone (log 62, DESIGN CHOICE). -/
def routesAt (k : Nat) : List Nat := if k % 4 = 0 then [0, 1, 2, 3] else [0]
def routesRead (d : Dev) (k : Nat) : Nat := (routesAt k).foldl (fun n j => n + (routeGet d (k + j)).toNat * 2 ^ (16 * j)) 0
/-- A flit that waits for a route may leave then (R397). -/
def routesWrite (s : State) (k : Nat) (v : Word) : State :=
  freeStranded ((routesAt k).foldl (fun s j =>
    { s with d := { s.d with routes := tabSet s.d.routes (k + j) (v.extractLsb' (16 * j) 16) } }) s)

/-! ### The window (R401) -/

/-- The context command block. -/
def ccRegRead (c : CtxCmd) (o : Nat) : Nat :=
  match o with
  | 0x00 => cctlBits c
  | 0x08 => c.caddr.toNat
  | 0x10 => c.csize.toNat
  | 0x18 => c.cqmask.toNat
  | 0x20 => c.cbmap.toNat
  | _ => 0

def ccRegWrite (s : State) (o : Nat) (v : Word) : State :=
  let c := s.d.cc
  match o with
  | 0x00 => cctlWrite s v
  | 0x08 => ccPut s { c with caddr := v &&& ~~~ 0x3F }
  | 0x10 => ccPut s { c with csize := v }
  | 0x18 => ccPut s { c with cqmask := v }
  | 0x20 => ccPut s { c with cbmap := v &&& 0xFFFFFFFFF0000 }
  | _ =>
    if 0x28 ≤ o ∧ o < 0x48 then ccPut s { c with migkey := some (keyWord (c.migkey.getD 0) ((o - 0x28) / 8) v) } else s

/-- The offset is one of the route table, whose entries have 2 bytes each. -/
def inRoutes (off : Nat) : Bool := decide (0x51000 ≤ off) && decide (off < 0x51800) && off % 2 == 0

/-- The register at an offset of BAR0, which reads as zero before READY (R404). -/
def bar0Read (s : State) (off : Nat) : Word :=
  let u := queueGet s ((off - 0x1000) / 64)
  let g := regionGet s ((off - 0x2000) / 64)
  let p := portGet s ((off - 0x50000) / 64)
  BitVec.ofNat 64
    (if !s.d.ready then 0
     else if inRoutes off then routesRead s.d ((off - 0x51000) / 2)
     else if off % 8 != 0 then 0
     else if off = 0 then devctlBits s.d
     else if off = 8 then pwrctlBits s.d
     else if off = 0x10 then s.d.ctxtab.toNat
     else if 0x1000 ≤ off ∧ off < 0x2000 then
       match off % 64 with
       | 0x00 => u.base.toNat
       | 0x08 => qctlBits u
       | 0x10 => if u.devfed then u.tail.toNat else u.shadow.toNat
       | 0x18 => u.head.toNat
       | 0x20 => u.prog.toNat
       | _ => 0
     else if 0x2000 ≤ off ∧ off < 0x6000 then
       match off % 64 with
       | 0x20 => rctlBits g
       | 0x28 => rstatBits g
       | _ => 0
     else if 0x6000 ≤ off ∧ off < 0x6020 then (s.d.pscfg.toList.getD ((off - 0x6000) / 8) 0).toNat
     else if 0x7000 ≤ off ∧ off < 0x7080 then ccRegRead s.d.cc (off - 0x7000)
     else if 0x8000 ≤ off ∧ off < 0xE400 then counterRead s (off - 0x8000)
     else if 0x50000 ≤ off ∧ off < 0x50400 then
       match off % 64 with
       | 0x00 => boolNat p.en 0
       | 0x08 => mwstatBits p
       | _ => 0
     else 0)

/-- A write of the register at an offset of BAR0. -/
def bar0Write (s : State) (off : Nat) (v : Word) : State :=
  if inRoutes off then routesWrite s ((off - 0x51000) / 2) v
  else if off % 8 != 0 then s
  else if off = 0 then devctlWrite s v
  else if off = 8 then pwrctlWrite s v
  else if off = 0x10 then ctxtabWrite s v
  else if 0x1000 ≤ off ∧ off < 0x2000 then
    match off % 64 with
    | 0x00 => qbaseWrite s ((off - 0x1000) / 64) v
    | 0x08 => qctlWrite s ((off - 0x1000) / 64) v
    | 0x10 => qtailPut s ((off - 0x1000) / 64) (v.setWidth 32)
    | _ => s
  else if 0x2000 ≤ off ∧ off < 0x6000 then
    if off % 64 < 0x20 then regionKeyWrite s ((off - 0x2000) / 64) (off % 64 / 8) v
    else if off % 64 = 0x20 then rctlWrite s ((off - 0x2000) / 64) v
    else s
  else if 0x6000 ≤ off ∧ off < 0x6020 then pscfgPut s ((off - 0x6000) / 8) v
  else if 0x7000 ≤ off ∧ off < 0x7080 then ccRegWrite s (off - 0x7000) v
  else if 0x8000 ≤ off ∧ off < 0xE400 then counterWrite s (off - 0x8000) v
  else if 0x50000 ≤ off ∧ off < 0x50400 then
    let q := (off - 0x50000) / 64
    match off % 64 with
    | 0x00 => mwctlWrite s q v
    | 0x08 => if v.getLsbD 1 then portPut s q { portGet s q with macfail := false } else s
    | _ => s
  else s

def execRegisterWrite (off : Nat) (v : Word) (s : State) : Res := whenReady s (bar0Write s off v)

/-! ### Resets (R377, R379, R404) -/

/-- Memory that a reset of the device leaves: the host's and the peers'. -/
def outerMem (m : Memory) : Memory := m.filter (fun c => decide (hostBase ≤ c.1) && decide (c.1 < scrBase))

/-- R404: steps 2 to 4 with a device `d`: DRAM is zeroed, no context is left, READY is set. -/
def bringUp (s : State) (d : Dev) : State :=
  { s with h := Hart.zero, others := [], mem := outerMem s.mem, d := { d with ready := true } }

/-- What survives a warm reset (R373, R375, R379, R401). -/
def warmDev (s : State) : Dev :=
  let o := s.d
  { Dev.reset with
    devid := o.devid, lock := o.lock, retired := o.retired, hard := o.hard, alog := o.alog, blog := o.blog, swapped := o.swapped
    grpFails := o.grpFails, recent := o.recent, fixes := o.fixes, tallies := o.tallies, alarm := o.alarm, alarmLast := o.alarmLast
    slot := o.slot, svn := o.svn, fuse := o.fuse, fwDigest := o.fwDigest, commit := o.commit, idKey := o.idKey, out := o.out }

/-- R404: a warm reset. The device held by an alarm, or in recovery, stays so. -/
def execWarmReset (s : State) : Res :=
  if s.d.holding || s.d.bootfail then .next s else .next (bringUp s (warmDev s))

/-- What a cold reset keeps: the lane repair map, known bad lanes, fuses, and ALARM as ALARMLAST. The identity keys are
derived anew (R378). -/
def coldDev (s : State) : Dev :=
  let o := s.d
  { Dev.reset with
    ready := false, retired := o.retired, swapped := o.swapped, fuse := o.fuse, alarmLast := o.alarm, alarm := 0, out := o.out
    idKey := Config.identityKey Config.fusedSeed }

/-- R377: every check of a firmware slot passes. -/
def slotBoots (fuse : Nat) (f : FwSlot) (svn : Nat) : Bool :=
  f.edKey == Config.fusedEdKey && f.pqKey == Config.fusedPqKey && f.edSig && f.pqSig && f.body == f.digest && decide (fuse ≤ svn)

/-- R377: slot A, else slot B, boots if every check passes. -/
def execColdReset (a b : FwSlot) (svnA svnB : Nat) (commitA commitB : Bool) (s : State) : Res :=
  let d := coldDev s
  let s0 := { s with clk := 0 }
  let boot (slot : Nat) (f : FwSlot) (svn : Nat) (commit : Bool) : Res :=
    .next (bringUp s0 { d with slot := slot, svn := svn, commit := commit, fwDigest := f.body
                               fuse := if commit then Nat.min 64 (Nat.max d.fuse svn) else d.fuse })
  if slotBoots d.fuse a svnA then boot 0 a svnA commitA
  else if slotBoots d.fuse b svnB then boot 1 b svnB commitB
  else
    .next (emit { s0 with h := Hart.zero, others := [], mem := outerMem s.mem, d := { d with bootfail := true } } .bootfail)

/-- R379: an alarm: 1 voltage, 2 clock, 3 mesh. -/
def execSecurityAlarm (kind : BitVec 8) (s : State) : Res :=
  if kind = 0 ∨ 3 < kind.toNat then .fault .notEnabled
  else
    let o := s.d
    .next { s with
      h := Hart.zero
      others := []
      d := { Dev.reset with
        ready := false, holding := true, alarm := kind, alarmLast := o.alarmLast, devid := o.devid, lock := o.lock
        retired := o.retired, hard := o.hard, alog := o.alog, blog := o.blog, swapped := o.swapped, grpFails := o.grpFails
        recent := o.recent, fwDigest := o.fwDigest, fixes := o.fixes, tallies := o.tallies, poison := o.poison, slot := o.slot, svn := o.svn, fuse := o.fuse, commit := o.commit
        idKey := 0, out := o.out } }

end Sys2Proof.Machine
end

