-- ==== Sys2Proof/Machine/Midway.lean ====
section
/-! DEFINITION. Midway ports and the flits that arrive on them (R396, R397): training, failures, the nine kinds. How a
payload carries an operation is the model's own (log 17, DESIGN CHOICE). -/

namespace Sys2Proof.Machine

/-! ### Ports -/

/-- R397: a write of MWCTL. -/
def execPortEnable (port : Nat) (v : Word) (s : State) : Res := whenReady s (if port < 16 then mwctlWrite s port v else s)

/-- A port that is enabled has trained with its far end, and the IDE session that SPDM keys is established (R378, R396). -/
def execPortTrained (port peer lanes : Nat) (s : State) : Res :=
  let p := portGet s port
  if 16 ≤ port || !s.d.ide || !p.en || p.up || p.macfail || !(lanes == 4 || lanes == 8) then .fault .notEnabled
  else .next (freeStranded (portPut s port
    { p with up := true, peer := BitVec.ofNat 10 peer, lanes := lanes, seq := 0, credits := Config.linkCredits s.steps }))

/-- R396. -/
def execLaneFailRetrain (port : Nat) (s : State) : Res :=
  let p := portGet s port
  if p.up && p.lanes == 8 then .next (portPut s port { p with lanes := 4 }) else .fault .notEnabled

def execPortDown (port : Nat) (s : State) : Res :=
  if (portGet s port).up then .next (downPort s port false) else .fault .notEnabled

/-! ### Memory flits at the home (R389, R398) -/

/-- The flit is for this device. -/
def forMe (s : State) (f : Flit) : Bool := f.dst.toNat / 1024 == s.d.devid.toNat

/-- `n` bytes of device memory that a flit may name. -/
def peerMayReach (s : State) (a n : Nat) : Bool :=
  normalPa a && decide (a % 2 ^ 40 + n ≤ Config.dieBytes) && !inCarveOut s.d.pscfg a n

def execReadRequest (port : Nat) (f : Flit) (s : State) : Res :=
  receive s port f (fun s =>
    if !forMe s f then .next s
    else .next (answer s 2 f f.len (if peerMayReach s f.addr f.len then memRead s.mem f.addr f.len else 0)))

def execWrite (port : Nat) (f : Flit) (s : State) : Res :=
  receive s port f (fun s =>
    if !forMe s f then .next s
    else
      let s1 := if peerMayReach s f.addr f.len then { s with mem := memWrite s.mem f.addr f.len f.data } else s
      .next (answer s1 7 f 0 0))

/-- The new value of an atomic flit: operations 0 to 7 of R237, 8 a compare and swap; DATA holds the operand, then the
weight of a blend or the new value. -/
def flitAtomic (op : BitVec 4) (et : ET) (old data : Nat) : Nat :=
  let n := et.memBits
  let x := data % 2 ^ n
  let y := data / 2 ^ n
  match op.toNat with
  | 0 => x
  | 1 => (amoNew .add et 0 old x).1
  | 2 => (amoNew .and et 0 old x).1
  | 3 => (amoNew .or et 0 old x).1
  | 4 => (amoNew .xor et 0 old x).1
  | 5 => (amoNew .min et 0 old x).1
  | 6 => (amoNew .max et 0 old x).1
  | 7 => (amoNew .blend et (y % 65536) old x).1
  | _ => if old = x then y % 2 ^ n else old

def execAtomic (port : Nat) (f : Flit) (op : BitVec 4) (et : ET) (s : State) : Res :=
  receive s port f (fun s =>
    if !forMe s f then .next s
    else
      let n := et.memBits / 8
      if !peerMayReach s f.addr n then .next (answer s 5 f n 0)
      else
        let old := memRead s.mem f.addr n
        .next (answer { s with mem := memWrite s.mem f.addr n (flitAtomic op et old f.data) } 5 f n old))

/-! ### Answers to the device -/

/-- Where bytes of a peer lie in the numbering of Mem. -/
def peerAddr (dev a : Nat) : Nat := peerBase + dev % 1024 * 2 ^ 42 + a % 2 ^ 42

/-- Read data: what the device sees of the peer's memory is what the peer answered (log 16, DESIGN CHOICE). -/
def execReadData (port : Nat) (f : Flit) (s : State) : Res :=
  receive s port f (fun s =>
    let s1 := ackFlit s port 1 f.dst f.src
    .next { s1 with mem := memWrite s1.mem (peerAddr (f.src.toNat / 1024) f.addr) f.len f.data })

def execAtomicResult (port : Nat) (f : Flit) (s : State) : Res :=
  receive s port f (fun s => .next (ackFlit s port 4 f.dst f.src))

/-- R396: a flit that carries nothing but its CREDITS, and takes none itself. -/
def execCreditOnly (port : Nat) (f : Flit) (s : State) : Res := arrive s port f (fun s => .next s)

/-! ### Send elements (R390 to R393) -/

/-- An element arrives; its payload names its sender's context (log 17, DESIGN CHOICE). Its slot is filled and it is
acknowledged, or it is refused (1), or its sender is told to wait, for the place or for a free slot (R392, R393). -/
def execSendElement (port : Nat) (f : Flit) (et : ET) (elem : Nat) (s : State) : Res :=
  receive s port f (fun s =>
    if !forMe s f then .next s
    else match placeOf s (BitVec.ofNat 16 f.addr) f.dst.toNat with
      | .stale => .next (answer s 7 f 0 1)
      | .waits => .next (answer s 8 f 0 0)
      | .ring r =>
        .next (if ringFree s r then answer (ringPut s r f.data (elemWord f.src.toNat et elem)) 7 f 0 0 else answer s 8 f 0 0))

/-- The element in progress of the sender at a node is done: complete, or refused as faulting (R392). -/
def sentDone (h : Hart) (dst : Nat) (refused : Bool) : Hart :=
  match h.run, h.sending with
  | .parked (.sendAck n), some g =>
    if n == dst then
      { h with run := .running, vstart := h.vstart + 1
               sending := some { g with faults := if refused then (h.vstart, BitVec.ofNat 64 dst, 5) :: g.faults else g.faults } }
    else h
  | _, _ => h

/-- An acknowledgement of a write, or of a send element, which it completes. -/
def execAcknowledgement (port : Nat) (f : Flit) (s : State) : Res :=
  receive s port f (fun s =>
    let s1 := ackFlit (ackFlit s port 3 f.dst f.src) port 6 f.dst f.src
    .next (mapHart s1 (gidOfNode f.dst.toNat) (fun h => sentDone h f.src.toNat (f.data != 0))))

/-- R392, R393: the place is saved out, or its ring is full: the element has not begun, and its sender waits. -/
def execWait (port : Nat) (f : Flit) (s : State) : Res :=
  receive s port f (fun s =>
    .next (mapHart (ackFlit s port 6 f.dst f.src) (gidOfNode f.dst.toNat) (fun h =>
      if h.run == .parked (.sendAck f.src.toNat) then { h with run := .parked (.sendPlace f.src.toNat) } else h)))

end Sys2Proof.Machine
end

