-- ==== Sys2Proof/Machine/Host.lean ====
section
/-! DEFINITION. The host and the management controller: CXL.mem (R398, R400), the on-chip map through BAR2 (R402), SPDM
(R378), sensors and logs (R376, R405). -/

namespace Sys2Proof.Machine

def allOnes (n : Nat) : Nat := 2 ^ (8 * n) - 1

/-! ### CXL.mem (R400) -/

/-- Host offset `h` of the exposed memory. -/
def hdmAddr (h : Nat) : Nat := h / Config.dieBytes * 2 ^ 40 + h % Config.dieBytes
def hdmExists (h : Nat) : Bool := decide (h < Config.dies * Config.dieBytes)

/-- The byte that the host reads: 0 inside a carve-out. -/
def hdmByte (s : State) (h : Nat) : Byte :=
  let a := hdmAddr h
  if hdmExists h && inCarveOut s.d.pscfg a 1 then 0
  else if !hdmExists h || poisoned s.d.poison a 1 then 0xFF
  else memGet s.mem a

/-- A read of `len` bytes; refused without IDE. -/
def execHostMemRead (addr len : Nat) (s : State) : Res :=
  .next (emit s (.bytes (if s.d.ide then (List.range len).map (fun k => hdmByte s (addr + k)) else List.replicate len 0xFF)))

/-- Bytes written one by one from offset `h`, but for those inside a carve-out. -/
def hdmWrite (s : State) (m : Memory) (h : Nat) : List Byte → Memory
  | [] => m
  | b :: bs =>
    let a := hdmAddr h
    hdmWrite s (if hdmExists h && !inCarveOut s.d.pscfg a 1 then memSet m a b else m) (h + 1) bs

def execHostMemWrite (addr : Nat) (data : List Byte) (s : State) : Res :=
  .next (if s.d.ide then { s with mem := hdmWrite s s.mem addr data } else s)

/-! ### BAR2 (R402) -/

/-- An 8-byte access, a read where no value is given. -/
def execHostMapAccess (addr : Nat) (val : Option Word) (s : State) : Res :=
  let a := BitVec.ofNat 64 (addr % 2 ^ 40)
  let place := if addr % 8 != 0 then .error ⟨11, a, 4⟩ else mapPlace s 0 true true a 8
  match s.d.ready, val, place with
  | false, none, _ => .next (emit s (.word 0))
  | false, some _, _ => .next s
  | true, none, .ok l => .next (emit s (.word (BitVec.ofNat 64 (locRead s l 8))))
  | true, none, .error _ => .next (emit s (.word (BitVec.ofNat 64 (allOnes 8))))
  | true, some v, .ok l => .next (locWrite s l 8 v.toNat)
  | true, some _, .error _ => .next s

/-! ### SPDM (R378): request and response codes and error codes are SPDM 1.3's (log 18, PRESUMED) -/

/-- SPDM answers once the device has booted (R404). -/
def spdmUp (s : State) : Bool := !s.d.holding && !s.d.bootfail

def respond (s : State) (code : Nat) (bs : List Byte) : State := emit s (.resp code bs)
/-- `n` bytes that the spec does not state. -/
def freeBytes (s : State) (n : Nat) : List Byte := (List.range n).map (Config.spdmByte s.steps)
/-- ERROR: 1 invalid request, 4 unexpected request, 6 decrypt error. -/
def spdmError (s : State) (e : Nat) : State := respond s 0x7F [BitVec.ofNat 8 e]
def setSpdm (s : State) (phase : Nat) : State := { s with d := { s.d with spdm := phase } }

/-- A request that needs a phase to have been reached. -/
def spdmAfter (s : State) (phase : Nat) (k : State → State) : Res :=
  if !spdmUp s then .fault .notEnabled
  else if s.d.spdm < phase then .next (spdmError s 4)
  else .next (k s)

/-- Version 1.3; the connection starts anew. -/
def execGetVersion (s : State) : Res := spdmAfter s 0 (fun s => respond (setSpdm s 1) 0x04 [0x13])

def execGetCapabilities (s : State) : Res := spdmAfter s 1 (fun s => respond (setSpdm s 2) 0x61 (freeBytes s 4))

/-- The sets offered; the device selects TPM_ALG_SHA_384 (bit 1) and EdDSA Ed25519 (bit 10), or none. -/
def execNegotiateAlgorithms (hash sig : Nat) (s : State) : Res :=
  spdmAfter s 2 (fun s =>
    let ok := hash.testBit 1 && sig.testBit 10
    respond (setSpdm s (if ok then 3 else 2)) 0x63
      ((if hash.testBit 1 then [2, 0] else [0, 0]) ++ (if sig.testBit 10 then [0, 4] else [0, 0])))

/-- SHA-384 digests. -/
def execGetDigests (s : State) : Res := spdmAfter s 3 (fun s => respond s 0x01 (freeBytes s 48))

def execGetCertificate (slot _offset len : Nat) (s : State) : Res :=
  spdmAfter s 3 (fun s => if 8 ≤ slot then spdmError s 1 else respond s 0x02 (freeBytes s len))

/-- An Ed25519 signature over the transcript. -/
def execChallenge (slot : Nat) (_nonce : BitVec 256) (s : State) : Res :=
  spdmAfter s 3 (fun s => if 8 ≤ slot then spdmError s 1 else respond s 0x03 (freeBytes s 64))

/-- The lane repair map of a die: bit `l` of core `c` for a retired lane. -/
def repairMap (d : Dev) (die : Nat) : Nat :=
  d.retired.eraseDups.foldl (fun n l => if l / 768 == die then n + 2 ^ (l % 768) else n) 0

/-- A measurement of R378; none where there is none of that index. -/
def measurement (s : State) (index : Nat) : Option (List Byte) :=
  match index with
  | 1 => some (leBytes 48 Config.romDigest.toNat)
  | 2 => some (leBytes 48 s.d.fwDigest.toNat)
  | 3 => some (leBytes 4 s.d.svn ++ leBytes 4 s.d.fuse)
  | 4 => some ([0, 1, 2, 3].flatMap (fun die => leBytes 96 (repairMap s.d die) ++ leBytes 8 (s.d.pscfg.toList.getD die 0).toNat))
  | 5 => some [s.d.alarmLast]
  | 0x10 => some (freeBytes s 3309)
  | _ => none

/-- Index 0 asks for the number of measurements. -/
def execGetMeasurements (index : Nat) (s : State) : Res :=
  spdmAfter s 3 (fun s =>
    if index = 0 then respond s 0x60 [6]
    else match measurement s index with
      | some bs => respond s 0x60 (BitVec.ofNat 8 index :: bs)
      | none => spdmError s 1)

def execKeyExchange (slot : Nat) (_data : BitVec 256) (s : State) : Res :=
  spdmAfter s 3 (fun s =>
    if 8 ≤ slot then spdmError s 1
    else
      let s1 := setSpdm s 4
      respond { s1 with d := { s1.d with sessKey := some (Config.keyMaterial s.steps), sessAt := s.steps } } 0x64 (freeBytes s 64))

/-- The session is established, and with it IDE on the links (R378, R400). -/
def execFinish (mac : BitVec 384) (s : State) : Res :=
  spdmAfter s 4 (fun s =>
    if s.d.spdm = 4 ∧ mac = Config.finishMac s.d.sessAt then
      let s1 := setSpdm s 5
      respond { s1 with d := { s1.d with ide := true } } 0x65 []
    else if s.d.spdm = 4 then
      let s1 := setSpdm s 3
      spdmError { s1 with d := { s1.d with sessKey := none } } 6
    else spdmError s 4)

/-! ### Management (R405): sensor numbers are the model's (log 18, PRESUMED) -/

/-- A sensor: 0 to 3 the dies' temperatures, 4 board power, 5 CUR, 6 THROT, from 8 DRAM_CORRECTED, from 12 BUS_RETRIES and
from 16 LANE_SWAPS of each die, 20 SECSTAT, 21 BOOTFAIL. -/
def sensor (s : State) (k : Nat) : Option Nat :=
  let count (event die : Nat) : Nat := tabGet s.d.tallies (die * 64 + event) 0
  if k < 5 then some (Config.sensorReading k s.steps)
  else if k = 5 then some s.d.cur.toNat
  else if k = 6 then some (boolNat s.d.throt 0)
  else if 8 ≤ k ∧ k < 12 then some (count 0x38 (k - 8))
  else if 12 ≤ k ∧ k < 16 then some (count 0x39 (k - 12))
  else if 16 ≤ k ∧ k < 20 then some (count 0x3A (k - 16))
  else if k = 20 then some (s.d.alarmLast.toNat * 256 + s.d.alarm.toNat)
  else if k = 21 then some (boolNat s.d.bootfail 0)
  else none

/-- A read of a sensor; one that does not exist answers nothing. -/
def execMgmtSensorRead (sensor_ : Nat) (s : State) : Res :=
  .next (match sensor s sensor_ with
    | some v => emit s (.resp 0 (leBytes 8 v))
    | none => emit s (.resp 1 []))

/-- R376: the 32 bytes of a log record. -/
def logBytes (r : LogRec) (bus : Bool) : List Byte :=
  leBytes 8 r.stamp.toNat ++ leBytes 8 r.off ++ r.bytes.map (BitVec.ofNat 8) ++
    [BitVec.ofNat 8 r.kind, if bus then BitVec.ofNat 8 r.lane else 0, 0, 0] ++ leBytes 4 r.count ++ [0, 0, 0, 0]

/-- R405: the oldest record of a die's log that has not been read; none answers nothing. -/
def execMgmtLogRead (die : Nat) (bus : Bool) (s : State) : Res :=
  let logs := if bus then s.d.blog else s.d.alog
  match logs.toList.getD die [] with
  | [] => .next (emit s (.resp 1 []))
  | r :: rest =>
    let s1 := emit s (.resp 0 (logBytes r bus))
    .next (if bus then { s1 with d := { s1.d with blog := s1.d.blog.setIfInBounds die rest } }
      else { s1 with d := { s1.d with alog := s1.d.alog.setIfInBounds die rest } })

end Sys2Proof.Machine
end

