-- ==== Sys2Proof/Machine/Scalar.lean ====
section
/-! DEFINITION. Scalar integer, address and constant instructions, OP 0x01 and 0x02 (R104 to R110). -/

namespace Sys2Proof.Machine

/-- R106: xD := f(xA, b). -/
def alu (f : Word → Word → Word) (d a : Reg) (b : XOp) (s : State) : Res := nextX s d (f (xGet s.h a) (xopVal s.h b))

def execNop (s : State) : Res := next s
def execAdd (d a : Reg) (b : XOp) (s : State) : Res := alu (· + ·) d a b s
def execSub (d a : Reg) (b : XOp) (s : State) : Res := alu (· - ·) d a b s
def execMul (d a : Reg) (b : XOp) (s : State) : Res := alu (· * ·) d a b s

def mulhWord (a b : Word) : Word := BitVec.ofInt 64 (a.toInt * b.toInt / 2 ^ 64)
def mulhuWord (a b : Word) : Word := BitVec.ofNat 64 (a.toNat * b.toNat / 2 ^ 64)
def execMulh (d a : Reg) (b : XOp) (s : State) : Res := alu mulhWord d a b s
def execMulhu (d a : Reg) (b : XOp) (s : State) : Res := alu mulhuWord d a b s

/-- R107: quotients and remainders, with their two edge cases. -/
def divWord (a b : Word) : Word := if b = 0 then -1 else BitVec.ofInt 64 (a.toInt.tdiv b.toInt)
def divuWord (a b : Word) : Word := if b = 0 then -1 else BitVec.ofNat 64 (a.toNat / b.toNat)
def remWord (a b : Word) : Word := if b = 0 then a else BitVec.ofInt 64 (a.toInt.tmod b.toInt)
def remuWord (a b : Word) : Word := if b = 0 then a else BitVec.ofNat 64 (a.toNat % b.toNat)
def execDiv (d a : Reg) (b : XOp) (s : State) : Res := alu divWord d a b s
def execDivu (d a : Reg) (b : XOp) (s : State) : Res := alu divuWord d a b s
def execRem (d a : Reg) (b : XOp) (s : State) : Res := alu remWord d a b s
def execRemu (d a : Reg) (b : XOp) (s : State) : Res := alu remuWord d a b s

def execAnd (d a : Reg) (b : XOp) (s : State) : Res := alu (· &&& ·) d a b s
def execOr (d a : Reg) (b : XOp) (s : State) : Res := alu (· ||| ·) d a b s
def execXor (d a : Reg) (b : XOp) (s : State) : Res := alu (· ^^^ ·) d a b s
def execAndn (d a : Reg) (b : XOp) (s : State) : Res := alu (fun x y => x &&& ~~~ y) d a b s

/-- The shift amount b[5:0]. -/
def shAmt (b : Word) : Nat := b.toNat % 64
def execShl (d a : Reg) (b : XOp) (s : State) : Res := alu (fun x y => x <<< shAmt y) d a b s
def execShr (d a : Reg) (b : XOp) (s : State) : Res := alu (fun x y => x >>> shAmt y) d a b s
def execSra (d a : Reg) (b : XOp) (s : State) : Res := alu (fun x y => x.sshiftRight (shAmt y)) d a b s
def execRotl (d a : Reg) (b : XOp) (s : State) : Res := alu (fun x y => x.rotateLeft (shAmt y)) d a b s

def boolWord (b : Bool) : Word := if b then 1 else 0
def execSlt (d a : Reg) (b : XOp) (s : State) : Res := alu (fun x y => boolWord (x.slt y)) d a b s
def execSltu (d a : Reg) (b : XOp) (s : State) : Res := alu (fun x y => boolWord (x.ult y)) d a b s
def execMin (d a : Reg) (b : XOp) (s : State) : Res := alu (fun x y => if x.slt y then x else y) d a b s
def execMax (d a : Reg) (b : XOp) (s : State) : Res := alu (fun x y => if x.slt y then y else x) d a b s
def execMinu (d a : Reg) (b : XOp) (s : State) : Res := alu (fun x y => if x.ult y then x else y) d a b s
def execMaxu (d a : Reg) (b : XOp) (s : State) : Res := alu (fun x y => if x.ult y then y else x) d a b s

/-- Leading zeros, trailing zeros and ones of a word, 0 to 64. -/
def clzWord (x : Word) : Nat := if x = 0 then 64 else 63 - Nat.log2 x.toNat
def ctzWord (x : Word) : Nat := ((List.range 64).find? (fun k => x.getLsbD k)).getD 64
def popWord (x : Word) : Nat := ((List.range 64).filter (fun k => x.getLsbD k)).length
def execClz (d a : Reg) (s : State) : Res := nextX s d (BitVec.ofNat 64 (clzWord (xGet s.h a)))
def execCtz (d a : Reg) (s : State) : Res := nextX s d (BitVec.ofNat 64 (ctzWord (xGet s.h a)))
def execPopc (d a : Reg) (s : State) : Res := nextX s d (BitVec.ofNat 64 (popWord (xGet s.h a)))

/-- R108: the position and the effective length that an operand gives. -/
def bitPos (b : Word) : Nat := b.toNat % 64
def bitLen (b : Word) : Nat :=
  let l := b.toNat / 256 % 64
  Nat.min (if l = 0 then 64 else l) (64 - bitPos b)
def fieldOf (a b : Word) : Nat := a.toNat / 2 ^ bitPos b % 2 ^ bitLen b
def bextWord (a b : Word) : Word := BitVec.ofNat 64 (fieldOf a b)
def extWord (a b : Word) : Word :=
  let l := bitLen b
  let f := fieldOf a b
  BitVec.ofInt 64 (if 2 ^ (l - 1) ≤ f then (f : Int) - 2 ^ l else f)
/-- `c` with the field of `b` replaced by the low bits of `a`. -/
def binsWord (a b c : Word) : Word :=
  let m : Word := BitVec.ofNat 64 ((2 ^ bitLen b - 1) * 2 ^ bitPos b)
  (c &&& ~~~ m) ||| ((a <<< bitPos b) &&& m)
def execBext (d a : Reg) (b : XOp) (s : State) : Res := alu bextWord d a b s
def execExt (d a : Reg) (b : XOp) (s : State) : Res := alu extWord d a b s
def execBins (d a : Reg) (b : XOp) (c : Reg) (s : State) : Res := alu (fun x y => binsWord x y (xGet s.h c)) d a b s

def execSel (d a : Reg) (b : XOp) (c : Reg) (s : State) : Res :=
  alu (fun x y => if xGet s.h c != 0 then x else y) d a b s

/-- R109. -/
def execLea (d a b : Reg) (sh : BitVec 3) (disp : BitVec 32) (s : State) : Res :=
  nextX s d (xGet s.h a + xGet s.h b <<< sh.toNat + disp.signExtend 64)

/-- R110. -/
def execLi (d : Reg) (imm : BitVec 32) (s : State) : Res := nextX s d (imm.signExtend 64)
def execLih (d : Reg) (imm : BitVec 32) (s : State) : Res :=
  nextX s d (imm.setWidth 64 <<< 32 ||| (xGet s.h d &&& 0xFFFFFFFF))

end Sys2Proof.Machine
end

