-- ==== Sys2Proof/Machine/Dispatch.lean ====
section
/-! DEFINITION. One arm per instruction: each calls its meaning, in Machine/<Family>.lean. -/

namespace Sys2Proof.Machine
open Sys2Proof

def exec (i : Instr) (s : State) : Host.Outcome State Fault Refusal :=
  match i with
  | .illegalInstruction hi sub => Sys2Proof.Machine.execIllegalInstruction hi sub s
  | .illegalLine line lineWord => Sys2Proof.Machine.execIllegalLine line lineWord s
  | .nop => Sys2Proof.Machine.execNop s
  | .add d a b => Sys2Proof.Machine.execAdd d a b s
  | .sub d a b => Sys2Proof.Machine.execSub d a b s
  | .mul d a b => Sys2Proof.Machine.execMul d a b s
  | .mulh d a b => Sys2Proof.Machine.execMulh d a b s
  | .mulhu d a b => Sys2Proof.Machine.execMulhu d a b s
  | .div d a b => Sys2Proof.Machine.execDiv d a b s
  | .divu d a b => Sys2Proof.Machine.execDivu d a b s
  | .rem d a b => Sys2Proof.Machine.execRem d a b s
  | .remu d a b => Sys2Proof.Machine.execRemu d a b s
  | .and d a b => Sys2Proof.Machine.execAnd d a b s
  | .or d a b => Sys2Proof.Machine.execOr d a b s
  | .xor d a b => Sys2Proof.Machine.execXor d a b s
  | .andn d a b => Sys2Proof.Machine.execAndn d a b s
  | .shl d a b => Sys2Proof.Machine.execShl d a b s
  | .shr d a b => Sys2Proof.Machine.execShr d a b s
  | .sra d a b => Sys2Proof.Machine.execSra d a b s
  | .rotl d a b => Sys2Proof.Machine.execRotl d a b s
  | .slt d a b => Sys2Proof.Machine.execSlt d a b s
  | .sltu d a b => Sys2Proof.Machine.execSltu d a b s
  | .min d a b => Sys2Proof.Machine.execMin d a b s
  | .max d a b => Sys2Proof.Machine.execMax d a b s
  | .minu d a b => Sys2Proof.Machine.execMinu d a b s
  | .maxu d a b => Sys2Proof.Machine.execMaxu d a b s
  | .clz d a => Sys2Proof.Machine.execClz d a s
  | .ctz d a => Sys2Proof.Machine.execCtz d a s
  | .popc d a => Sys2Proof.Machine.execPopc d a s
  | .bext d a b => Sys2Proof.Machine.execBext d a b s
  | .bins d a b c => Sys2Proof.Machine.execBins d a b c s
  | .ext d a b => Sys2Proof.Machine.execExt d a b s
  | .sel d a b c => Sys2Proof.Machine.execSel d a b c s
  | .lea d a b s_ disp => Sys2Proof.Machine.execLea d a b s_ disp s
  | .li d imm => Sys2Proof.Machine.execLi d imm s
  | .lih d imm => Sys2Proof.Machine.execLih d imm s
  | .fadd d a b et rm => Sys2Proof.Machine.execFadd d a b et rm s
  | .fsub d a b et rm => Sys2Proof.Machine.execFsub d a b et rm s
  | .fmul d a b et rm => Sys2Proof.Machine.execFmul d a b et rm s
  | .fdiv d a b et rm => Sys2Proof.Machine.execFdiv d a b et rm s
  | .fsqrt d a et rm => Sys2Proof.Machine.execFsqrt d a et rm s
  | .ffma d a b c et rm => Sys2Proof.Machine.execFfma d a b c et rm s
  | .fmin d a b et rm => Sys2Proof.Machine.execFmin d a b et rm s
  | .fmax d a b et rm => Sys2Proof.Machine.execFmax d a b et rm s
  | .fcmp cond d a b et rm => Sys2Proof.Machine.execFcmp cond d a b et rm s
  | .fcvt d a et et2 rm => Sys2Proof.Machine.execFcvt d a et et2 rm s
  | .fclass d a et rm => Sys2Proof.Machine.execFclass d a et rm s
  | .bCond cond a b disp => Sys2Proof.Machine.execBCond cond a b disp s
  | .j disp => Sys2Proof.Machine.execJ disp s
  | .jr a => Sys2Proof.Machine.execJr a s
  | .call d disp => Sys2Proof.Machine.execCall d disp s
  | .callr d a => Sys2Proof.Machine.execCallr d a s
  | .ret a => Sys2Proof.Machine.execRet a s
  | .halt => Sys2Proof.Machine.execHalt s
  | .yield => Sys2Proof.Machine.execYield s
  | .loop k a endDisp cw stages rot => Sys2Proof.Machine.execLoop k a endDisp cw stages rot s
  | .lbreak k => Sys2Proof.Machine.execLbreak k s
  | .lspill a disp => Sys2Proof.Machine.execLspill a disp s
  | .lfill a disp => Sys2Proof.Machine.execLfill a disp s
  | .cbase a imm => Sys2Proof.Machine.execCbase a imm s
  | .wfork a els jn => Sys2Proof.Machine.execWfork a els jn s
  | .warm jn => Sys2Proof.Machine.execWarm jn s
  | .wmerge => Sys2Proof.Machine.execWmerge s
  | .wcmp cond d a b k => Sys2Proof.Machine.execWcmp cond d a b k s
  | .wramp d a b c k => Sys2Proof.Machine.execWramp d a b c k s
  | .wrampg d a b c k => Sys2Proof.Machine.execWrampg d a b c k s
  | .wmul d a b k => Sys2Proof.Machine.execWmul d a b k s
  | .wadd d a b k => Sys2Proof.Machine.execWadd d a b k s
  | .wsub d a b k => Sys2Proof.Machine.execWsub d a b k s
  | .wnot d a k => Sys2Proof.Machine.execWnot d a k s
  | .wmin d a b k => Sys2Proof.Machine.execWmin d a b k s
  | .wmax d a b k => Sys2Proof.Machine.execWmax d a b k s
  | .wmov d a k => Sys2Proof.Machine.execWmov d a k s
  | .wsplat d b k => Sys2Proof.Machine.execWsplat d b k s
  | .wfromv d a k => Sys2Proof.Machine.execWfromv d a k s
  | .wtov d a k => Sys2Proof.Machine.execWtov d a k s
  | .wbound d a b k => Sys2Proof.Machine.execWbound d a b k s
  | .wany d k => Sys2Proof.Machine.execWany d k s
  | .vjoin d a b c k => Sys2Proof.Machine.execVjoin d a b c k s
  | .vjoingw d a b c k => Sys2Proof.Machine.execVjoingw d a b c k s
  | .vadd d a b k => Sys2Proof.Machine.execVadd d a b k s
  | .vsub d a b k => Sys2Proof.Machine.execVsub d a b k s
  | .vmul d a b k => Sys2Proof.Machine.execVmul d a b k s
  | .vfma d a b c k => Sys2Proof.Machine.execVfma d a b c k s
  | .vfms d a b c k => Sys2Proof.Machine.execVfms d a b c k s
  | .vfnma d a b c k => Sys2Proof.Machine.execVfnma d a b c k s
  | .vdiv d a b k => Sys2Proof.Machine.execVdiv d a b k s
  | .vsqrt d a k => Sys2Proof.Machine.execVsqrt d a k s
  | .vrsqrt d a k => Sys2Proof.Machine.execVrsqrt d a k s
  | .vrcp d a k => Sys2Proof.Machine.execVrcp d a k s
  | .vexp2 d a k => Sys2Proof.Machine.execVexp2 d a k s
  | .vlog2 d a k => Sys2Proof.Machine.execVlog2 d a k s
  | .vmin d a b k => Sys2Proof.Machine.execVmin d a b k s
  | .vmax d a b k => Sys2Proof.Machine.execVmax d a b k s
  | .vabs d a k => Sys2Proof.Machine.execVabs d a k s
  | .vneg d a k => Sys2Proof.Machine.execVneg d a k s
  | .vcsgn d a b k => Sys2Proof.Machine.execVcsgn d a b k s
  | .vclass d a k => Sys2Proof.Machine.execVclass d a k s
  | .vclamp d a b c k => Sys2Proof.Machine.execVclamp d a b c k s
  | .vwmul d a b k => Sys2Proof.Machine.execVwmul d a b k s
  | .vwfma d a b c k => Sys2Proof.Machine.execVwfma d a b c k s
  | .vcvt d a k => Sys2Proof.Machine.execVcvt d a k s
  | .vcvtSat d a k => Sys2Proof.Machine.execVcvtSat d a k s
  | .vand d a b k => Sys2Proof.Machine.execVand d a b k s
  | .vor d a b k => Sys2Proof.Machine.execVor d a b k s
  | .vxor d a b k => Sys2Proof.Machine.execVxor d a b k s
  | .vandn d a b k => Sys2Proof.Machine.execVandn d a b k s
  | .vshl d a b k => Sys2Proof.Machine.execVshl d a b k s
  | .vshr d a b k => Sys2Proof.Machine.execVshr d a b k s
  | .vsra d a b k => Sys2Proof.Machine.execVsra d a b k s
  | .vaddsat d a b k => Sys2Proof.Machine.execVaddsat d a b k s
  | .vsubsat d a b k => Sys2Proof.Machine.execVsubsat d a b k s
  | .vmulh d a b k => Sys2Proof.Machine.execVmulh d a b k s
  | .vavg d a b k => Sys2Proof.Machine.execVavg d a b k s
  | .vcmp cond d a b k => Sys2Proof.Machine.execVcmp cond d a b k s
  | .vsel d a b c k => Sys2Proof.Machine.execVsel d a b c k s
  | .vredsum d a k => Sys2Proof.Machine.execVredsum d a k s
  | .vredmax d a k => Sys2Proof.Machine.execVredmax d a k s
  | .vredmin d a k => Sys2Proof.Machine.execVredmin d a k s
  | .vscanAdd d a k => Sys2Proof.Machine.execVscanAdd d a k s
  | .vscanMax d a k => Sys2Proof.Machine.execVscanMax d a k s
  | .vscanMin d a k => Sys2Proof.Machine.execVscanMin d a k s
  | .vscanXadd d a k => Sys2Proof.Machine.execVscanXadd d a k s
  | .vscanXmax d a k => Sys2Proof.Machine.execVscanXmax d a k s
  | .vscanXmin d a k => Sys2Proof.Machine.execVscanXmin d a k s
  | .vfirst d k => Sys2Proof.Machine.execVfirst d k s
  | .vcount d k => Sys2Proof.Machine.execVcount d k s
  | .vmv d a k => Sys2Proof.Machine.execVmv d a k s
  | .vsplat d b k => Sys2Proof.Machine.execVsplat d b k s
  | .vid d k => Sys2Proof.Machine.execVid d k s
  | .vslup d a b k => Sys2Proof.Machine.execVslup d a b k s
  | .vsldn d a b k => Sys2Proof.Machine.execVsldn d a b k s
  | .vperm d a b k => Sys2Proof.Machine.execVperm d a b k s
  | .vcompress d a c k => Sys2Proof.Machine.execVcompress d a c k s
  | .vexpand d a k => Sys2Proof.Machine.execVexpand d a k s
  | .vrev d a k => Sys2Proof.Machine.execVrev d a k s
  | .vpack d a k => Sys2Proof.Machine.execVpack d a k s
  | .vunpack d a k => Sys2Proof.Machine.execVunpack d a k s
  | .vrand d a b k => Sys2Proof.Machine.execVrand d a b k s
  | .vins d a b k => Sys2Proof.Machine.execVins d a b k s
  | .vext d a b k => Sys2Proof.Machine.execVext d a b k s
  | .vtopk d a seg cnt k => Sys2Proof.Machine.execVtopk d a seg cnt k s
  | .setvl d a et g => Sys2Proof.Machine.execSetvl d a et g s
  | .setsp d b => Sys2Proof.Machine.execSetsp d b s
  | .setth d b => Sys2Proof.Machine.execSetth d b s
  | .setfl d b => Sys2Proof.Machine.execSetfl d b s
  | .setrm d b => Sys2Proof.Machine.execSetrm d b s
  | .getcr d cr => Sys2Proof.Machine.execGetcr d cr s
  | .putcr cr a => Sys2Proof.Machine.execPutcr cr a s
  | .ld d a disp et => Sys2Proof.Machine.execLd d a disp et s
  | .st c a disp et => Sys2Proof.Machine.execSt c a disp et s
  | .pfch a disp => Sys2Proof.Machine.execPfch a disp s
  | .vld d a disp k => Sys2Proof.Machine.execVld d a disp k s
  | .vlds d a b disp k => Sys2Proof.Machine.execVlds d a b disp k s
  | .vldx d a b disp k => Sys2Proof.Machine.execVldx d a b disp k s
  | .vldff d a disp k => Sys2Proof.Machine.execVldff d a disp k s
  | .vst c a disp k => Sys2Proof.Machine.execVst c a disp k s
  | .vsts c a b disp k => Sys2Proof.Machine.execVsts c a b disp k s
  | .vstx c a b disp k => Sys2Proof.Machine.execVstx c a b disp k s
  | .vstu c a disp k => Sys2Proof.Machine.execVstu c a disp k s
  | .vbind d a disp et => Sys2Proof.Machine.execVbind d a disp et s
  | .vunbind d => Sys2Proof.Machine.execVunbind d s
  | .vopen d => Sys2Proof.Machine.execVopen d s
  | .vclose d => Sys2Proof.Machine.execVclose d s
  | .amoSwap d a c disp et ord sc => Sys2Proof.Machine.execAmoSwap d a c disp et ord sc s
  | .amoAdd d a c disp et ord sc => Sys2Proof.Machine.execAmoAdd d a c disp et ord sc s
  | .amoAnd d a c disp et ord sc => Sys2Proof.Machine.execAmoAnd d a c disp et ord sc s
  | .amoOr d a c disp et ord sc => Sys2Proof.Machine.execAmoOr d a c disp et ord sc s
  | .amoXor d a c disp et ord sc => Sys2Proof.Machine.execAmoXor d a c disp et ord sc s
  | .amoMin d a c disp et ord sc => Sys2Proof.Machine.execAmoMin d a c disp et ord sc s
  | .amoMax d a c disp et ord sc => Sys2Proof.Machine.execAmoMax d a c disp et ord sc s
  | .amocas d a b c disp et ord sc => Sys2Proof.Machine.execAmocas d a b c disp et ord sc s
  | .vamoSwap d a b c disp k ord sc => Sys2Proof.Machine.execVamoSwap d a b c disp k ord sc s
  | .vamoAdd d a b c disp k ord sc => Sys2Proof.Machine.execVamoAdd d a b c disp k ord sc s
  | .vamoAnd d a b c disp k ord sc => Sys2Proof.Machine.execVamoAnd d a b c disp k ord sc s
  | .vamoOr d a b c disp k ord sc => Sys2Proof.Machine.execVamoOr d a b c disp k ord sc s
  | .vamoXor d a b c disp k ord sc => Sys2Proof.Machine.execVamoXor d a b c disp k ord sc s
  | .vamoMin d a b c disp k ord sc => Sys2Proof.Machine.execVamoMin d a b c disp k ord sc s
  | .vamoMax d a b c disp k ord sc => Sys2Proof.Machine.execVamoMax d a b c disp k ord sc s
  | .vamoBlend d a b c disp k ord sc => Sys2Proof.Machine.execVamoBlend d a b c disp k ord sc s
  | .fence ord sc => Sys2Proof.Machine.execFence ord sc s
  | .bar d a disp sc => Sys2Proof.Machine.execBar d a disp sc s
  | .waiteq d a b disp ord sc => Sys2Proof.Machine.execWaiteq d a b disp ord sc s
  | .hid d => Sys2Proof.Machine.execHid d s
  | .launch d a b => Sys2Proof.Machine.execLaunch d a b s
  | .farm d a => Sys2Proof.Machine.execFarm d a s
  | .fgrab d => Sys2Proof.Machine.execFgrab d s
  | .fdone d a => Sys2Proof.Machine.execFdone d a s
  | .hexit a => Sys2Proof.Machine.execHexit a s
  | .xlate d a kind => Sys2Proof.Machine.execXlate d a kind s
  | .cwb a b sc => Sys2Proof.Machine.execCwb a b sc s
  | .cinv a b sc => Sys2Proof.Machine.execCinv a b sc s
  | .slabQuery d a => Sys2Proof.Machine.execSlabQuery d a s
  | .slabTake d => Sys2Proof.Machine.execSlabTake d s
  | .slabGive d => Sys2Proof.Machine.execSlabGive d s
  | .ppin d a b => Sys2Proof.Machine.execPpin d a b s
  | .pread d a b => Sys2Proof.Machine.execPread d a b s
  | .pinc d a b => Sys2Proof.Machine.execPinc d a b s
  | .pdec d a b => Sys2Proof.Machine.execPdec d a b s
  | .pnode d a b => Sys2Proof.Machine.execPnode d a b s
  | .pswap d a b c disp => Sys2Proof.Machine.execPswap d a b c disp s
  | .cpy d a b c spA spB sc => Sys2Proof.Machine.execCpy d a b c spA spB sc s
  | .cpys d a b c spA spB sc => Sys2Proof.Machine.execCpys d a b c spA spB sc s
  | .cfill d a b c spA wc sc => Sys2Proof.Machine.execCfill d a b c spA wc sc s
  | .tchk d a => Sys2Proof.Machine.execTchk d a s
  | .mshape d a => Sys2Proof.Machine.execMshape d a s
  | .mstride a b ta tb => Sys2Proof.Machine.execMstride a b ta tb s
  | .mzero d tile sc => Sys2Proof.Machine.execMzero d tile sc s
  | .mmul d a b tile spA spB et et2 sc => Sys2Proof.Machine.execMmul d a b tile spA spB et et2 sc s
  | .mmulc d src b tile spB et et2 rm sc => Sys2Proof.Machine.execMmulc d src b tile spB et et2 rm sc s
  | .mout d src b c spB toReg stride et rm sc => Sys2Proof.Machine.execMout d src b c spB toReg stride et rm sc s
  | .fopen f b c spB code => Sys2Proof.Machine.execFopen f b c spB code s
  | .fadv d f b => Sys2Proof.Machine.execFadv d f b s
  | .fend d f => Sys2Proof.Machine.execFend d f s
  | .fclose f => Sys2Proof.Machine.execFclose f s
  | .fisect d fa fb c spC sc => Sys2Proof.Machine.execFisect d fa fb c spC sc s
  | .funion d fa fb c spC sc => Sys2Proof.Machine.execFunion d fa fb c spC sc s
  | .fsplit d a b c spA spC sc => Sys2Proof.Machine.execFsplit d a b c spA spC sc s
  | .fcount d fa b sc => Sys2Proof.Machine.execFcount d fa b sc s
  | .dput d a b c spA spB tag sc => Sys2Proof.Machine.execDput d a b c spA spB tag sc s
  | .dwait d a spA sc => Sys2Proof.Machine.execDwait d a spA sc s
  | .dclose d a b c spA spC tag sc => Sys2Proof.Machine.execDclose d a b c spA spC tag sc s
  | .pout d a b c spC sc => Sys2Proof.Machine.execPout d a b c spC sc s
  | .vsend a b k => Sys2Proof.Machine.execVsend a b k s
  | .vrecv d b c k => Sys2Proof.Machine.execVrecv d b c k s
  | .nid d => Sys2Proof.Machine.execNid d s
  | .csrrd d csr => Sys2Proof.Machine.execCsrrd d csr s
  | .csrwr d csr a => Sys2Proof.Machine.execCsrwr d csr a s
  | .tret => Sys2Proof.Machine.execTret s
  | .ecall => Sys2Proof.Machine.execEcall s
  | .ebreak => Sys2Proof.Machine.execEbreak s
  | .frqpop d a disp => Sys2Proof.Machine.execFrqpop d a disp s
  | .replay d => Sys2Proof.Machine.execReplay d s
  | .tlbinv a b sc mode => Sys2Proof.Machine.execTlbinv a b sc mode s
  | .ringrd d a b disp => Sys2Proof.Machine.execRingrd d a b disp s
  | .ctxsave d a slabs ring disp => Sys2Proof.Machine.execCtxsave d a slabs ring disp s
  | .ctxload a disp => Sys2Proof.Machine.execCtxload a disp s
  | .wfi => Sys2Proof.Machine.execWfi s
  | .pipCascade r => Sys2Proof.Machine.execPipCascade r s
  | .engineUnit e => Sys2Proof.Machine.execEngineUnit e s
  | .tokenWrite e => Sys2Proof.Machine.execTokenWrite e s
  | .sendSlotFree => Sys2Proof.Machine.execSendSlotFree s
  | .sendPlaceRecheck => Sys2Proof.Machine.execSendPlaceRecheck s
  | .ringSlotFill dest src et elem data => Sys2Proof.Machine.execRingSlotFill dest src et elem data s
  | .engctlResume e => Sys2Proof.Machine.execEngctlResume e s
  | .engctlEnd e => Sys2Proof.Machine.execEngctlEnd e s
  | .impreciseTrap => Sys2Proof.Machine.execImpreciseTrap s
  | .interrupt => Sys2Proof.Machine.execInterrupt s
  | .waiteqWake => Sys2Proof.Machine.execWaiteqWake s
  | .barWake => Sys2Proof.Machine.execBarWake s
  | .farmOpenWaitEnd => Sys2Proof.Machine.execFarmOpenWaitEnd s
  | .dwaitWake => Sys2Proof.Machine.execDwaitWake s
  | .wfiWake => Sys2Proof.Machine.execWfiWake s
  | .hexitTokensDone => Sys2Proof.Machine.execHexitTokensDone s
  | .streamStripFetch r => Sys2Proof.Machine.execStreamStripFetch r s
  | .preemptRequest g => Sys2Proof.Machine.execPreemptRequest g s
  | .contextSave => Sys2Proof.Machine.execContextSave s
  | .budgetExpire rec => Sys2Proof.Machine.execBudgetExpire rec s
  | .ringmasterSelect die => Sys2Proof.Machine.execRingmasterSelect die s
  | .recordStart die => Sys2Proof.Machine.execRecordStart die s
  | .waitWordTest q => Sys2Proof.Machine.execWaitWordTest q s
  | .queueSwitch q => Sys2Proof.Machine.execQueueSwitch q s
  | .queueRotate die => Sys2Proof.Machine.execQueueRotate die s
  | .priorityAging die => Sys2Proof.Machine.execPriorityAging die s
  | .preload die core => Sys2Proof.Machine.execPreload die core s
  | .recordComplete rec => Sys2Proof.Machine.execRecordComplete rec s
  | .queueEnable q v => Sys2Proof.Machine.execQueueEnable q v s
  | .queueDisable q v => Sys2Proof.Machine.execQueueDisable q v s
  | .qtailWrite q v => Sys2Proof.Machine.execQtailWrite q v s
  | .regionEnable r v => Sys2Proof.Machine.execRegionEnable r v s
  | .regionDisable r v => Sys2Proof.Machine.execRegionDisable r v s
  | .pscfgWrite die v => Sys2Proof.Machine.execPscfgWrite die v s
  | .packdown v => Sys2Proof.Machine.execPackdown v s
  | .setup v => Sys2Proof.Machine.execSetup v s
  | .trackOn v => Sys2Proof.Machine.execTrackOn v s
  | .trackOff v => Sys2Proof.Machine.execTrackOff v s
  | .dirtySwap v => Sys2Proof.Machine.execDirtySwap v s
  | .pipExport v => Sys2Proof.Machine.execPipExport v s
  | .pipInstall v => Sys2Proof.Machine.execPipInstall v s
  | .badop v => Sys2Proof.Machine.execBadop v s
  | .devidLock v => Sys2Proof.Machine.execDevidLock v s
  | .stopctlHalt => Sys2Proof.Machine.execStopctlHalt s
  | .stopctlDoor => Sys2Proof.Machine.execStopctlDoor s
  | .registerWrite off v => Sys2Proof.Machine.execRegisterWrite off v s
  | .powerPointRequest v => Sys2Proof.Machine.execPowerPointRequest v s
  | .thermalLimit => Sys2Proof.Machine.execThermalLimit s
  | .busLaneDiagnosis die ch grp off beat tries => Sys2Proof.Machine.execBusLaneDiagnosis die ch grp off beat tries s
  | .laneSwap die ch grp lane off => Sys2Proof.Machine.execLaneSwap die ch grp lane off s
  | .securityAlarm kind => Sys2Proof.Machine.execSecurityAlarm kind s
  | .coldReset a b svnA svnB commitA commitB => Sys2Proof.Machine.execColdReset a b svnA svnB commitA commitB s
  | .warmReset => Sys2Proof.Machine.execWarmReset s
  | .portEnable port v => Sys2Proof.Machine.execPortEnable port v s
  | .laneFailRetrain port => Sys2Proof.Machine.execLaneFailRetrain port s
  | .portDown port => Sys2Proof.Machine.execPortDown port s
  | .readRequest port f => Sys2Proof.Machine.execReadRequest port f s
  | .readData port f => Sys2Proof.Machine.execReadData port f s
  | .write port f => Sys2Proof.Machine.execWrite port f s
  | .atomic port f op et => Sys2Proof.Machine.execAtomic port f op et s
  | .atomicResult port f => Sys2Proof.Machine.execAtomicResult port f s
  | .sendElement port f et elem => Sys2Proof.Machine.execSendElement port f et elem s
  | .acknowledgement port f => Sys2Proof.Machine.execAcknowledgement port f s
  | .wait port f => Sys2Proof.Machine.execWait port f s
  | .creditOnly port f => Sys2Proof.Machine.execCreditOnly port f s
  | .hostMemRead addr len => Sys2Proof.Machine.execHostMemRead addr len s
  | .hostMemWrite addr data => Sys2Proof.Machine.execHostMemWrite addr data s
  | .hostMapAccess addr val => Sys2Proof.Machine.execHostMapAccess addr val s
  | .getVersion => Sys2Proof.Machine.execGetVersion s
  | .getCapabilities => Sys2Proof.Machine.execGetCapabilities s
  | .negotiateAlgorithms hash sig => Sys2Proof.Machine.execNegotiateAlgorithms hash sig s
  | .getDigests => Sys2Proof.Machine.execGetDigests s
  | .getCertificate slot offset len => Sys2Proof.Machine.execGetCertificate slot offset len s
  | .challenge slot nonce => Sys2Proof.Machine.execChallenge slot nonce s
  | .getMeasurements index => Sys2Proof.Machine.execGetMeasurements index s
  | .keyExchange slot data => Sys2Proof.Machine.execKeyExchange slot data s
  | .finish mac => Sys2Proof.Machine.execFinish mac s
  | .mgmtSensorRead sensor => Sys2Proof.Machine.execMgmtSensorRead sensor s
  | .mgmtLogRead die bus => Sys2Proof.Machine.execMgmtLogRead die bus s
  | .thermalLimitClear => Sys2Proof.Machine.execThermalLimitClear s
  | .portTrained port peer lanes => Sys2Proof.Machine.execPortTrained port peer lanes s

end Sys2Proof.Machine
end

