-- ==== Sys2Proof/Machine/Turn.lean ====
section
/-! DEFINITION. The turn of one agent. A hart's turn is its next boundary, in the order of R339, or the instruction at its
PC; which hart of a core issues is R210's choice. -/

namespace Sys2Proof.Machine

/-- What the hart `h` made of its slot. One that parks or stalls issues again as what it was: the second of a pair stays one
(R59). One that stalls where it stood has not issued (R210). -/
def keepSecond (h : Hart) (r : Res) : Res :=
  match r with
  | .next s => match s.h.run with
    | .parked p =>
      .next (setH s { s.h with second := h.second, issued := if p == .stall && s.h.vstart == h.vstart then h.issued else s.h.issued })
    | _ => .next s
  | r => r

/-- The hart `h` stalls where it stands: nothing of its slot has taken effect, and it has not issued (R210). -/
def inPlace (h : Hart) (r : Res) : Bool :=
  match r with
  | .next t => t.h.run == .parked .stall && t.h.vstart == h.vstart
  | _ => false

/-- The instruction at the PC of the hart in front issues. One that stalls where it stands is not counted as issued. -/
def issueSlot (s s1 : State) (i : Instr) (mate : Option Instr) : Res :=
  match endCheck s1.h i with
  | some t => .next (takeTrap s1 t)
  | none =>
    if stalls s1.h i then keepSecond s.h (stall (countEv s1 0x15 1))
    else
      let s2 := setH s1 { s1.h with second := mate.isSome, xfer := none, run := .running, issued := s.clk }
      let r := exec i s2
      keepSecond s.h (settle (if inPlace s.h r then r else exec i (countIssue s2 mate.isSome)))

/-- R339: the instruction raises a precise trap there, which goes before every imprecise one but a machine check. It shows in
what issuing it gives: the trap sets INH. `csrwr`, which has no trap of its own, and `ctxload` may write INH too: of those
it is what they find before they write (R122, R362). -/
def trapsThere (s : State) (i : Instr) (r : Res) : Bool :=
  match i with
  | .csrwr .. => (endCheck s.h i).isSome
  | .ctxload a disp =>
    (endCheck s.h i).isSome || !stalls s.h i && (match ctxloadState a disp s with | .error (.trap ..) => true | _ => false)
  | _ => match r with
    | .next t => !inh s.h && inh t.h && t.h.gid == s.h.gid && !t.h.scause.getLsbD 12
    | _ => false

/-- R392: a `vsend` that has waited goes on: it is in issue already, and nothing is fetched or counted again. -/
def sendOn (s : State) (g : Sending) : Res :=
  keepSecond s.h (settle (exec g.instr (setH s { s.h with second := g.mate, xfer := none, run := .running, issued := s.clk })))

/-- The slot at the PC of the hart in front, after the checks of R60, or the `vsend` that it is in the middle of. -/
def issue (s : State) : Res :=
  if machineCheckReady s.h && !midway s.h then exec .impreciseTrap s
  else match s.h.sending with
  | some g => if stopped s.h && !midPair s.h then .next s else sendOn s g
  | none =>
    match fetchCheck s s.h s.h.pc s.h.xfer (s.h.second || s.h.replay.isSome) with
    | (.trap t, s1) => .next (takeTrap s1 t)
    | (.line va w, s1) => exec (.illegalLine va w) s1
    | (.slot hi sub, s1) => exec (.illegalInstruction hi sub) s1
    | (.ok i mate, s1) =>
      let waits := (pendReady s.h || interruptReady s.h) && !midway s.h
      if waits && trapsThere s1 i (issueSlot s s1 i mate) then issueSlot s s1 i mate
      else if pendReady s.h && !midway s.h then exec .impreciseTrap s
      else if interruptReady s.h && !midway s.h then exec .interrupt s
      else if stopped s.h && !midPair s.h then .next s
      else issueSlot s s1 i mate

/-- A hart that is neither parked nor gone issues; a send that a pre-emption has stopped first takes the trap of its elements
that have failed (R348, R392). -/
def issueNow (s : State) : Res := if sendFailed s.h && stopped s.h then sendCut s else issue s

/-- R59, R210: the second slot of a pair that has formed issues in the clk of the first. -/
def pairTurn (r : Res) : Res :=
  match r with
  | .next s => if s.h.run == .running && s.h.second then issue s else .next s
  | r => r

/-- The turn of the hart in front: an absent, ended or parked hart issues nothing; a parked one still takes traps. -/
def hartTurn (s : State) : Res :=
  match s.h.run with
  | .absent | .ended => .next s
  | .running | .parked .stall => pairTurn (issueNow s)
  | .parked _ =>
    if sendFailed s.h && stopped s.h then sendCut s
    else if s.h.ending.isSome || s.h.sending.isSome then .next s
    else if pendReady s.h then exec .impreciseTrap s
    else if interruptReady s.h then exec .interrupt s
    else .next s

/-! ### Which hart of a core issues (R210) -/

/-- What the hart `h` comes to where it cannot issue: it stalls where it stands, or it is stopped (R348). -/
def heldBack (s : State) (h : Hart) : Option State :=
  match issueNow (bringFront s h.gid) with
  | .next t => if inPlace h (.next t) || (stopped h && t.h.issued == h.issued && !inh t.h) then some t else none
  | _ => none

/-- R210: the hart's next slot can issue in this clk: its operands are there (log 5, DESIGN CHOICE), and nothing holds it
back. -/
def readyNow (s : State) (h : Hart) : Bool :=
  mayIssue h && !Config.operandWait s.steps h.gid && (heldBack s h).isNone

/-- The hart of a list that has gone longest since it last issued, the lowest number first. -/
def longest : List Hart → Option Hart
  | [] => none
  | h :: hs =>
    match longest hs with
    | some k => if decide (h.issued < k.issued) || (h.issued == k.issued && decide (h.gid ≤ k.gid)) then some h else some k
    | none => some h

/-- R210: the hart that issues where the core of the one at a place issues: the hart of number STAMP mod 8 if it is ready,
otherwise the ready one that has gone longest; none if none is ready. The only hart of a core that may issue has its turn
as it comes. -/
def chosenHart (s : State) (gid : Nat) : Option Nat :=
  match issuing s gid with
  | [] => some gid
  | [h] => some h.gid
  | hs =>
    let rs := hs.filter (readyNow s)
    ((rs.find? (fun h => hartNo h.gid == s.clk % 8)).or (longest rs)).map (·.gid)

/-- The turn of a core names one of its harts: a hart that may issue stands for whichever of them R210 chooses; a parked
one takes its own boundary. -/
def turnOf (s : State) (gid : Nat) : Option Nat :=
  match findHart s gid with
  | some h => if mayIssue h then chosenHart s gid else some gid
  | none => some gid

/-- INTERLOCK_STALLS and TOKEN_STALLS of R381. -/
def stallEvents : List Nat := [0x14, 0x15]

/-- How often each of them happens to a hart that is held back: what counters of its own for the two would show of the slot
at which it stands. -/
def stallCounts (s : State) (h : Hart) : List (Nat × Nat) :=
  let ctr (e : Nat) : Ctr := { cnt := 0, harts := 0, ovf := false, int := false, en := true, event := BitVec.ofNat 6 e }
  let key (e : Nat) : Nat := 8 * coreOf h.gid + e % 8
  match heldBack { s with d := { s.d with coreCtrs := stallEvents.map (fun e => (key e, ctr e)), dieCtrs := [] } } h with
  | some t => stallEvents.map (fun e => (e, (tabGet t.d.coreCtrs (key e) (ctr e)).cnt.toNat))
  | none => []

/-- R381, R380: the harts of the core that a token or a range holds back in this clk count it, where another issues. -/
def countHeld (s : State) (gid : Nat) (chosen : Option Nat) : State :=
  match issuing s gid with
  | [] | [_] => s
  | hs => (hs.filter (fun h => chosen != some h.gid)).foldl (fun u h =>
      (stallCounts s h).foldl (fun u (e, n) => countAt u h.gid e n) u) s

/-- The agenda names who moves; time passes; that agent moves. -/
def runTurn (s : State) : Res :=
  let (t, s0) := popTurn s
  let s1 := tick (turnClk s0 t) s0
  match t with
  | .env e => .next (envStep s1 e)
  | .event gid i => exec i (bringFront s1 gid)
  | .hart gid =>
    let s1 := noteTurn s1 gid
    let c := turnOf s1 gid
    let s1 := countHeld s1 gid c
    match c with
    | none => .next s1
    | some g =>
      let s2 := bringFront s1 g
      if s2.h.gid == g then hartTurn s2 else .next s2

end Sys2Proof.Machine
end

