-- ==== Sys2Proof/Machine/Step.lean ====
section
/-! DEFINITION. One step of the machine: the turn of one agent. -/

namespace Sys2Proof.Machine

def step (s : State) : Host.Outcome State Fault Refusal := runTurn s

/-- `s` with an instruction of bits `w` where its next step fetches. A hart is loaded from outside: from reset it comes
to run by a record (log 4, DESIGN CHOICE). -/
def State.withFetchWord (s : State) (_nbits w : Nat) : State := placeSlot s (BitVec.ofNat 96 w)

end Sys2Proof.Machine
end

