-- ==== Sys2Proof/Safety.lean ====
section
/-! DEFINITION. The terms in which statements about the machine are made: the invariant of a state, a hart whose
instruction retires plainly, and what a state keeps. -/

namespace Sys2Proof.Machine

/-- Memory has its canonical form, so that equal memories are equal data (log 2, DESIGN CHOICE). -/
def State.Inv (s : State) : Prop := s.mem.wf = true

/-- The instruction at the PC runs under no `replay` (R358) and not under FMASK alone (R344). -/
def State.Alone (s : State) : Prop := s.h.replay = none ∧ s.h.fmrun = false

/-- Nothing but the sequential advance follows it either: it ends no loop level (R122). -/
def State.Plain (s : State) : Prop := endLevel s.h = none ∧ s.Alone

/-- The state once that instruction has retired. -/
def State.retired (s : State) : State :=
  { s with h := { s.h with pc := seqNext s.h.pc, xfer := none, run := .running } }

/-- The state once a taken transfer to `target` has retired (R18). -/
def State.jumped (s : State) (target : Word) : State :=
  { s with h := { s.h with pc := target, xfer := some s.h.pc, second := false, run := .running } }

/-- The state once an instruction has retired at a place that is no transfer (R121, R123). -/
def State.movedTo (s : State) (pc : Word) : State :=
  { s with h := { s.h with pc := pc, xfer := none, second := false, run := .running } }

/-- The hart in front issues nothing until what it waits for has come. -/
def State.waits (s : State) (p : Park) : State := { s with h := { s.h with run := .parked p, second := false } }

/-- No event counter is enabled, so that none counts (R380). -/
def State.Uncounted (s : State) : Prop :=
  (∀ c ∈ s.d.coreCtrs, c.2.en = false) ∧ ∀ c ∈ s.d.dieCtrs, c.2.en = false

/-- No pre-emption (R347) and no lane's retirement (R373) stops an instruction of the hart in front. -/
def State.Unstopped (s : State) : Prop := s.h.stop = none ∧ s.h.pause = none

/-- The hart in front is a member of no barrier (R220). -/
def State.Unwatched (s : State) : Prop := barWords s s.h = []

/-- Every byte of memory outside `n` bytes at `a` reads as it did. -/
def SameOutside (m m' : Memory) (a n : Nat) : Prop := ∀ b, (b < a ∨ a + n ≤ b) → memGet m' b = memGet m b

/-- `n` bytes of space G at `va`, in one 64 KiB page, are mapped for the hart in front at physical address `p` of device
DRAM by an entry that its core holds: readable, writable, accessed and written before, outside every pip store, correctable,
its context's writes not tracked. An access to them reaches them and changes nothing of the translation. -/
def State.Mapped (s : State) (va : Word) (n p : Nat) : Prop :=
  canonical va.toNat = true ∧ va.toNat % 65536 + n ≤ 65536 ∧ s.d.tracked.contains s.h.ctxid = false ∧
    inCarveOut s.d.pscfg p n = false ∧ poisoned s.d.poison p n = false ∧
    ∃ t, tlbHit s (coreOf s.h.gid) s.h.ctxid va.toNat = some t ∧ leafPa t va.toNat = p ∧ pteKind t.leaf.toNat = 0 ∧
      pteR t.leaf.toNat ∧ pteW t.leaf.toNat ∧ pteA t.leaf.toNat ∧ pteD t.leaf.toNat

/-- The same for a region address: a pip page that names region `r` (R271). -/
def State.MapsRegion (s : State) (va : Word) (r : Nat) : Prop :=
  canonical va.toNat = true ∧
    ∃ t, tlbHit s (coreOf s.h.gid) s.h.ctxid va.toNat = some t ∧ ptePa t.leaf.toNat / 2 ^ 16 = r ∧
      pteKind t.leaf.toNat = 1 ∧ pteR t.leaf.toNat ∧ pteW t.leaf.toNat ∧ pteA t.leaf.toNat ∧ pteD t.leaf.toNat

/-- R220: what a trap of the hart in front does to memory. A hart of no barrier leaves it; one whose one word is mapped sets
STALLED, bit 48, in it where the hart is a member and peers have arrived in a phase in which it has not, and changes nothing
else. -/
def StalledMarked (s t : State) : Prop :=
  (s.Unwatched → t.mem = s.mem) ∧ ∀ ea p, s.Inv → barWords s s.h = [ea] → s.Mapped ea 8 p →
    let w := memRead s.mem p 8
    let member : Prop := s.h.barWord = some ea ∨ ∃ b ∈ farmWaits s s.h.record, b.ea = ea ∧ b.phase.toNat = w / 2 ^ 32 % 2 ^ 16
    let waits : Prop := member ∧ w / 2 ^ 16 % 2 ^ 16 ≠ 0 ∧ ¬ ∃ b ∈ s.h.barWait, b.ea = ea ∧ b.phase.toNat = w / 2 ^ 32 % 2 ^ 16
    (waits → memRead t.mem (p + 6) 1 = memRead s.mem (p + 6) 1 ||| 1 ∧ SameOutside s.mem t.mem (p + 6) 1) ∧
      (¬ waits → t.mem = s.mem)

/-- R338: `t` is `s` once the hart in front has entered its handler for a trap at its PC that names no element. -/
def Trapped (s t : State) (cause val val2 : Word) : Prop :=
  t.h.sepc = s.h.pc ∧ t.h.scause = cause ∧ t.h.stval = val ∧ t.h.stval2 = val2 ∧ t.h.svstart = s.h.vstart ∧ t.h.vstart = 0 ∧
    t.h.mode = .S ∧ t.h.pc = s.h.svec ∧ inh t.h = true ∧ t.h.sstatus.getLsbD 4 = decide (s.h.mode = .S) ∧
    t.h.fmask = s.h.fmask ∧ t.h.x = s.h.x ∧ t.h.sx = s.h.sx ∧ t.h.v = s.h.v ∧ t.h.dead = s.h.dead ∧ t.h.w = s.h.w ∧
    t.h.loops = s.h.loops ∧ t.h.arms = s.h.arms ∧ t.h.armsp = s.h.armsp ∧ t.h.flags = s.h.flags ∧ t.h.cmds = s.h.cmds

/-- The first byte of slab 0 of a hart, whose last 64 KiB are its receive ring, HEAD and TAIL below them (R390). -/
def ringBase (h : Hart) (p : Nat) : Nat := scrAddr (coreOf h.gid) (p * 524288)

/-- R390: `m'` is `m` with one element in the ring of the hart `r`, whose slab 0 is slab `p` of its core. -/
def RingTakes (m m' : Memory) (r : Hart) (p data word : Nat) : Prop :=
  let b := ringBase r p
  let slot := b + 458752 + 16 * (memRead m (b + 458744) 8 % 4096)
  memRead m' (b + 458744) 8 = (memRead m (b + 458744) 8 + 1) % 2 ^ 64 ∧ memRead m' slot 8 = data ∧ memRead m' (slot + 8) 8 = word ∧
    ∀ a, (a < b + 458744 ∨ b + 458752 ≤ a) → (a < slot ∨ slot + 16 ≤ a) → memGet m' a = memGet m a
/-- The ring has a free slot. -/
def RingHasRoom (m : Memory) (r : Hart) (p : Nat) : Prop :=
  let b := ringBase r p
  (memRead m (b + 458744) 8 + 2 ^ 64 - memRead m (b + 458736) 8) % 2 ^ 64 < 4096

end Sys2Proof.Machine
end

