-- ==== Sys2Proof/Certificates/Slice0/Obligations.lean ====
section
/-! DEFINITION. The statements about the machine, with the tables of the rules that they are made from. -/

namespace Sys2Proof.Rules

open Sys2Proof.Machine

/-! ### Scalar instructions (R106 to R110) -/

/-- Bits [p + l − 1 : p] of `x` moved to the top (R108). -/
def fieldTop (x : Word) (p l : Nat) : Word := x <<< (64 - l - p)
/-- R108: p, and l = min(length, 64 − p), a length field of 0 standing for 64. -/
def fieldPos (b : Word) : Nat := (b &&& 63).toNat
def fieldLen (b : Word) : Nat :=
  Nat.min (if (b >>> 8 &&& 63) = 0 then 64 else (b >>> 8 &&& 63).toNat) (64 - fieldPos b)

/-- Rows of R106 that read xA and b: D, A, B and the value of xD. -/
def twoOperand : Instr → Option (Reg × Reg × XOp × (Word → Word → Word))
  | .add d a b => some (d, a, b, fun x y => x + y)
  | .sub d a b => some (d, a, b, fun x y => x - y)
  | .mul d a b => some (d, a, b, fun x y => x * y)
  | .mulh d a b => some (d, a, b, fun x y => ((x.signExtend 128 * y.signExtend 128) >>> 64).setWidth 64)
  | .mulhu d a b => some (d, a, b, fun x y => ((x.setWidth 128 * y.setWidth 128) >>> 64).setWidth 64)
  | .div d a b => some (d, a, b, fun x y => if y = 0 then -1 else x.sdiv y)
  | .divu d a b => some (d, a, b, fun x y => if y = 0 then -1 else x / y)
  | .rem d a b => some (d, a, b, fun x y => if y = 0 then x else x.srem y)
  | .remu d a b => some (d, a, b, fun x y => if y = 0 then x else x % y)
  | .and d a b => some (d, a, b, fun x y => x &&& y)
  | .or d a b => some (d, a, b, fun x y => x ||| y)
  | .xor d a b => some (d, a, b, fun x y => x ^^^ y)
  | .andn d a b => some (d, a, b, fun x y => x &&& ~~~ y)
  | .shl d a b => some (d, a, b, fun x y => x <<< (y &&& 63).toNat)
  | .shr d a b => some (d, a, b, fun x y => x >>> (y &&& 63).toNat)
  | .sra d a b => some (d, a, b, fun x y => x.sshiftRight (y &&& 63).toNat)
  | .rotl d a b => some (d, a, b, fun x y => x <<< (y &&& 63).toNat ||| x >>> (64 - (y &&& 63).toNat))
  | .slt d a b => some (d, a, b, fun x y => if x.toInt < y.toInt then 1 else 0)
  | .sltu d a b => some (d, a, b, fun x y => if x.toNat < y.toNat then 1 else 0)
  | .min d a b => some (d, a, b, fun x y => if x.toInt ≤ y.toInt then x else y)
  | .max d a b => some (d, a, b, fun x y => if x.toInt ≤ y.toInt then y else x)
  | .minu d a b => some (d, a, b, fun x y => if x.toNat ≤ y.toNat then x else y)
  | .maxu d a b => some (d, a, b, fun x y => if x.toNat ≤ y.toNat then y else x)
  | .bext d a b => some (d, a, b, fun x y => fieldTop x (fieldPos y) (fieldLen y) >>> (64 - fieldLen y))
  | .ext d a b => some (d, a, b, fun x y => (fieldTop x (fieldPos y) (fieldLen y)).sshiftRight (64 - fieldLen y))
  | _ => none

/-- The other rows of R106 to R110: D and the value of xD, read from the hart. -/
def otherScalar : Instr → Option (Reg × (Hart → Word))
  | .clz d a => some (d, fun h => BitVec.ofNat 64 ((List.range 64).filter (fun k => decide ((xGet h a).toNat < 2 ^ k))).length)
  | .ctz d a => some (d, fun h =>
      BitVec.ofNat 64 ((List.range 64).filter (fun k => decide ((xGet h a).toNat % 2 ^ (k + 1) = 0))).length)
  | .popc d a => some (d, fun h => BitVec.ofNat 64 ((List.range 64).filter (fun k => (xGet h a).getLsbD k)).length)
  | .bins d a b c => some (d, fun h =>
      let y := xopVal h b
      let m : Word := (BitVec.allOnes 64 >>> (64 - fieldLen y)) <<< fieldPos y
      (xGet h c &&& ~~~ m) ||| (xGet h a <<< fieldPos y &&& m))
  | .sel d a b c => some (d, fun h => if xGet h c = 0 then xopVal h b else xGet h a)
  | .lea d a b k disp => some (d, fun h => xGet h a + (xGet h b <<< k.toNat) + disp.signExtend 64)
  | .li d imm => some (d, fun _ => imm.signExtend 64)
  | .lih d imm => some (d, fun h => imm ++ (xGet h d).setWidth 32)
  | .nop => some (0, fun _ => 0)
  | _ => none

/-! ### Scalar floating point (R111 to R114) -/

/-- An exact result with its flags, rounded once into `et`. -/
def roundOnce (et : ET) (m : RM) (r : Val × Fl) : Word × Fl :=
  (BitVec.ofNat 64 (encFloat et false m r.1).1, r.2 ||| (encFloat et false m r.1).2)

/-- R113, R145: a conversion that rounds nothing, and so keeps no residual (R48; log 41). -/
def roundsNothing (et et2 : ET) : Bool :=
  let whole (e : ET) : Bool := e.isInt && e != .t2 && e != .b1
  et == et2 || (whole et && whole et2)

/-- R111 to R113: D, the result, its flags, and EFR as the conversion leaves it (R48). -/
def floatResult : Instr → Option (Reg × (Hart → Word × Fl × BitVec 32))
  | .fadd d a b et rm => some (d, fun h =>
      let m := rmOf h rm false
      let (w, f) := roundOnce et m (vAdd (m == .rdn) (fReg h et a) (fOp h et m b))
      (w, f, h.efr))
  | .fsub d a b et rm => some (d, fun h =>
      let m := rmOf h rm false
      let (w, f) := roundOnce et m (vAdd (m == .rdn) (fReg h et a) (vNeg (fOp h et m b)))
      (w, f, h.efr))
  | .fmul d a b et rm => some (d, fun h =>
      let m := rmOf h rm false
      let (w, f) := roundOnce et m (vMul (fReg h et a) (fOp h et m b))
      (w, f, h.efr))
  | .fdiv d a b et rm => some (d, fun h =>
      let m := rmOf h rm false
      let (w, f) := roundOnce et m (vDiv (fReg h et a) (fOp h et m b))
      (w, f, h.efr))
  | .fsqrt d a et rm => some (d, fun h =>
      let (w, f) := roundOnce et (rmOf h rm false) (vSqrt (fReg h et a))
      (w, f, h.efr))
  | .ffma d a b c et rm => some (d, fun h =>
      let m := rmOf h rm false
      let (w, f) := roundOnce et m (vFma (m == .rdn) (fReg h et a) (fOp h et m b) (fReg h et c))
      (w, f, h.efr))
  | .fmin d a b et rm => some (d, fun h =>
      let x := fReg h et a
      let y := fOp h et (rmOf h rm false) b
      let v := if vIsNan x then (if vIsNan y then .nan false else y) else if vIsNan y then x else if vLess y x then y else x
      (BitVec.ofNat 64 (encFloat et false .rne v).1, if vIsSig x || vIsSig y then flNV else flNone, h.efr))
  | .fmax d a b et rm => some (d, fun h =>
      let x := fReg h et a
      let y := fOp h et (rmOf h rm false) b
      let v := if vIsNan x then (if vIsNan y then .nan false else y) else if vIsNan y then x else if vLess x y then y else x
      (BitVec.ofNat 64 (encFloat et false .rne v).1, if vIsSig x || vIsSig y then flNV else flNone, h.efr))
  | .fcmp cond d a b et rm => some (d, fun h =>
      let x := fReg h et a
      let y := fOp h et (rmOf h rm false) b
      (if condHolds cond (vCmp x y) then 1 else 0, if vIsSig x || vIsSig y then flNV else flNone, h.efr))
  | .fcvt d a et et2 rm => some (d, fun h =>
      let m := rmOf h rm (!roundsNothing et et2)
      let (v, f) := valOf et2 (xGet h a).toNat
      let nv := if vIsSig v then flNV else flNone
      if m = .efb then
        let (c, g, r) := efbStep et false v h.efr.toNat
        (scalarOf et c, f ||| nv ||| g, BitVec.ofNat 32 r)
      else
        let (c, g) := encVal et false m v
        (scalarOf et c, f ||| nv ||| g, h.efr))
  | .fclass d a et _ => some (d, fun h => (BitVec.ofNat 64 (classMask (fmtOf et) (fReg h et a)), flNone, h.efr))
  | _ => none

/-! ### Transfers (R118) -/

/-- R68, for whole registers. -/
def branchHolds (c : Cond) (x y : Word) : Bool :=
  match c with
  | .eq => x = y | .ne => x ≠ y
  | .lt => x.toInt < y.toInt | .ge => y.toInt ≤ x.toInt
  | .ltu => x.toNat < y.toNat | .geu => y.toNat ≤ x.toNat
  | .le => x.toInt ≤ y.toInt | .gt => y.toInt < x.toInt
  | .leu => x.toNat ≤ y.toNat | .gtu => y.toNat < x.toNat
  | .un | .ord => false

/-- R118: the state with the link written, and the target, of a transfer that is taken. -/
def taken : Instr → State → Option (State × Word)
  | .bCond c a b disp, s =>
    if branchHolds c (xGet s.h a) (xGet s.h b) then some (s, slotPlus s.h.pc disp.toInt) else none
  | .j disp, s => some (s, slotPlus s.h.pc disp.toInt)
  | .jr a, s => some (s, xGet s.h a)
  | .call d disp, s => some (putX s d (seqNext s.h.pc), slotPlus s.h.pc disp.toInt)
  | .callr d a, s => some (putX s d (seqNext s.h.pc), xGet s.h a)
  | .ret a, s => if s.h.ringctl.getLsbD 0 then none else some (s, xGet s.h a)
  | _, _ => none

/-- R116, R119, R241: instructions without an architectural effect. -/
def noEffect : Instr → Bool
  | .yield | .pfch _ _ | .fence _ _ => true
  | _ => false

/-! ### Configuration (R131 to R133) -/

/-- R132, R133: D, the value returned, and the hart that `setsp`, `setth`, `setfl`, `setrm` and `getcr` leave. -/
def configResult : Instr → Option (Reg × (State → Word) × (Hart → Hart))
  | .setsp d b => some (d, fun s => s.h.space.setWidth 64, fun h =>
      let v := xopVal h b &&& 7
      if v ≤ 4 then { h with space := v.setWidth 3 } else h)
  | .setth d b => some (d, fun s => s.h.theta.setWidth 64, fun h =>
      let v := xopVal h b &&& 0xFFFF
      { h with theta := if v ≤ 0x8000 then v.setWidth 16 else 0x8000 })
  | .setfl d b => some (d, fun s => s.h.floor.setWidth 64, fun h =>
      let v := xopVal h b &&& 0xFFFF
      { h with floor := if v ≤ 0x8000 then v.setWidth 16 else 0x8000 })
  | .setrm d b => some (d, fun s => s.h.rmode.setWidth 64, fun h =>
      let v := xopVal h b &&& 7
      if v ≤ 5 then { h with rmode := v.setWidth 3 } else h)
  | .getcr d cr => some (d, fun s => csrRead s s.h cr.toNat, fun h => h)
  | _ => none

/-- R131: the length that `setvl` grants a hart of `lanes` live lanes. -/
def granted (lanes ceiling req : Nat) (et : ET) (g : Grp) : Nat :=
  let cap := 768 * lanes
  let n := min (min req (cap * g.size / et.regBytes)) cap
  let n := if ceiling = 0 then n else min n ceiling
  if et.isBlock then n - n % 16 else n

/-- The control registers of R10 that user code may write (R13), by index, with the bits of the register that a value
sets; the others ignore a write. -/
def putcrResult (h : Hart) (i : Nat) (w : Word) : Hart :=
  if i = 2 then { h with vstart := w.toNat % 2 ^ 15 }
  else if i = 3 then { h with ffi := w.toNat % 2 ^ 15 }
  else if i = 4 then { h with theta := if (w &&& 0xFFFF) ≤ 0x8000 then w.setWidth 16 else 0x8000 }
  else if i = 5 then { h with floor := if (w &&& 0xFFFF) ≤ 0x8000 then w.setWidth 16 else 0x8000 }
  else if i = 6 then (if (w &&& 7) ≤ 5 then { h with rmode := w.setWidth 3 } else h)
  else if i = 7 then
    { h with efr := if (w &&& 0x7F800000) = 0x7F800000 ∧ (w &&& 0x7FFFFF) ≠ 0 then 0x7FC00000 else w.setWidth 32 }
  else if i = 8 then (if (w &&& 7) ≤ 4 then { h with space := w.setWidth 3 } else h)
  else if i = 9 then { h with cbase := w.setWidth 4 }
  else if i = 12 then { h with flags := w &&& 0xFFFFFFFF0000007F }
  else if i = 13 then { h with fenable := w &&& 31 }
  else h

/-! ### Loops and arms (R120 to R129, R174 to R177) -/

/-- a ⊗ b at element `i` (R27). -/
def prodAt (a b : WImage) (i : Nat) : Nat := wtMul (wCode a i) (wCode b i)

/-- Element `i` is above THETA, where a hart of any size has such an element. -/
def aboveAt (h : Hart) (f : Nat → Nat) (i : Nat) : Prop := i < h.vl ∧ i < h.vlcap ∧ i < 24576 ∧ h.theta.toNat < f i
/-- Some element is. -/
def someAbove (h : Hart) (f : Nat → Nat) : Prop := ∃ i, aboveAt h f i
/-- The first VLCAP codes of a weight image. -/
def Codes (h : Hart) (w : WImage) (f : Nat → Nat) : Prop := ∀ i, i < h.vlcap → i < 24576 → wCode w i = f i

/-- R128: the fields of level L in its 32 bytes at `a`. -/
def LevelStored (m : Memory) (a : Nat) (l : Level) : Prop :=
  memRead m a 8 = l.count.toNat ∧ memRead m (a + 8) 8 = l.top.toNat ∧ memRead m (a + 16) 8 = l.tail.toNat ∧
    memRead m (a + 24) 1 = (if l.act then 1 else 0) + (if l.rot then 2 else 0) ∧
    memRead m (a + 25) 1 = l.stages.toNat ∧ memRead m (a + 26) 1 = l.cw.toNat ∧ memRead m (a + 27) 1 = l.epi.toNat ∧
    memRead m (a + 28) 1 = l.asp.toNat ∧ memRead m (a + 29) 3 = 0

/-! ### Scalar memory and atomics (R115, R237 to R239) -/

/-- The types of `ld` and `st`: size in bytes, and whether a load extends the sign. -/
def scalarType : ET → Option (Nat × Bool)
  | .i8 => some (1, true) | .n8 => some (1, false) | .i16 => some (2, true) | .n16 => some (2, false)
  | .i32 => some (4, true) | .n32 => some (4, false) | .i64 => some (8, true) | .n64 => some (8, false)
  | _ => none

/-- A value of `n` bytes in a scalar register. -/
def extended (n : Nat) (signed : Bool) (v : Nat) : Word :=
  if signed then (BitVec.ofNat (8 * n) v).signExtend 64 else BitVec.ofNat 64 (v % 2 ^ (8 * n))

/-- The types of the atomics (R237): size, and whether an old value extends its sign. -/
def atomicType : ET → Option (Nat × Bool)
  | .i32 => some (4, true) | .n32 => some (4, false) | .i64 => some (8, true) | .n64 => some (8, false)
  | .f32 => some (4, false)
  | _ => none

/-- The integer of a code of `n` bytes. -/
def asInt (n : Nat) (signed : Bool) (v : Nat) : Int := if signed ∧ 2 ^ (8 * n - 1) ≤ v then (v : Int) - 2 ^ (8 * n) else v

/-- R237: D, A, C, the displacement, the type, and the new value with its flags of an `amo` from the old value and the
operand, codes of `n` bytes. -/
def amoResult : Instr → Option (Reg × Reg × Reg × BitVec 32 × ET × (Nat → Bool → Nat → Nat → Nat × Fl))
  | .amoSwap d a c disp et _ _ => some (d, a, c, disp, et, fun _ _ _ x => (x, flNone))
  | .amoAdd d a c disp et _ _ => some (d, a, c, disp, et, fun n _ old x =>
      if et = .f32 then
        let r := vAdd false (decFloat (fmtOf .f32) old) (decFloat (fmtOf .f32) x)
        ((encFloat .f32 false .rne r.1).1, r.2 ||| (encFloat .f32 false .rne r.1).2)
      else ((old + x) % 2 ^ (8 * n), flNone))
  | .amoAnd d a c disp et _ _ => some (d, a, c, disp, et, fun _ _ old x => (old &&& x, flNone))
  | .amoOr d a c disp et _ _ => some (d, a, c, disp, et, fun _ _ old x => (old ||| x, flNone))
  | .amoXor d a c disp et _ _ => some (d, a, c, disp, et, fun _ _ old x => (old ^^^ x, flNone))
  | .amoMin d a c disp et _ _ => some (d, a, c, disp, et, fun n sg old x =>
      if et = .f32 then
        let r := vMinMax false (decFloat (fmtOf .f32) old) (decFloat (fmtOf .f32) x)
        ((encFloat .f32 false .rne r.1).1, r.2)
      else (if asInt n sg old ≤ asInt n sg x then old else x, flNone))
  | .amoMax d a c disp et _ _ => some (d, a, c, disp, et, fun n sg old x =>
      if et = .f32 then
        let r := vMinMax true (decFloat (fmtOf .f32) old) (decFloat (fmtOf .f32) x)
        ((encFloat .f32 false .rne r.1).1, r.2)
      else (if asInt n sg old ≤ asInt n sg x then x else old, flNone))
  | _ => none

/-- R219: the arrivals that release a barrier: COUNT, or for `.f` the members of the record that run or are saved; a hart
without a record is a farm of one. -/
def awaited (s : State) (sc : Scope) (w : Nat) : Nat :=
  if sc = .farm then
    if s.h.record = 0 then 1
    else ((s.h :: s.others).filter (fun o => hartExists o && o.record == s.h.record)).length +
      ((s.d.recs.filter (fun r => r.id == s.h.record)).flatMap (fun r => r.saved)).length
  else w % 2 ^ 16

/-- R64: the cores that a scope names, from core `own` of the device. -/
def reaches : Scope → Nat → Nat → Prop
  | .hart, own, core | .core, own, core => core = own
  | .die, own, core => core / 24 = own / 24
  | .device, _, _ | .system, _, _ | .farm, _, _ => True

/-- A hart whose registers and ring hold values that R11 to R13, R336, R337 and R351 let them take, and whose loop state R130
takes back. -/
def Savable (h : Hart) : Prop :=
  h.lanes ≤ 32 ∧ (h.clusters = 1 ∨ h.clusters = 2 ∨ h.clusters = 4 ∨ h.clusters = 8) ∧ h.vl ≤ h.vlcap ∧ h.vlcap ≤ 24576 ∧
    h.vstart < 2 ^ 15 ∧ h.svstart < 2 ^ 15 ∧ h.ffi < 2 ^ 15 ∧ h.theta ≤ 0x8000 ∧ h.floor ≤ 0x8000 ∧ h.rmode.toNat ≤ 5 ∧
    h.space.toNat ≤ 4 ∧ h.armsp ≤ 8 ∧ ((h.efr &&& 0x7F800000) = 0x7F800000 ∧ (h.efr &&& 0x7FFFFF) ≠ 0 → h.efr = 0x7FC00000) ∧
    h.flags &&& 0xFFFFFFFF0000007F = h.flags ∧ h.fenable &&& 31 = h.fenable ∧ loopHeaderBad (loopHeader h) = false ∧
    h.mat.m ≤ 128 ∧ h.mat.n ≤ 128 ∧ (∀ w, h.barWord = some w → w.toNat % 8 = 0) ∧
    2 * h.barWait.length + h.pend.length ≤ 6 ∧ (∀ b ∈ h.barWait, b.ea.toNat % 8 = 0) ∧ (∀ p ∈ h.pend, p.cmd = none) ∧
    h.linkpc &&& 2 = 0 ∧ h.dead &&& 1 = 0 ∧ h.sstatus &&& 0xF8 = h.sstatus ∧ h.scause &&& 0xF0FF = h.scause ∧ h.sie &&& 3 = h.sie ∧
    h.sip &&& 3 = h.sip ∧ h.ctxroot &&& 0xFFFFFFFFFF000 = h.ctxroot ∧ h.ringctl &&& 1 = h.ringctl ∧
    ∀ e ∈ h.ring, e.extractLsb' 126 2 = 0 ∧ e.extractLsb' 188 4 = 0

/-! ### Engines (R294, R306 to R324) -/

/-- R310, R37: a matrix operand that its format accepts: base, stride in elements, whether it is contiguous along K. -/
def matrixOk (base : Word) (stride : Nat) (et : ET) (alongK : Bool) (k : Nat) : Bool :=
  if et.isBlock then alongK && stride % 16 = 0 && k % 16 = 0 && base.toNat % 2 = 0
  else if et.wholeBytes then base.toNat % (et.memBits / 8) = 0
  else stride * et.bits % 8 = 0

/-- A command within the limits and alignments of its entry: the values of A, A+1, B, B+1, C, C+1 that it keeps, and
whether it has any unit to perform. `pout` needs its region besides. -/
def engineTakes : Instr → Hart → Option (List Word × Bool)
  | .cpy _ a b c _ _ _, h =>
    if (xGet h c).toNat ≤ 2 ^ 40 then some ([xGet h a, 0, xGet h b, 0, xGet h c, 0], xGet h c ≠ 0) else none
  | .cpys _ a b c _ _ _, h =>
    some ([xGet h a, xGet h (a + 1), xGet h b, xGet h (b + 1), xGet h c, 0],
      (xGet h c).setWidth 32 ≠ 0 && (xGet h c).extractLsb' 32 32 ≠ 0)
  | .cfill _ a b c _ wc _, h =>
    if (xGet h c).toNat % 2 ^ wc.toNat = 0 ∧ (xGet h a).toNat % 2 ^ wc.toNat = 0 then
      some ([xGet h a, 0, xGet h b, 0, xGet h c, 0], xGet h c ≠ 0) else none
  | .mzero _ tile _, h => if tile.toNat < h.tiles.length then some ([], true) else none
  | .mmul _ a b tile _ _ et et2 _, h =>
    if tile.toNat < h.tiles.length ∧ matrixOk (xGet h a) h.mat.sa.toNat et (!h.mat.ta) h.mat.k.toNat ∧
        matrixOk (xGet h b) h.mat.sb.toNat et2 h.mat.tb h.mat.k.toNat then
      some ([xGet h a, 0, xGet h b, 0, 0, 0], h.mat.m ≠ 0 && h.mat.n ≠ 0 && h.mat.k ≠ 0) else none
  | .mmulc _ src b tile _ et et2 _ _, h =>
    if src.toNat < h.tiles.length ∧ tile.toNat < h.tiles.length ∧ h.mat.k.toNat ≤ 128 ∧
        (et.isBlock → h.mat.k.toNat % 16 = 0) ∧ matrixOk (xGet h b) h.mat.sb.toNat et2 h.mat.tb h.mat.k.toNat then
      some ([0, 0, xGet h b, 0, 0, 0], h.mat.m ≠ 0 && h.mat.n ≠ 0 && h.mat.k ≠ 0) else none
  | .mout _ src b c _ toReg stride et _ _, h =>
    let P := if stride = 0 then h.mat.n else stride.toNat
    if src.toNat < h.tiles.length ∧ (et.isBlock → h.mat.n % 16 = 0) ∧
        (if toReg then bindingOf h (vPhys h c.toNat) = none ∧ h.mat.m * h.mat.n ≤ capacity h 1 et.regBytes
         else if et.isBlock then P % 16 = 0 ∧ (xGet h b).toNat % 2 = 0 else (xGet h b).toNat % (et.memBits / 8) = 0) then
      some ([0, 0, xGet h b, 0, 0, 0], h.mat.m ≠ 0 && h.mat.n ≠ 0) else none
  | .fisect _ fa fb c _ _, h | .funion _ fa fb c _ _, h =>
    if (fibreGet h fa.toNat).opened ∧ (fibreGet h fb.toNat).opened then
      some ([0, 0, 0, 0, if c = 0 then 0 else xGet h c, if c = 0 then 0 else xGet h (c + 1)], true) else none
  | .fcount _ fa b _, h => if (fibreGet h fa.toNat).opened then some ([0, 0, xGet h b, 0, 0, 0], true) else none
  | .fsplit _ a b c _ _ _, h =>
    if 1 ≤ (xGet h b).toNat ∧ (xGet h b).toNat ≤ 65536 ∧ (xGet h (a + 1)).toNat < 2 ^ 32 - 1 ∧
        (xGet h a).toNat % 4 = 0 ∧ (xGet h c).toNat % 4 = 0 then
      some ([xGet h a, xGet h (a + 1), xGet h b, 0, xGet h c, 0], true) else none
  | .dput _ a b c _ _ _ _, h =>
    if (xGet h c).toNat % 8 = 0 ∧ 8 ≤ (xGet h c).toNat ∧ (xGet h c).toNat ≤ 65536 ∧ (xGet h a).toNat % 8 = 0 ∧
        (xGet h b).toNat % 8 = 0 then
      some ([xGet h a, 0, xGet h b, 0, xGet h c, 0], true) else none
  | .dclose _ a b c _ _ _ _, h =>
    if 1 ≤ (xGet h b).toNat ∧ (xGet h b).toNat ≤ 4096 ∧ (xGet h a).toNat % 8 = 0 ∧ (xGet h c).toNat % 4 = 0 then
      some ([xGet h a, 0, xGet h b, 0, xGet h c, 0], true) else none
  | _, _ => none

/-! ### Supervisor registers (R336, R337) -/

/-- R10, R13, R336, R337: what `csrrd` reads after a `csrwr` of `w` to a register that held `old`; PPEND falls with INH
(R341). -/
def csrKeeps (vlcap i : Nat) (old w : Word) : Word :=
  match i with
  | 0x000 => BitVec.ofNat 64 (min (w.toNat % 2 ^ 15) vlcap)
  | 0x002 | 0x003 | 0x312 => w &&& 0x7FFF
  | 0x004 | 0x005 => if (w &&& 0xFFFF) ≤ 0x8000 then w &&& 0xFFFF else 0x8000
  | 0x006 => if (w &&& 7) ≤ 5 then w &&& 7 else old
  | 0x007 => if (w &&& 0x7F800000) = 0x7F800000 ∧ (w &&& 0x7FFFFF) ≠ 0 then 0x7FC00000 else w &&& 0xFFFFFFFF
  | 0x008 => if (w &&& 7) ≤ 4 then w &&& 7 else old
  | 0x009 => w &&& 15
  | 0x00A => if w ≤ 8 then w else old
  | 0x00B => w &&& ~~~ 2
  | 0x00C => w &&& 0xFFFFFFFF0000007F
  | 0x00D => w &&& 31
  | 0x300 => (if w.getLsbD 5 then old &&& 0x80 else 0) ||| (w &&& 0x78)
  | 0x301 | 0x302 | 0x304 | 0x305 | 0x306 | 0x307 | 0x308 | 0x309 => w
  | 0x303 => w &&& 0xF0FF
  | 0x30A => w &&& 0x000FFFFFFFFFF000
  | 0x30C => w &&& 3
  | 0x30D => old &&& ~~~ w
  | 0x310 => w &&& 1
  | _ => if 0x100 ≤ i ∧ i < 0x280 then w else old

/-! ### Vector instructions: the element rule (R22, R23, R134 to R136, R165) -/

/-- The result of one live element: a value still to be blended and rounded, or a code; with the flags of forming it. -/
inductive Out where
  | val (v : Val) (fl : Fl) (sat : Bool)
  | code (c : Nat) (fl : Fl)

/-- What an element leaves to those above it: EFR and memory. -/
structure Thread where
  efr : Nat
  mem : Memory

/-- A vector instruction by its entry: fields, destination, sources, whether VL is a multiple of 16 (R36), the live
elements, those that are written at all, what it asks of the state, the result of a live element, its scalar results, FFI,
flags that belong to no single result. -/
structure Row where
  k    : VCtl
  dst  : VDst
  srcs : List VField
  cb   : Bool := false
  live : State → Nat → Bool
  only : State → Nat → Bool := fun _ _ => true
  ok   : State → Prop := fun _ => True
  out  : State → Thread → Nat → Out × Thread
  xs   : State → List (Reg × Word) := fun _ => []
  ffi  : State → Nat := fun s => s.h.ffi
  more : State → Fl := fun _ => flNone

/-- Element `j` of a source outside a chain: v0 reads as zero there (R30). -/
def elemAt (h : Hart) (f : VField) (j : Nat) : Nat := if f.reg = 0 then 0 else vElem h f.reg f.b j
/-- R62: the code of B at element `j`. -/
def opB (h : Hart) (b : VSrc) (k : VCtl) (et : ET) (j : Nat) : Nat :=
  match b with
  | .reg r => elemAt h (fldB r k et.regBytes) j
  | .scalar r => (xGet h r).toNat % 2 ^ et.bits
  | .imm v => immCode et (rmOf h k.rm false) v
def floatOf (et : ET) (c : Nat) : Val := decFloat (fmtOf et) (c % 2 ^ et.bits)
def intOf (et : ET) (c : Nat) : Int :=
  let u := c % 2 ^ et.bits
  if et.signed ∧ 2 ^ (et.bits - 1) ≤ u then (u : Int) - 2 ^ et.bits else u
/-- Modulo 2^width. -/
def wrapTo (et : ET) (n : Int) : Nat := (n % 2 ^ et.bits).toNat
def nvIf (b : Bool) : Fl := if b then flNV else flNone

/-- Old contents of an element of the destination. -/
def dstAt (h : Hart) (d : VDst) (j : Nat) : Nat :=
  match d with
  | .none => 0
  | .wt r => wRaw (wGet h (wPhys h r)) j
  | .vec r _ b => if r = 0 then 0 else vElem h r b j
/-- Its elements that hold anything. -/
def room (h : Hart) (d : VDst) : Nat :=
  match d with
  | .none => 0
  | .wt _ => 24576
  | .vec r g b => if r = 0 then 0 else h.lanes * 768 * g / b
def vecRegs (h : Hart) (r g : Nat) : List Nat := (List.range g).map (fun j => vPhys h (r + j))
def dstRegs (h : Hart) (d : VDst) : List Nat :=
  match d with
  | .vec r g _ => vecRegs h r g
  | _ => []

/-- R165: the code written and every flag raised. -/
def finish (k : VCtl) (h : Hart) (j old : Nat) : Out → Nat × Fl
  | .code c fl => (c, fl)
  | .val v fl sat =>
    let m := rmOf h k.rm false
    let b := if k.wp = .blend then vBlend (m == .rdn) (ewOf h k.w j) v (valOf k.et old).1 else (v, flNone)
    let e := encVal k.et sat m b.1
    (e.1, fl ||| b.2 ||| e.2)

namespace Row

def marked (r : Row) (h : Hart) : List Nat := (r.srcs.filter (fun f => f.mark)).flatMap (fun f => vecRegs h f.reg f.regs)
/-- R28: the register that holds element `j` of the destination is also marked as last read, so that its old contents
count as zero. -/
def reborn (r : Row) (h : Hart) (j : Nat) : Bool :=
  match r.dst with
  | .vec n g b =>
    let p := vPhys h (n + j * b / (h.lanes * 768))
    n != 0 && decide (j < h.lanes * 768 * g / b) && (r.marked h).contains p && !isOpen h p
  | _ => false
/-- An element that the instruction computes. -/
def begun (r : Row) (s : State) (j : Nat) : Bool :=
  decide (s.h.vstart ≤ j) && decide (j < s.h.vl) && r.only s j && r.live s j
/-- What stands before element `j`. -/
def before (r : Row) (s : State) : Nat → Thread
  | 0 => ⟨s.h.efr.toNat, s.mem⟩
  | j + 1 => if r.begun s j then (r.out s (before r s j) j).2 else before r s j
def result (r : Row) (s : State) (j : Nat) : Nat × Fl :=
  finish r.k s.h j (if r.reborn s.h j then 0 else dstAt s.h r.dst j) (r.out s (r.before s j) j).1
def flags (r : Row) (s : State) : Fl :=
  ((List.range s.h.vl).filter (r.begun s)).foldl (fun f j => f ||| (r.result s j).2) (r.more s)
/-- Element `j` of the destination afterwards, where `old` is what stays in an element that is not written. -/
def afterOver (r : Row) (s : State) (old : Nat) (j : Nat) : Nat :=
  if s.h.vstart ≤ j ∧ j < s.h.vl ∧ r.only s j then
    if r.live s j then (r.result s j).1 else if r.k.wp = .zero then 0 else old
  else old
/-- The same once the instruction has retired (R22, R28). -/
def after (r : Row) (s : State) (j : Nat) : Nat :=
  r.afterOver s (if s.h.vstart ≤ j ∧ r.reborn s.h j then 0 else dstAt s.h r.dst j) j
/-- R28, R30: a source is dead, or is v0 with no link to it. -/
def readsDead (r : Row) (h : Hart) : Bool :=
  r.srcs.any (fun f => f.reg == 0 || (vecRegs h f.reg f.regs).any (isDead h))
/-- R36, R134. -/
def Fits (r : Row) (s : State) : Prop :=
  s.h.vl ≤ 24576 ∧ (∀ f ∈ r.srcs, s.h.vl ≤ s.h.lanes * 768 * f.regs / f.b) ∧
    (match r.dst with | .vec _ g b => s.h.vl ≤ s.h.lanes * 768 * g / b | _ => True) ∧
    (r.cb = true → s.h.vl % 16 = 0)
/-- A destination v0 has no consumer in the next slot. -/
def Unlinked (r : Row) (i : Instr) (s : State) : Prop :=
  ∀ g b op, r.dst = .vec 0 g b → vopOf i = some op → chainAfter vopOf s ⟨s.h.pc, op⟩ 4 = ([], none, s)

/-- The instruction `i` does what its row says, where no enabled flag is raised: nothing traps, and it retires. -/
def Holds (r : Row) (i : Instr) : Prop :=
  ∀ s : State, i.wf = true → s.Plain → s.Uncounted → s.h.lanes ≤ 32 → s.h.binds = [] → s.Unstopped →
    r.Fits s → r.Unlinked i s → r.ok s → r.flags s &&& s.h.fenable.setWidth 5 = 0 →
    ∃ t, exec i s = .next t ∧ t = { s with h := t.h, mem := (r.before s s.h.vl).mem } ∧
      t.h = { (r.xs s).foldl (fun h p => xSet h p.1 p.2) s.h with
        pc := seqNext s.h.pc, xfer := none, run := .running, vstart := 0, ffi := r.ffi s, v := t.h.v, dead := t.h.dead
        w := t.h.w, efr := BitVec.ofNat 32 (r.before s s.h.vl).efr
        flags := s.h.flags ||| (r.flags s).setWidth 64 ||| (if r.readsDead s.h then 0x20 else 0)
        ring := t.h.ring, ringpos := t.h.ringpos, ringsince := t.h.ringsince } ∧
      (∀ j, j < room s.h r.dst → dstAt t.h r.dst j = r.after s j) ∧
      (∀ p, p < 64 → p ∉ dstRegs s.h r.dst → vImg t.h p = vImg s.h p ∧
        isDead t.h p = (isDead s.h p || (decide (p ≠ 0 ∧ p ∈ r.marked s.h) && !isOpen s.h p))) ∧
      (∀ n, (∀ m, r.dst = .wt m → n ≠ wPhys s.h m) → wGet t.h n = wGet s.h n) ∧
      (s.h.ringctl.getLsbD 0 = false → t.h.ring = s.h.ring ∧ t.h.ringpos = s.h.ringpos ∧ t.h.ringsince = s.h.ringsince)

end Row

/-- A row whose elements are independent of each other. -/
def rowOf (k : VCtl) (dst : VDst) (srcs : List VField) (f : Hart → Nat → Out) : Row :=
  { k := k, dst := dst, srcs := srcs, live := fun s j => liveAt s.h k.w true j, out := fun s t j => (f s.h j, t) }

/-- A result of ET: a float, or an integer modulo 2^width. -/
def num (k : VCtl) (f : Val × Fl) (n : Int) : Out :=
  if k.et.isFloat then .val f.1 f.2 false else .code (wrapTo k.et n) flNone
def rdnOf (h : Hart) (k : VCtl) : Bool := rmOf h k.rm false == .rdn

def row1 (d a : Reg) (k : VCtl) (f : Val → Val × Fl) (n : Int → Int) : Row :=
  let A := fldA a k k.et.regBytes
  rowOf k (dstV d k k.et.regBytes) [A] (fun h j =>
    num k (f (floatOf k.et (elemAt h A j))) (n (intOf k.et (elemAt h A j))))
def row2 (d a : Reg) (b : VSrc) (k : VCtl) (f : Bool → Val → Val → Val × Fl) (n : Int → Int → Int) : Row :=
  let A := fldA a k k.et.regBytes
  rowOf k (dstV d k k.et.regBytes) (A :: fldsB b k k.et.regBytes) (fun h j =>
    let x := elemAt h A j
    let y := opB h b k k.et j
    num k (f (rdnOf h k) (floatOf k.et x) (floatOf k.et y)) (n (intOf k.et x) (intOf k.et y)))
def row3 (d a : Reg) (b : VSrc) (c : Reg) (k : VCtl) (f : Bool → Val → Val → Val → Val × Fl) (n : Int → Int → Int → Int) :
    Row :=
  let A := fldA a k k.et.regBytes
  let C := fldC c k k.et.regBytes
  rowOf k (dstV d k k.et.regBytes) (A :: fldsB b k k.et.regBytes ++ [C]) (fun h j =>
    let x := elemAt h A j
    let y := opB h b k k.et j
    let z := elemAt h C j
    num k (f (rdnOf h k) (floatOf k.et x) (floatOf k.et y) (floatOf k.et z)) (n (intOf k.et x) (intOf k.et y) (intOf k.et z)))

/-- R112: the lesser or the greater, a NaN passed over; NV for a signalling one. -/
def extreme (greater : Bool) (x y : Val) : Val × Fl :=
  (if vIsNan x then (if vIsNan y then .nan false else y)
    else if vIsNan y then x
    else if (if greater then vLess x y else vLess y x) then y else x, nvIf (vIsSig x || vIsSig y))
/-- The sign of `x` replaced by what `f` makes of it; a NaN is made canonical. -/
def signed (f : Bool → Bool) (x : Val) : Val × Fl :=
  (match x with
    | .nan _ => .nan false
    | .inf n => .inf (f n)
    | .fin q => .fin { q with neg := f q.neg }, flNone)
def negOf : Val → Bool
  | .nan _ => false
  | .inf n => n
  | .fin q => q.neg
/-- R144. -/
def rowWide (d a : Reg) (b : VSrc) (c : Option Reg) (k : VCtl) : Row :=
  let A := fldA a k k.et2.regBytes
  let cs := match c with | some r => [fldC r k k.et.regBytes] | none => []
  rowOf k (dstV d k k.et.regBytes) (A :: fldsB b k k.et2.regBytes ++ cs) (fun h j =>
    let x := elemAt h A j
    let y := opB h b k k.et2 j
    match cs with
    | C :: _ => num k (vFma (rdnOf h k) (floatOf k.et2 x) (floatOf k.et2 y) (floatOf k.et (elemAt h C j)))
        (intOf k.et2 x * intOf k.et2 y + intOf k.et (elemAt h C j))
    | [] => num k (vMul (floatOf k.et2 x) (floatOf k.et2 y)) (intOf k.et2 x * intOf k.et2 y))

/-- R141, R142, R144, R180: the arithmetic of OP 0x40 and 0x41, and the joins. -/
def arithRow : Instr → Option Row
  | .vadd d a b k => some (row2 d a b k vAdd (fun x y => x + y))
  | .vsub d a b k => some (row2 d a b k (fun r x y => vAdd r x (vNeg y)) (fun x y => x - y))
  | .vmul d a b k => some (row2 d a b k (fun _ => vMul) (fun x y => x * y))
  | .vfma d a b c k => some (row3 d a b c k vFma (fun x _ _ => x))
  | .vfms d a b c k => some (row3 d a b c k (fun r x y z => vFma r x y (vNeg z)) (fun x _ _ => x))
  | .vfnma d a b c k => some (row3 d a b c k (fun r x y z => vFma r (vNeg x) y z) (fun x _ _ => x))
  | .vdiv d a b k => some (row2 d a b k (fun _ => vDiv) (fun x _ => x))
  | .vsqrt d a k => some (row1 d a k vSqrt id)
  | .vrsqrt d a k => some (row1 d a k vRsqrt id)
  | .vrcp d a k => some (row1 d a k (vDiv (.fin (qInt 1))) id)
  | .vexp2 d a k => some (row1 d a k vExp2 id)
  | .vlog2 d a k => some (row1 d a k vLog2 id)
  | .vmin d a b k => some (row2 d a b k (fun _ => extreme false) (fun x y => if x ≤ y then x else y))
  | .vmax d a b k => some (row2 d a b k (fun _ => extreme true) (fun x y => if x ≤ y then y else x))
  | .vabs d a k => some (row1 d a k (signed (fun _ => false)) (fun x => if x < 0 then -x else x))
  | .vneg d a k => some (row1 d a k (signed (fun n => !n)) (fun x => -x))
  | .vcsgn d a b k => some (row2 d a b k (fun _ x y => if vIsNan y then (.nan false, flNone) else signed (fun _ => negOf y) x)
      (fun x _ => x))
  | .vclass d a k =>
    let A := fldA a k k.et.regBytes
    some (rowOf k (dstV d k k.et.regBytes) [A] (fun h j =>
      .code (classMask (fmtOf k.et) (floatOf k.et (elemAt h A j))) flNone))
  | .vclamp d a b c k => some (row3 d a b c k
      (fun _ x y z => ((extreme false (extreme true x y).1 z).1, nvIf (vIsSig x || vIsSig y || vIsSig z)))
      (fun x y z => if (if x ≤ y then y else x) ≤ z then (if x ≤ y then y else x) else z))
  | .vwmul d a b k => some (rowWide d a b none k)
  | .vwfma d a b c k => some (rowWide d a b (some c) k)
  | .vjoin d a b c k =>
    let A := fldA a k k.et.regBytes
    some (rowOf k (dstV d k k.et.regBytes) (A :: fldsB b k k.et.regBytes) (fun h j =>
      let r := vBlend (rdnOf h k) (wCode (wGet h (wPhys h c.toNat)) j) (floatOf k.et (elemAt h A j)) (floatOf k.et (opB h b k k.et j))
      .val r.1 r.2 false))
  | .vjoingw d a b c k =>
    some (row3 d a (.reg b) c k (fun r g p q =>
      let x := vAdd r p (vNeg q)
      let y := vMul g x.1
      (y.1, x.2 ||| y.2)) (fun x _ _ => x))
  | _ => none

/-- R43, R48, R155, R156: a block, its elements' flags, EFR after it. -/
def packed (k : VCtl) (h : Hart) (A : VField) (efr n : Nat) : Nat × List Fl × Nat :=
  let xs : List (Val × Bool) := (List.range 16).map (fun j =>
    let live := liveAt h k.w true (16 * n + j)
    (if live then floatOf .f32 (elemAt h A (16 * n + j)) else .fin (qZero false), live))
  if rmOf h k.rm true = .efb then packBlockEfb k.et xs efr
  else ((packBlock k.et (rmOf h k.rm false) (xs.map Prod.fst)).1, (packBlock k.et (rmOf h k.rm false) (xs.map Prod.fst)).2, efr)
/-- R155: a block is live when one of its elements is. -/
def blockLive (k : VCtl) (s : State) (j : Nat) : Bool :=
  (List.range 16).any (fun m => liveAt s.h k.w true (j / 16 * 16 + m))
/-- Block `n` of a source, its slot as a number. -/
def blockOf (h : Hart) (A : VField) (n : Nat) : Nat :=
  ((List.range 16).map (fun m => elemAt h A (16 * n + m) * 2 ^ (8 * A.b * m))).sum

/-- R145, R156: conversions. -/
def convRow : Instr → Option Row
  | .vcvt d a k => some (conv false d a k)
  | .vcvtSat d a k => some (conv true d a k)
  | .vpack d a k =>
    let A := fldA a k 4
    some { rowOf k (dstV d k k.et.regBytes) [A] (fun _ _ => .code 0 flNone) with
      cb := true, live := blockLive k, ok := fun s => s.h.vstart % 16 = 0
      out := fun s t j =>
        let p := packed k s.h A t.efr (j / 16)
        (.code (p.1 / 2 ^ (8 * k.et.regBytes * (j % 16)) % 2 ^ (8 * k.et.regBytes)) (p.2.1.getD (j % 16) flNone),
          if j % 16 = 15 then { t with efr := p.2.2 } else t) }
  | .vunpack d a k =>
    let A := fldA a k k.et2.regBytes
    some { rowOf k (dstV d k k.et.regBytes) [A] (fun h j =>
      let v := blockVal k.et2 (blockOf h A (j / 16)) (j % 16)
      .val v (nvIf (vIsNan v)) false) with cb := true }
  | _ => none
where
  conv (sat : Bool) (d a : Reg) (k : VCtl) : Row :=
    let A := fldA a k k.et2.regBytes
    { rowOf k (dstV d k k.et.regBytes) [A] (fun _ _ => .code 0 flNone) with
      out := fun s t j =>
        let v := valOf k.et2 (elemAt s.h A j)
        let f := v.2 ||| nvIf (vIsSig v.1)
        if rmOf s.h k.rm (!roundsNothing k.et k.et2) = .efb then
          let r := efbStep k.et sat v.1 t.efr
          (if k.wp = .blend then .val (valOf k.et r.1).1 (f ||| r.2.1) false else .code r.1 (f ||| r.2.1),
            { t with efr := r.2.2 })
        else (.val v.1 f sat, t) }

/-- R143: an integer result from two codes of ET. -/
def rowInt (d a : Reg) (b : VSrc) (k : VCtl) (f : ET → Nat → Nat → Int) : Row :=
  let A := fldA a k k.et.regBytes
  rowOf k (dstV d k k.et.regBytes) (A :: fldsB b k k.et.regBytes) (fun h j =>
    .code (wrapTo k.et (f k.et (elemAt h A j % 2 ^ k.et.bits) (opB h b k k.et j % 2 ^ k.et.bits))) flNone)
/-- The range of an integer type. -/
def leastOf (et : ET) : Int := if et.signed then -2 ^ (et.bits - 1) else 0
def greatestOf (et : ET) : Int := if et.signed then 2 ^ (et.bits - 1) - 1 else 2 ^ et.bits - 1
def inRange (et : ET) (n : Int) : Int := if n < leastOf et then leastOf et else if greatestOf et < n then greatestOf et else n

/-- R143: OP 0x43. -/
def intRow : Instr → Option Row
  | .vand d a b k => some (rowInt d a b k (fun _ x y => (x &&& y : Nat)))
  | .vor d a b k => some (rowInt d a b k (fun _ x y => (x ||| y : Nat)))
  | .vxor d a b k => some (rowInt d a b k (fun _ x y => (x ^^^ y : Nat)))
  | .vandn d a b k => some (rowInt d a b k (fun _ x y => (x : Int) - (x &&& y : Nat)))
  | .vshl d a b k => some (rowInt d a b k (fun et x y => (x : Int) * 2 ^ (y % et.bits)))
  | .vshr d a b k => some (rowInt d a b k (fun et x y => (x : Int) / 2 ^ (y % et.bits)))
  | .vsra d a b k => some (rowInt d a b k (fun et x y =>
      (if 2 ^ (et.bits - 1) ≤ x then (x : Int) - 2 ^ et.bits else x) / 2 ^ (y % et.bits)))
  | .vaddsat d a b k => some (rowInt d a b k (fun et x y => inRange et (intOf et x + intOf et y)))
  | .vsubsat d a b k => some (rowInt d a b k (fun et x y => inRange et (intOf et x - intOf et y)))
  | .vmulh d a b k => some (rowInt d a b k (fun et x y => intOf et x * intOf et y / 2 ^ et.bits))
  | .vavg d a b k => some (rowInt d a b k (fun et x y => (intOf et x + intOf et y + 1) / 2))
  | _ => none

/-- R68. -/
def holdsFor (c : Cond) (et : ET) (x y : Nat) : Bool :=
  if et.isFloat then condHolds c (vCmp (floatOf et x) (floatOf et y))
  else match c with
    | .eq => intOf et x = intOf et y | .ne => intOf et x ≠ intOf et y
    | .lt => intOf et x < intOf et y | .ge => intOf et y ≤ intOf et x
    | .le => intOf et x ≤ intOf et y | .gt => intOf et y < intOf et x
    | _ => false
/-- NV for a signalling NaN operand. -/
def compareFlags (et : ET) (x y : Nat) : Fl := nvIf (et.isFloat && (vIsSig (floatOf et x) || vIsSig (floatOf et y)))
def rowCmp (k : VCtl) (dst : VDst) (one : Nat) (c : Cond) (a : Reg) (b : VSrc) : Row :=
  let A := fldA a k k.et.regBytes
  rowOf k dst (A :: fldsB b k k.et.regBytes) (fun h j =>
    let x := elemAt h A j
    let y := opB h b k k.et j
    .code (if holdsFor c k.et x y then one else 0) (compareFlags k.et x y))

/-- R168: a weight operand at element `j`. -/
def weightAt (h : Hart) (r : Reg) (j : Nat) : Nat := wCode (wGet h (wPhys h r.toNat)) j
def weightB (h : Hart) (b : VSrc) (j : Nat) : Nat :=
  match b with
  | .reg r => weightAt h r j
  | .scalar r => min ((xGet h r).setWidth 16).toNat 0x8000
  | .imm v => min (v.setWidth 16).toNat 0x8000
def rowW (d : Reg) (k : VCtl) (f : Hart → Nat → Nat) : Row := rowOf k (.wt d.toNat) [] (fun h j => .code (f h j) flNone)
/-- R150, R173: xB unsigned, or IMM zero-extended. -/
def amount (h : Hart) : VSrc → Nat
  | .reg _ => 0
  | .scalar r => (xGet h r).toNat
  | .imm v => v.toNat
/-- The live elements from VSTART on. -/
def liveList (s : State) (k : VCtl) : List Nat :=
  (List.range s.h.vl).filter (fun j => decide (s.h.vstart ≤ j) && liveAt s.h k.w true j)
/-- R170: the ramp of `a` and `b` under the temperature. -/
def ramp (m : RM) (a b tau : Val) : Nat × Fl :=
  let d := (vAdd false b (vNeg a)).1
  let real := match tau, d with
    | _, .nan _ => false
    | .nan _, _ => false
    | .inf n, .inf _ => false && n
    | .inf n, .fin _ => !n
    | .fin q, _ => !q.neg && !qIsZero q
  if real then toWt m (vAdd false (.fin ⟨false, 1, 2, false⟩) (vDiv d tau).1).1 else (0, flNV)

/-- R169 to R173, R181: OP 0x30. -/
def weightRow : Instr → Option Row
  | .wcmp c d a b k => some (rowCmp k (.wt d.toNat) 0x8000 c a b)
  | .wramp d a b e k =>
    let A := fldA a k k.et.regBytes
    some (rowOf k (.wt d.toNat) (A :: fldsB b k k.et.regBytes) (fun h j =>
      let r := ramp (rmOf h k.rm false) (floatOf k.et (elemAt h A j)) (floatOf k.et (opB h b k k.et j))
        (floatOf .f32 (xGet h e).toNat)
      .code r.1 r.2))
  | .wrampg d a b e k =>
    let A := fldA a k k.et.regBytes
    some (rowOf k (dstV d k k.et.regBytes) [A] (fun h j =>
      if 0 < weightAt h b j ∧ weightAt h b j < 0x8000 then
        let r := vDiv (vNeg (floatOf k.et (elemAt h A j))) (floatOf .f32 (xGet h e).toNat)
        .val r.1 r.2 false
      else .code 0 flNone))
  | .wmul d a b k => some (rowW d k (fun h j => wtMul (weightAt h a j) (weightB h b j)))
  | .wadd d a b k => some (rowW d k (fun h j => min (weightAt h a j + weightB h b j) 0x8000))
  | .wsub d a b k => some (rowW d k (fun h j => weightAt h a j - weightB h b j))
  | .wnot d a k => some (rowW d k (fun h j => 0x8000 - weightAt h a j))
  | .wmin d a b k => some (rowW d k (fun h j => min (weightAt h a j) (weightB h b j)))
  | .wmax d a b k => some (rowW d k (fun h j => max (weightAt h a j) (weightB h b j)))
  | .wmov d a k => some (rowW d k (fun h j => weightAt h a j))
  | .wsplat d b k => some (rowW d k (fun h j => weightB h b j))
  | .wfromv d a k =>
    let A := fldA a k k.et.regBytes
    some (rowOf k (.wt d.toNat) [A] (fun h j =>
      if k.et = .wt then .code (min (elemAt h A j) 0x8000) flNone
      else
        let v := floatOf k.et (elemAt h A j)
        let r := toWt (rmOf h k.rm false) v
        .code r.1 (r.2 ||| nvIf (vIsSig v))))
  | .wtov d a k => some (rowOf k (dstV d k k.et.regBytes) [] (fun h j =>
      if k.et = .wt then .code (weightAt h a j) flNone else .val (.fin (wtVal (weightAt h a j))) flNone false))
  | .wbound d a b k => some (rowW d k (fun h j => if (xGet h a).toNat + j < amount h b then 0x8000 else 0))
  | .wany d k => some { rowOf k .none [] (fun _ _ => .code 0 flNone) with
      xs := fun s => [(d, if liveList s k = [] then 0 else 1)] }
  | _ => none

/-- R150: each element taken from one of vA, by index. -/
def rowPick (d a : Reg) (k : VCtl) (more : List VField) (f : State → Nat → Option Nat) : Row :=
  let A := fldA a k k.et.regBytes
  { rowOf k (dstV d k k.et.regBytes) (A :: more) (fun _ _ => .code 0 flNone) with
    out := fun s t j => (.code (match f s j with | some m => elemAt s.h A m % 2 ^ k.et.bits | none => 0) flNone, t) }
/-- R153. -/
def random (key ctr : Word) (j : Nat) : Word :=
  let z0 := key + (ctr + BitVec.ofNat 64 j + 1) * 0x9E3779B97F4A7C15
  let z1 := (z0 ^^^ (z0 >>> 30)) * 0xBF58476D1CE4E5B9
  let z2 := (z1 ^^^ (z1 >>> 27)) * 0x94D049BB133111EB
  z2 ^^^ (z2 >>> 31)
/-- R154: `x` ranks before `y`: not a NaN, and larger, or equal with the lower index. -/
def ranksBefore (et : ET) (v : Nat → Nat) (x y : Nat) : Bool :=
  let nan (i : Nat) : Bool := et.isFloat && vIsNan (floatOf et (v i))
  if nan x || nan y then (!nan x && nan y) || (nan x && nan y && decide (x < y))
  else holdsFor .gt et (v x) (v y) || (holdsFor .eq et (v x) (v y) && decide (x < y))
/-- The element of rank `n` among those of a segment, if there is one. -/
def ofRank (et : ET) (v : Nat → Nat) (l : List Nat) (n : Nat) : Option Nat :=
  l.find? (fun x => (l.filter (fun y => ranksBefore et v y x)).length = n)

/-- R146, R150 to R155: comparing, selecting and moving. -/
def moveRow : Instr → Option Row
  | .vcmp c d a b k =>
    some (rowCmp k (dstV d k k.et.regBytes) (if k.et.isFloat then (encFloat k.et false .rne (.fin (qInt 1))).1 else 1) c a b)
  | .vsel d a b c k =>
    let A := fldA a k k.et.regBytes
    let C := fldC c k k.et.regBytes
    some (rowOf k (dstV d k k.et.regBytes) (A :: fldsB b k k.et.regBytes ++ [C]) (fun h j =>
      .code ((if elemAt h C j % 2 ^ k.et.bits ≠ 0 then elemAt h A j else opB h b k k.et j) % 2 ^ k.et.bits) flNone))
  | .vmv d a k =>
    let A := fldA a k k.et.regBytes
    some { rowOf k (dstV d k k.et.regBytes) [A] (fun h j =>
      .code (if k.et.isBlock then elemAt h A j else elemAt h A j % 2 ^ k.et.bits) flNone) with
      cb := k.et.isBlock, live := fun s j => if k.et.isBlock then blockLive k s j else liveAt s.h k.w true j
      ok := fun s => k.et.isBlock = true → s.h.vstart % 16 = 0 }
  | .vsplat d b k => some (rowOf k (dstV d k k.et.regBytes) [] (fun h j => .code (opB h b k k.et j) flNone))
  | .vid d k => some (rowOf k (dstV d k k.et.regBytes) [] (fun _ j => .code (j % 2 ^ k.et.bits) flNone))
  | .vslup d a b k => some { rowPick d a k [] (fun s j => some (j - amount s.h b)) with
      only := fun s j => decide (amount s.h b ≤ j) }
  | .vsldn d a b k => some (rowPick d a k [] (fun s j => if j + amount s.h b < s.h.vl then some (j + amount s.h b) else none))
  | .vperm d a b k =>
    let B := fldB b k k.et.regBytes
    some (rowPick d a k [B] (fun s j =>
      let m := elemAt s.h B j % 2 ^ k.et.bits
      if m < s.h.vl then some m else none))
  | .vrev d a k => some (rowPick d a k [] (fun s j => some (s.h.vl - 1 - j)))
  | .vexpand d a k => some (rowPick d a k [] (fun s j =>
      some (s.h.vstart + ((liveList s k).filter (fun m => decide (m < j))).length)))
  | .vcompress d a e k => some { rowPick d a k [] (fun s j => (liveList s k)[j - s.h.vstart]?) with
      live := fun s j => decide (j < s.h.vstart + (liveList s k).length)
      xs := fun s => [(e, BitVec.ofNat 64 (liveList s k).length)] }
  | .vins d a b k => some { rowOf k (dstV d k k.et.regBytes) [] (fun h _ => .code ((xGet h a).toNat % 2 ^ k.et.bits) flNone) with
      live := fun s j => decide (j = amount s.h b) }
  | .vext d a b k =>
    let A := fldA a k k.et.regBytes
    some { rowOf k .none [A] (fun _ _ => .code 0 flNone) with
      xs := fun s => [(d, if amount s.h b < s.h.vl then
        (if k.et.isInt && k.et.signed && k.et != .t2 && k.et != .b1 then BitVec.ofInt 64 (decInt k.et (elemAt s.h A (amount s.h b))).1
         else BitVec.ofNat 64 (elemAt s.h A (amount s.h b) % 2 ^ k.et.bits)) else 0)] }
  | .vrand d a b k =>
    let key (h : Hart) : Word := match b with | .scalar r => xGet h r | .imm v => v.signExtend 64 | .reg _ => 0
    some { rowOf k (dstV d k k.et.regBytes) [] (fun h j =>
      .code ((random (key h) (xGet h a) j).toNat % 2 ^ k.et.bits) flNone) with
      xs := fun s => [(a, xGet s.h a + BitVec.ofNat 64 s.h.vl)] }
  | .vtopk d a sg cnt k =>
    let A := fldA a k k.et.regBytes
    let S := sg.toNat
    let K := cnt.toNat
    some { rowOf k (dstV d k k.et2.regBytes) [A] (fun _ _ => .code 0 flNone) with
      live := fun s j => decide (j < (s.h.vl + S - 1) / S * K)
      out := fun s t j =>
        let mine := (liveList s k).filter (fun m => decide (j / K * S ≤ m) && decide (m < j / K * S + S))
        (.code (match ofRank k.et (elemAt s.h A) mine (j % K) with
          | some m => m % 2 ^ k.et2.bits
          | none => 2 ^ k.et2.bits - 1) flNone, t) }
  | _ => none

/-! ### Reductions and scans (R52, R53, R147 to R149, R406) -/

/-- A node of the tree: absent, or a code. -/
abbrev Node := Option Nat

/-- R52: an operation of two present nodes and its flags; an absent one passes the other up. -/
def join (o : TreeOp) (et : ET) (m : RM) (x y : Node × Fl) : Node × Fl :=
  match x.1, y.1 with
  | some p, some q =>
    if et.isFloat then
      let a := floatOf et p
      let b := floatOf et q
      let nan := vIsNan a || vIsNan b
      match o with
      | .add =>
        let r := vAdd (m == .rdn) a b
        let e := encFloat et false m r.1
        (some e.1, x.2 ||| y.2 ||| r.2 ||| e.2)
      | .max => (some (encFloat et false .rne (if nan then .nan false else if vLess a b then b else a)).1, x.2 ||| y.2)
      | .min => (some (encFloat et false .rne (if nan then .nan false else if vLess b a then b else a)).1, x.2 ||| y.2)
    else
      let a := intOf et p
      let b := intOf et q
      (some (wrapTo et (match o with
        | .add => a + b
        | .max => if a ≤ b then b else a
        | .min => if a ≤ b then a else b)), x.2 ||| y.2)
  | none, y' => (y', x.2 ||| y.2)
  | x', none => (x', x.2 ||| y.2)

/-- R52: leaf `j`, a live element converted into the tree's type. -/
def leafAt (et et2 : ET) (s : State) (k : VCtl) (A : VField) (j : Nat) : Node × Fl :=
  if decide (s.h.vstart ≤ j) && decide (j < s.h.vl) && liveAt s.h k.w true j then
    let v := (valOf et (elemAt s.h A j)).1
    (some (encVal et2 false .rne v).1, nvIf (vIsSig v))
  else (none, flNone)
/-- Node `n` at height `d` above the leaves, with every flag beneath it. -/
def nodeAt (o : TreeOp) (et : ET) (m : RM) (leaf : Nat → Node × Fl) : Nat → Nat → Node × Fl
  | 0, n => leaf n
  | d + 1, n => join o et m (nodeAt o et m leaf d (2 * n)) (nodeAt o et m leaf d (2 * n + 1))
/-- The height of the root: 2 to it is the least power of 2 not below VL. -/
def heightOf (n : Nat) : Nat := if n ≤ 1 then 0 else Nat.log2 (n - 1) + 1
/-- R53: what stands before node `n` at `e` levels below the root of a tree of height `d`. -/
def prefixAt (o : TreeOp) (et : ET) (m : RM) (leaf : Nat → Node × Fl) (d : Nat) : Nat → Nat → Node × Fl
  | 0, _ => (none, flNone)
  | e + 1, n =>
    let up := prefixAt o et m leaf d e (n / 2)
    if n % 2 = 0 then up else join o et m up (nodeAt o et m leaf (d - (e + 1)) (n - 1))
/-- R52: the value of an empty reduction. -/
def emptyOf (o : TreeOp) (et : ET) : Nat :=
  if et.isFloat then
    (match o with
     | .add => 0
     | .max => (encFloat et false .rne (.inf true)).1
     | .min => (encFloat et false .rne (.inf false)).1)
  else wrapTo et (match o with | .add => 0 | .max => leastOf et | .min => greatestOf et)

def reduce (o : TreeOp) (d a : Reg) (k : VCtl) : Row :=
  let A := fldA a k k.et.regBytes
  let root (s : State) : Node × Fl :=
    nodeAt o k.et2 (rmOf s.h k.rm false) (leafAt k.et k.et2 s k A) (heightOf s.h.vl) 0
  { rowOf k .none [A] (fun _ _ => .code 0 flNone) with
    xs := fun s =>
      let c := (root s).1.getD (emptyOf o k.et2)
      [(d, if k.et2.isInt && k.et2.signed then BitVec.ofInt 64 (intOf k.et2 c) else BitVec.ofNat 64 c)]
    more := fun s => (root s).2 }

def scan (o : TreeOp) (incl : Bool) (d a : Reg) (k : VCtl) : Row :=
  let A := fldA a k k.et.regBytes
  let pre (s : State) (j : Nat) : Node × Fl :=
    prefixAt o k.et (rmOf s.h k.rm false) (leafAt k.et k.et s k A) (heightOf s.h.vl) (heightOf s.h.vl) j
  { rowOf k (dstV d k k.et.regBytes) [A] (fun _ _ => .code 0 flNone) with
    out := fun s t j =>
      let p := pre s j
      let r := if incl then join o k.et (rmOf s.h k.rm false) p (leafAt k.et k.et s k A j) else p
      (.code (r.1.getD (emptyOf o k.et)) r.2, t)
    more := fun s =>
      (List.range (2 ^ heightOf s.h.vl)).foldl (fun f j => f ||| (pre s j).2)
        (nodeAt o k.et (rmOf s.h k.rm false) (leafAt k.et k.et s k A) (heightOf s.h.vl) 0).2 }

def treeRow : Instr → Option Row
  | .vredsum d a k => some (reduce .add d a k)
  | .vredmax d a k => some (reduce .max d a k)
  | .vredmin d a k => some (reduce .min d a k)
  | .vscanAdd d a k => some (scan .add true d a k)
  | .vscanMax d a k => some (scan .max true d a k)
  | .vscanMin d a k => some (scan .min true d a k)
  | .vscanXadd d a k => some (scan .add false d a k)
  | .vscanXmax d a k => some (scan .max false d a k)
  | .vscanXmin d a k => some (scan .min false d a k)
  | .vfirst d k => some { rowOf k .none [] (fun _ _ => .code 0 flNone) with
      xs := fun s => [(d, match (liveList s k).head? with | some j => BitVec.ofNat 64 j | none => -1)] }
  | .vcount d k => some { rowOf k .none [] (fun _ _ => .code 0 flNone) with
      xs := fun s => [(d, BitVec.ofNat 64 (liveList s k).length)] }
  | _ => none

/-! ### Vector memory (R157 to R162, R240) -/

/-- Where element `j`, or its block, lies: address, bit offset, bytes. -/
structure Spot where
  at_ : Word
  bit : Nat
  n   : Nat

/-- R157, R37: unit stride. -/
def unitSpot (et : ET) (ea : Word) (j : Nat) : Spot :=
  if et.isBlock then ⟨ea + BitVec.ofNat 64 (j / 16 * et.blockBytes), 0, et.blockBytes⟩
  else ⟨ea + BitVec.ofNat 64 (j * et.memBits / 8), j * et.memBits % 8, (j * et.memBits % 8 + et.memBits + 7) / 8⟩
def strideSpot (et : ET) (ea step : Word) (j : Nat) : Spot := ⟨ea + BitVec.ofNat 64 j * step, 0, et.memBits / 8⟩
def indexSpot (et : ET) (ea : Word) (h : Hart) (f : VField) (j : Nat) : Spot :=
  ⟨ea + (BitVec.ofNat 32 (elemAt h f j)).signExtend 64, 0, et.memBits / 8⟩
/-- R157: the index operand. -/
def idxField (b : Reg) (k : VCtl) : VField := ⟨b.toNat, k.g.size * max 1 (4 / k.et.regBytes), 4, k.lr.getLsbD 1⟩
/-- R158. -/
def unitOf (et : ET) : Nat := if et.isBlock then 2 else if et.memBits % 8 = 0 then et.memBits / 8 else 1
/-- The physical address of a mapped one. -/
def physOf (s : State) (va : Word) : Nat :=
  match tlbHit s (coreOf s.h.gid) s.h.ctxid va.toNat with
  | some t => leafPa t va.toNat
  | none => 0

/-- What an access of OP 0x81 or 0x91 asks of the state: space G, no command in flight, and every live element aligned and
mapped. -/
def reached (s : State) (r : Row) (spot : State → Nat → Spot) (base : State → List Word) : Prop :=
  s.Inv ∧ s.h.space = 0 ∧ s.h.cmds = [] ∧ (r.cb = true → s.h.vstart % 16 = 0) ∧ ((∃ j, r.begun s j = true) → ∀ a ∈ base s, a.toNat % unitOf r.k.et = 0) ∧
    ∀ j, r.begun s j = true →
      s.Mapped (spot s j).at_ (spot s j).n (physOf s (spot s j).at_) ∧ (spot s j).at_.toNat % unitOf r.k.et = 0

/-- R159: a load, with the addresses that are checked once. -/
def loadRow (d : Reg) (k : VCtl) (idx : List VField) (spot : State → Nat → Spot) (base : State → List Word) : Row :=
  let b := k.et.regBytes
  let r : Row := { rowOf k (dstV d k b) idx (fun _ _ => .code 0 flNone) with
    cb := k.et.isBlock
    live := fun s j => if k.et.isBlock then blockLive k s j else liveAt s.h k.w true j
    out := fun s t j =>
      let p := spot s j
      let m := memRead t.mem (physOf s p.at_) p.n
      let c := if k.et.isBlock then m / 2 ^ (8 * b * (j % 16)) % 2 ^ (8 * b) else m / 2 ^ p.bit % 2 ^ k.et.bits
      (if k.wp = .blend then .val (valOf k.et c).1 flNone false else .code c flNone, t) }
  { r with ok := fun s => reached s r spot base }

/-- R159, R182: the code that element `j` stores over `old`. -/
def storeCode (k : VCtl) (h : Hart) (C : VField) (j old : Nat) : Nat × Fl :=
  let m := rmOf h k.rm false
  let x := elemAt h C j % 2 ^ k.et.bits
  match k.wp with
  | .blend =>
    let r := vBlend (m == .rdn) (ewOf h k.w j) (valOf k.et x).1 (valOf k.et old).1
    let e := encVal k.et false m r.1
    (e.1, r.2 ||| e.2)
  | .scale =>
    let r := vMul (.fin (wtVal (ewOf h k.w j))) (valOf k.et x).1
    let e := encVal k.et false m r.1
    (e.1, r.2 ||| e.2)
  | _ => (x, flNone)

/-- R159: a store; a block is stored once, at its first element. -/
def storeRow (c : Reg) (k : VCtl) (idx : List VField) (spot : State → Nat → Spot) (base : State → List Word) : Row :=
  let C := fldC c k k.et.regBytes
  let r : Row := { rowOf k .none (C :: idx) (fun _ _ => .code 0 flNone) with
    cb := k.et.isBlock
    live := fun s j => if k.et.isBlock then blockLive k s j else liveAt s.h k.w true j
    out := fun s t j =>
      let p := spot s j
      let a := physOf s p.at_
      if k.et.isBlock then
        (.code 0 flNone, if j % 16 = 0 then { t with mem := memWrite t.mem a p.n (blockOf s.h C (j / 16)) } else t)
      else
        let old := memRead t.mem a p.n
        let w := if k.et.memBits % 8 = 0 then k.et.memBits else k.et.bits
        let e := storeCode k s.h C j (old / 2 ^ p.bit % 2 ^ k.et.bits)
        let held := old % 2 ^ p.bit + e.1 % 2 ^ w * 2 ^ p.bit + old / 2 ^ (p.bit + w) * 2 ^ (p.bit + w)
        (.code 0 e.2, { t with mem := memWrite t.mem a p.n held }) }
  { r with ok := fun s => reached s r spot base }

/-- R240: `vamo`, element by element. -/
def atomRow (d a b c : Reg) (disp : BitVec 32) (k : VCtl) (f : Nat → Nat → Nat → Nat × Fl) : Row :=
  let C := fldC c k k.et.regBytes
  let spot (s : State) (j : Nat) : Spot := indexSpot k.et (xGet s.h a + disp.signExtend 64) s.h (idxField b k) j
  let r : Row := { rowOf k (if d = 0 then .none else dstV d k k.et.regBytes) [C, idxField b k] (fun _ _ => .code 0 flNone) with
    out := fun s t j =>
      let p := physOf s (spot s j).at_
      let old := memRead t.mem p (spot s j).n
      let e := f (ewOf s.h k.w j) old (elemAt s.h C j % 2 ^ k.et.bits)
      (.code old e.2, { t with mem := memWrite t.mem p (spot s j).n e.1 }) }
  { r with ok := fun s => reached s r spot (fun _ => []) }

def memRow : Instr → Option Row
  | .vld d a disp k =>
    some (loadRow d k [] (fun s => unitSpot k.et (ea s a disp)) (fun s => [ea s a disp]))
  | .vlds d a b disp k =>
    some (loadRow d k [] (fun s => strideSpot k.et (ea s a disp) (xGet s.h b)) (fun s => [ea s a disp, xGet s.h b]))
  | .vldx d a b disp k =>
    some (loadRow d k [idxField b k] (fun s => indexSpot k.et (ea s a disp) s.h (idxField b k)) (fun _ => []))
  | .vldff d a disp k =>
    some { loadRow d k [] (fun s => unitSpot k.et (ea s a disp)) (fun s => [ea s a disp]) with ffi := fun s => s.h.vl }
  | .vst c a disp k | .vstu c a disp k =>
    some (storeRow c k [] (fun s => unitSpot k.et (ea s a disp)) (fun s => [ea s a disp]))
  | .vsts c a b disp k =>
    some (storeRow c k [] (fun s => strideSpot k.et (ea s a disp) (xGet s.h b)) (fun s => [ea s a disp, xGet s.h b]))
  | .vstx c a b disp k =>
    some (storeRow c k [idxField b k] (fun s => indexSpot k.et (ea s a disp) s.h (idxField b k)) (fun _ => []))
  | _ => none
where
  ea (s : State) (a : Reg) (disp : BitVec 32) : Word := xGet s.h a + disp.signExtend 64

def atomicRow : Instr → Option Row
  | .vamoSwap d a b c disp k _ _ => some (atomRow d a b c disp k (fun _ _ x => (x, flNone)))
  | .vamoAdd d a b c disp k _ _ => some (atomRow d a b c disp k (fun _ => sumOf k.et))
  | .vamoAnd d a b c disp k _ _ => some (atomRow d a b c disp k (fun _ o x => (o &&& x, flNone)))
  | .vamoOr d a b c disp k _ _ => some (atomRow d a b c disp k (fun _ o x => (o ||| x, flNone)))
  | .vamoXor d a b c disp k _ _ => some (atomRow d a b c disp k (fun _ o x => (o ^^^ x, flNone)))
  | .vamoMin d a b c disp k _ _ => some (atomRow d a b c disp k (fun _ => extremeOf k.et false))
  | .vamoMax d a b c disp k _ _ => some (atomRow d a b c disp k (fun _ => extremeOf k.et true))
  | .vamoBlend d a b c disp k _ _ => some (atomRow d a b c disp k (fun e o x =>
      let r := vBlend false e (floatOf .f32 x) (floatOf .f32 o)
      ((encFloat .f32 false .rne r.1).1, r.2 ||| (encFloat .f32 false .rne r.1).2)))
  | _ => none
where
  /-- R237: add and the extremes, in ET. -/
  sumOf (et : ET) (o x : Nat) : Nat × Fl :=
    if et.isFloat then
      let r := vAdd false (floatOf et o) (floatOf et x)
      ((encFloat et false .rne r.1).1, r.2 ||| (encFloat et false .rne r.1).2)
    else ((o + x) % 2 ^ et.bits, flNone)
  extremeOf (et : ET) (greater : Bool) (o x : Nat) : Nat × Fl :=
    if et.isFloat then
      let r := extreme greater (floatOf et o) (floatOf et x)
      ((encFloat et false .rne r.1).1, r.2)
    else (if (intOf et o ≤ intOf et x) = !greater then o else x, flNone)

/-! ### Boundaries (R339) -/

/-- R339: machine checks, then traps of engine commands, each in order of arrival, then a breakpoint asked for through the
window, then the rest. -/
def pendOrder (p : Pend) : Nat × Nat :=
  if p.code = 21 then (0, p.ord) else if p.e then (1, p.ord) else if p.code = 18 then (2, 0) else (3, 0)
def sooner (p q : Pend) : Prop :=
  (pendOrder p).1 < (pendOrder q).1 ∨ (pendOrder p).1 = (pendOrder q).1 ∧ (pendOrder p).2 < (pendOrder q).2

/-! ### Excepting elements (R183 to R185) -/

namespace Row

/-- A live element that raises an enabled flag. -/
def excepting (r : Row) (s : State) (j : Nat) : Bool :=
  r.begun s j && decide ((r.result s j).2 &&& s.h.fenable.setWidth 5 ≠ 0)
def traps (r : Row) (s : State) (j : Nat) : Bool := r.excepting s j && decide (s.h.floor.toNat ≤ ewOf s.h r.k.w j)
def pruned (r : Row) (s : State) (j : Nat) : Bool := r.excepting s j && decide (ewOf s.h r.k.w j < s.h.floor.toNat)

/-- The instruction `i`, which reads no more than registers, does what R183 to R185 say where enabled flags are raised:
pruned elements are +0, trapping ones write nothing, and the trap is taken once the others are complete. A trap marks
nothing dead, and keeps what no element writes. -/
def Excepts (r : Row) (i : Instr) : Prop :=
  ∀ s : State, i.wf = true → s.Plain → s.Uncounted → s.h.lanes ≤ 32 → s.h.binds = [] → s.Unstopped → r.Fits s →
    r.Unlinked i s →
    let n := ((List.range s.h.vl).filter (r.pruned s)).length
    let trapping := (List.range s.h.vl).filter (r.traps s)
    (trapping ≠ [] → inh s.h = false) →
    ∃ t, exec i s = .next t ∧ t.h.x = s.h.x ∧ t.h.sx = s.h.sx ∧ t.h.efr = s.h.efr ∧
      (∀ j, j < room s.h r.dst → dstAt t.h r.dst j =
        if r.pruned s j then 0 else if r.traps s j then dstAt s.h r.dst j
        else if trapping = [] then r.after s j else r.afterOver s (dstAt s.h r.dst j) j) ∧
      (∀ p, p < 64 → p ∉ dstRegs s.h r.dst → vImg t.h p = vImg s.h p ∧
        isDead t.h p = (isDead s.h p || (decide (p ≠ 0 ∧ p ∈ r.marked s.h ∧ trapping = []) && !isOpen s.h p))) ∧
      t.h.flags.setWidth 32 = (s.h.flags ||| (r.flags s).setWidth 64 ||| (if r.readsDead s.h ∧ trapping = [] then 0x20 else 0) |||
        (if n = 0 then 0 else 0x40)).setWidth 32 ∧
      (t.h.flags.extractLsb' 32 32).toNat = min ((s.h.flags.extractLsb' 32 32).toNat + n) 0xFFFFFFFF ∧
      (∀ j, j < 24576 → wCode (wGet t.h 0) j = if 0 < s.h.armsp ∧ r.pruned s j = true then 0 else wCode (wGet s.h 0) j) ∧
      (trapping = [] → t.h.pc = seqNext s.h.pc ∧ t.h.vstart = 0 ∧ t.mem = s.mem) ∧
      (∀ j rest, trapping = j :: rest →
        t.h.pc = s.h.svec ∧ t.h.mode = .S ∧ t.h.sepc = s.h.pc ∧ t.h.scause = 13 ∧ t.h.stval2 = BitVec.ofNat 64 j ∧
        t.h.stval = (trapping.foldl (fun f j => f ||| ((r.result s j).2 &&& s.h.fenable.setWidth 5)) flNone).setWidth 64 ∧
        t.h.svstart = s.h.vstart ∧ t.h.vstart = 0 ∧ t.h.sstatus.getLsbD 6 = true ∧ StalledMarked s t ∧
        (∀ m, m < 24576 → t.h.fmask.getLsbD m = (decide (m < s.h.vl) && r.traps s m)))

end Row

/-! ### Vector accesses that fault (R158, R160, R161, R240, R342, R343) -/

/-- What a faulting element does to the others: none above it is reached; all the others are; the first live one traps and
another cuts VL; those above it may have been written. -/
inductive Ending where
  | stop | collect | first | loose
  deriving DecidableEq

/-- An access of OP 0x81 or 0x91: whether it writes, where an element lies, the addresses checked once, whether elements are
checked one by one, the KIND of its fault records, and its ending. -/
structure Access where
  store   : Bool
  spot    : State → Nat → Spot
  base    : State → List Word := fun _ => []
  kind    : Option Nat := none
  how     : Ending

def accessOf : Instr → Option Access
  | .vld _ a disp k => some { store := false, spot := fun s => unitSpot k.et (ea s a disp), base := fun s => [ea s a disp], how := .stop }
  | .vlds _ a b disp k => some { store := false, spot := fun s => strideSpot k.et (ea s a disp) (xGet s.h b)
                                 base := fun s => [ea s a disp, xGet s.h b], how := .stop }
  | .vldff _ a disp k => some { store := false, spot := fun s => unitSpot k.et (ea s a disp), base := fun s => [ea s a disp], how := .first }
  | .vst _ a disp k => some { store := true, spot := fun s => unitSpot k.et (ea s a disp), base := fun s => [ea s a disp], how := .stop }
  | .vstu _ a disp k => some { store := true, spot := fun s => unitSpot k.et (ea s a disp), base := fun s => [ea s a disp], how := .loose }
  | .vsts _ a b disp k => some { store := true, spot := fun s => strideSpot k.et (ea s a disp) (xGet s.h b)
                                 base := fun s => [ea s a disp, xGet s.h b], how := .stop }
  | .vldx _ a b disp k => some (indexed a b disp k false 0)
  | .vstx _ a b disp k => some (indexed a b disp k true (if k.wp = .blend then 2 else 1))
  | .vamoSwap _ a b _ disp k _ _ | .vamoAdd _ a b _ disp k _ _ | .vamoAnd _ a b _ disp k _ _ | .vamoOr _ a b _ disp k _ _
  | .vamoXor _ a b _ disp k _ _ | .vamoMin _ a b _ disp k _ _ | .vamoMax _ a b _ disp k _ _ | .vamoBlend _ a b _ disp k _ _ =>
    some (indexed a b disp k true 3)
  | _ => none
where
  ea (s : State) (a : Reg) (disp : BitVec 32) : Word := xGet s.h a + disp.signExtend 64
  indexed (a b : Reg) (disp : BitVec 32) (k : VCtl) (store : Bool) (kind : Nat) : Access :=
    { store := store, spot := fun s => indexSpot k.et (ea s a disp) s.h (idxField b k), kind := some kind, how := .collect }

/-- R260, R340: the fault of an access of `n` bytes at `va` that what the core holds refuses: an address that is not
canonical, a page without the permission, a pip page. -/
def Refused (s : State) (store : Bool) (va : Word) (n : Nat) (f : Flt) : Prop :=
  va.toNat % 65536 + n ≤ 65536 ∧
  (canonical va.toNat = false ∧ f = ⟨11, va, 4⟩ ∨
    canonical va.toNat = true ∧ ∃ e, tlbHit s (coreOf s.h.gid) s.h.ctxid va.toNat = some e ∧ pteA e.leaf.toNat ∧ pteD e.leaf.toNat ∧
      (if (if store then pteW e.leaf.toNat else pteR e.leaf.toNat) then pteKind e.leaf.toNat = 1 ∧ f = ⟨11, va, 6⟩
       else f = ⟨if store then 9 else 8, va, 0⟩))

namespace Row

/-- Element `j` is refused as `f`, misaligned or by what the core holds, or, `f` being none, reaches its bytes. -/
def Meets (r : Row) (x : Access) (s : State) (j : Nat) (f : Option Flt) : Prop :=
  let p := x.spot s j
  if p.at_.toNat % unitOf r.k.et ≠ 0 then f = some ⟨6, p.at_, 0⟩
  else match f with
    | none => s.Mapped p.at_ p.n (physOf s p.at_)
    | some f => Refused s x.store p.at_ p.n f

/-- R338, R340: the trap of element `e`. -/
def FaultTrap (s t : State) (f : Flt) (e : Nat) (ovf : Bool) : Prop :=
  t.h.pc = s.h.svec ∧ t.h.mode = .S ∧ t.h.sepc = s.h.pc ∧ t.h.scause = BitVec.ofNat 64 (f.code + if ovf then 0x8000 else 0) ∧
    t.h.stval = f.va ∧ t.h.stval2 = BitVec.ofNat 64 (e + f.sub * 2 ^ 32) ∧ t.h.vstart = 0 ∧ inh t.h = true ∧ t.h.x = s.h.x ∧
    t.h.w = s.h.w ∧ t.h.vl = s.h.vl ∧ t.h.ffi = s.h.ffi

/-- The instruction `i`, some of whose live elements are refused, does what R158, R160, R161, R240, R342 and R343 say. -/
def Faults (r : Row) (x : Access) (i : Instr) : Prop :=
  ∀ (s : State) (bad : Nat → Option Flt), i.wf = true → s.Plain → s.Inv → s.Uncounted → s.h.lanes ≤ 32 → s.h.binds = [] →
    s.Unstopped → s.Unwatched → s.h.gid < 768 → inh s.h = false → s.h.fenable.setWidth 5 = (0 : Fl) → s.h.cmds = [] → s.h.space = 0 →
    r.Fits s → r.Unlinked i s → (r.cb = true → s.h.vstart % 16 = 0) →
    (∀ j rest, (List.range s.h.vl).filter (fun j => decide (s.h.vstart ≤ j) && liveAt s.h r.k.w true j) = j :: rest →
      (∃ a ∈ x.base s, a.toNat % unitOf r.k.et ≠ 0) →
      ∃ t, exec i s = .next t ∧ FaultTrap s t ⟨6, (x.base s).headD 0, 0⟩ j false ∧ t.h.svstart = s.h.vstart ∧ t.h.v = s.h.v ∧
        t.h.fmask = s.h.fmask ∧ t.h.sstatus.getLsbD 6 = false ∧ t.mem = s.mem) ∧
    ((∀ a ∈ x.base s, a.toNat % unitOf r.k.et = 0) → (∀ j, r.begun s j = true → r.Meets x s j (bad j)) →
      ∀ e rest f, (List.range s.h.vl).filter (fun j => r.begun s j && (bad j).isSome) = e :: rest → bad e = some f →
      let failed := e :: rest
      let reaches (j : Nat) : Bool := if x.how = .collect then (bad j).isNone || !r.begun s j else decide (j < e)
      let part : Row := { r with only := fun s j => r.only s j && reaches j }
      let cut : Prop := x.how = .first ∧ ∃ j, j < e ∧ r.begun s j = true
      ∃ t, exec i s = .next t ∧
        (x.how ≠ .loose → t.mem = (part.before s s.h.vl).mem ∧
          t.h.flags = s.h.flags ||| (part.flags s).setWidth 64 ||| (if cut ∧ r.readsDead s.h then 0x20 else 0)) ∧
        (x.how = .loose → ∀ b,
          (∀ j, e < j → r.begun s j = true → bad j = none →
            b < physOf s (x.spot s j).at_ ∨ physOf s (x.spot s j).at_ + (x.spot s j).n ≤ b) →
          memGet t.mem b = memGet (part.before s s.h.vl).mem b) ∧
        (∀ j, j < room s.h r.dst → dstAt t.h r.dst j = part.afterOver s (dstAt s.h r.dst j) j) ∧
        (∀ p, p < 64 → p ∉ dstRegs s.h r.dst → vImg t.h p = vImg s.h p ∧ isDead t.h p = isDead s.h p) ∧
        (cut → t.h.pc = seqNext s.h.pc ∧ t.h.mode = s.h.mode ∧ t.h.vl = e ∧ t.h.ffi = e ∧ t.h.vstart = 0 ∧ t.h.x = s.h.x ∧
          t.h.w = s.h.w) ∧
        (¬ cut → x.how ≠ .collect → FaultTrap s t f e false ∧ t.h.svstart = e ∧ t.h.fmask = s.h.fmask ∧
          t.h.sstatus.getLsbD 6 = false) ∧
        (∀ kind, x.kind = some kind → (frqAll s s.h.gid).length + 8 ≤ 512 →
          FaultTrap s t f e (decide (8 < failed.length)) ∧ t.h.svstart = s.h.vstart ∧ t.h.sstatus.getLsbD 6 = true ∧
          (∀ m, m < 24576 → t.h.fmask.getLsbD m = decide (m ∈ failed)) ∧
          frqAll t s.h.gid = frqAll s s.h.gid ++ (failed.take 8).zipIdx.map (fun (j, n) =>
            let g := (bad j).getD f
            { pc := s.h.pc, va := g.va, elem := BitVec.ofNat 32 j, weight := BitVec.ofNat 16 (ewOf s.h r.k.w j), kind := kind
              cause := g.code, gid := s.h.gid, ovf := decide (8 < failed.length ∧ n = 7), seq := BitVec.ofNat 32 s.clk })))

end Row

/-! ### Chains (R30, R33) -/

/-- `vadd` as a consumer of v0, of which `v0` gives the elements. -/
def linked (v0 : Nat → Nat) (d : Reg) (b : VSrc) (k : VCtl) : Row :=
  rowOf k (dstV d k k.et.regBytes) (fldsB b k k.et.regBytes) (fun h j =>
    let y := opB h b k k.et j
    num k (vAdd (rdnOf h k) (floatOf k.et (v0 j)) (floatOf k.et y)) (intOf k.et (v0 j) + intOf k.et y))
/-- The bytes of the widest element that an instruction reads or writes. -/
def Row.widest (r : Row) : Nat :=
  (r.srcs.map (fun f => f.b)).foldl Nat.max (match r.dst with | .vec _ _ b => b | _ => 1)

/-! ### Units of the engines (R54, R303, R311 to R324) -/

/-- A run of `n` bytes of space G that the hart's command reaches, in device DRAM from `p`. -/
def Run (s : State) (va : Word) (n p : Nat) : Prop := s.Mapped va n p ∧ p < 2 ^ 42

/-- The command `c` may perform its next unit: none stands before it, and no other hart of the core has one (R303, R314). -/
def Foremost (s : State) (c : Cmd) (rest : List Cmd) : Prop :=
  s.Inv ∧ s.Uncounted ∧ s.h.cmds = c :: rest ∧ (∀ k ∈ rest, k.entry ≠ c.entry) ∧ (c.st = .notBegun ∨ c.st = .running) ∧
    hartExists s.h = true ∧ s.h.gid < 768 ∧ ∀ h ∈ s.others, coreOf h.gid = coreOf s.h.gid → h.cmds = []

/-- The command one unit on, ended with the last of `total`. -/
def nextUnit (c : Cmd) (total : Nat) : Cmd :=
  { c with unit := c.unit + 1, st := if total ≤ c.unit + 1 then .ended else .running }
/-- A unit leaves the command as `c`, and of the harts nothing else changed. -/
def Leaving (s t : State) (c : Cmd) (rest : List Cmd) : Prop :=
  t.h = { s.h with cmds := c :: rest } ∧ t.others = s.others

/-- R37, R42: element `e` of an operand whose bytes begin at `q`: its value, with NV for a reserved code. -/
def operandAt (et : ET) (m : Memory) (q e : Nat) : Val × Fl :=
  if et.isBlock then (blockVal et (memRead m (q + e / 16 * et.blockBytes) et.blockBytes) (e % 16), flNone)
  else valOf et (memRead m (q + e * et.memBits / 8) ((e * et.memBits % 8 + et.memBits + 7) / 8) / 2 ^ (e * et.memBits % 8))
/-- The bytes up to its end. -/
def operandEnd (et : ET) (e : Nat) : Nat :=
  if et.isBlock then (e / 16 + 1) * et.blockBytes else ((e + 1) * et.memBits + 7) / 8
/-- R310: the element offsets of A(m, k) and B(k, n). -/
def offA (m : MatCfg) (i k : Nat) : Nat := if m.ta then k * m.sa.toNat + i else i * m.sa.toNat + k
def offB (m : MatCfg) (k n : Nat) : Nat := if m.tb then n * m.sb.toNat + k else k * m.sb.toNat + n

/-- R54: a tile element once the products of a chunk are added, with the flags raised. -/
def tileAfter (int : Bool) (old : Nat) (ps : List (Val × Val)) : Nat × Fl :=
  if int then (wrapTo .n32 ((old : Int) + (ps.map (fun p => ofVal p.1 * ofVal p.2)).sum), flNone)
  else
    let s := ps.foldl (fun a p => (vAdd false a (vMul p.1 p.2).1).1) (.fin (qZero false))
    if vIsZero s then (old, flNone)
    else
      let r := vAdd false (decFloat (fmtOf .f32) old) s
      let e := encFloat .f32 false .rne r.1
      (e.1, nvIf (vIsNan s) ||| r.2 ||| e.2)
where
  ofVal : Val → Int
    | .fin q => if q.neg then -(q.num : Int) else q.num
    | _ => 0

/-- The first byte of element (m, n) of a tile of the hart (R250). -/
def cellOf (h : Hart) (t : BitVec 3) (m n : Nat) : Nat :=
  accAddr (coreOf h.gid) (h.tiles.getD t.toNat 0 * 65536) + 512 * m + 4 * n
/-- A tile of the hart, all of it correctable. -/
def TileOk (s : State) (t : BitVec 3) : Prop :=
  t.toNat < s.h.tiles.length ∧ poisoned s.d.poison (cellOf s.h t 0 0) 65536 = false

/-- R54: a chunk of products, of A(i, k) and B(k, j) for k below `dep`, has gone into a tile; `fl` are its flags. -/
def Accumulated (s t : State) (tile : BitVec 3) (int : Bool) (m : MatCfg) (dep : Nat) (a b : Nat → Nat → Val) (fl : Fl) : Prop :=
  let new (i j : Nat) : Nat × Fl := tileAfter int (memRead s.mem (cellOf s.h tile i j) 4) ((List.range dep).map (fun k => (a i k, b k j)))
  (∀ i j, i < m.m → j < m.n → memRead t.mem (cellOf s.h tile i j) 4 = (new i j).1) ∧
    (∀ x, (∀ i j, i < m.m → j < m.n → x < cellOf s.h tile i j ∨ cellOf s.h tile i j + 4 ≤ x) → memGet t.mem x = memGet s.mem x) ∧
    fl = ((List.range m.m).flatMap (fun i => (List.range m.n).map (fun j => (new i j).2))).foldl (fun f g => f ||| g) flNone

/-- R145, R312, R313: raw elements converted in order, with the flags and EFR after. -/
def convertAll (et from_ : ET) (rm : RM) : List Nat → Nat → List Nat × Fl × Nat
  | [], efr => ([], flNone, efr)
  | raw :: l, efr =>
    let v := valOf from_ raw
    let r : Nat × Fl × Nat := if rm = .efb then efbStep et false v.1 efr else ((encVal et false rm v.1).1, (encVal et false rm v.1).2, efr)
    let q := convertAll et from_ rm l r.2.2
    (r.1 :: q.1, v.2 ||| nvIf (vIsSig v.1) ||| r.2.1 ||| q.2.1, q.2.2)
/-- R43, R48: `n` blocks of sixteen F32 elements each, from element `j` of `f`. -/
def packAll (et : ET) (rm : RM) (f : Nat → Nat) (j : Nat) : Nat → Nat → List Nat × Fl × Nat
  | 0, efr => ([], flNone, efr)
  | n + 1, efr =>
    let xs := (List.range 16).map (fun i => floatOf .f32 (f (16 * j + i)))
    let r : Nat × List Fl × Nat := if rm = .efb then packBlockEfb et (xs.map (fun x => (x, true))) efr
      else ((packBlock et rm xs).1, (packBlock et rm xs).2, efr)
    let q := packAll et rm f (j + 1) n r.2.2
    (r.1 :: q.1, r.2.1.foldl (fun f g => f ||| g) flNone ||| q.2.1, q.2.2)
/-- `n` elements converted, or packed along `n`. -/
def converted (et from_ : ET) (rm : RM) (f : Nat → Nat) (n efr : Nat) : List Nat × Fl × Nat :=
  if et.isBlock then packAll et rm f 0 (n / 16) efr else convertAll et from_ rm ((List.range n).map f) efr

/-- R318: `fisect` or `funion` from two lists of positions, `out` being written so far in this unit, with room for `room`
positions: what stands written, what is left of the lists, and the status where the command has ended. A unit is `steps`
steps or sixteen positions. -/
def merged (union : Bool) (room : Option Nat) : Nat → List Nat → List Nat → List Nat → List Nat × List Nat × List Nat × Option Nat
  | 0, as, bs, out => (out, as, bs, none)
  | n + 1, as, bs, out =>
    if room ≠ none ∧ 16 ≤ out.length then (out, as, bs, none)
    else
      let emit (p : Nat) (as' bs' : List Nat) :=
        if room = some out.length then (out, as, bs, some 5) else merged union room n as' bs' (out ++ [p])
      let pass (p : Nat) (as' bs' : List Nat) := if union then emit p as' bs' else merged union room n as' bs' out
      match as, bs with
      | [], [] => (out, [], [], some 0)
      | [], b :: bs' => if union then emit b [] bs' else (out, [], [], some 0)
      | a :: as', [] => if union then emit a as' [] else (out, [], [], some 0)
      | a :: as', b :: bs' => if a = b then emit a as' bs' else if a < b then pass a as' bs else pass b as bs'

/-- A fibre of plain positions, open, mapped from `q`, whose positions from CURSOR are `ps`, in ascending order. -/
def FibreHolds (s : State) (f : Nat) (q : Nat) (ps : List Nat) : Prop :=
  let g := fibreGet s.h f
  f < 8 ∧ g.opened = true ∧ g.code = 0 ∧ g.space = .G ∧ Run s g.base (4 * g.count.toNat) q ∧ g.cursor.toNat ≤ g.count.toNat ∧
    g.soff.toNat = 32 * g.cursor.toNat ∧ ps = (List.range (g.count.toNat - g.cursor.toNat)).map (fun k => memRead s.mem (q + 4 * (g.cursor.toNat + k)) 4) ∧
    ps.Pairwise (fun x y => x < y) ∧ (g.cursor ≠ 0 → ∀ p ∈ ps, g.pos.toNat < p)
/-- The fibre where `n` of these positions have been passed. -/
def fibreOn (g : Fibre) (ps : List Nat) (n : Nat) : Fibre :=
  if n = 0 then g
  else { g with cursor := g.cursor + BitVec.ofNat 32 n, pos := BitVec.ofNat 32 (ps.getD (n - 1) 0), soff := BitVec.ofNat 64 (32 * (g.cursor.toNat + n)) }
/-- A fibre of a set operation afterwards: at its end, all its positions passed, or where `left` remain of them. -/
def FibreLeft (s t : State) (f : Nat) (ps left : List Nat) (ended : Bool) : Prop :=
  fibreGet t.h f = fibreOn (fibreGet s.h f) ps (if ended then ps.length else ps.length - left.length)

/-! ### The cascade (R275, R277, R278) -/

/-- One reference less to each of a list of pips, depth-first: the lines before, the pips, the lines after. -/
inductive Decrements : List PLine → List (BitVec 128) → List PLine → Prop
  | done (ls : List PLine) : Decrements ls [] ls
  | absent {ls out : List PLine} {p : BitVec 128} {rest : List (BitVec 128)} (h : p = 0 ∨ ∀ l ∈ ls, l.pip ≠ p)
      (t : Decrements ls rest out) : Decrements ls (p :: rest) out
  | full {ls out : List PLine} {p : BitVec 128} {rest : List (BitVec 128)} (l : PLine) (h0 : p ≠ 0)
      (h : ls.find? (fun m => m.pip == p) = some l) (hc : l.count = 0xFFFFFFFF) (t : Decrements ls rest out) :
      Decrements ls (p :: rest) out
  | less {ls out : List PLine} {p : BitVec 128} {rest : List (BitVec 128)} (l : PLine) (h0 : p ≠ 0)
      (h : ls.find? (fun m => m.pip == p) = some l) (h1 : 1 < l.count) (hc : l.count ≠ 0xFFFFFFFF)
      (t : Decrements (ls.map (fun m => if m.pip = p then { m with count := m.count - 1 } else m)) rest out) :
      Decrements ls (p :: rest) out
  | freed {ls out : List PLine} {p : BitVec 128} {rest : List (BitVec 128)} (l : PLine) (h0 : p ≠ 0)
      (h : ls.find? (fun m => m.pip == p) = some l) (h1 : l.count ≤ 1)
      (t : Decrements (ls.filter (fun m => m.pip ≠ p))
        ((if l.inner then ((List.range 8).map (fun i => l.data.extractLsb' (128 * i) 128)).filter (fun c => c ≠ 0) else []) ++ rest)
        out) :
      Decrements ls (p :: rest) out

/-! ### Records (R192, R197 to R200) -/

def recordWord (r : Rec) (k : Nat) : Word := r.words.toList.getD k 0

/-- R197: the entry of a context is valid. -/
def ContextEntry (s : State) (ctx : BitVec 16) (root svec : Word) : Prop :=
  let a := (s.d.ctxtab.extractLsb' 16 36).toNat * 2 ^ 16 + 64 * ctx.toNat
  ctx.toNat < 2 ^ (s.d.ctxtab.toNat % 32) ∧ normalPa a = true ∧ inCarveOut s.d.pscfg a 64 = false ∧
    poisoned s.d.poison a 64 = false ∧ memRead s.mem a 8 = root.toNat ∧
    memRead s.mem (a + 8) 8 = svec.toNat ∧ memRead s.mem (a + 16) 8 = 1 ∧ memRead s.mem (a + 24) 40 = 0 ∧
    root.toNat % 2 ^ 12 = 0 ∧ root.toNat < 2 ^ 52 ∧ isSlot svec = true

/-- A record of one member that asks for lanes of one core and for nothing else, and that no check of R200 refuses. -/
def Startable (s : State) (r : Rec) (gc : Nat) (root svec : Word) : Prop :=
  let c0 := (recordWord r 6).toNat
  let c1 := (recordWord r 7).toNat
  r.saved = [] ∧ c0 / 2 ^ 52 = 0 ∧ c1 % 2 ^ 15 ≤ 24576 ∧ c1 / 2 ^ 15 % 2 ^ 10 = 1 ∧ c1 / 2 ^ 53 = 0 ∧ gc < 96 ∧
    c1 / 2 ^ 25 % 2 ^ 4 = 2 ^ (gc / 24) ∧ c1 / 2 ^ 29 % 2 ^ 24 = 2 ^ (gc % 24) ∧ isSlot (recordWord r 0) = true ∧
    (recordWord r 1).toNat % 8 = 0 ∧ (recordWord r 2).toNat % 8 = 0 ∧ (recordWord r 4).toNat % 8 = 0 ∧ recordWord r 5 = 0 ∧
    ContextEntry s r.ctx root svec

/-- Nothing runs on the core, no lane of it is retired. -/
def CoreIdle (s : State) (gc : Nat) : Prop :=
  (∀ h ∈ s.h :: s.others, hartExists h = true → coreOf h.gid ≠ gc) ∧ ∀ l ∈ s.d.retired, l / 32 ≠ gc

/-- R7, R192: the member of such a record has started, on the lowest share of the core. -/
def Started (s t : State) (r : Rec) (gc : Nat) (root svec : Word) : Prop :=
  let c := 2 ^ ((recordWord r 6).toNat / 2 ^ 50 % 4)
  findHart t (gc * 8) = some { Hart.zero with
      gid := gc * 8, run := .running, clusters := c, lanes := 4 * c, vlcap := 3072 * c, record := r.id, pc := recordWord r 0
      x := (Hart.zero.x.set 1 (recordWord r 1)).set 3 1, ctxid := r.ctx, ctxroot := root, walkroot := root, svec := svec } ∧
    (∃ r', t.d.recs.find? (fun x => x.id == r.id) = some r' ∧ r'.at_ = .running ∧ r'.words = r.words ∧
      r'.places = [gc * 8] ∧ r'.started = s.clk ∧ r'.counted = s.clk) ∧
    queueGet t r.queue = { queueGet s r.queue with head := (queueGet s r.queue).head + 1, lastStart := s.clk } ∧ t.mem = s.mem ∧
    ∀ g, g ≠ gc * 8 → findHart t g = findHart s g

/-- R397: port `q` is the lowest of those routed to a device that are up. -/
def Routed (s : State) (dev q : Nat) : Prop :=
  let ports := tabGet s.d.routes dev (0 : BitVec 16)
  q < 16 ∧ ports.getLsbD q = true ∧ (portGet s q).up = true ∧ ∀ k, k < q → ports.getLsbD k = true → (portGet s k).up = false

/-- R396, R397: a port once `n` credits have come back: the flits that they were for, oldest first, have been taken, which
acknowledges the answers among them; those that are answered themselves wait for that (log 17). -/
def credited (p : Port) (n : Nat) : Port :=
  { p with credits := p.credits + n, flying := p.flying.drop n
           unacked := p.unacked.filter (fun u => [1, 3, 4, 6].contains u.1 || !(p.flying.take n).contains u.2.seq) }
/-- R396: a port has a credit for a flit, and no flit waits for one there. -/
def MayLeave (p : Port) : Prop := p.credits ≠ 0 ∧ p.waiting = []
/-- R396: a flit that port `q` of `t`, standing as `p` before, sends leaves with the next sequence number and the credits that
are owed to the far end, or waits for a credit; `out` has left before. -/
def Leaves (out : List Machine.Out) (p : Port) (t : State) (q kind : Nat) (f : Flit) : Prop :=
  (MayLeave p → t.d.out = Machine.Out.flit q kind { f with seq := p.seq, credits := BitVec.ofNat 8 (min 255 p.owed) } :: out ∧
    (portGet t q).seq = p.seq + 1 ∧ (portGet t q).credits = p.credits - 1 ∧ (portGet t q).owed = p.owed - min 255 p.owed ∧
    (portGet t q).flying = p.flying ++ [p.seq] ∧
    (portGet t q).unacked = p.unacked ++ [(kind, { f with seq := p.seq, credits := BitVec.ofNat 8 (min 255 p.owed) })]) ∧
  (¬ MayLeave p → t.d.out = out ∧ (portGet t q).waiting = p.waiting ++ [(kind, f)])

end Sys2Proof.Rules

open Sys2Proof Sys2Proof.Machine

/-- R106 to R108: a scalar instruction of two operands, which ends no loop level, writes its table's value to xD (to x0,
nothing) and goes on at the next slot with everything else as it was. -/
def Sys2Proof.Parts.ScalarTwoOperand : Prop :=
  ∀ (s : State) (i : Instr) (d a : Reg) (b : XOp) (f : Word → Word → Word), s.Plain →
    Rules.twoOperand i = some (d, a, b, f) → exec i s = .next (putX s d (f (xGet s.h a) (xopVal s.h b))).retired

/-- R106, R108 to R110: the other scalar integer, address and constant instructions, `nop` among them. -/
def Sys2Proof.Parts.ScalarOther : Prop :=
  ∀ (s : State) (i : Instr) (d : Reg) (v : Hart → Word), s.Plain → Rules.otherScalar i = some (d, v) →
    exec i s = .next (putX s d (v s.h)).retired

/-- R114: a scalar float instruction whose flags are not enabled writes its result, sets its flags and goes on. -/
def Sys2Proof.Parts.ScalarFloatResult : Prop :=
  ∀ (s : State) (i : Instr) (d : Reg) (r : Hart → Word × Fl × BitVec 32), s.Plain → Rules.floatResult i = some (d, r) →
    (r s.h).2.1 &&& s.h.fenable.setWidth 5 = 0 →
    exec i s = .next (putX { s with h := { s.h with
      flags := s.h.flags ||| (r s.h).2.1.setWidth 64, efr := (r s.h).2.2 } } d (r s.h).1).retired

/-- R114: one that raises an enabled flag traps, with FLAGS updated and xD, like EFR, as it was. -/
def Sys2Proof.Parts.ScalarFloatTrap : Prop :=
  ∀ (s : State) (i : Instr) (d : Reg) (r : Hart → Word × Fl × BitVec 32), s.h.replay = none → inh s.h = false →
    Rules.floatResult i = some (d, r) → (r s.h).2.1 &&& s.h.fenable.setWidth 5 ≠ 0 →
    ∃ t, exec i s = .next t ∧ t.h.flags = s.h.flags ||| (r s.h).2.1.setWidth 64 ∧ t.h.x = s.h.x ∧ t.h.sx = s.h.sx ∧
      t.h.efr = s.h.efr ∧ t.h.mode = .S ∧ t.h.pc = s.h.svec ∧ t.h.sepc = s.h.pc ∧ t.h.scause = 13 ∧
      t.h.stval = ((r s.h).2.1 &&& s.h.fenable.setWidth 5).setWidth 64 ∧ t.h.stval2 = 0

/-- R118: a transfer that is taken writes its link value and lands at its target. -/
def Sys2Proof.Parts.TransferTaken : Prop :=
  ∀ (s s1 : State) (i : Instr) (target : Word), s.Alone → Rules.taken i s = some (s1, target) →
    exec i s = .next (s1.jumped target)

/-- R118: a branch whose condition does not hold goes on at the next slot. -/
def Sys2Proof.Parts.BranchNotTaken : Prop :=
  ∀ (s : State) (c : Cond) (a b : Reg) (disp : BitVec 32), s.Plain →
    Rules.branchHolds c (xGet s.h a) (xGet s.h b) = false → exec (.bCond c a b disp) s = .next s.retired

/-- R69, R15: a displacement counts slots, modulo 5 × 2^58, and sequential advance is a displacement of one. -/
def Sys2Proof.Parts.SlotArithmetic : Prop :=
  ∀ (pc : Word) (n : Int), isSlot pc = true →
    isSlot (slotPlus pc n) = true ∧ (slotIndex (slotPlus pc n) : Int) = (slotIndex pc + n) % (5 * 2 ^ 58) ∧
      seqNext pc = slotPlus pc 1

/-- R116, R119, R241: `pfch`, `yield` and `fence` change nothing but the PC. -/
def Sys2Proof.Parts.NoEffect : Prop :=
  ∀ (s : State) (i : Instr), s.Plain → Rules.noEffect i = true → exec i s = .next s.retired

/-- R132, R133: the configuration instructions that return a value. -/
def Sys2Proof.Parts.Configuration : Prop :=
  ∀ (s : State) (i : Instr) (d : Reg) (v : State → Word) (f : Hart → Hart), s.Plain →
    Rules.configResult i = some (d, v, f) → exec i s = .next (putX { s with h := f s.h } d (v s)).retired

/-- R13, R133: `putcr` writes the control registers that user code may write, and ignores the others. -/
def Sys2Proof.Parts.PutControl : Prop :=
  ∀ (s : State) (cr : BitVec 12) (a : Reg), s.Plain →
    exec (.putcr cr a) s = .next { s with h := Rules.putcrResult s.h cr.toNat (xGet s.h a) }.retired

/-- R131: `setvl` of a hart whose lanes have not changed. -/
def Sys2Proof.Parts.SetLength : Prop :=
  ∀ (s : State) (d a : Reg) (et : ET) (g : Grp), s.Plain → s.h.lanes = liveLanes s.d.retired s.h.gid s.h.clusters →
    let n := Rules.granted s.h.lanes (vlCeiling s s.h) (xGet s.h a).toNat et g
    exec (.setvl d a et g) s = .next
      (putX { s with h := { s.h with vlcap := 768 * s.h.lanes, vl := n, vstart := 0 } } d (BitVec.ofNat 64 n)).retired

/-- R125: `cbase`. -/
def Sys2Proof.Parts.CarouselBase : Prop :=
  ∀ (s : State) (a : Reg) (imm : BitVec 4), s.Plain →
    exec (.cbase a imm) s = .next { s with h := { s.h with cbase := (xGet s.h a + imm.setWidth 64).setWidth 4 } }.retired

/-! ### Loops -/

/-- R121: a declaration that enters its level. -/
def Sys2Proof.Parts.LoopEntered : Prop :=
  ∀ (s : State) (k : BitVec 2) (a : Reg) (endDisp : BitVec 20) (cw : BitVec 5) (stages : BitVec 3) (rot : Bool),
    let tail := slotPlus s.h.pc endDisp.toNat
    let up := lvlGet s.h (k.toNat - 1)
    let c := Rules.prodAt (wGet s.h 0) (wGet s.h (wPhys s.h cw.toNat))
    s.Alone → k.toNat = activeLevels s.h →
    (0 < k.toNat → slotIndex up.top ≤ slotIndex s.h.pc ∧ slotIndex tail ≤ slotIndex up.tail) →
    xGet s.h a ≠ 0 → (cw = 0 ∨ Rules.someAbove s.h c) →
    ∃ t, exec (.loop k a endDisp cw stages rot) s = .next t ∧ t.h.pc = seqNext s.h.pc ∧
      lvlGet t.h k.toNat =
        { act := true, count := xGet s.h a, top := seqNext s.h.pc, tail := tail, stages := stages.setWidth 4 + 1, cw := cw
          rot := rot, epi := 0, asp := BitVec.ofNat 4 s.h.armsp
          saved := if cw = 0 then (lvlGet s.h k.toNat).saved else wGet s.h 0 } ∧
      (∀ j, j ≠ k.toNat → lvlGet t.h j = lvlGet s.h j) ∧
      (rot = false → Rules.Codes s.h (wGet t.h 0) (fun i => if cw = 0 then wCode (wGet s.h 0) i else c i)) ∧
      (rot = true → wGet t.h 0 = wGet s.h 0 ∧
        Rules.Codes s.h (wGet t.h (wPhys s.h 16)) (fun i => if cw = 0 then 0x8000 else c i) ∧
        ∀ n, 17 ≤ n → n ≤ 23 → Rules.Codes s.h (wGet t.h (wPhys s.h n)) (fun _ => 0)) ∧
      t.h.x = s.h.x ∧ t.h.v = s.h.v ∧ t.h.cbase = s.h.cbase ∧ t.h.arms = s.h.arms ∧ t.h.armsp = s.h.armsp ∧
      t.h.flags = s.h.flags ∧ t.mem = s.mem

/-- R121: one that skips its body changes only the PC. -/
def Sys2Proof.Parts.LoopSkipped : Prop :=
  ∀ (s : State) (k : BitVec 2) (a : Reg) (endDisp : BitVec 20) (cw : BitVec 5) (stages : BitVec 3) (rot : Bool),
    let tail := slotPlus s.h.pc endDisp.toNat
    let up := lvlGet s.h (k.toNat - 1)
    s.Alone → k.toNat = activeLevels s.h → s.h.vl ≤ s.h.vlcap →
    (0 < k.toNat → slotIndex up.top ≤ slotIndex s.h.pc ∧ slotIndex tail ≤ slotIndex up.tail) →
    (xGet s.h a = 0 ∨ (cw ≠ 0 ∧
      ¬ Rules.someAbove s.h (Rules.prodAt (wGet s.h 0) (wGet s.h (wPhys s.h cw.toNat))))) →
    exec (.loop k a endDisp cw stages rot) s = .next (s.movedTo (seqNext tail))

/-- R121, R123, R340: a level that is not the next one (check 1), a body that does not lie inside that of the enclosing level
(check 2), and an inactive level to leave (check 4) raise a loop-nesting fault, whose STVAL names the check. -/
def Sys2Proof.Parts.LoopNestingFault : Prop :=
  ∀ (s : State) (i : Instr) (check : Word), s.h.replay = none → inh s.h = false →
    ((∃ k a e cw st rot, i = .loop k a e cw st rot ∧ k.toNat ≠ activeLevels s.h ∧ check = 1) ∨
      (∃ k a e cw st rot, i = .loop k a e cw st rot ∧ k.toNat = activeLevels s.h ∧ 0 < k.toNat ∧ check = 2 ∧
        ¬ (slotIndex (lvlGet s.h (k.toNat - 1)).top ≤ slotIndex s.h.pc ∧
          slotIndex (slotPlus s.h.pc e.toNat) ≤ slotIndex (lvlGet s.h (k.toNat - 1)).tail)) ∨
      (∃ k, i = .lbreak k ∧ (lvlGet s.h k.toNat).act = false ∧ check = 4)) →
    ∃ t, exec i s = .next t ∧ t.h.scause = 14 ∧ t.h.stval = check ∧ t.h.stval2 = 0 ∧ t.h.sepc = s.h.pc ∧ t.h.pc = s.h.svec ∧ t.h.mode = .S ∧
      t.h.loops = s.h.loops ∧ t.h.w = s.h.w ∧ t.h.x = s.h.x

/-- R123: `lbreak`. -/
def Sys2Proof.Parts.LoopBreak : Prop :=
  ∀ (s : State) (k : BitVec 2), s.Alone → (lvlGet s.h k.toNat).act = true →
    s.h.armsp = (lvlGet s.h k.toNat).asp.toNat →
    ∃ t, exec (.lbreak k) s = .next t ∧ t.h.pc = seqNext (lvlGet s.h k.toNat).tail ∧
      (∀ j, lvlGet t.h j = if k.toNat ≤ j ∧ j < 4 then { lvlGet s.h j with act := false } else lvlGet s.h j) ∧
      (∀ j, k.toNat ≤ j → j < 4 → (lvlGet s.h j).act = true → (lvlGet s.h j).cw ≠ 0 →
        (∀ i, k.toNat ≤ i → i < j → (lvlGet s.h i).act = false ∨ (lvlGet s.h i).cw = 0) →
        Rules.Codes s.h (wGet t.h 0) (wCode (lvlGet s.h j).saved)) ∧
      ((∀ j, k.toNat ≤ j → j < 4 → (lvlGet s.h j).act = false ∨ (lvlGet s.h j).cw = 0) → wGet t.h 0 = wGet s.h 0) ∧
      (∀ n, n ≠ 0 → wGet t.h n = wGet s.h n) ∧ t.h.cbase = s.h.cbase ∧ t.h.x = s.h.x ∧ t.h.v = s.h.v ∧
      t.h.armsp = s.h.armsp ∧ t.mem = s.mem

/-- R122: the END slot of a level without a continuation weight, with passes left, goes back to TOP: here with `nop`
there. -/
def Sys2Proof.Parts.LoopBackEdge : Prop :=
  ∀ (s : State) (k : Nat), s.Alone → s.Uncounted → endLevel s.h = some k → (lvlGet s.h k).epi = 0 →
    (lvlGet s.h k).cw = 0 → 1 < (lvlGet s.h k).count.toNat →
    ∃ t, exec .nop s = .next t ∧ t.h.pc = (lvlGet s.h k).top ∧ t.h.xfer = some s.h.pc ∧
      lvlGet t.h k = { lvlGet s.h k with count := (lvlGet s.h k).count - 1 } ∧
      (∀ j, j ≠ k → lvlGet t.h j = lvlGet s.h j) ∧
      ((lvlGet s.h k).rot = false → t.h.cbase = s.h.cbase ∧ t.h.w = s.h.w) ∧
      ((lvlGet s.h k).rot = true → t.h.cbase = s.h.cbase + 1 ∧
        Rules.Codes s.h (wGet t.h (wPhys t.h 16)) (fun _ => 0x8000) ∧
        ∀ n, n ≠ wPhys t.h 16 → wGet t.h n = wGet s.h n) ∧
      t.h.x = s.h.x ∧ t.h.v = s.h.v ∧ t.mem = s.mem

/-- R122: the last pass of a level of one stage leaves it, where no enclosing level ends at the same slot. -/
def Sys2Proof.Parts.LoopLeft : Prop :=
  ∀ (s : State) (k : Nat), s.Alone → s.Uncounted → endLevel s.h = some k → (lvlGet s.h k).epi = 0 →
    (lvlGet s.h k).count.toNat ≤ 1 → (lvlGet s.h k).stages.toNat ≤ 1 →
    (0 < k → (lvlGet s.h (k - 1)).act = false ∨ (lvlGet s.h (k - 1)).tail ≠ s.h.pc) →
    ∃ t, exec .nop s = .next t ∧ t.h.pc = seqNext s.h.pc ∧ lvlGet t.h k = { lvlGet s.h k with act := false } ∧
      (∀ j, j ≠ k → lvlGet t.h j = lvlGet s.h j) ∧
      ((lvlGet s.h k).cw = 0 → wGet t.h 0 = wGet s.h 0) ∧
      ((lvlGet s.h k).cw ≠ 0 → Rules.Codes s.h (wGet t.h 0) (wCode (lvlGet s.h k).saved)) ∧
      (∀ n, n ≠ 0 → wGet t.h n = wGet s.h n) ∧ t.h.cbase = s.h.cbase ∧ t.h.x = s.h.x ∧ t.mem = s.mem

/-- R122: at the END slot of a level with a continuation weight the product of the saved weight and that weight decides:
with passes left and an element above THETA the level goes on under it; otherwise, with no more than one stage, it is left;
and a rotating level of several stages runs its epilogue, STAGES - 1 passes with gate 0, and is then left. -/
def Sys2Proof.Parts.LoopStages : Prop :=
  ∀ (s : State) (k : Nat),
    let l := lvlGet s.h k
    let c := Rules.prodAt l.saved (wGet s.h (wPhys s.h l.cw.toNat))
    let goesOn : Prop := 1 < l.count.toNat ∧ (l.cw = 0 ∨ Rules.someAbove s.h c)
    let back (t : State) (l' : Level) : Prop := t.h.pc = l.top ∧ t.h.xfer = some s.h.pc ∧ lvlGet t.h k = l'
    let left (t : State) (l' : Level) : Prop := t.h.pc = seqNext s.h.pc ∧ t.h.xfer = none ∧ lvlGet t.h k = { l' with act := false }
    let kept (t : State) : Prop := (∀ j, j ≠ k → lvlGet t.h j = lvlGet s.h j) ∧ t.h.x = s.h.x ∧ t.h.v = s.h.v ∧ t.mem = s.mem
    let w0Saved (t : State) : Prop :=
      (l.cw = 0 → wGet t.h 0 = wGet s.h 0) ∧ (l.cw ≠ 0 → Rules.Codes s.h (wGet t.h 0) (wCode l.saved))
    let rotated (t : State) (gate : Nat → Nat) : Prop :=
      t.h.cbase = (if l.rot then s.h.cbase + 1 else s.h.cbase) ∧
        (l.rot = true → Rules.Codes s.h (wGet t.h (wPhys t.h 16)) gate) ∧
        ∀ n, n ≠ 0 → (l.rot = true → n ≠ wPhys t.h 16) → wGet t.h n = wGet s.h n
    s.Alone → s.Uncounted → s.h.vl ≤ s.h.vlcap → endLevel s.h = some k →
    (0 < k → (lvlGet s.h (k - 1)).act = false ∨ (lvlGet s.h (k - 1)).tail ≠ s.h.pc) →
    ∃ t, exec .nop s = .next t ∧ kept t ∧
      (l.epi = 0 → l.cw ≠ 0 → goesOn → back t { l with count := l.count - 1 } ∧ rotated t c ∧
        (l.rot = true → w0Saved t) ∧ (l.rot = false → Rules.Codes s.h (wGet t.h 0) c)) ∧
      (l.epi = 0 → ¬ goesOn → l.stages.toNat ≤ 1 → left t l ∧ w0Saved t ∧ t.h.cbase = s.h.cbase ∧
        ∀ n, n ≠ 0 → wGet t.h n = wGet s.h n) ∧
      (l.epi = 0 → ¬ goesOn → 1 < l.stages.toNat →
        back t { l with count := 0, epi := (l.stages - 1).setWidth 3 } ∧ rotated t (fun _ => 0) ∧ w0Saved t) ∧
      (1 < l.epi.toNat → back t { l with epi := l.epi - 1 } ∧ rotated t (fun _ => 0) ∧ w0Saved t) ∧
      (l.epi = 1 → left t { l with epi := 0 } ∧ w0Saved t ∧ t.h.cbase = s.h.cbase ∧ ∀ n, n ≠ 0 → wGet t.h n = wGet s.h n)

/-- R128, R129: `lspill` of loop state without vectors writes the header whole and ends every level. -/
def Sys2Proof.Parts.LoopSpill : Prop :=
  ∀ (s : State) (a : Reg) (disp : BitVec 32) (p : Nat),
    let ea := xGet s.h a + disp.signExtend 64
    s.Alone → s.Inv → s.h.cmds = [] → ea.toNat % 64 = 0 → s.h.armsp = 0 → s.h.vlcap ≤ 24576 →
    (∀ j, (lvlGet s.h j).act = false ∨ (lvlGet s.h j).cw = 0) → s.Mapped ea 256 p →
    ∃ t, exec (.lspill a disp) s = .next t ∧ t.h.pc = seqNext s.h.pc ∧
      (∀ L, L < 4 → Rules.LevelStored t.mem (p + 32 * L) (lvlGet s.h L)) ∧
      memRead t.mem (p + 128) 1 = s.h.cbase.toNat ∧ memRead t.mem (p + 129) 1 = 0 ∧ memRead t.mem (p + 130) 2 = 0 ∧
      memRead t.mem (p + 132) 4 = s.h.vlcap ∧ memRead t.mem (p + 136) 120 = 0 ∧ SameOutside s.mem t.mem p 256 ∧
      (∀ j, lvlGet t.h j = { lvlGet s.h j with act := false }) ∧ t.h.armsp = 0 ∧ t.h.cbase = s.h.cbase ∧
      t.h.w = s.h.w ∧ t.h.x = s.h.x ∧ t.h.v = s.h.v

/-- R130: `lfill` of an area without vectors. It evaluates no END slot (log 11, DEDUCED). -/
def Sys2Proof.Parts.LoopFill : Prop :=
  ∀ (s : State) (a : Reg) (disp : BitVec 32) (p : Nat),
    let ea := xGet s.h a + disp.signExtend 64
    let hd := memRead s.mem p 256
    s.Alone → s.h.cmds = [] → ea.toNat % 64 = 0 → s.h.armsp = 0 → activeLevels s.h = 0 → s.Mapped ea 256 p →
    loopHeaderBad hd = false → headerVectors hd = [] →
    ∃ t, exec (.lfill a disp) s = .next t ∧ t.h.pc = seqNext s.h.pc ∧
      (∀ L, L < 4 → Rules.LevelStored s.mem (p + 32 * L) (lvlGet t.h L)) ∧
      t.h.cbase.toNat = memRead s.mem (p + 128) 1 ∧ t.h.armsp = 0 ∧ t.h.w = s.h.w ∧ t.h.x = s.h.x ∧ t.h.v = s.h.v ∧
      t.h.vlcap = s.h.vlcap ∧ t.mem = s.mem

/-- R128 to R130: the vectors of the area, by index: the saved weight of level L at L, sA and sC of arm entry e at 4 + 2e
and 5 + 2e. `lspill` writes those of the active levels with a continuation weight and of the entries below ARMSP; `lfill`
reads those that the header names, elements past the saved ones as 0. -/
def Sys2Proof.Parts.LoopVectors : Prop :=
  ∀ (s : State) (a : Reg) (disp : BitVec 32) (p : Nat),
    let ea := xGet s.h a + disp.signExtend 64
    let n := memRead s.mem (p + 132) 4
    let arm (h : Hart) (e : Nat) : Arm := h.arms.toList.getD e Arm.zero
    let stored (m : Memory) (cap j i : Nat) : Nat := memRead m (p + 256 + 2 * (cap * j + i)) 2
    let filled (j i : Nat) : Nat := if i < n then min (stored s.mem n j i) 0x8000 else 0
    s.Alone → s.Inv → s.h.cmds = [] → ea.toNat % 64 = 0 → s.h.vlcap ≤ 24576 →
    (s.h.armsp ≤ 8 → s.Mapped ea (256 + 40 * s.h.vlcap) p →
      ∃ t, exec (.lspill a disp) s = .next t ∧ t.h.pc = seqNext s.h.pc ∧
        (∀ L, L < 4 → Rules.LevelStored t.mem (p + 32 * L) (lvlGet s.h L)) ∧ memRead t.mem (p + 129) 1 = s.h.armsp ∧
        (∀ L i, L < 4 → (lvlGet s.h L).act = true → (lvlGet s.h L).cw ≠ 0 → i < s.h.vlcap →
          stored t.mem s.h.vlcap L i = wRaw (lvlGet s.h L).saved i) ∧
        (∀ e i, e < s.h.armsp → i < s.h.vlcap → stored t.mem s.h.vlcap (4 + 2 * e) i = wRaw (arm s.h e).sa i ∧
          stored t.mem s.h.vlcap (5 + 2 * e) i = wRaw (arm s.h e).sc i) ∧
        SameOutside s.mem t.mem p (256 + 40 * s.h.vlcap) ∧ (∀ j, (lvlGet t.h j).act = false) ∧ t.h.armsp = 0 ∧ t.h.x = s.h.x) ∧
    (s.h.armsp = 0 → activeLevels s.h = 0 → loopHeaderBad (memRead s.mem p 256) = false → s.Mapped ea (256 + 40 * s.h.vlcap) p →
      s.Mapped ea (256 + 40 * n) p →
      ∃ t, exec (.lfill a disp) s = .next t ∧ t.h.pc = seqNext s.h.pc ∧ t.mem = s.mem ∧ t.h.armsp = memRead s.mem (p + 129) 1 ∧
        (∀ L, L < 4 → Rules.LevelStored s.mem (p + 32 * L) (lvlGet t.h L) ∧ ((lvlGet t.h L).act = true → (lvlGet t.h L).cw ≠ 0 →
          Rules.Codes s.h (lvlGet t.h L).saved (filled L))) ∧
        (∀ e, e < t.h.armsp → Rules.Codes s.h (arm t.h e).sa (filled (4 + 2 * e)) ∧ Rules.Codes s.h (arm t.h e).sc (filled (5 + 2 * e))) ∧
        t.h.x = s.h.x ∧ t.h.w = s.h.w)

/-! ### Arms -/

/-- R175: a fork with a side to run pushes its entry and narrows the ambient weight. -/
def Sys2Proof.Parts.ArmFork : Prop :=
  ∀ (s : State) (a : Reg) (els jn : BitVec 16),
    let c := Rules.prodAt (wGet s.h 0) (wGet s.h (wPhys s.h a.toNat))
    s.Plain → s.Uncounted → s.h.armsp < 8 → s.h.vl ≤ s.h.vlcap → Rules.someAbove s.h (wCode (wGet s.h 0)) →
    ∃ t, exec (.wfork a els jn) s = .next t ∧ t.h.armsp = s.h.armsp + 1 ∧
      Rules.Codes s.h (t.h.arms.toList.getD s.h.armsp Arm.zero).sa (wCode (wGet s.h 0)) ∧
      Rules.Codes s.h (t.h.arms.toList.getD s.h.armsp Arm.zero).sc (wCode (wGet s.h (wPhys s.h a.toNat))) ∧
      (∀ j, j ≠ s.h.armsp → t.h.arms.toList.getD j Arm.zero = s.h.arms.toList.getD j Arm.zero) ∧
      Rules.Codes s.h (wGet t.h 0) c ∧ (∀ n, n ≠ 0 → wGet t.h n = wGet s.h n) ∧
      (Rules.someAbove s.h c → t.h.pc = seqNext s.h.pc) ∧
      (¬ Rules.someAbove s.h c → t.h.pc = slotPlus s.h.pc els.toNat) ∧
      t.h.x = s.h.x ∧ t.h.v = s.h.v ∧ t.h.loops = s.h.loops ∧ t.h.flags = s.h.flags ∧ t.mem = s.mem

/-- R175: a fork that finds no element live jumps to its join with w0 as it was. -/
def Sys2Proof.Parts.ArmForkDead : Prop :=
  ∀ (s : State) (a : Reg) (els jn : BitVec 16), s.Alone → s.Uncounted → s.h.armsp < 8 → s.h.vl ≤ s.h.vlcap →
    ¬ Rules.someAbove s.h (wCode (wGet s.h 0)) →
    ∃ t, exec (.wfork a els jn) s = .next t ∧ t.h.pc = slotPlus s.h.pc jn.toNat ∧ t.h.armsp = s.h.armsp + 1 ∧
      t.h.w = s.h.w ∧ t.h.x = s.h.x ∧ t.h.v = s.h.v ∧ t.h.loops = s.h.loops ∧ t.mem = s.mem

/-- R176, R177: `warm` and `wmerge` on an entry above the arm base. -/
def Sys2Proof.Parts.ArmWarm : Prop :=
  ∀ (s : State) (jn : BitVec 16),
    let top := s.h.arms.toList.getD (s.h.armsp - 1) Arm.zero
    let c (i : Nat) : Nat := wtMul (wCode top.sa i) (0x8000 - wCode top.sc i)
    s.Plain → s.Uncounted → armBase s.h < s.h.armsp → s.h.vl ≤ s.h.vlcap →
    ∃ t, exec (.warm jn) s = .next t ∧ Rules.Codes s.h (wGet t.h 0) c ∧ (∀ n, n ≠ 0 → wGet t.h n = wGet s.h n) ∧
      (Rules.someAbove s.h c → t.h.pc = seqNext s.h.pc) ∧
      (¬ Rules.someAbove s.h c → t.h.pc = slotPlus s.h.pc jn.toNat) ∧
      t.h.arms = s.h.arms ∧ t.h.armsp = s.h.armsp ∧ t.h.x = s.h.x ∧ t.h.v = s.h.v ∧ t.h.loops = s.h.loops ∧ t.mem = s.mem
def Sys2Proof.Parts.ArmMerge : Prop :=
  ∀ (s : State), s.Plain → armBase s.h < s.h.armsp →
    ∃ t, exec .wmerge s = .next t ∧ t.h.pc = seqNext s.h.pc ∧ t.h.armsp = s.h.armsp - 1 ∧
      Rules.Codes s.h (wGet t.h 0) (wCode (s.h.arms.toList.getD (s.h.armsp - 1) Arm.zero).sa) ∧
      (∀ n, n ≠ 0 → wGet t.h n = wGet s.h n) ∧ t.h.arms = s.h.arms ∧ t.h.x = s.h.x ∧ t.h.v = s.h.v ∧
      t.h.loops = s.h.loops ∧ t.h.flags = s.h.flags ∧ t.mem = s.mem

/-! ### Memory -/

/-- A byte read after a write is the byte written, and every other byte is as it was; the canonical form is kept. -/
def Sys2Proof.Parts.MemoryWrite : Prop :=
  ∀ (m : Memory) (a n v : Nat), m.wf = true →
    (memWrite m a n v).wf = true ∧ memRead (memWrite m a n v) a n = v % 2 ^ (8 * n) ∧ SameOutside m (memWrite m a n v) a n

/-- R260, R261: an access to mapped bytes reaches them and changes nothing of the state. -/
def Sys2Proof.Parts.MappedAccess : Prop :=
  ∀ (s : State) (va : Word) (n p k m : Nat) (acc : Acc), s.Mapped va n p → 0 < m → k + m ≤ n →
    (acc = .load ∨ acc = .store) → translate s s.h acc (va + BitVec.ofNat 64 k) m = .ok (p + k, s)

/-- R115: an aligned load that reaches its bytes. -/
def Sys2Proof.Parts.ScalarLoad : Prop :=
  ∀ (s s1 : State) (d a : Reg) (disp : BitVec 32) (et : ET) (n p : Nat) (sg : Bool),
    let ea := xGet s.h a + disp.signExtend 64
    s.Plain → s.h.cmds = [] → Rules.scalarType et = some (n, sg) → ea.toNat % n = 0 →
    translate s s.h .load ea n = .ok (p, s1) →
    exec (.ld d a disp et) s = .next (putX s1 d (Rules.extended n sg (memRead s1.mem p n))).retired

/-- R115: an aligned store that reaches its bytes. -/
def Sys2Proof.Parts.ScalarStore : Prop :=
  ∀ (s s1 : State) (c a : Reg) (disp : BitVec 32) (et : ET) (n p : Nat) (sg : Bool),
    let ea := xGet s.h a + disp.signExtend 64
    s.Plain → s.h.cmds = [] → Rules.scalarType et = some (n, sg) → ea.toNat % n = 0 →
    translate s s.h .store ea n = .ok (p, s1) →
    exec (.st c a disp et) s = .next { s1 with mem := memWrite s1.mem p n (xGet s.h c).toNat }.retired

/-- R115: the frame of a store to mapped bytes: no other byte of memory, no register. -/
def Sys2Proof.Parts.StoreFrame : Prop :=
  ∀ (s : State) (c a : Reg) (disp : BitVec 32) (et : ET) (n p : Nat) (sg : Bool),
    let ea := xGet s.h a + disp.signExtend 64
    s.Plain → s.Inv → s.h.cmds = [] → Rules.scalarType et = some (n, sg) → ea.toNat % n = 0 → s.Mapped ea n p →
    ∃ t, exec (.st c a disp et) s = .next t ∧ memRead t.mem p n = (xGet s.h c).toNat % 2 ^ (8 * n) ∧
      SameOutside s.mem t.mem p n ∧ t.h = { s.h with pc := seqNext s.h.pc, xfer := none, run := .running } ∧
      t.others = s.others ∧ t.d = s.d

/-- R115, R238, R340: a misaligned `ld`, `st` or `amo` of a hart that no barrier counts on (R220) traps with cause 6 and the
address, and memory is kept. -/
def Sys2Proof.Parts.Misaligned : Prop :=
  ∀ (s : State) (i : Instr) (a : Reg) (disp : BitVec 32) (n : Nat), s.h.replay = none → inh s.h = false →
    s.Unwatched →
    ((∃ d et sg, i = .ld d a disp et ∧ Rules.scalarType et = some (n, sg)) ∨
      (∃ c et sg, i = .st c a disp et ∧ Rules.scalarType et = some (n, sg)) ∨
      (∃ d c et sg f, Rules.amoResult i = some (d, a, c, disp, et, f) ∧ Rules.atomicType et = some (n, sg))) →
    (xGet s.h a + disp.signExtend 64).toNat % n ≠ 0 →
    ∃ t, exec i s = .next t ∧ t.h.scause = 6 ∧ t.h.stval = xGet s.h a + disp.signExtend 64 ∧ t.h.sepc = s.h.pc ∧
      t.h.pc = s.h.svec ∧ t.h.mode = .S ∧ t.h.x = s.h.x ∧ t.mem = s.mem

/-- R258, R260, R340: an aligned `ld` or `st` whose translation fails traps with its cause and address. -/
def Sys2Proof.Parts.MemoryFault : Prop :=
  ∀ (s : State) (i : Instr) (a : Reg) (disp : BitVec 32) (acc : Acc) (n : Nat) (f : Flt),
    let ea := xGet s.h a + disp.signExtend 64
    s.h.replay = none → inh s.h = false → s.h.cmds = [] → s.Unwatched →
    ((acc = .load ∧ ∃ d et sg, i = .ld d a disp et ∧ Rules.scalarType et = some (n, sg)) ∨
      (acc = .store ∧ ∃ c et sg, i = .st c a disp et ∧ Rules.scalarType et = some (n, sg))) →
    ea.toNat % n = 0 → translate s s.h acc ea n = .error f →
    ∃ t, exec i s = .next t ∧ t.h.scause = BitVec.ofNat 64 f.code ∧ t.h.stval = f.va ∧ t.h.sepc = s.h.pc ∧
      t.h.pc = s.h.svec ∧ t.h.mode = .S ∧ t.h.x = s.h.x ∧ t.mem = s.mem

/-! ### Atomics -/

/-- R238: an `amo` whose flags are not enabled. `sr` and `sw` are the states that a read and a write of the word leave
translated. -/
def Sys2Proof.Parts.ScalarAtomic : Prop :=
  ∀ (s sr sw : State) (i : Instr) (d a c : Reg) (disp : BitVec 32) (et : ET) (f : Nat → Bool → Nat → Nat → Nat × Fl)
    (n p q : Nat) (sg : Bool),
    let ea := xGet s.h a + disp.signExtend 64
    let old := memRead sr.mem p n
    let r := f n sg old ((xGet s.h c).toNat % 2 ^ (8 * n))
    s.Plain → s.h.cmds = [] → Rules.amoResult i = some (d, a, c, disp, et, f) → Rules.atomicType et = some (n, sg) →
    ea.toNat % n = 0 → translate s s.h .store ea n = .ok (p, sw) → translate s s.h .load ea n = .ok (q, sr) →
    r.2 &&& s.h.fenable.setWidth 5 = 0 →
    exec i s = .next (putX { sw with
      mem := memWrite sw.mem p n r.1, h := { s.h with flags := s.h.flags ||| r.2.setWidth 64 } }
      d (Rules.extended n sg old)).retired

/-- R238, R183, R340: an `amo` that raises an enabled flag writes neither the word nor xD and traps with cause 13, FLAGS
updated. -/
def Sys2Proof.Parts.ScalarAtomicTrap : Prop :=
  ∀ (s sr sw : State) (i : Instr) (d a c : Reg) (disp : BitVec 32) (et : ET) (f : Nat → Bool → Nat → Nat → Nat × Fl)
    (n p q : Nat) (sg : Bool),
    let ea := xGet s.h a + disp.signExtend 64
    let r := f n sg (memRead sr.mem p n) ((xGet s.h c).toNat % 2 ^ (8 * n))
    s.h.replay = none → inh s.h = false → s.Unwatched → s.h.cmds = [] → Rules.amoResult i = some (d, a, c, disp, et, f) →
    Rules.atomicType et = some (n, sg) → ea.toNat % n = 0 → translate s s.h .store ea n = .ok (p, sw) →
    translate s s.h .load ea n = .ok (q, sr) → r.2 &&& s.h.fenable.setWidth 5 ≠ 0 →
    ∃ t, exec i s = .next t ∧ t.mem = sr.mem ∧ t.h.flags = s.h.flags ||| r.2.setWidth 64 ∧ t.h.x = s.h.x ∧ t.h.sx = s.h.sx ∧
      t.h.mode = .S ∧ t.h.pc = s.h.svec ∧ t.h.sepc = s.h.pc ∧ t.h.scause = 13 ∧
      t.h.stval = (r.2 &&& s.h.fenable.setWidth 5).setWidth 64 ∧ t.h.stval2 = 0

/-- R239: `amocas` writes the word if it holds what xB does, and returns what it held. -/
def Sys2Proof.Parts.CompareAndSwap : Prop :=
  ∀ (s sr sw : State) (d a b c : Reg) (disp : BitVec 32) (et : ET) (o : Ord) (sc : Scope) (n p q : Nat) (sg : Bool),
    let ea := xGet s.h a + disp.signExtend 64
    let old := memRead sr.mem p n
    s.Plain → s.h.cmds = [] → Rules.atomicType et = some (n, sg) → ea.toNat % n = 0 →
    translate s s.h .store ea n = .ok (p, sw) → translate s s.h .load ea n = .ok (q, sr) →
    (old = (xGet s.h b).toNat % 2 ^ (8 * n) → exec (.amocas d a b c disp et o sc) s = .next (putX { sw with
      mem := memWrite sw.mem p n (xGet s.h c).toNat } d (Rules.extended n sg old)).retired) ∧
    (old ≠ (xGet s.h b).toNat % 2 ^ (8 * n) →
      exec (.amocas d a b c disp et o sc) s = .next (putX sr d (Rules.extended n sg old)).retired)

/-- R219: the last arrival at a mapped barrier word releases it. -/
def Sys2Proof.Parts.BarrierRelease : Prop :=
  ∀ (s : State) (d a : Reg) (disp : BitVec 32) (sc : Scope) (p : Nat),
    let ea := xGet s.h a + disp.signExtend 64
    let w := memRead s.mem p 8
    s.Plain → s.h.cmds = [] → (∀ b ∈ s.h.barWait, b.ea ≠ ea) → ea.toNat % 8 = 0 → s.Mapped ea 8 p → w / 2 ^ 49 = 0 →
    w / 2 ^ 16 % 2 ^ 16 + 1 = Rules.awaited s sc w →
    exec (.bar d a disp sc) s = .next (putX { s with
      mem := memWrite s.mem p 8 (w % 2 ^ 16 + (w / 2 ^ 32 + 1) % 2 ^ 16 * 2 ^ 32)
      h := { s.h with barWord := some ea } } d 0).retired

/-- R219: an earlier one counts itself and parks; it goes on when the phase has changed. -/
def Sys2Proof.Parts.BarrierWait : Prop :=
  ∀ (s : State) (d a : Reg) (disp : BitVec 32) (sc : Scope) (p : Nat),
    let ea := xGet s.h a + disp.signExtend 64
    let w := memRead s.mem p 8
    s.Plain → s.h.cmds = [] → ea.toNat % 8 = 0 → s.Mapped ea 8 p → w / 2 ^ 49 = 0 →
    ((∀ b ∈ s.h.barWait, b.ea ≠ ea) → w / 2 ^ 16 % 2 ^ 16 + 1 < Rules.awaited s sc w → w / 2 ^ 16 % 2 ^ 16 + 1 < 2 ^ 16 →
      exec (.bar d a disp sc) s = .next ({ s with
        mem := memWrite s.mem p 8 (w + 2 ^ 16)
        h := { s.h with barWord := some ea,
                        barWait := ⟨ea, BitVec.ofNat 16 (w / 2 ^ 32), decide (sc = Scope.farm)⟩ :: s.h.barWait } }.waits (.bar ea))) ∧
    (∀ b, s.h.barWait.find? (fun b => b.ea = ea) = some b → w / 2 ^ 32 % 2 ^ 16 ≠ b.phase.toNat →
      exec (.bar d a disp sc) s = .next (putX { s with h := { s.h with
        barWait := s.h.barWait.filter (fun b => b.ea ≠ ea) } } d 0).retired)

/-- R218, R219, R220: a broken barrier makes no arrival and returns 1; a word with a reserved bit set, and one whose COUNT is 0
or not above ARRIVED, returns 2; a `bar` that waits already parks again while the phase is the one of its arrival, and returns
1 where BROKEN is set in it. -/
def Sys2Proof.Parts.BarrierRefused : Prop :=
  ∀ (s : State) (d a : Reg) (disp : BitVec 32) (sc : Scope) (p : Nat),
    let ea := xGet s.h a + disp.signExtend 64
    let w := memRead s.mem p 8
    let broken : Prop := w / 2 ^ 49 % 2 = 1
    let refuses (status : Word) : Prop :=
      exec (.bar d a disp sc) s = .next (putX { s with h := { s.h with barWord := some ea } } d status).retired
    s.Plain → s.h.cmds = [] → ea.toNat % 8 = 0 → s.Mapped ea 8 p →
    ((∀ b ∈ s.h.barWait, b.ea ≠ ea) → (broken → refuses 1) ∧
      (¬ broken → (w / 2 ^ 50 ≠ 0 ∨ (sc ≠ .farm ∧ (w % 2 ^ 16 = 0 ∨ w % 2 ^ 16 ≤ w / 2 ^ 16 % 2 ^ 16))) → refuses 2)) ∧
    (∀ b, s.h.barWait.find? (fun b => b.ea = ea) = some b → w / 2 ^ 32 % 2 ^ 16 = b.phase.toNat →
      (¬ broken → exec (.bar d a disp sc) s = .next (s.waits (.bar ea))) ∧
      (broken → exec (.bar d a disp sc) s = .next (putX { s with h := { s.h with
        barWait := s.h.barWait.filter (fun b => b.ea ≠ ea) } } d 1).retired))

/-- R242: `waiteq` returns a word that differs from xB, and parks at one that does not. -/
def Sys2Proof.Parts.WaitEqual : Prop :=
  ∀ (s : State) (d a b : Reg) (disp : BitVec 32) (o : Ord) (sc : Scope) (p : Nat),
    let ea := xGet s.h a + disp.signExtend 64
    let w : Word := BitVec.ofNat 64 (memRead s.mem p 8)
    s.Plain → s.Uncounted → s.h.cmds = [] → ea.toNat % 8 = 0 → s.Mapped ea 8 p →
    exec (.waiteq d a b disp o sc) s = .next (if w = xGet s.h b then s.waits (.waiteq ea w) else (putX s d w).retired)

/-! ### Harts and farms -/

/-- R213: the fields of `hid`. -/
def Sys2Proof.Parts.HartIdentity : Prop :=
  ∀ (s : State) (d : Reg) (r : Rec), s.Plain → recOf s s.h = some r → s.h.clusters < 16 → s.h.gid < 768 → s.h.slabs.length < 32 → s.h.tiles.length < 16 →
    ∃ w : Word, exec (.hid d) s = .next (putX s d w).retired ∧
      (w.extractLsb' 0 10).toNat = s.h.member % 1024 ∧ (w.extractLsb' 10 10).toNat = recMembers r ∧
      (w.extractLsb' 20 4).toNat = s.h.clusters ∧ (w.extractLsb' 24 6).toNat = liveLanes s.d.retired s.h.gid s.h.clusters ∧ (w.extractLsb' 30 2).toNat = 0 ∧
      (w.extractLsb' 32 3).toNat = s.h.gid % 8 ∧ (w.extractLsb' 35 5).toNat = s.h.gid / 8 % 24 ∧
      (w.extractLsb' 40 2).toNat = s.h.gid / 192 ∧ (w.extractLsb' 42 6).toNat = r.queue % 64 ∧
      (w.extractLsb' 48 5).toNat = s.h.slabs.length ∧ (w.extractLsb' 53 4).toNat = s.h.tiles.length ∧
      (w.extractLsb' 57 7).toNat = 0

/-- R214: `launch` into a queue that takes the record, one that is full, one that is not the context's, and none. -/
def Sys2Proof.Parts.Launch : Prop :=
  ∀ (s : State) (d a : Reg) (b : XOp) (p : Nat),
    let q := (xopVal s.h b).toNat
    let u := queueGet s q
    let slot := u.base.toNat / 64 * 64 + 64 * (u.tail.toNat % 2 ^ u.log2n.toNat)
    s.Plain → s.h.cmds = [] → (xGet s.h a).toNat % 64 = 0 → s.Mapped (xGet s.h a) 64 p →
    (63 < q → exec (.launch d a b) s = .next (putX s d (-3)).retired) ∧
    (q ≤ 63 → (u.en = false ∨ u.devfed = false ∨ u.err = true ∨ u.context ≠ s.h.ctxid) →
      exec (.launch d a b) s = .next (putX s d (-2)).retired) ∧
    (q ≤ 63 → u.en = true → u.devfed = true → u.err = false → u.context = s.h.ctxid →
      (u.tail - u.prog).toNat = 2 ^ u.log2n.toNat → exec (.launch d a b) s = .next (putX s d (-1)).retired) ∧
    (q ≤ 63 → u.en = true → u.devfed = true → u.err = false → u.context = s.h.ctxid →
      (u.tail - u.prog).toNat ≠ 2 ^ u.log2n.toNat → u.base.getLsbD 0 = false → normalPa slot = true →
      inCarveOut s.d.pscfg slot 64 = false → exec (.launch d a b) s = .next (putX (queuePut { s with mem := memWrite s.mem slot 64 (memRead s.mem p 64) } q
        { u with tail := u.tail + 1, shadow := u.tail + 1 }) d (u.tail.setWidth 64)).retired)

/-- R215: `farm` opens the next set once the current one is done and joined, waits until then, or joins. -/
def Sys2Proof.Parts.FarmSet : Prop :=
  ∀ (s : State) (d a : Reg) (r : Rec), s.Plain → recOf s s.h = some r →
    let ready := r.done = r.total ∧ (∀ h ∈ s.h :: s.others, hartExists h = true → h.record = r.id → h.fgen = r.set) ∧
      ∀ q ∈ s.d.recs, q.id = r.id → ∀ v ∈ q.saved, v.fgen = r.set
    (s.h.fgen = r.set → hartExists s.h = true → s.h.record ≠ 0 → ready →
      ∃ t, exec (.farm d a) s = .next t ∧ t.h = { xSet s.h d (xGet s.h a) with
          fgen := r.set + 1, pc := seqNext s.h.pc, xfer := none, run := .running } ∧
        recOf t t.h = some { r with set := r.set + 1, total := xGet s.h a, next := 0, done := 0 } ∧
        t.others = s.others ∧ t.mem = s.mem) ∧
    (s.h.fgen = r.set → hartExists s.h = true → s.h.record ≠ 0 → ¬ ready →
      exec (.farm d a) s = .next (s.waits .farm)) ∧
    (s.h.fgen ≠ r.set →
      exec (.farm d a) s = .next (putX { s with h := { s.h with fgen := r.set } } d r.total).retired)

/-- R216: `fgrab` returns each strip of the current set once, and −1 when there is none. -/
def Sys2Proof.Parts.FarmGrab : Prop :=
  ∀ (s : State) (d : Reg) (r : Rec), s.Plain → recOf s s.h = some r →
    (s.h.fgen = r.set ∧ r.next.toNat < r.total.toNat →
      ∃ t, exec (.fgrab d) s = .next t ∧ t.h = (putX s d r.next).retired.h ∧
        recOf t t.h = some { r with next := r.next + 1 } ∧ t.others = s.others ∧ t.mem = s.mem) ∧
    (¬ (s.h.fgen = r.set ∧ r.next.toNat < r.total.toNat) → exec (.fgrab d) s = .next (putX s d (-1)).retired)

/-- R216: `fdone` retires a strip. -/
def Sys2Proof.Parts.FarmDone : Prop :=
  ∀ (s : State) (d a : Reg) (r : Rec), s.Plain → recOf s s.h = some r → s.h.fgen = r.set →
    (xGet s.h a).toNat < r.total.toNat → r.done ≠ r.total →
    ∃ t, exec (.fdone d a) s = .next t ∧ t.h = (putX s d (r.total - (r.done + 1))).retired.h ∧
      recOf t t.h = some { r with done := r.done + 1 } ∧ t.others = s.others ∧ t.mem = s.mem

/-- R216, R340: an `fdone` that does not fit its set is an access fault without effect, subcause 11. -/
def Sys2Proof.Parts.FarmDoneFault : Prop :=
  ∀ (s : State) (d a : Reg) (r : Rec), s.h.replay = none → inh s.h = false → recOf s s.h = some r →
    (s.h.fgen ≠ r.set ∨ r.total.toNat ≤ (xGet s.h a).toNat ∨ r.done = r.total) →
    ∃ t, exec (.fdone d a) s = .next t ∧ t.h.scause = 11 ∧ t.h.stval = xGet s.h a ∧ t.h.stval2 = 0xBFFFFFFFF ∧
      t.h.sepc = s.h.pc ∧ t.h.x = s.h.x ∧ t.d.recs = s.d.recs

/-- R119, R188, R217: a hart without engine commands ends: its grants go back, no level of it is active, ARMSP and CBASE are 0, its
windows are closed, and its record counts it with its status. That its bindings, pending traps and fault records go with it is
log 21, and that its registers keep their values is log 1: the model's choices. -/
def Sys2Proof.Parts.HartEnds : Prop :=
  ∀ (s : State) (i : Instr) (status : BitVec 8), s.h.cmds = [] → s.d.cc.busy = false →
    (i = .halt ∧ status = 0 ∨ ∃ a, i = .hexit a ∧ status = (xGet s.h a).setWidth 8) →
    ∃ t, exec i s = .next t ∧ t.h = { s.h with
        run := .ended, clusters := 0, lanes := 0, slabs := [], tiles := [], record := 0, xfer := none, second := false
        stop := none, pause := none, replay := none, fmrun := false, ending := none, opened := 0
        loops := s.h.loops.map (fun l => { l with act := false }), armsp := 0, cbase := 0
        fibres := Vector.replicate 8 Fibre.closed, binds := [], cmds := [], barWord := none, barWait := [], sending := none
        pend := [] } ∧ t.others = s.others ∧
      (∀ r, recOf s s.h = some r → ∃ r', t.d.recs.find? (fun x => x.id == r.id) = some r' ∧ r'.ended = r.ended + 1 ∧
        r'.exitor = r.exitor ||| status ∧ r'.places = r.places.filter (fun g => g != s.h.gid)) ∧
      (∀ l ∈ t.d.frq.toList, ∀ f ∈ l, f.gid ≠ s.h.gid)

/-- R217: one with commands waits for their tokens. -/
def Sys2Proof.Parts.HartEndWaits : Prop :=
  ∀ (s : State) (i : Instr), s.h.cmds ≠ [] → (i = .halt ∨ ∃ a, i = .hexit a) →
    exec i s = .next (s.waits .hexit)

/-! ### Memory levels -/

/-- R263: `xlate` of an address that is not canonical, of one without a leaf, and of a normal page it may read. -/
def Sys2Proof.Parts.Translation : Prop :=
  ∀ (s : State) (d a : Reg),
    let va := xGet s.h a
    s.Plain → ∃ w, exec (.xlate d a 0) s = .next (putX s d w).retired ∧
      (canonical va.toNat = false → w = 0x8000000000000003) ∧
      (canonical va.toNat = true → walk s s.h.walkroot va.toNat = .error .notValid → w = 0x8000000000000001) ∧
      (canonical va.toNat = true → walk s s.h.walkroot va.toNat = .error .malformed → w = 0x8000000000000004) ∧
      (∀ l, canonical va.toNat = true → walk s s.h.walkroot va.toNat = .ok l → l.lvl ≤ 2 → l.word < 2 ^ 64 →
        (pteR l.word = false → w = 0x8000000000000002) ∧
        (pteR l.word = true → pteKind l.word = 0 →
          (w.extractLsb' 61 2).toNat = l.lvl ∧ (w.extractLsb' 59 2).toNat = 0 ∧
          (w.extractLsb' 57 2).toNat = pteCache l.word ∧ (w.extractLsb' 52 3).toNat = l.word / 2 % 8 ∧
          (w.extractLsb' 55 2).toNat = l.word / 16 % 4 ∧ (w.extractLsb' 63 1).toNat = 0 ∧
          (w.extractLsb' 0 16).toNat = va.toNat % 2 ^ 16 ∧
          (s.h.mode = .S → (w.extractLsb' 0 52).toNat = (ptePa l.word + va.toNat % 2 ^ pageShift l.lvl) % 2 ^ 52) ∧
          (s.h.mode = .U → (w.extractLsb' 16 36).toNat = 0)))

/-- R257: `cwb` and `cinv` of a range that translates: `cwb` only advances the PC, since memory holds what every cache holds
(log 7, DESIGN CHOICE), and `cinv` drops the lines of the range that the cores in its scope hold (its own core for .h and .c, those of the die
for .d, every core of the device for .k), and no others. -/
def Sys2Proof.Parts.CacheLines : Prop :=
  ∀ (s : State) (a : Reg) (b : XOp) (sc : Scope) (rs : List (Nat × Nat)), s.Plain →
    (lengthOf s.h b).toNat ≤ 2 ^ 24 → lineRanges s s.h (xGet s.h a) (lengthOf s.h b).toNat = .ok rs →
    exec (.cwb a b sc) s = .next s.retired ∧
    ∃ f, exec (.cinv a b sc) s = .next { s with d := { s.d with fetch := f } }.retired ∧ ∀ l, l ∈ f ↔
      l ∈ s.d.fetch ∧ ¬ (Rules.reaches sc (coreOf s.h.gid) l.core ∧ ∃ r ∈ rs, r.1 ≤ l.addr ∧ l.addr < r.1 + r.2)

/-- R249: `slab` query. -/
def Sys2Proof.Parts.SlabQuery : Prop :=
  ∀ (s : State) (d a : Reg), s.Plain →
    (∀ p, s.h.slabs[(xGet s.h a).toNat]? = some p → exec (.slabQuery d a) s = .next (putX s d
      (BitVec.ofNat 64 (coreInDie s.h.gid * 2 ^ 43 + p * 2 ^ 19))).retired) ∧
    (s.h.slabs.length ≤ (xGet s.h a).toNat → exec (.slabQuery d a) s = .next (putX s d (-1)).retired)

/-- R249: `slab` take, where no preload holds a slab of the core. -/
def Sys2Proof.Parts.SlabTake : Prop :=
  ∀ (s : State) (d : Reg), s.Plain → s.Inv → reservedSlabs s (coreOf s.h.gid) = [] →
    (s.h.slabs.length = 16 → exec (.slabTake d) s = .next (putX s d (-1)).retired) ∧
    (ungranted s (coreOf s.h.gid) = [] → exec (.slabTake d) s = .next (putX s d (-1)).retired) ∧
    (∀ p rest, s.h.slabs.length < 16 → ungranted s (coreOf s.h.gid) = p :: rest →
      ∃ t, exec (.slabTake d) s = .next t ∧
        t.h = { xSet s.h d (BitVec.ofNat 64 s.h.slabs.length) with
          slabs := s.h.slabs ++ [p], pc := seqNext s.h.pc, xfer := none, run := .running } ∧
        (∀ b, memGet t.mem b =
          if scrAddr (coreOf s.h.gid) (p * 524288) ≤ b ∧ b < scrAddr (coreOf s.h.gid) ((p + 1) * 524288) then 0
          else memGet s.mem b) ∧ t.others = s.others)

/-- R249: `slab` give. -/
def Sys2Proof.Parts.SlabGive : Prop :=
  ∀ (s : State) (d : Reg), s.Plain → s.h.cmds = [] →
    (s.h.slabs = [] → exec (.slabGive d) s = .next (putX s d (-1)).retired) ∧
    (s.h.slabs ≠ [] → exec (.slabGive d) s = .next (putX { s with h := { s.h with slabs := s.h.slabs.dropLast } } d
      (BitVec.ofNat 64 (s.h.slabs.length - 1))).retired)

/-! ### Pips -/

/-- R276, R280: `ppin` of a live vector register, no line of the region being uncorrectable: a line that the region holds gains a
reference; a new name gets a line of its own. -/
def Sys2Proof.Parts.PipPin : Prop :=
  ∀ (s : State) (d a b : Reg) (r : Nat),
    let g := regionGet s r
    let v := vPhys s.h a.toNat
    let data : BitVec 1024 := (vImg s.h v).setWidth 1024
    let name := pipName g.key false data
    let first := if name = 0 then 1 else 0
    s.Plain → s.Uncounted → s.MapsRegion (xGet s.h b) r → r < 256 → g.en = true → g.context = s.h.ctxid → g.pending = [] →
    bindingOf s.h v = none → isDead s.h v = false → (∀ l ∈ g.lines, lineBad s r g l.pip = false) →
    (∀ j, first ≤ j → j < 256 → (∃ l ∈ g.lines, l.pip = pipOf name j ∧ l.inner = false ∧ l.data = data) →
      (∀ k, first ≤ k → k < j → ¬ ∃ l ∈ g.lines, l.pip = pipOf name k ∧ l.inner = false ∧ l.data = data) →
      exec (.ppin d a b) s = .next (pipPut (regionPut s r (g.inc (pipOf name j))) d (pipOf name j)).retired) ∧
    ((∀ l ∈ g.lines, ∀ j < 256, l.pip ≠ pipOf name j) → (g.quota = 0 ∨ g.lines.length < g.quota.toNat) →
      storeFull s g.home = false → exec (.ppin d a b) s =
        .next (pipPut (regionPut s r { g with lines := g.lines ++ [⟨pipOf name first, false, data, 1⟩] }) d
          (pipOf name first)).retired)

/-- R281: `pnode` of a line whose children the region holds, under a new name: the line is made, and each child gains a
reference. -/
def Sys2Proof.Parts.PipNode : Prop :=
  ∀ (s : State) (d a b : Reg) (r : Nat),
    let g := regionGet s r
    let v := vPhys s.h a.toNat
    let data : BitVec 1024 := (vImg s.h v).setWidth 1024
    let name := pipName g.key true data
    let first := if name = 0 then 1 else 0
    s.Plain → s.Uncounted → s.MapsRegion (xGet s.h b) r → r < 256 → g.en = true → g.context = s.h.ctxid → g.pending = [] →
    bindingOf s.h v = none → isDead s.h v = false → (∀ l ∈ g.lines, lineBad s r g l.pip = false) →
    (∀ i < 8, data.extractLsb' (128 * i) 128 = 0 ∨ ∃ l ∈ g.lines, l.pip = data.extractLsb' (128 * i) 128) →
    (∀ l ∈ g.lines, ∀ j < 256, l.pip ≠ pipOf name j) → (g.quota = 0 ∨ g.lines.length < g.quota.toNat) →
    storeFull s g.home = false →
    ∃ t, exec (.pnode d a b) s = .next t ∧ t.h = (pipPut s d (pipOf name first)).retired.h ∧
      (regionGet t r).lines = (((List.range 8).map (fun i => data.extractLsb' (128 * i) 128)).filter (· ≠ 0)).foldl
        (fun ls p => ls.map (fun l => if l.pip = p then { l with count := min (l.count + 1) 0xFFFFFFFF } else l))
        (g.lines ++ [⟨pipOf name first, true, data, 1⟩]) ∧ t.mem = s.mem ∧ t.others = s.others

/-- R282, R374: `pread` of a line, and of the null pip: bytes 0 to 127 of vD; of a line in which a word is uncorrectable, a machine
check. Where a line stands in its store is free (log 64). -/
def Sys2Proof.Parts.PipRead : Prop :=
  ∀ (s : State) (d a b : Reg) (r : Nat),
    let g := regionGet s r
    let v := vPhys s.h d.toNat
    let pip := pipGet s.h a
    s.Plain → s.Uncounted → s.MapsRegion (xGet s.h b) r → r < 256 → g.en = true → g.context = s.h.ctxid → g.pending = [] →
    bindingOf s.h v = none → v ≠ 0 →
    (∀ l, g.find pip = some l → lineBad s r g pip = true → inh s.h = false →
      ∃ t, exec (.pread d a b) s = .next t ∧ Trapped s t 21 (xGet s.h b) 2) ∧
    ∀ data : BitVec 1024, (pip = 0 ∧ data = 0 ∨ ∃ l, g.find pip = some l ∧ lineBad s r g pip = false ∧ l.data = data) →
      ∃ t, exec (.pread d a b) s = .next t ∧ t.h.pc = seqNext s.h.pc ∧ isDead t.h v = false ∧
        (vImg t.h v).setWidth 1024 = data ∧
        vImg t.h v >>> (1024 : Nat) = (if isDead s.h v then (0 : VImage) else vImg s.h v >>> (1024 : Nat)) ∧
        (∀ n, n ≠ v → vImg t.h n = vImg s.h n ∧ isDead t.h n = isDead s.h n) ∧ t.h.x = s.h.x ∧
        regionGet t r = g ∧ t.mem = s.mem

/-- R277, R278, R283: `pinc` and `pdec`. A line whose count falls to 0 goes, and its children's decrements wait for the
pip unit. -/
def Sys2Proof.Parts.PipCount : Prop :=
  ∀ (s : State) (d a b : Reg) (r : Nat),
    let g := regionGet s r
    let pip := pipGet s.h a
    s.Plain → s.Uncounted → s.MapsRegion (xGet s.h b) r → r < 256 → g.en = true → g.context = s.h.ctxid → g.pending = [] →
    (g.find pip = none → exec (.pinc d a b) s = .next (putX (regionPut s r g) d (-1)).retired ∧
      exec (.pdec d a b) s = .next (putX (regionPut s r g) d (-1)).retired) ∧
    (∀ l, g.find pip = some l →
      exec (.pinc d a b) s = .next (putX (regionPut s r { g with lines := g.lines.map (fun m =>
        if m.pip = pip then { m with count := min (m.count + 1) 0xFFFFFFFF } else m) }) d
          (BitVec.ofNat 64 (min (l.count + 1) 0xFFFFFFFF))).retired) ∧
    (∀ l, g.find pip = some l → 1 < l.count → l.count < 0xFFFFFFFF →
      exec (.pdec d a b) s = .next (putX (regionPut s r { g with lines := g.lines.map (fun m =>
        if m.pip = pip then { m with count := m.count - 1 } else m) }) d (BitVec.ofNat 64 (l.count - 1))).retired) ∧
    (∀ l, g.find pip = some l → l.count = 1 →
      exec (.pdec d a b) s = .next (putX (regionPut s r { g with
        lines := g.lines.filter (fun m => m.pip ≠ pip)
        pending := if l.inner then ((List.range 8).map (fun i => l.data.extractLsb' (128 * i) 128)).filter (· ≠ 0)
          else [] }) d 0).retired) ∧
    (∀ l, g.find pip = some l → l.count = 0xFFFFFFFF →
      exec (.pdec d a b) s = .next (putX (regionPut s r g) d 0xFFFFFFFF).retired)

/-- R277, R278: the pip unit makes the decrements that wait, depth-first, and none is left: each takes one from the count of
its line, 0xFFFFFFFF stays, a line whose count falls to 0 goes and its children that are not null are decremented before the
others that wait; every other line stays as it is. -/
def Sys2Proof.Parts.PipCascade : Prop :=
  ∀ (s : State) (r : Nat), (regionGet s r).pending ≠ [] →
    ∃ ls, Rules.Decrements (regionGet s r).lines (regionGet s r).pending ls ∧
      exec (.pipCascade r) s = .next (regionPut s r { regionGet s r with lines := ls, pending := [] })

/-- R284: `pswap` exchanges the root word if it is the expected one, and returns what it held. -/
def Sys2Proof.Parts.PipSwap : Prop :=
  ∀ (s : State) (d a b c : Reg) (disp : BitVec 32) (p : Nat),
    let ea := xGet s.h a + disp.signExtend 64
    let old : BitVec 128 := BitVec.ofNat 128 (memRead s.mem p 16)
    s.Plain → s.h.cmds = [] → ea.toNat % 16 = 0 → s.Mapped ea 16 p → p < 2 ^ 52 →
    (old = pipGet s.h b → exec (.pswap d a b c disp) s =
      .next (pipPut { s with mem := memWrite s.mem p 16 (pipGet s.h c).toNat } d old).retired) ∧
    (old ≠ pipGet s.h b → exec (.pswap d a b c disp) s = .next (pipPut s d old).retired)

/-! ### Engines -/

/-- R294, R296, R302, R345: a command within its limits takes the lowest free entry with its operands as they are, and the
hart goes on. -/
def Sys2Proof.Parts.EngineAccepts : Prop :=
  ∀ (s : State) (i : Instr) (ops : List Word) (units : Bool), s.Plain → s.h.cmds.length < 64 →
    Rules.engineTakes i s.h = some (ops, units) →
    ∃ t c, exec i s = .next t ∧ t.h.cmds = s.h.cmds ++ [c] ∧ c.instr = i ∧ c.pc = s.h.pc ∧ c.ops = ops ∧
      c.cfg = s.h.mat ∧ c.bankS = decide (s.h.mode = .S) ∧ c.unit = 0 ∧ c.status = 0 ∧ c.flags = 0 ∧
      c.st = (if units then .notBegun else .ended) ∧ c.entry < 64 ∧ (∀ k ∈ s.h.cmds, k.entry ≠ c.entry) ∧
      (∀ e, e < c.entry → ∃ k ∈ s.h.cmds, k.entry = e) ∧ t.h.pc = seqNext s.h.pc ∧ t.h.x = s.h.x ∧ t.h.sx = s.h.sx ∧
      t.h.v = s.h.v ∧ t.h.fibres = s.h.fibres ∧ t.h.flags = s.h.flags ∧ t.mem = s.mem

/-- R325: `pout` of a region that its context may read. -/
def Sys2Proof.Parts.CopyOutAccepts : Prop :=
  ∀ (s : State) (d a b c : Reg) (spC : Space) (sc : Scope) (r : Nat),
    let g := regionGet s r
    s.Plain → s.h.cmds.length < 64 → s.MapsRegion (xGet s.h b) r → r < 256 → g.en = true → g.context = s.h.ctxid →
    (xGet s.h (c + 1)).toNat % 128 = 0 →
    ∃ t k, exec (.pout d a b c spC sc) s = .next t ∧ t.h.cmds = s.h.cmds ++ [k] ∧ k.instr = .pout d a b c spC sc ∧
      k.walk = [pipGet s.h a] ∧ k.st = (if pipGet s.h a = 0 then .ended else .notBegun) ∧ k.unit = 0 ∧ k.count = 0 ∧
      t.h.pc = seqNext s.h.pc ∧ t.h.x = s.h.x ∧ t.mem = s.mem

/-- R302: a full table stalls the issue of any command. -/
def Sys2Proof.Parts.EngineTableFull : Prop :=
  ∀ (s : State) (i : Instr) (ops : List Word) (units : Bool), s.Uncounted → Rules.engineTakes i s.h = some (ops, units) →
    (∀ e, e < 64 → ∃ k ∈ s.h.cmds, k.entry = e) → exec i s = .next (s.waits .stall)

/-- R294, R340: a register value outside its limits is an illegal instruction at issue, and nothing is accepted. -/
def Sys2Proof.Parts.EngineLimit : Prop :=
  ∀ (s : State) (i : Instr), s.h.replay = none → inh s.h = false →
    ((∃ d a b c spA spB sc, i = .cpy d a b c spA spB sc ∧ 2 ^ 40 < (xGet s.h c).toNat) ∨
      (∃ d a b c spA spB tag sc, i = .dput d a b c spA spB tag sc ∧
        ((xGet s.h c).toNat % 8 ≠ 0 ∨ (xGet s.h c).toNat < 8 ∨ 65536 < (xGet s.h c).toNat)) ∨
      (∃ d a b c spA spC tag sc, i = .dclose d a b c spA spC tag sc ∧
        ((xGet s.h b).toNat = 0 ∨ 4096 < (xGet s.h b).toNat)) ∨
      (∃ f b c sp code, i = .fopen f b c sp code ∧ 2 ^ 32 ≤ (xGet s.h c).toNat)) →
    ∃ t, exec i s = .next t ∧ t.h.scause = 1 ∧ t.h.stval2 = 2 ∧ t.h.sepc = s.h.pc ∧ t.h.cmds = s.h.cmds ∧
      t.h.fibres = s.h.fibres ∧ t.h.x = s.h.x

/-- R308: `tchk` reads whether a register is pending and never stalls. -/
def Sys2Proof.Parts.TokenCheck : Prop :=
  ∀ (s : State) (d a : Reg), s.Plain →
    exec (.tchk d a) s = .next (putX s d (if a ≠ 0 ∧ xName (s.h.mode == .S) a.toNat ∈ s.h.cmds.flatMap pendNames then 0
      else 1)).retired

/-- R309, R310: `mshape` and `mstride`. -/
def Sys2Proof.Parts.MatrixConfiguration : Prop :=
  ∀ (s : State) (d a b : Reg) (ta tb : Bool),
    let m := min ((xGet s.h a).setWidth 16).toNat 128
    let n := min ((xGet s.h a).extractLsb' 16 16).toNat 128
    let k := (xGet s.h a).extractLsb' 32 32
    s.Plain →
    exec (.mshape d a) s = .next (putX { s with h := { s.h with mat := { s.h.mat with m := m, n := n, k := k } } } d
      (BitVec.ofNat 64 (m + n * 2 ^ 16 + k.toNat * 2 ^ 32))).retired ∧
    exec (.mstride a b ta tb) s = .next { s with h := { s.h with mat := { s.h.mat with
      sa := (xGet s.h a).setWidth 32, sb := (xGet s.h b).setWidth 32, ta := ta, tb := tb } } }.retired

/-- R317: `fopen`, `fend` and `fclose`. -/
def Sys2Proof.Parts.FibreRegisters : Prop :=
  ∀ (s : State) (d b c : Reg) (f : BitVec 3) (sp : Space) (code : BitVec 2), s.Plain →
    ((xGet s.h c).toNat < 2 ^ 32 → (code = 0 → (xGet s.h b).toNat % 4 = 0) →
      exec (.fopen f b c sp code) s = .next (fibrePut s f.toNat
        { opened := true, code := code, space := sp, pos := 0, base := xGet s.h b, count := (xGet s.h c).setWidth 32
          cursor := 0, soff := 0 }).retired) ∧
    ((fibreGet s.h f.toNat).opened = true →
      exec (.fend d f) s = .next (putX s d
        (if (fibreGet s.h f.toNat).count.toNat ≤ (fibreGet s.h f.toNat).cursor.toNat then 1 else 0)).retired ∧
      exec (.fclose f) s = .next (fibrePut s f.toNat Fibre.closed).retired)

/-- R316, R317: `fadv` in an open fibre of plain positions, mapped and ascending from CURSOR: it stops at the first one not
below xB, the `j`-th from there. -/
def Sys2Proof.Parts.FibreAdvance : Prop :=
  ∀ (s : State) (d b : Reg) (f : BitVec 3) (p j : Nat),
    let g := fibreGet s.h f.toNat
    let at_ (k : Nat) : Nat := memRead s.mem (p + 4 * (g.cursor.toNat + k)) 4
    s.Plain → s.Uncounted → s.h.cmds = [] → g.opened = true → g.code = 0 → g.space = .G →
    s.Mapped g.base (4 * g.count.toNat) p → g.cursor.toNat + j < g.count.toNat →
    (g.cursor ≠ 0 → g.pos.toNat < at_ 0) → (∀ k, k < j → at_ k < at_ (k + 1)) → (∀ k, k < j → at_ k < (xGet s.h b).toNat) →
    (xGet s.h b).toNat ≤ at_ j →
    exec (.fadv d f b) s = .next (putX (fibrePut s f.toNat (if j = 0 then g else { g with
      cursor := g.cursor + BitVec.ofNat 32 j, pos := BitVec.ofNat 32 (at_ (j - 1))
      soff := BitVec.ofNat 64 (32 * (g.cursor.toNat + j)) })) d (BitVec.ofNat 64 (at_ j))).retired

/-- R323: `dwait` returns a slot word with VALID set, and parks at one without it. -/
def Sys2Proof.Parts.DispatchWait : Prop :=
  ∀ (s : State) (d a : Reg) (sc : Scope) (p : Nat),
    let w : Word := BitVec.ofNat 64 (memRead s.mem p 8)
    s.Plain → s.h.cmds = [] → (xGet s.h a).toNat % 8 = 0 → s.Mapped (xGet s.h a) 8 p →
    exec (.dwait d a .G sc) s = .next (if w.getLsbD 63 then (putX s d w).retired else s.waits (.dwait .G (xGet s.h a)))

/-- R387: `nid`. -/
def Sys2Proof.Parts.NodeNumber : Prop :=
  ∀ (s : State) (d : Reg), s.Plain → s.h.gid < 768 →
    ∃ w : Word, exec (.nid d) s = .next (putX s d w).retired ∧ (w.extractLsb' 0 3).toNat = s.h.gid % 8 ∧
      (w.extractLsb' 3 5).toNat = s.h.gid / 8 % 24 ∧ (w.extractLsb' 8 2).toNat = s.h.gid / 192 ∧
      w.extractLsb' 10 10 = s.d.devid ∧ w.extractLsb' 20 44 = 0

/-! ### The supervisor -/

/-- R354: `csrrd`, and `csrwr`, which returns the old value; and how the supervisor registers keep what is written to
them. -/
def Obligations.SupervisorRegisters : Prop :=
  ∀ (s : State) (d a : Reg) (csr : BitVec 12), s.Plain →
    exec (.csrrd d csr) s = .next (putX s d (csrRead s s.h csr.toNat)).retired ∧
    ∃ h, exec (.csrwr d csr a) s = .next (putX { s with h := h } d (csrRead s s.h csr.toNat)).retired ∧
      csrRead { s with h := h } h csr.toNat = Rules.csrKeeps s.h.vlcap csr.toNat (csrRead s s.h csr.toNat) (xGet s.h a) ∧
      (∀ j, j ≠ csr.toNat → csrRead { s with h := h } h j = csrRead s s.h j) ∧
      h.x = s.h.x ∧ h.sx = s.h.sx ∧ h.v = s.h.v ∧ h.w = s.h.w ∧ h.loops = s.h.loops ∧ h.mode = s.h.mode

/-- R337, R338, R340, R356: `ecall` and `ebreak` take a trap of causes 19 and 18 that resumes after them. -/
def Sys2Proof.Parts.SupervisorCall : Prop :=
  ∀ (s : State) (i : Instr), s.h.replay = none → inh s.h = false → (i = .ecall ∨ i = .ebreak) →
    ∃ t, exec i s = .next t ∧ t.h.mode = .S ∧ t.h.pc = s.h.svec ∧ t.h.xfer = none ∧ t.h.sepc = seqNext s.h.pc ∧
      t.h.scause = (if i = .ecall then 19 else 18) ∧ t.h.stval = s.h.pc ∧
      t.h.stval2 = (if i = .ecall ∧ s.h.mode = .S then 1 else 0) ∧ t.h.svstart = s.h.vstart ∧ t.h.vstart = 0 ∧
      t.h.sstatus.getLsbD 5 = true ∧ t.h.sstatus.getLsbD 4 = decide (s.h.mode = .S) ∧ t.h.sstatus.getLsbD 6 = false ∧
      t.h.sstatus.getLsbD 3 = s.h.sstatus.getLsbD 3 ∧ t.h.fmask = s.h.fmask ∧ t.h.x = s.h.x ∧ t.h.sx = s.h.sx ∧
      t.h.v = s.h.v ∧ t.h.dead = s.h.dead ∧ t.h.w = s.h.w ∧ t.h.loops = s.h.loops ∧ t.h.arms = s.h.arms ∧
      t.h.armsp = s.h.armsp ∧ t.h.cbase = s.h.cbase ∧ t.h.vl = s.h.vl ∧ t.h.flags = s.h.flags ∧ t.h.binds = s.h.binds ∧
      t.h.cmds = s.h.cmds ∧ StalledMarked s t

/-- R338, R340, R341, R220: a precise trap with INH clear writes SEPC, SCAUSE (the cause, and F, E and OVF at bits 13 to 15),
STVAL, STVAL2, SVSTART and SSTATUS and enters the handler in S mode, and of everything else only a STALLED bit and FMASK
change; with INH set the hart ends with status 0xFF once its commands have. -/
def Sys2Proof.Parts.TrapEntry : Prop :=
  ∀ (s : State) (t : Trap), s.h.replay = none → t.imprecise = false → s.Uncounted →
    let u := takeTrap s t
    (inh s.h = false →
      u.h = { s.h with
        sepc := t.pc.getD s.h.pc
        scause := BitVec.ofNat 64 (t.code + (if t.f then 2 ^ 13 else 0) + (if t.e then 2 ^ 14 else 0) + (if t.ovf then 2 ^ 15 else 0))
        stval := t.val, stval2 := t.val2, svstart := s.h.vstart, vstart := 0, sstatus := u.h.sstatus
        fmask := t.fmask.getD s.h.fmask, mode := .S, pc := s.h.svec, xfer := none, second := false, fmrun := false
        sending := none, run := .running } ∧
      (∀ k, u.h.sstatus.getLsbD k =
        if k = 4 then decide (s.h.mode = .S) else if k = 5 then true
        else if k = 6 then decide (t.f = false ∧ ∃ m, t.fmask = some m ∧ m ≠ 0)
        else if k = 7 then s.h.sstatus.getLsbD 7 || s.h.stop.isSome
        else s.h.sstatus.getLsbD k) ∧
      u.others = s.others ∧ u.d.recs = s.d.recs ∧ u.d.queues = s.d.queues ∧ u.d.regions = s.d.regions ∧ u.d.frq = s.d.frq ∧
      StalledMarked s u) ∧
    (inh s.h = true → u = { s with h := { s.h with run := .parked .hexit, ending := some 0xFF, second := false } })

/-- R355, R344: `tret` resumes the interrupted code: the mode SPP at SEPC with VSTART from SVSTART, INH and PPEND clear, FMASK
in force if FMR is set and zero otherwise, and all else as it was. -/
def Sys2Proof.Parts.TrapReturn : Prop :=
  ∀ (s : State), s.Alone →
    ∃ t, exec .tret s = .next t ∧ t = { s with h := { s.h with
        mode := if s.h.sstatus.getLsbD 4 then .S else .U
        pc := s.h.sepc, xfer := some s.h.pc, second := false, run := .running, vstart := s.h.svstart
        fmrun := s.h.sstatus.getLsbD 6, fmask := if s.h.sstatus.getLsbD 6 then s.h.fmask else 0
        sstatus := s.h.sstatus &&& ~~~ 0xA0 } }

/-- R343, R357: `frqpop` stores the hart's oldest fault record and removes it. -/
def Sys2Proof.Parts.FaultRecordPop : Prop :=
  ∀ (s : State) (d a : Reg) (disp : BitVec 32) (p : Nat),
    let ea := xGet s.h a + disp.signExtend 64
    s.Plain → s.Inv → s.h.cmds = [] → s.h.gid < 768 → ea.toNat % 32 = 0 →
    (frqOf s s.h.gid = [] → exec (.frqpop d a disp) s = .next (putX s d (-1)).retired) ∧
    (∀ r rest, frqOf s s.h.gid = r :: rest → s.Mapped ea 32 p →
      ∃ t, exec (.frqpop d a disp) s = .next t ∧ t.h = (putX s d (BitVec.ofNat 64 rest.length)).retired.h ∧
        frqOf t s.h.gid = rest ∧ memRead t.mem p 8 = r.pc.toNat ∧ memRead t.mem (p + 8) 8 = r.va.toNat ∧
        memRead t.mem (p + 16) 4 = r.elem.toNat ∧ memRead t.mem (p + 20) 2 = r.weight.toNat ∧
        memRead t.mem (p + 22) 1 = r.kind % 256 ∧ memRead t.mem (p + 23) 1 = r.cause % 256 ∧
        memRead t.mem (p + 28) 4 = r.seq.toNat ∧ SameOutside s.mem t.mem p 32)

/-- R358: `replay` runs the instruction at SEPC in the mode SPP; when that instruction retires, it hands back where it
went and writes 0. Here the instruction is `nop`. -/
def Sys2Proof.Parts.Replay : Prop :=
  ∀ (s : State) (d : Reg), s.Uncounted → s.h.replay = none → s.h.fmrun = false → endLevel s.h = none →
    (s.h.scause.getLsbD 13 = true → exec (.replay d) s = .next (putX { s with h := { s.h with vstart := 0 } } d (-1)).retired) ∧
    (s.h.scause.getLsbD 13 = false →
      exec (.replay d) s = .next { s with h := { s.h with
        replay := some ⟨d, s.h.pc⟩, mode := (if s.h.sstatus.getLsbD 4 then .S else .U), pc := s.h.sepc
        vstart := s.h.svstart, fmrun := s.h.sstatus.getLsbD 6, xfer := none, second := false } }) ∧
    (∀ fr, endLevel s.h = none →
      let u : State := { s with h := { s.h with replay := some fr } }
      ∃ t, exec .nop u = .next t ∧ t.h.mode = .S ∧ t.h.pc = seqNext fr.pc ∧ t.h.sepc = seqNext s.h.pc ∧
        t.h.svstart = 0 ∧ t.h.vstart = 0 ∧ t.h.replay = none ∧ t.h.sstatus.getLsbD 6 = false ∧
        inh t.h = inh s.h ∧ xGetIn t.h .S fr.rd.toNat = 0 ∧ t.h.stval = s.h.stval ∧ t.h.scause = s.h.scause)

/-- R358: a trap of the instruction that `replay` runs enters no handler: the S-mode registers are written, SEPC is not,
and `replay` retires with the cause. -/
def Sys2Proof.Parts.ReplayTrap : Prop :=
  ∀ (s : State) (fr : Frame) (t : Trap), s.h.replay = some fr → t.imprecise = false → t.code < 256 →
    let u := takeTrap s t
    u.h.sepc = s.h.sepc ∧ u.h.scause = scauseOf t ∧ u.h.stval = t.val ∧ u.h.stval2 = t.val2 ∧ u.h.svstart = s.h.vstart ∧
      u.h.vstart = 0 ∧ u.h.mode = .S ∧ u.h.pc = seqNext fr.pc ∧ u.h.replay = none ∧ inh u.h = inh s.h ∧
      (fr.rd ≠ 0 → xGetIn u.h .S fr.rd.toNat = BitVec.ofNat 64 t.code)

/-- R359, R384: `tlbinv` drops the entries and the held absences of its context, page or context number in its scope, and no
others; R336: the harts of that context in that scope walk from their CTXROOT from then on. -/
def Sys2Proof.Parts.TranslationDrop : Prop :=
  ∀ (s : State) (a b : Reg) (sc : Scope) (mode : BitVec 2), s.Plain → mode ≠ 3 →
    let own := coreOf s.h.gid
    let ctx : BitVec 16 := if mode = 2 then (xGet s.h b).setWidth 16 else s.h.ctxid
    let drops (core : Nat) (c : BitVec 16) (page size : Nat) : Prop := Rules.reaches sc own core ∧ c = ctx ∧
      (mode = 0 → page = (xGet s.h a).toNat % 2 ^ 57 / 2 ^ pageShift size)
    ∃ t : State, exec (.tlbinv a b sc mode) s = .next t.retired ∧
      t = { s with h := t.h, others := t.others, d := { s.d with tlb := t.d.tlb, absent := t.d.absent } } ∧
      (∀ e, e ∈ t.d.tlb ↔ e ∈ s.d.tlb ∧ ¬ drops e.core e.ctx e.page e.size) ∧
      (∀ e, e ∈ t.d.absent ↔ e ∈ s.d.absent ∧ ¬ drops e.core e.ctx e.page 0) ∧
      t.h = { s.h with walkroot := if s.h.ctxid = ctx then s.h.ctxroot else s.h.walkroot } ∧
      t.others.length = s.others.length ∧ ∀ (k : Nat) (o : Hart), s.others[k]? = some o → ∃ o' : Hart, t.others[k]? = some o' ∧
        (Rules.reaches sc own (coreOf o.gid) ∧ o.ctxid = ctx → o' = { o with walkroot := o.ctxroot }) ∧
        (¬ (Rules.reaches sc own (coreOf o.gid) ∧ o.ctxid = ctx) → o' = o)

/-- R360: `ringrd` of the hart's own retire trace. -/
def Sys2Proof.Parts.RetireTraceRead : Prop :=
  ∀ (s : State) (d a b : Reg) (disp : BitVec 32) (p : Nat),
    let ea := xGet s.h b + disp.signExtend 64
    let k := ((xGet s.h a).extractLsb' 32 8).toNat
    s.Plain → s.h.cmds = [] → s.h.gid < 768 → hartExists s.h = true → s.h.ring.length ≤ 256 →
    ((xGet s.h a).setWidth 20).toNat = nodeOf s.d.devid s.h.gid → ea.toNat % 32 = 0 → s.Mapped ea 32 p →
    (s.h.ringsince ≤ k → exec (.ringrd d a b disp) s = .next (putX s d (-1)).retired) ∧
    (∀ e, k < s.h.ringsince → s.h.ring[k]? = some e →
      exec (.ringrd d a b disp) s = .next (putX { s with mem := memWrite s.mem p 32 e.toNat } d 0).retired)

/-- R363: `wfi`. -/
def Sys2Proof.Parts.WaitForInterrupt : Prop :=
  ∀ (s : State), s.Plain →
    exec .wfi s = .next (if s.h.sip &&& s.h.sie = 0 then s.waits .wfi else s.retired)

/-- R361, R349, R350: `ctxsave` stores the context that `tret` would resume and returns its size, and takes the hart's fault
records with it: the header, the directory, and the sections one after another from multiples of 64, with the fields of R350
at their offsets. What MEMBER and the attachments hold beyond R349 is the model's choice (log 12). -/
def Sys2Proof.Parts.ContextSaved : Prop :=
  ∀ (s s1 : State) (d a : Reg) (slabs ring : Bool) (disp : BitVec 32),
    let ea := xGet s.h a + disp.signExtend 64
    let g := savedHart s.h
    let (x, n) := contextBits s g (liveParts s s.h) slabs ring
    let at_ (o k : Nat) : Nat := x / 2 ^ (8 * o) % 2 ^ (8 * k)
    let nsec := 10 + (if slabs then 2 else 0) + (if ring then 1 else 0)
    let size (k : Nat) : Nat := at_ (64 + 16 * k + 4) 4
    let off (k : Nat) : Nat := at_ (64 + 16 * k + 8) 8
    let sc (o k : Nat) : Nat := at_ (off 0 + o) k
    let lanes := min s.h.lanes (liveLanes s.d.retired s.h.gid s.h.clusters)
    s.Plain → s.Inv → s.h.cmds = [] → s.h.gid < 768 → s.h.clusters < 256 → s.h.lanes ≤ 32 → s.h.vlcap ≤ 24576 →
    s.h.slabs.length ≤ 16 → s.h.tiles.length ≤ 8 → s.h.armsp ≤ 8 → (frqOf s s.h.gid).length ≤ 65536 → s.h.pend.length ≤ 256 →
    (∀ p ∈ s.h.pend, ∀ c, p.cmd = some c → (attachBytes c true []).length ≤ 2 ^ 20) →
    s.h.barWait.length ≤ 65536 → s.h.binds.length ≤ 4 →
    (at_ 0 4 = 0x1A585443 ∧ at_ 4 1 = 1 ∧ at_ 5 1 = 0 ∧ at_ 8 8 = n ∧ at_ 16 2 = nsec ∧ at_ 18 1 = lanes ∧
      at_ 19 1 = s.h.clusters ∧ at_ 20 4 = nodeOf s.d.devid s.h.gid ∧ at_ 24 2 = s.h.ctxid.toNat ∧ at_ 26 38 = 0) ∧
    (off 0 = (64 + 16 * nsec + 63) / 64 * 64 ∧ off (nsec - 1) + size (nsec - 1) ≤ n ∧
      ∀ k, k < nsec → at_ (64 + 16 * k) 2 = (if slabs = false ∧ k = 10 then 13 else k + 1) ∧ at_ (64 + 16 * k + 2) 2 = 0 ∧
        (k + 1 < nsec → off (k + 1) = (off k + size k + 63) / 64 * 64)) ∧
    (size 0 = 1024 ∧ size 1 = (liveRegs s.h.dead).length * (lanes * 768) ∧ size 2 = 48 * s.h.vlcap ∧
      size 3 = 256 + 40 * s.h.vlcap ∧ size 4 = 8 * ((s.h.vlcap + 63) / 64) ∧ size 5 = 272 ∧ size 7 = 128 ∧
      size 8 = 32 * (frqOf s s.h.gid).length ∧ size 9 = 64 ∧
      (slabs = true → size 10 = 524288 * s.h.slabs.length ∧ size 11 = 65536 * s.h.tiles.length) ∧
      (ring = true → size (nsec - 1) = 8192)) ∧
    ((∀ r, r < 64 → sc (8 * r) 8 = (xGetIn s.h .U r).toNat) ∧ (∀ r, 1 ≤ r → r ≤ 4 → sc (504 + 8 * r) 8 = (xGetIn s.h .S r).toNat) ∧
      sc 544 8 = s.h.sepc.toNat ∧ sc 552 8 = s.h.linkpc.toNat ∧ sc 560 8 = s.h.flags.toNat ∧ sc 568 8 = s.h.fenable.toNat ∧
      sc 576 8 = s.clk % 2 ^ 64 ∧ sc 584 8 = s.h.dead.toNat ∧ sc 592 8 = s.h.opened.toNat ∧ sc 600 2 = s.h.vl % 2 ^ 16 ∧
      sc 602 2 = s.h.vlcap ∧ sc 604 2 = s.h.svstart % 2 ^ 16 ∧ sc 606 2 = s.h.ffi % 2 ^ 16 ∧ sc 608 2 = s.h.theta.toNat ∧
      sc 610 2 = s.h.floor.toNat ∧ sc 612 1 = s.h.rmode.toNat ∧ sc 613 1 = s.h.space.toNat ∧ sc 614 1 = s.h.cbase.toNat ∧
      sc 615 1 = s.h.armsp ∧ sc 616 4 = s.h.efr.toNat ∧ sc 620 1 = (if s.h.sstatus.getLsbD 4 then 1 else 0) ∧ sc 621 3 = 0 ∧
      sc 624 8 = s.h.sstatus.toNat ∧ sc 632 8 = s.h.svec.toNat ∧ sc 640 8 = s.h.sepc.toNat ∧ sc 648 8 = s.h.scause.toNat ∧
      sc 656 8 = s.h.stval.toNat ∧ sc 664 8 = s.h.stval2.toNat ∧
      (∀ k, k < 4 → sc (672 + 8 * k) 8 = (s.h.sscratch.toList.getD k 0).toNat) ∧ sc 704 8 = s.h.sie.toNat ∧
      sc 712 8 = s.h.sip.toNat ∧ sc 720 8 = s.h.ctxroot.toNat ∧ sc 728 8 = s.h.ringctl.toNat ∧ sc 736 8 = s.h.ringpos.toNat ∧
      sc 744 8 = s.h.svstart % 2 ^ 64 ∧ sc 752 272 = 0) ∧
    ((∀ k r, (liveRegs s.h.dead)[k]? = some r →
        at_ (off 1 + k * (lanes * 768)) (lanes * 768) = (vImg s.h r).toNat % 2 ^ (8 * (lanes * 768))) ∧
      (∀ r i, r < 24 → i < s.h.vlcap → at_ (off 2 + 2 * (s.h.vlcap * r + i)) 2 = wRaw (wGet s.h r) i) ∧
      (∀ L i, L < 4 → i < s.h.vlcap → at_ (off 3 + 256 + 2 * (s.h.vlcap * L + i)) 2 = wRaw (lvlGet s.h L).saved i) ∧
      (∀ L, L < 4 → at_ (off 3 + 32 * L) 8 = (lvlGet s.h L).count.toNat ∧ at_ (off 3 + 32 * L + 8) 8 = (lvlGet s.h L).top.toNat ∧
        at_ (off 3 + 32 * L + 16) 8 = (lvlGet s.h L).tail.toNat) ∧
      (∀ e i, e < 8 → i < s.h.vlcap →
        at_ (off 3 + 256 + 2 * (s.h.vlcap * (4 + 2 * e) + i)) 2 = wRaw (s.h.arms.toList.getD e Arm.zero).sa i ∧
        at_ (off 3 + 256 + 2 * (s.h.vlcap * (5 + 2 * e) + i)) 2 = wRaw (s.h.arms.toList.getD e Arm.zero).sc i) ∧
      (∀ i, i < s.h.vlcap → (at_ (off 4 + i / 8) 1).testBit (i % 8) = s.h.fmask.getLsbD i) ∧
      at_ (off 5) 1 = s.h.mat.m % 256 ∧ at_ (off 9) 8 = s.h.fgen.toNat) ∧
    (ea.toNat % 64 = 0 → writeRun s s.h .G ea n x = (s1, none) →
      (∃ t, exec (.ctxsave d a slabs ring disp) s = .next t ∧ t.h = (putX s1 d (BitVec.ofNat 64 n)).retired.h ∧
        t.mem = s1.mem ∧ frqOf t s1.h.gid = []) ∧
      ∀ p, s.Mapped ea n p → memRead s1.mem p n = x ∧ SameOutside s.mem s1.mem p n)

/-- R349, R362: `ctxload` of the bytes that `ctxsave` of another hart stored makes that hart's state its own: every register,
the loop and arm state, the engines' configuration, the barrier words and the fault records, as `tret` would have resumed
them. The sections that do not hold grants say nothing of the grants, which stay. -/
def Sys2Proof.Parts.ContextLoaded : Prop :=
  ∀ (s u : State) (a : Reg) (disp : BitVec 32) (ring : Bool),
    let ea := xGet u.h a + disp.signExtend 64
    let h := s.h
    let (x, n) := contextBits s (savedHart h) (liveParts s h) false ring
    let lanes := min h.lanes (liveLanes s.d.retired h.gid h.clusters)
    Rules.Savable h → h.cmds = [] → h.binds = [] → h.gid < 768 →
    u.h.cmds = [] → u.h.stop = none → u.h.gid < 768 → u.h.ctxid = h.ctxid → ea.toNat % 64 = 0 →
    (∀ o m, o + m ≤ n → readRun u u.h .G (ea + BitVec.ofNat 64 o) m = .ok (x / 2 ^ (8 * o) % 2 ^ (8 * m), u)) →
    lanes ≤ liveLanes u.d.retired u.h.gid u.h.clusters → (frqAll u u.h.gid).length + (frqOf s h.gid).length ≤ Config.frqRecords →
    ∃ t, exec (.ctxload a disp) u = .next t ∧ t = { u with h := t.h, d := { u.d with frq := t.d.frq } } ∧
      (∀ r : Nat, r ≠ 0 → r < 64 → t.h.x.toList.getD r 0 = h.x.toList.getD r 0) ∧ t.h.sx = h.sx ∧ t.h.pc = h.sepc ∧
      t.h.mode = (if h.sstatus.getLsbD 4 then .S else .U) ∧ t.h.run = (if h.ending.isSome then .parked .hexit else .running) ∧
      t.h.dead = h.dead &&& ~~~ 1 ∧ t.h.opened = h.opened &&& ~~~ 1 ∧ t.h.vl = h.vl ∧ t.h.vlcap = h.vlcap ∧
      t.h.vstart = h.svstart ∧ t.h.ffi = h.ffi ∧ t.h.theta = h.theta ∧ t.h.floor = h.floor ∧ t.h.rmode = h.rmode ∧
      t.h.efr = h.efr ∧ t.h.space = h.space ∧ t.h.cbase = h.cbase ∧ t.h.armsp = h.armsp ∧ t.h.linkpc = h.linkpc &&& ~~~ 2 ∧
      t.h.flags = h.flags ∧ t.h.fenable = h.fenable ∧ t.h.sstatus = h.sstatus &&& 0x78 ∧ t.h.fmrun = h.sstatus.getLsbD 6 ∧
      t.h.svec = h.svec ∧ t.h.sepc = h.sepc ∧ t.h.scause = h.scause &&& 0xF0FF ∧ t.h.stval = h.stval ∧ t.h.stval2 = h.stval2 ∧
      t.h.sscratch = h.sscratch ∧ t.h.sie = h.sie &&& 3 ∧ t.h.sip = h.sip &&& 3 ∧ t.h.ctxroot = h.ctxroot &&& 0xFFFFFFFFFF000 ∧
      t.h.ringctl = h.ringctl &&& 1 ∧ t.h.ringpos = h.ringpos ∧ t.h.svstart = h.svstart ∧
      (∀ r, r ≠ 0 → r < 64 → isDead h r = false → (vImg t.h r).toNat = (vImg h r).toNat % 2 ^ (8 * (lanes * 768))) ∧
      (∀ r, r < 24 → Rules.Codes h (wGet t.h r) (wCode (wGet h r))) ∧
      (∀ L, L < 4 → { lvlGet t.h L with saved := 0 } = { lvlGet h L with saved := 0 } ∧
        Rules.Codes h (lvlGet t.h L).saved (wCode (lvlGet h L).saved)) ∧
      (∀ e, e < 8 → Rules.Codes h (t.h.arms.toList.getD e Arm.zero).sa (wCode (h.arms.toList.getD e Arm.zero).sa) ∧
        Rules.Codes h (t.h.arms.toList.getD e Arm.zero).sc (wCode (h.arms.toList.getD e Arm.zero).sc)) ∧
      (∀ i, i < h.vlcap → t.h.fmask.getLsbD i = h.fmask.getLsbD i) ∧ t.h.mat = h.mat ∧
      (∀ f : Nat, f < 8 → fibreGet t.h f = if (fibreGet h f).opened then fibreGet h f else Fibre.closed) ∧
      t.h.binds = [] ∧ t.h.cmds = [] ∧ t.h.fgen = h.fgen ∧ t.h.barWord = h.barWord ∧ t.h.barWait = h.barWait ∧
      t.h.ending = h.ending ∧ (h.pend = [] → t.h.pend = []) ∧
      (frqOf t u.h.gid).map (fun r => (r.pc, r.va, r.elem, r.weight, r.seq)) =
        (frqOf s h.gid).map (fun r => (r.pc, r.va, r.elem, r.weight, r.seq)) ∧
      t.h.gid = u.h.gid ∧ t.h.lanes = u.h.lanes ∧ t.h.clusters = u.h.clusters ∧ t.h.slabs = u.h.slabs ∧ t.h.tiles = u.h.tiles ∧
      t.h.record = u.h.record ∧ t.h.ctxid = u.h.ctxid ∧ t.h.walkroot = u.h.walkroot

/-- R362: bytes that are no context, one of another context, and one of more lanes than the hart has, trap and leave the
hart's registers. -/
def Sys2Proof.Parts.ContextRefused : Prop :=
  ∀ (u : State) (a : Reg) (disp : BitVec 32) (x n : Nat),
    let ea := xGet u.h a + disp.signExtend 64
    let live := liveLanes u.d.retired u.h.gid u.h.clusters
    u.h.replay = none → inh u.h = false → ea.toNat % 64 = 0 →
    (∀ o m, o + m ≤ n → readRun u u.h .G (ea + BitVec.ofNat 64 o) m = .ok (x / 2 ^ (8 * o) % 2 ^ (8 * m), u)) →
    (64 ≤ n → x % 2 ^ 32 ≠ 0x1A585443 → ∃ t, exec (.ctxload a disp) u = .next t ∧ Trapped u t 11 ea 0x8FFFFFFFF) ∧
    (∀ (s : State) (ring : Bool), (x, n) = contextBits s (savedHart s.h) (liveParts s s.h) false ring → Rules.Savable s.h →
      s.h.cmds = [] → s.h.binds = [] → s.h.gid < 768 → (frqOf s s.h.gid).length ≤ 65536 →
      (u.h.ctxid ≠ s.h.ctxid → ∃ t, exec (.ctxload a disp) u = .next t ∧ Trapped u t 11 ea 0x8FFFFFFFF) ∧
      (u.h.ctxid = s.h.ctxid → live < min s.h.lanes (liveLanes s.d.retired s.h.gid s.h.clusters) →
        ∃ t, exec (.ctxload a disp) u = .next t ∧ Trapped u t 20
          (BitVec.ofNat 64 (min s.h.lanes (liveLanes s.d.retired s.h.gid s.h.clusters))) (BitVec.ofNat 64 live)))

/-! ### Vector instructions -/

/-- R134 to R142, R144, R180: the arithmetic of OP 0x40 and 0x41, and the joins. -/
def Obligations.VectorArithmetic : Prop := ∀ (i : Instr) (r : Rules.Row), Rules.arithRow i = some r → r.Holds i

/-- R183 to R185: its exceptions. -/
def Sys2Proof.Parts.ElementExceptions : Prop := ∀ (i : Instr) (r : Rules.Row), Rules.arithRow i = some r → r.Excepts i

/-- R143, R145, R156: integer operations and conversions. -/
def Obligations.VectorConversions : Prop :=
  ∀ (i : Instr) (r : Rules.Row), Rules.intRow i = some r ∨ Rules.convRow i = some r → r.Holds i

/-- R169 to R173, R181: weight instructions. -/
def Obligations.VectorWeights : Prop := ∀ (i : Instr) (r : Rules.Row), Rules.weightRow i = some r → r.Holds i

/-- R146, R150 to R155: comparing, selecting and moving. -/
def Obligations.VectorMoves : Prop := ∀ (i : Instr) (r : Rules.Row), Rules.moveRow i = some r → r.Holds i

/-- R52, R53, R147 to R149, R406: reductions and scans. -/
def Obligations.VectorTrees : Prop := ∀ (i : Instr) (r : Rules.Row), Rules.treeRow i = some r → r.Holds i

/-- R157 to R159, R240: loads, stores and atomics that reach their bytes. -/
def Obligations.VectorMemory : Prop :=
  ∀ (i : Instr) (r : Rules.Row), Rules.memRow i = some r ∨ Rules.atomicRow i = some r → r.Holds i

/-- R158, R160, R161, R240, R342, R343: loads, stores and atomics some of whose elements are refused. -/
def Sys2Proof.Parts.VectorFaults : Prop :=
  ∀ (i : Instr) (r : Rules.Row) (x : Rules.Access), Rules.memRow i = some r ∨ Rules.atomicRow i = some r →
    Rules.accessOf i = some x → r.Faults x i

/-- R30, R33, R34, R51: an arithmetic instruction whose destination is v0, and the `vadd` in the next slot that reads it: both
retire; or a pre-emption after `grp` element groups, or the trap of the producer's lowest element, leaves the frontier. -/
def Obligations.Chains : Prop :=
  ∀ (s : State) (i : Instr) (r : Rules.Row) (g bytes : Nat) (d : Reg) (b : VSrc) (k : VCtl) (mate : Option Instr) (m : State),
    Rules.arithRow i = some r → r.dst = .vec 0 g bytes → i.wf = true → (Instr.vadd d 0 b k).wf = true →
    b ≠ .reg 0 → d ≠ 0 → k.et.regBytes = bytes → s.Plain → s.Uncounted → s.h.lanes ≤ 32 → s.h.binds = [] →
    s.h.cmds = [] → s.Unwatched → s.h.vl ≤ 24576 →
    fetchCheck s s.h (seqNext s.h.pc) none false = (.ok (.vadd d 0 b k) mate, s) →
    endLevel { s.h with pc := seqNext s.h.pc } = none → r.Fits s → (Rules.linked (fun _ => 0) d b k).Fits s →
    m = { s with h := { s.h with dead := m.h.dead } } →
    (∀ p, p < 64 → isDead m.h p = (isDead s.h p || (decide (p ≠ 0 ∧ p ∈ r.marked s.h) && !isOpen s.h p))) →
    let n := Nat.max 1 (s.h.lanes * 16 / Nat.max r.widest (Rules.linked (fun _ => 0) d b k).widest)
    let frontier (t : State) (lim : Nat) : Prop :=
      t.h.linkpc = s.h.pc ||| 1 ∧ t.h.second = false ∧ t.h.x = s.h.x ∧ t.h.w = s.h.w ∧ t.h.dead &&& s.h.dead = t.h.dead ∧
        t.mem = s.mem ∧
        (∀ p, p < 64 → p ∉ Rules.dstRegs s.h (dstV d k bytes) → vImg t.h p = vImg s.h p ∧ isDead t.h p = isDead s.h p) ∧
        (∀ j, j < Rules.room s.h (dstV d k bytes) → Rules.dstAt t.h (dstV d k bytes) j =
          if j < lim then ((Rules.linked (r.after s) d b k).after s j) else Rules.dstAt s.h (dstV d k bytes) j)
    (s.Unstopped → let r2 := Rules.linked (r.after s) d b k
      (r.flags s ||| r2.flags m) &&& s.h.fenable.setWidth 5 = 0 →
      ∃ t, exec i s = .next t ∧ t.h.pc = seqNext (seqNext s.h.pc) ∧ t.h.vstart = 0 ∧ t.h.linkpc = s.h.linkpc &&& ~~~ 1 ∧
        t.h.second = mate.isSome ∧ t.h.x = s.h.x ∧ t.h.w = s.h.w ∧ t.mem = s.mem ∧
        t.h.flags = s.h.flags ||| (r.flags s ||| r2.flags m).setWidth 64 ||| (if r.readsDead s.h ∨ r2.readsDead m.h then 0x20 else 0) ∧
        (∀ j, j < Rules.room s.h (dstV d k bytes) → Rules.dstAt t.h (dstV d k bytes) j = r2.after m j) ∧
        (∀ p, p < 64 → p ∉ Rules.dstRegs s.h (dstV d k bytes) → vImg t.h p = vImg s.h p ∧
          isDead t.h p = (isDead m.h p || (decide (p ≠ 0 ∧ p ∈ r2.marked s.h) && !isOpen s.h p)))) ∧
    (∀ grp, s.h.stop = some grp → s.h.pause = none → inh s.h = false → grp ≤ (s.h.vl + n - 1) / n →
      s.h.fenable.setWidth 5 = (0 : Fl) →
      ∃ t, exec i s = .next t ∧ t.h.pc = s.h.pc ∧ t.h.mode = s.h.mode ∧ t.h.vstart = Nat.max s.h.vstart (grp * n) ∧
        frontier t (Nat.max s.h.vstart (grp * n))) ∧
    (∀ e rest, s.Unstopped → inh s.h = false → s.h.floor = 0 →
      let failed := (List.range s.h.vl).filter (r.traps s)
      failed = e :: rest →
      ((Rules.linked (fun j => if r.traps s j then 0 else r.after s j) d b k).flags m) &&& s.h.fenable.setWidth 5 = 0 →
      let lim := Nat.max s.h.vstart (e / n * n)
      ∃ t, exec i s = .next t ∧ t.h.pc = s.h.svec ∧ t.h.mode = .S ∧ t.h.sepc = s.h.pc ∧ t.h.scause = 13 + 0x2000 ∧
        t.h.stval = (failed.foldl (fun f j => f ||| ((r.result s j).2 &&& s.h.fenable.setWidth 5)) flNone).setWidth 64 ∧
        t.h.stval2 = BitVec.ofNat 64 e ∧ t.h.svstart = lim ∧ t.h.vstart = 0 ∧ frontier t lim ∧
        (∀ j, j < 24576 → t.h.fmask.getLsbD j = decide (j ∈ failed)))

/-! ### Bound streams and register windows (R253, R265 to R269) -/

/-- R265 to R269: `vbind` of a block, which reads the first strips of its stream, or its refusal; `vunbind`; and the strip
that a stream of an integer type reads ahead. -/
def Sys2Proof.Parts.BoundStreams : Prop :=
  ∀ (s : State) (d a : Reg) (disp : BitVec 32) (et : ET) (pa : Nat),
    let ea := xGet s.h a + disp.signExtend 64
    let p := vPhys s.h d.toNat
    let w (k : Nat) : Word := BitVec.ofNat 64 (memRead s.mem (pa + 8 * k) 8)
    let ctl := (w 5).toNat
    let rest := s.h.binds.filter (fun b => b.reg ≠ p)
    let scaleOk : Prop := ctl / 2 ^ 19 % 32 = ET.f32.code.toNat ∨ ctl / 2 ^ 19 % 32 = ET.bf16.code.toNat
    (Instr.vbind d a disp et).wf = true → s.Plain → s.Uncounted → s.h.cmds = [] → s.h.ringctl.getLsbD 0 = false →
    (∃ t, exec (.vunbind d) s = .next t ∧ t.h.binds = rest ∧ t.h.pc = seqNext s.h.pc ∧ t.h.v = s.h.v ∧
      t.h.dead = s.h.dead ∧ t.h.x = s.h.x ∧ t.mem = s.mem) ∧
    (ea.toNat % 64 = 0 → s.Mapped ea 64 pa → ctl / 2 ^ 28 = 0 → ctl / 2 ^ 5 % 2 ^ 9 = 0 → w 6 = 0 → w 7 = 0 →
      ctl / 2 ^ 14 % 4 ≠ 3 → ctl / 2 ^ 16 % 8 ≤ 4 → ctl % 32 = et.code.toNat → (ctl / 2 ^ 14 % 4 ≠ 0 → et.wholeBytes = true) →
      (w 3 ≠ 0 → et.isFloat = true) → scaleOk →
      s.h.vl ≠ 0 → (et.isBlock = true → s.h.vl % 16 = 0 ∧ (w 4).toNat % 16 = 0) → rest.length < 4 →
      ∃ t strips, exec (.vbind d a disp et) s = .next t ∧ t.h.binds = rest ++ [
          { reg := p, et := et, block := ea, base := w 0, index := w 1, stride := w 2, scale := w 3, count := w 4, ctl := w 5
            strip := s.h.vl, popped := 0, queue := strips }] ∧
        t.h.pc = seqNext s.h.pc ∧ isDead t.h p = false ∧ vImg t.h p = (if isDead s.h p then 0 else vImg s.h p) ∧
        (∀ m, m < 64 → m ≠ p → vImg t.h m = vImg s.h m ∧ isDead t.h m = isDead s.h m) ∧ t.h.x = s.h.x ∧
        strips.length ≤ 4 ∧ (w 4 = 0 → strips = [] ∧ t.mem = s.mem) ∧
        (∀ q, let m := et.memBits / 8
          let n := min (4 * s.h.vl) (w 4).toNat
          ctl % 2 ^ 19 = et.code.toNat → et.inVI = true → w 3 = 0 → (w 0).toNat % m = 0 → 0 < n → s.Mapped (w 0) (n * m) q →
          t.mem = s.mem ∧ strips = (List.range ((n + s.h.vl - 1) / s.h.vl)).map (fun k =>
            ⟨(List.range (min s.h.vl (n - k * s.h.vl))).map (fun j => memRead s.mem (q + (k * s.h.vl + j) * m) m), flNone, none⟩))) ∧
    (ea.toNat % 64 = 0 → s.Mapped ea 64 pa → inh s.h = false → s.Unwatched →
      (ctl / 2 ^ 28 ≠ 0 ∨ ctl / 2 ^ 5 % 2 ^ 9 ≠ 0 ∨ w 6 ≠ 0 ∨ w 7 ≠ 0 ∨ ctl / 2 ^ 14 % 4 = 3 ∨ 4 < ctl / 2 ^ 16 % 8 ∨
        (w 3 ≠ 0 ∧ et.isFloat = false) ∨ ¬ scaleOk ∨ s.h.vl = 0 ∨ 4 ≤ rest.length) →
      ∃ t, exec (.vbind d a disp et) s = .next t ∧ Trapped s t 11 ea 0xFFFFFFFF ∧ t.h.binds = s.h.binds ∧ t.mem = s.mem) ∧
    (∀ (r : Reg) (b : Binding) (n q : Nat), bindingOf s.h r.toNat = some b → b.ctl.toNat % 2 ^ 19 = b.et.code.toNat →
      b.et.inVI = true → b.scale = 0 → b.queue.length < 4 → (∀ st ∈ b.queue, st.fault = none) →
      let at_ := b.popped + (b.queue.map (fun st => st.elems.length)).sum
      let m := b.et.memBits / 8
      n = min b.strip (b.count.toNat - at_) → 0 < n → (b.base + BitVec.ofNat 64 (at_ * m)).toNat % m = 0 →
      s.Mapped (b.base + BitVec.ofNat 64 (at_ * m)) (n * m) q →
      exec (.streamStripFetch r) s = .next { s with h := { s.h with binds := s.h.binds.map (fun c =>
        if c.reg = b.reg then
          { b with queue := b.queue ++ [⟨(List.range n).map (fun j => memRead s.mem (q + j * m) m), flNone, none⟩] }
        else c) } })

/-- R253: `vopen` and `vclose`. -/
def Sys2Proof.Parts.RegisterWindows : Prop :=
  ∀ (s : State) (d : Reg),
    let p := vPhys s.h d.toNat
    (Instr.vopen d).wf = true → s.Plain → s.Uncounted → s.h.ringctl.getLsbD 0 = false →
    (∃ t, exec (.vopen d) s = .next t ∧ (∀ m, m < 64 → isOpen t.h m = (isOpen s.h m || decide (m = p))) ∧
      isDead t.h p = false ∧ vImg t.h p = (if isDead s.h p then 0 else vImg s.h p) ∧
      (∀ m, m < 64 → m ≠ p → vImg t.h m = vImg s.h m ∧ isDead t.h m = isDead s.h m) ∧ t.h.pc = seqNext s.h.pc ∧
      t.h.x = s.h.x ∧ t.mem = s.mem) ∧
    (∃ t, exec (.vclose d) s = .next t ∧ (∀ m, m < 64 → isOpen t.h m = (isOpen s.h m && decide (m ≠ p))) ∧
      t.h.v = s.h.v ∧ t.h.dead = s.h.dead ∧ t.h.pc = seqNext s.h.pc ∧ t.h.x = s.h.x ∧ t.mem = s.mem)

/-! ### Boundaries of a hart (R339, R352) -/

/-- R16, R72, R339, R340, R352: a slot that is no instruction and a line that holds none trap there; the pending trap
that is first in order is taken at a boundary with INH clear; an interrupt; and a breakpoint or a doorbell asked for
through the control window. Which of several pending breakpoints or other traps goes first, R339 does not say: the model takes
the oldest (log 20). -/
def Obligations.Boundaries : Prop :=
  ∀ s : State, s.h.replay = none →
    (inh s.h = false → ∀ (hi w : BitVec 32) (sub : Nat) (line : Word),
      (∃ t, exec (.illegalInstruction hi sub) s = .next t ∧ Trapped s t 1 (hi.setWidth 64) (BitVec.ofNat 64 sub)) ∧
      ∃ t, exec (.illegalLine line w) s = .next t ∧ Trapped s t 4 line (w.setWidth 64)) ∧
    (inh s.h = false → ∀ (l1 l2 : List Pend) (p : Pend), s.h.pend = l1 ++ p :: l2 → (∀ q ∈ l1, Rules.sooner p q) →
      (∀ q ∈ l2, ¬ Rules.sooner q p) → p.code < 256 →
      ∃ t, exec .impreciseTrap s = .next t ∧ t.h.pend = l1 ++ l2 ∧
        Trapped s t (BitVec.ofNat 64 (p.code + 4096 + (if p.e then 16384 else 0) + (if p.ovf then 32768 else 0))) p.val p.val2) ∧
    (s.h.sip &&& s.h.sie ≠ 0 → inh s.h = false → (s.h.mode = .U ∨ s.h.sstatus.getLsbD 3 = true) →
      ∃ t, exec .interrupt s = .next t ∧ Trapped s t 4118 (s.h.sip &&& s.h.sie) 0) ∧
    (hartExists s.h = true →
      (∃ t, exec .stopctlHalt s = .next t ∧ t = { s with h := { s.h with pend := t.h.pend } } ∧
        (∃ p ∈ t.h.pend, p.code = 18 ∧ p.val = 0 ∧ p.val2 = 1 ∧ p.e = false ∧ p.ovf = false) ∧
        ∀ p ∈ s.h.pend, p ∈ t.h.pend) ∧
      exec .stopctlDoor s = .next { s with h := { s.h with sip := s.h.sip ||| 2 } })

/-- R215, R217, R219, R242, R323, R363: a parked hart goes on, to issue its instruction again, once what it waits for has
come: the word of a `waiteq` differs, that of a `dwait` is VALID, the phase of a `bar` has changed. -/
def Obligations.Wakes : Prop :=
  ∀ s : State,
    let on : State := { s with h := { s.h with run := .running } }
    (∀ ea v p, s.h.run = .parked (.waiteq ea v) → s.Mapped ea 8 p → BitVec.ofNat 64 (memRead s.mem p 8) ≠ v →
      exec .waiteqWake s = .next on) ∧
    (∀ ea p, s.h.run = .parked (.dwait .G ea) → s.Mapped ea 8 p → memRead s.mem p 8 / 2 ^ 63 = 1 →
      exec .dwaitWake s = .next on) ∧
    (s.h.run = .parked .wfi → s.h.sip &&& s.h.sie ≠ 0 → exec .wfiWake s = .next on) ∧
    (∀ ea b p, s.h.run = .parked (.bar ea) → s.h.barWait.find? (fun b => b.ea == ea) = some b → s.Mapped ea 8 p →
      memRead s.mem p 8 / 2 ^ 32 % 2 ^ 16 ≠ b.phase.toNat → exec .barWake s = .next on) ∧
    (∀ r, s.h.run = .parked .farm → recOf s s.h = some r → s.h.record ≠ 0 →
      (s.h.fgen ≠ r.set ∨ r.done = r.total ∧
        (∀ h ∈ s.h :: s.others, hartExists h = true → h.record = r.id → h.fgen = r.set) ∧
        ∀ q ∈ s.d.recs, q.id = r.id → ∀ v ∈ q.saved, v.fgen = r.set) →
      exec .farmOpenWaitEnd s = .next on) ∧
    (s.h.run = .parked .hexit → s.h.cmds = [] → s.h.ending = none → exec .hexitTokensDone s = .next on)

/-! ### Steps of the engines (R298 to R307, R322, R346) -/

/-- R305, R307, R298 to R301, R346: a copy of one unit moves its bytes and ends; one whose source page faults is suspended,
with its trap pending; an ended command writes its token and its flags and frees its entry, and one without a token that
failed leaves a token error; the supervisor resumes or ends a suspended command. -/
def Obligations.EngineSteps : Prop :=
  ∀ (s : State) (c : Cmd) (rest : List Cmd) (d a b x : Reg) (sc : Scope) (dst src : Word) (n : Nat),
    s.Inv → s.Uncounted → s.h.cmds = c :: rest → (∀ k ∈ rest, k.entry ≠ c.entry) → c.instr = .cpy d a b x .G .G sc →
    c.ops = [dst, 0, src, 0, BitVec.ofNat 64 n, 0] →
    (∀ p q, c.st = .notBegun → c.unit = 0 → 0 < n → dst.toNat % 4096 + n ≤ 4096 → s.Mapped dst n p →
      s.Mapped src n q →
      ∃ t, exec (.engineUnit c.entry) s = .next t ∧ memRead t.mem p n = memRead s.mem q n ∧ SameOutside s.mem t.mem p n ∧
        t.h = { s.h with cmds := { c with unit := 1, st := .ended } :: rest } ∧ t.others = s.others) ∧
    (c.st = .notBegun → c.unit = 0 → 0 < n → dst.toNat % 4096 + n ≤ 4096 → src.toNat % 65536 + n ≤ 65536 →
      translate s s.h .load src n = .error ⟨8, src, 0⟩ →
      ∃ t, exec (.engineUnit c.entry) s = .next t ∧ t.h.cmds = { c with st := .suspended, faultVa := src } :: rest ∧
        t.mem = s.mem ∧ t.h.x = s.h.x ∧ ∃ p, t.h.pend = s.h.pend ++ [p] ∧ p.code = 8 ∧ p.val = src ∧ p.e = true ∧
          p.val2 = BitVec.ofNat 64 ((c.entry + 1) * 2 ^ 48) ∧ p.ord = c.ord) ∧
    (c.st = .ended → d ≠ 0 →
      exec (.tokenWrite c.entry) s = .next { s with h :=
        { xSetIn s.h (if c.bankS then .S else .U) d.toNat
            (if c.status = 0 then 0 else BitVec.ofNat 64 (c.unit * 256 + c.status)) with
          flags := s.h.flags ||| c.flags.setWidth 64, efr := (if c.efrUsed ∧ c.unit ≠ 0 then c.efr else s.h.efr), cmds := rest } }) ∧
    (c.st = .ended → d = 0 →
      ∃ t, exec (.tokenWrite c.entry) s = .next t ∧ t.h.cmds = rest ∧ t.h.x = s.h.x ∧ t.h.sx = s.h.sx ∧
        (c.status = 0 → t.h.pend = s.h.pend) ∧
        (c.status ≠ 0 → ∃ p, t.h.pend = s.h.pend ++ [p] ∧ p.code = 17 ∧ p.val = c.pc ∧
          p.val2 = BitVec.ofNat 64 (c.unit * 256 + c.status))) ∧
    (c.st = .suspended →
      exec (.engctlResume c.entry) s = .next { s with h := { s.h with cmds := { c with st := .running } :: rest } } ∧
      exec (.engctlEnd c.entry) s = .next { s with h := { s.h with cmds := { c with st := .ended, status := 1 } :: rest } })

/-- R54, R305, R310 to R313: a unit of each command of the matrix engine, operands in space G: `mzero` clears a tile; `mmul`
adds a chunk of products to it; `mmulc` does so with A converted from a tile, before its first chunk; `mout` converts a row of
a tile, into memory or a register. -/
def Sys2Proof.Parts.MatrixUnits : Prop :=
  ∀ (s : State) (c : Cmd) (rest : List Cmd) (d a b x : Reg) (tile src : BitVec 3) (et et2 : ET) (rm : RM) (stride : BitVec 22)
    (sc : Scope),
    let m := c.cfg
    let k := m.k.toNat
    let dep := min 16 (k - 16 * c.unit)
    let cell (i j : Nat) : Nat := memRead s.mem (Rules.cellOf s.h src i j) 4
    Rules.Foremost s c rest → 0 < m.m → m.m ≤ 128 → 0 < m.n → m.n ≤ 128 → c.instr.wf = true →
    (c.instr = .mzero d tile sc → tile.toNat < s.h.tiles.length → c.unit = 0 →
      ∃ t, exec (.engineUnit c.entry) s = .next t ∧ Rules.Leaving s t (Rules.nextUnit c 1) rest ∧
        (∀ j, j < 65536 → memGet t.mem (Rules.cellOf s.h tile 0 0 + j) = 0) ∧ SameOutside s.mem t.mem (Rules.cellOf s.h tile 0 0) 65536) ∧
    (∀ na qa nb qb, c.instr = .mmul d a b tile .G .G et et2 sc → Rules.TileOk s tile → 16 * c.unit < k →
      Rules.Run s (c.ops.getD 0 0) na qa → Rules.Run s (c.ops.getD 2 0) nb qb →
      (∀ i j, i < m.m → j < dep → Rules.operandEnd et (Rules.offA m i (16 * c.unit + j)) ≤ na) →
      (∀ j n, j < dep → n < m.n → Rules.operandEnd et2 (Rules.offB m (16 * c.unit + j) n) ≤ nb) →
      let A (i j : Nat) : Val × Fl := Rules.operandAt et s.mem qa (Rules.offA m i (16 * c.unit + j))
      let B (j n : Nat) : Val × Fl := Rules.operandAt et2 s.mem qb (Rules.offB m (16 * c.unit + j) n)
      ∃ t fl, exec (.engineUnit c.entry) s = .next t ∧
        Rules.Accumulated s t tile et.isInt m dep (fun i j => (A i j).1) (fun j n => (B j n).1) fl ∧
        Rules.Leaving s t { Rules.nextUnit c ((k + 15) / 16) with
          flags := c.flags ||| fl ||| ((List.range m.m).flatMap (fun i => (List.range dep).map (fun j => (A i j).2))).foldl (fun f g => f ||| g) flNone |||
            ((List.range m.n).flatMap (fun n => (List.range dep).map (fun j => (B j n).2))).foldl (fun f g => f ||| g) flNone } rest) ∧
    (∀ nb qb efr, c.instr = .mmulc d src b tile .G et et2 rm sc → Rules.TileOk s tile → Rules.TileOk s src → 16 * c.unit < k → k ≤ 128 →
      (et.isBlock = true → k % 16 = 0) → Rules.Run s (c.ops.getD 2 0) nb qb →
      (∀ j n, j < dep → n < m.n → Rules.operandEnd et2 (Rules.offB m (16 * c.unit + j) n) ≤ nb) →
      let conv := Rules.converted et .f32 c.rm (fun e => cell (e / k) (e % k)) (m.m * k) efr
      (c.unit = 0 ∧ c.conv = [] ∧ efr = s.h.efr.toNat ∨ c.unit ≠ 0 ∧ c.conv = conv.1) →
      let A (i j : Nat) : Val :=
        let e := i * k + 16 * c.unit + j
        if et.isBlock then blockVal et (conv.1.getD (e / 16) 0) (e % 16) else (valOf et (conv.1.getD e 0)).1
      let B (j n : Nat) : Val × Fl := Rules.operandAt et2 s.mem qb (Rules.offB m (16 * c.unit + j) n)
      ∃ t fl, exec (.engineUnit c.entry) s = .next t ∧
        Rules.Accumulated s t tile false m dep A (fun j n => (B j n).1) fl ∧
        Rules.Leaving s t { Rules.nextUnit c ((k + 15) / 16) with
          conv := conv.1
          efr := if c.unit = 0 then BitVec.ofNat 32 conv.2.2 else c.efr
          flags := c.flags ||| (if c.unit = 0 then conv.2.1 else flNone) ||| fl |||
            ((List.range m.n).flatMap (fun n => (List.range dep).map (fun j => (B j n).2))).foldl (fun f g => f ||| g) flNone } rest) ∧
    (∀ (toReg : Bool) (q p : Nat), c.instr = .mout d src b x .G toReg stride et rm sc → Rules.TileOk s src → c.unit < m.m →
      (et.isBlock = true → m.n % 16 = 0) →
      let r := Rules.converted et (if et.isFloat ∨ et.isBlock = true then .f32 else .i32) c.rm (cell c.unit) m.n
        (if c.unit = 0 then s.h.efr else c.efr).toNat
      let after : Cmd := { Rules.nextUnit c m.m with flags := c.flags ||| r.2.1, efr := BitVec.ofNat 32 r.2.2 }
      (toReg = false →
        let n := if et.isBlock then et.blockBytes else et.memBits / 8
        let e := c.unit * (if stride = 0 then m.n else stride.toNat)
        (et.isBlock = true → e % 16 = 0) →
        Rules.Run s (c.ops.getD 2 0 + BitVec.ofNat 64 ((if et.isBlock then e / 16 else e) * n)) (n * r.1.length) q →
        ∃ t, exec (.engineUnit c.entry) s = .next t ∧ Rules.Leaving s t after rest ∧
          (∀ j, j < r.1.length → memRead t.mem (q + n * j) n = r.1.getD j 0) ∧ SameOutside s.mem t.mem q (n * r.1.length)) ∧
      (toReg = true → c.conv = [p] → 0 < p → p < 64 → s.h.lanes ≤ 32 →
        let n := if et.isBlock then 16 * et.regBytes else et.regBytes
        let o := if et.isBlock then c.unit * m.n / 16 * n else c.unit * m.n * n
        o + n * r.1.length ≤ 24576 →
        ∃ t, exec (.engineUnit c.entry) s = .next t ∧ t.mem = s.mem ∧ t.others = s.others ∧
          t.h = { s.h with cmds := after :: rest, v := t.h.v, dead := t.h.dead } ∧
          (∀ j, j < r.1.length → imgGet (vImg t.h p) (o + n * j) n = r.1.getD j 0) ∧
          (∀ j, j < 24576 → (j < o ∨ o + n * r.1.length ≤ j) → imgGet (vImg t.h p) j 1 = if isDead s.h p then 0 else imgGet (vImg s.h p) j 1) ∧
          isDead t.h p = false ∧ ∀ w, w < 64 → w ≠ p → vImg t.h w = vImg s.h w ∧ isDead t.h w = isDead s.h w))

/-- R316, R318 to R321: a unit of each command of the fibre engine, streams of plain positions and the output in space G, two
different fibres. -/
def Sys2Proof.Parts.FibreUnits : Prop :=
  ∀ (s : State) (c : Cmd) (rest : List Cmd) (d a b x : Reg) (fa fb : BitVec 3) (sc : Scope) (union : Bool),
    Rules.Foremost s c rest → c.status = 0 →
    (∀ qa qb q (as bs : List Nat), c.instr = (if union then .funion d fa fb x .G sc else .fisect d fa fb x .G sc) → fa ≠ fb →
      Rules.FibreHolds s fa.toNat qa as → Rules.FibreHolds s fb.toNat qb bs →
      let r := Rules.merged union (if x = 0 then none else some ((c.ops.getD 5 0).toNat - c.count)) 256 as bs []
      (x ≠ 0 → c.count ≤ (c.ops.getD 5 0).toNat ∧ Rules.Run s (c.ops.getD 4 0 + BitVec.ofNat 64 (4 * c.count)) (4 * r.1.length) q ∧
        (∀ f ∈ [(qa, 4 * (fibreGet s.h fa.toNat).count.toNat), (qb, 4 * (fibreGet s.h fb.toNat).count.toNat)],
          f.1 + f.2 ≤ q ∨ q + 4 * r.1.length ≤ f.1)) →
      ∃ t, exec (.engineUnit c.entry) s = .next t ∧ t.others = s.others ∧
        t.h = { s.h with fibres := t.h.fibres
                         cmds := { c with
                           unit := c.unit + (if r.2.2.2 = some 5 then 0 else 1)
                           count := c.count + r.1.length
                           status := r.2.2.2.getD 0
                           st := if r.2.2.2.isSome then .ended else .running } :: rest } ∧
        Rules.FibreLeft s t fa.toNat as r.2.1 (r.2.2.2 = some 0) ∧ Rules.FibreLeft s t fb.toNat bs r.2.2.1 (r.2.2.2 = some 0) ∧
        (∀ f, f ≠ fa.toNat → f ≠ fb.toNat → fibreGet t.h f = fibreGet s.h f) ∧
        (x = 0 → t.mem = s.mem) ∧
        (x ≠ 0 → (∀ j, j < r.1.length → memRead t.mem (q + 4 * j) 4 = r.1.getD j 0) ∧ SameOutside s.mem t.mem q (4 * r.1.length))) ∧
    (∀ qa (as : List Nat), c.instr = .fcount d fa b sc → Rules.FibreHolds s fa.toNat qa as →
      let n := ((as.takeWhile (fun p => decide (p < (c.ops.getD 2 0).toNat))).take 256).length
      ∃ t, exec (.engineUnit c.entry) s = .next t ∧ t.others = s.others ∧ t.mem = s.mem ∧
        t.h = { s.h with fibres := t.h.fibres
                         cmds := { c with unit := c.unit + 1, count := c.count + n, st := if n < 256 then .ended else .running } :: rest } ∧
        fibreGet t.h fa.toNat = Rules.fibreOn (fibreGet s.h fa.toNat) as n ∧
        ∀ f, f ≠ fa.toNat → fibreGet t.h f = fibreGet s.h f) ∧
    (∀ p q, c.instr = .fsplit d a b x .G .G sc →
      let nr := (c.ops.getD 1 0).toNat
      let shares := (c.ops.getD 2 0).toNat
      let rp (r : Nat) : Nat := memRead s.mem (p + 4 * r) 4
      let n := min 16 (shares + 1 - 16 * c.unit)
      0 < shares → 16 * c.unit ≤ shares → nr < 2 ^ 32 - 1 → Rules.Run s (c.ops.getD 0 0) (4 * (nr + 1)) p →
      Rules.Run s (c.ops.getD 4 0 + BitVec.ofNat 64 (64 * c.unit)) (4 * n) q →
      ((∀ r, r < nr → rp r ≤ rp (r + 1)) →
        ∃ t, exec (.engineUnit c.entry) s = .next t ∧
          Rules.Leaving s t { Rules.nextUnit c ((shares + 16) / 16) with count := rp nr - rp 0 } rest ∧ SameOutside s.mem t.mem q (4 * n) ∧
          ∀ j, j < n →
            let e := 16 * c.unit + j
            let out := memRead t.mem (q + 4 * j) 4
            if e = 0 then out = 0 else if e = shares then out = nr
            else out ≤ nr ∧ e * (rp nr - rp 0) ≤ (rp out - rp 0) * shares ∧ ∀ r, r < out → (rp r - rp 0) * shares < e * (rp nr - rp 0)) ∧
      ((∃ r, r < nr ∧ rp (r + 1) < rp r) →
        ∃ t, exec (.engineUnit c.entry) s = .next t ∧ t.mem = s.mem ∧ Rules.Leaving s t { c with st := .ended, status := 4 } rest))

/-- R322, R324: a unit of each command of the dispatch engine, its spaces G: `dput` copies a row and writes its slot word
behind it; `dclose` writes the done word of one expert. -/
def Sys2Proof.Parts.DispatchUnits : Prop :=
  ∀ (s : State) (c : Cmd) (rest : List Cmd) (d a b x : Reg) (tag : BitVec 16) (sc : Scope) (p q : Nat), Rules.Foremost s c rest →
    (let n := (c.ops.getD 4 0).toNat
     c.instr = .dput d a b x .G .G tag sc → c.unit = 0 → n < 2 ^ 32 → Rules.Run s (c.ops.getD 0 0) (n + 8) p →
     Rules.Run s (c.ops.getD 2 0) n q →
     ∃ t, exec (.engineUnit c.entry) s = .next t ∧ Rules.Leaving s t (Rules.nextUnit c 1) rest ∧
       memRead t.mem p n = memRead s.mem q n ∧ memRead t.mem (p + n) 8 = 2 ^ 63 + tag.toNat * 2 ^ 32 + n ∧
       SameOutside s.mem t.mem p (n + 8)) ∧
    (let e := (c.ops.getD 2 0).toNat
     c.instr = .dclose d a b x .G .G tag sc → c.unit < e → Rules.Run s (c.ops.getD 4 0 + BitVec.ofNat 64 (4 * c.unit)) 4 q →
     Rules.Run s (c.ops.getD 0 0 + BitVec.ofNat 64 (8 * c.unit)) 8 p →
     ∃ t, exec (.engineUnit c.entry) s = .next t ∧ Rules.Leaving s t (Rules.nextUnit c e) rest ∧
       memRead t.mem p 8 = 2 ^ 63 + tag.toNat * 2 ^ 32 + memRead s.mem q 4 ∧ SameOutside s.mem t.mem p 8)

/-- R288, R306, R307, R325: a unit of `cfill`, of a `cpys` whose rows are a unit each, in space G, and of `pout`, which ends with
MEMERR at a line in which a word is uncorrectable (R298, R374). -/
def Sys2Proof.Parts.CopyUnits : Prop :=
  ∀ (s : State) (c : Cmd) (rest : List Cmd) (d a b x : Reg) (wc : BitVec 2) (sc : Scope), Rules.Foremost s c rest →
    (∀ p, let n := (c.ops.getD 4 0).toNat
      c.instr = .cfill d a b x .G wc sc → c.unit = 0 → 0 < n → n % 2 ^ wc.toNat = 0 → (c.ops.getD 0 0).toNat % 4096 + n ≤ 4096 →
      Rules.Run s (c.ops.getD 0 0) n p →
      ∃ t, exec (.engineUnit c.entry) s = .next t ∧ Rules.Leaving s t (Rules.nextUnit c 1) rest ∧
        (∀ j, j < n / 2 ^ wc.toNat → memRead t.mem (p + 2 ^ wc.toNat * j) (2 ^ wc.toNat) = (c.ops.getD 2 0).toNat % 2 ^ (8 * 2 ^ wc.toNat)) ∧
        SameOutside s.mem t.mem p n) ∧
    (∀ p q, let n := (c.ops.getD 4 0).toNat % 2 ^ 32
      let rows := (c.ops.getD 4 0).toNat / 2 ^ 32
      let at_ (k r : Nat) : Word := c.ops.getD k 0 + BitVec.ofNat 64 r * c.ops.getD (k + 1) 0
      c.instr = .cpys d a b x .G .G sc → c.unit < rows → 0 < n → (∀ r, r ≤ c.unit → (at_ 0 r).toNat % 4096 + n ≤ 4096) →
      Rules.Run s (at_ 0 c.unit) n p → Rules.Run s (at_ 2 c.unit) n q →
      ∃ t, exec (.engineUnit c.entry) s = .next t ∧ Rules.Leaving s t (Rules.nextUnit c rows) rest ∧
        memRead t.mem p n = memRead s.mem q n ∧ SameOutside s.mem t.mem p n) ∧
    (∀ p pip, let g := regionGet s (c.ops.getD 3 0).toNat
      let dst := c.ops.getD 4 0 + BitVec.ofNat 64 c.count
      c.instr = .pout d a b x .G sc → g.pending = [] → c.count + 128 < 2 ^ 64 →
      (c.walk = [] → ∃ t, exec (.engineUnit c.entry) s = .next t ∧ t.mem = s.mem ∧ Rules.Leaving s t { c with st := .ended, status := 0 } rest) ∧
      (c.walk = [pip] → pip ≠ 0 → g.find pip = none →
        ∃ t, exec (.engineUnit c.entry) s = .next t ∧ t.mem = s.mem ∧ Rules.Leaving s t { c with st := .ended, status := 6 } rest) ∧
      (∀ l, c.walk = [pip] → pip ≠ 0 → g.find pip = some l → lineBad s (c.ops.getD 3 0).toNat g pip = true →
        ∃ t, exec (.engineUnit c.entry) s = .next t ∧ t.mem = s.mem ∧ Rules.Leaving s t { c with st := .ended, status := 7 } rest) ∧
      (∀ l, c.walk = [pip] → pip ≠ 0 → g.find pip = some l → lineBad s (c.ops.getD 3 0).toNat g pip = false → l.inner = false →
        (∀ y ∈ g.lines, y.pip = pip → y = l) →
        ((c.ops.getD 5 0).toNat < c.count + 128 →
          ∃ t, exec (.engineUnit c.entry) s = .next t ∧ t.mem = s.mem ∧ Rules.Leaving s t { c with st := .ended, status := 5 } rest) ∧
        (c.count + 128 ≤ (c.ops.getD 5 0).toNat → Rules.Run s dst 128 p →
          ∃ t, exec (.engineUnit c.entry) s = .next t ∧ memRead t.mem p 128 = l.data.toNat ∧ SameOutside s.mem t.mem p 128 ∧
            Rules.Leaving s t { c with unit := c.unit + 1, count := c.count + 128, walk := [], st := .ended } rest)))

/-! ### Sends (R390 to R394) -/

/-- R390, R392, R393: `vsend` of one live element: into the ring of a hart of its context on the device; to a place that
holds none, a fault of the element; to a full ring, a wait. -/
def Sys2Proof.Parts.SendElement : Prop :=
  ∀ (s : State) (a b : Reg) (k : VCtl) (j : Nat),
    let A : VField := ⟨a.toNat, k.g.size, k.et.regBytes, false⟩
    let B := Rules.idxField b k
    let node := Rules.elemAt s.h B j
    let data := Rules.elemAt s.h A j % 2 ^ k.et.bits
    let gid := (node / 256 % 4 * 24 + node / 8 % 32) * 8 + node % 8
    s.Inv → (Instr.vsend a b k).wf = true → s.Plain → s.Uncounted → s.h.lanes ≤ 32 → s.h.binds = [] → s.Unstopped →
    s.h.sending = none → s.h.cmds = [] → s.h.vl ≤ s.h.lanes * 768 * A.regs / A.b → s.h.vl ≤ s.h.lanes * 768 * B.regs / 4 →
    s.h.vl ≤ 24576 → s.h.vstart ≤ j → j < s.h.vl →
    (∀ i, s.h.vstart ≤ i → i < s.h.vl → (liveAt s.h k.w true i = true ↔ i = j)) →
    s.h.gid < 768 → node / 1024 = s.d.devid.toNat → node / 8 % 32 < 24 →
    (∀ r p ps, findHart s gid = some r → r.ctxid = s.h.ctxid → r.slabs = p :: ps → RingHasRoom s.mem r p →
      ∃ t, exec (.vsend a b k) s = .next t ∧
        RingTakes s.mem t.mem r p data (2 ^ 63 + k.et.code.toNat * 2 ^ 35 + j % 2 ^ 15 * 2 ^ 20 + nodeOf s.d.devid s.h.gid) ∧
        t.h.pc = seqNext s.h.pc ∧ t.h.vstart = 0 ∧ t.h.x = s.h.x ∧ t.h.v = s.h.v ∧ t.h.w = s.h.w ∧ t.others = s.others) ∧
    (∀ r p ps, findHart s gid = some r → r.ctxid = s.h.ctxid → r.slabs = p :: ps → ¬ RingHasRoom s.mem r p →
      ∃ t, exec (.vsend a b k) s = .next t ∧ t.h.run = .parked (.sendSlot node) ∧ t.h.vstart = j ∧ t.h.pc = s.h.pc ∧
        t.mem = s.mem) ∧
    ((∀ r, findHart s gid = some r → r.ctxid ≠ s.h.ctxid ∨ r.slabs = []) →
      (findHart s gid = none → (gid, s.h.ctxid) ∉ s.d.saves) → inh s.h = false →
      ∃ t, exec (.vsend a b k) s = .next t ∧ t.h.scause.setWidth 8 = (11 : BitVec 8) ∧ t.h.stval = BitVec.ofNat 64 node ∧
        t.h.stval2 = BitVec.ofNat 64 (j + 5 * 2 ^ 32) ∧ t.h.sepc = s.h.pc ∧ t.h.pc = s.h.svec ∧ t.h.mode = .S ∧
        (∀ i, i < 24576 → t.h.fmask.getLsbD i = decide (i = j)) ∧ StalledMarked s t)

/-- R390, R394: `vrecv` of the `n` elements of its type at HEAD. -/
def Obligations.ReceiveElements : Prop :=
  ∀ (s : State) (d b c : Reg) (k : VCtl) (p n : Nat) (ps : List Nat),
    let B : VField := { Rules.idxField b k with mark := false }
    let base := ringBase s.h p
    let head := memRead s.mem (base + 458736) 8
    let slot (i : Nat) : Nat := base + 458752 + 16 * ((head + i) % 4096)
    let word (i : Nat) : Nat := memRead s.mem (slot i + 8) 8
    let here (i : Nat) : Prop := word i / 2 ^ 63 = 1 ∧ word i / 2 ^ 35 % 32 = k.et.code.toNat
    s.Inv → (Instr.vrecv d b c k).wf = true → s.Plain → s.Uncounted → s.h.lanes ≤ 32 → s.h.binds = [] → s.h.cmds = [] →
    s.h.ringctl.getLsbD 0 = false → s.h.slabs = p :: ps → s.h.vl ≤ s.h.lanes * 768 * k.g.size / k.et.regBytes →
    s.h.vl ≤ s.h.lanes * 768 * B.regs / 4 → s.h.vstart = 0 → 0 < s.h.vl → n ≤ s.h.vl → n ≤ 4096 → (∀ i, i < n → here i) →
    (n = s.h.vl ∨ ¬ here n) → s.h.gid < 768 → poisoned s.d.poison (base + 458736) 8 = false →
    (∀ i, i ≤ n → poisoned s.d.poison (slot i) 16 = false) →
    ∃ t, exec (.vrecv d b c k) s = .next t ∧ t.h.pc = seqNext s.h.pc ∧ t.h.vstart = 0 ∧
      (∀ i, i < s.h.lanes * 768 * k.g.size / k.et.regBytes → vElem t.h d.toNat k.et.regBytes i =
        if i < n then memRead s.mem (slot i) 8 % 2 ^ k.et.bits else vElem s.h d.toNat k.et.regBytes i) ∧
      (∀ i, i < s.h.lanes * 768 * B.regs / 4 → vElem t.h b.toNat 4 i =
        if i < n then word i % 2 ^ 20 else vElem s.h b.toNat 4 i) ∧
      t.h.x = (xSet s.h c (if n = 0 ∧ word 0 / 2 ^ 63 = 1 then -1 else BitVec.ofNat 64 n)).x ∧
      (∀ i, i < n → memRead t.mem (slot i + 8) 8 = 0) ∧ memRead t.mem (base + 458736) 8 = (head + n) % 2 ^ 64 ∧
      (∀ m, (∀ i, i < n → (m < slot i + 8 ∨ slot i + 16 ≤ m)) → (m < base + 458736 ∨ base + 458744 ≤ m) →
        memGet t.mem m = memGet s.mem m) ∧ t.others = s.others ∧ t.h.w = s.h.w

/-- R390, R392, R393: a ring that another node fills; a waiting `vsend` goes on when its ring has room, and when its place
is no longer one to wait for. -/
def Sys2Proof.Parts.SendSteps : Prop :=
  ∀ s : State, s.Inv →
    (∀ gid r p ps src et elem data, findHart s gid = some r → r.slabs = p :: ps → RingHasRoom s.mem r p →
      ∃ t, exec (.ringSlotFill gid src et elem data) s = .next t ∧ t = { s with mem := t.mem } ∧
        RingTakes s.mem t.mem r p (data % 2 ^ 64) (2 ^ 63 + et.code.toNat * 2 ^ 35 + elem % 2 ^ 15 * 2 ^ 20 + src.toNat)) ∧
    (∀ node r p ps, s.h.run = .parked (.sendSlot node) → node / 8 % 32 < 24 →
      findHart s ((node / 256 % 4 * 24 + node / 8 % 32) * 8 + node % 8) = some r → r.ctxid = s.h.ctxid → r.slabs = p :: ps →
      RingHasRoom s.mem r p → exec .sendSlotFree s = .next { s with h := { s.h with run := .running } }) ∧
    (∀ node, s.h.run = .parked (.sendPlace node) → node / 1024 = s.d.devid.toNat → node / 8 % 32 < 24 →
      let gid := (node / 256 % 4 * 24 + node / 8 % 32) * 8 + node % 8
      exec .sendPlaceRecheck s = .next (if findHart s gid = none ∧ (gid, s.h.ctxid) ∈ s.d.saves then s
        else { s with h := { s.h with run := .running } }))

/-! ### Queues (R193 to R196, R202) -/

/-- R194, R195, R202: a write of QCTL enables a queue, or not for want of a ring size, disables it, or changes what an enabled
queue lets it change; a queue that goes to another die is no active one there. A tail written to an active queue is checked
and used; to another it is kept for its switch-in. A queue that no tail takes past HEAD offers no candidate. -/
def Sys2Proof.Parts.QueueRegisters : Prop :=
  ∀ (s : State) (q : Nat) (v : Word),
    let u := queueGet s q
    let w : Queue := { u with vector := v.extractLsb' 16 8, ien := v.getLsbD 10, preempt := v.getLsbD 8
                              err := u.err && !v.getLsbD 11 }
    let home := (v.extractLsb' 14 2).toNat
    let x : Queue := { w with context := v.extractLsb' 24 16, home := home, devfed := v.getLsbD 9, log2n := v.extractLsb' 0 5
                              active := u.active && home == u.home, switching := u.switching && home == u.home }
    let kept (t : State) : Prop := (∀ k, k ≠ q → queueGet t k = queueGet s k) ∧ t.h = s.h ∧ t.others = s.others ∧ t.mem = s.mem
    s.d.ready = true → q < 64 →
    (∀ i : Instr, i = .queueEnable q v ∨ i = .queueDisable q v → ∃ t, exec i s = .next t ∧ kept t ∧ queueGet t q =
      if u.en then (if v.getLsbD 7 then w else { w with en := false })
      else if v.getLsbD 7 = false then x
      else if 1 ≤ x.log2n.toNat ∧ x.log2n.toNat ≤ 16 then
        { x with en := true, tail := u.shadow, head := u.shadow, prog := u.shadow, finished := [] }
      else { x with err := true }) ∧
    (∀ tail : BitVec 32, ∃ t, exec (.qtailWrite q tail) s = .next t ∧ kept t ∧
      (queueGet t q = if u.devfed then u
        else if u.active = false ∨ u.switching = true then { u with shadow := tail }
        else { u with shadow := tail, tail := tail, err := u.err || decide (2 ^ u.log2n.toNat < (tail - u.prog).toNat) }) ∧
      (u.devfed = false → u.active = true → u.switching = false → u.home < 4 →
        (tail - u.prog).toNat ≤ (u.head - u.prog).toNat → ∀ p ∈ (masterGet t u.home).ready, p.1 ≠ q))

/-- R202: a queue is switched out and in, and the one that has least recently started a record is rotated out. -/
def Sys2Proof.Parts.QueueSwitching : Prop :=
  ∀ (s : State) (q : Nat),
    let u := queueGet s q
    let die := u.home
    let waits (k : Nat) : Prop :=
      let w := queueGet s k
      k < 64 ∧ w.home = die ∧ w.active = false ∧ w.switching = false ∧ w.en = true ∧
        (w.head - w.prog).toNat < (w.shadow - w.prog).toNat
    let m := masterGet s die
    let goes (t : State) (u' : Queue) : Prop := queueGet t q = u' ∧ (∀ k, k ≠ q → queueGet t k = queueGet s k) ∧ t.h = s.h ∧
      t.others = s.others ∧ t.mem = s.mem
    s.Uncounted → s.d.cc.busy = false → q < 64 → die < 4 → m.rr < 64 →
    (u.switching = true → ∃ t, exec (.queueSwitch q) s = .next t ∧
      goes t (if u.active then { u with switching := false, active := false }
        else { u with switching := false, active := true, tail := u.shadow
                      err := u.err || decide (2 ^ u.log2n.toNat < (u.shadow - u.prog).toNat) })) ∧
    (u.switching = false → u.active = true → (u.tail - u.prog).toNat ≤ (u.head - u.prog).toNat → (∃ k, waits k) →
      ∃ t, exec (.queueSwitch q) s = .next t ∧ goes t { u with switching := true } ∧ ∀ p ∈ (masterGet t die).ready, p.1 ≠ q) ∧
    (waits q → (∀ k, waits k → (q + 63 - m.rr) % 64 ≤ (k + 63 - m.rr) % 64) →
      ((List.range 64).filter (fun k => (queueGet s k).home = die &&
        ((queueGet s k).active || (queueGet s k).switching))).length < 16 →
      exec (.queueSwitch q) s =
        .next (masterPut (queuePut s q { u with switching := true }) die { m with rr := q })) ∧
    (m.rotAt + 2 ^ 16 ≤ s.clk → (∃ k, waits k) → u.active = true → u.switching = false →
      (∀ k, k < 64 → (queueGet s k).home = die → (queueGet s k).active = true → (queueGet s k).switching = false →
        u.lastStart < (queueGet s k).lastStart ∨ u.lastStart = (queueGet s k).lastStart ∧ q ≤ k) →
      ∃ t, exec (.queueRotate die) s = .next t ∧ goes t { u with switching := true } ∧ (masterGet t die).rotAt = s.clk ∧
        ∀ p ∈ (masterGet t die).ready, p.1 ≠ q)

/-! ### Records (R198 to R209) -/

/-- R195, R198, R201, R204: the head record of a queue is read once; one whose ring cannot be read sets ERR; it is ready
where it has no wait word or its wait word has reached WAITVAL, no candidate where it has not, and refused where the word
cannot be read. The ageing of a candidate needs no step of its own (log 29, the model's choice, as is when the record is
read). -/
def Sys2Proof.Parts.RecordReady : Prop :=
  ∀ (s : State) (q : Nat),
    let u := queueGet s q
    let slot := u.base.toNat / 64 * 64 + 64 * (u.head.toNat % 2 ^ u.log2n.toNat)
    let isReady (t : State) : Prop := ∃ p ∈ (masterGet t u.home).ready, p.1 = q
    s.d.cc.busy = false → u.en = true → u.active = true → u.switching = false → u.err = false → u.home < 4 →
    (u.tail - u.prog).toNat ≤ 2 ^ u.log2n.toNat → (u.head - u.prog).toNat < (u.tail - u.prog).toNat →
    (∀ r ∈ s.d.recs, r.queue = q → r.at_ ≠ .held) →
    ((∀ r ∈ s.d.recs, r.queue = q → r.at_ ≠ .head) → u.base.getLsbD 0 = false →
      (normalPa slot = false ∨ inCarveOut s.d.pscfg slot 64 = true ∨ poisoned s.d.poison slot 64 = true →
        ∃ t, exec (.waitWordTest q) s = .next t ∧ queueGet t q = { u with err := true } ∧ ¬ isReady t ∧ t.d.recs = s.d.recs ∧
          t.mem = s.mem) ∧
      (normalPa slot = true → inCarveOut s.d.pscfg slot 64 = false → poisoned s.d.poison slot 64 = false →
        memRead s.mem (slot + 16) 8 = 0 →
        ∃ t r, exec (.waitWordTest q) s = .next t ∧ t.d.recs = s.d.recs ++ [r] ∧ r.queue = q ∧ r.ctx = u.context ∧
          r.ringIdx = u.head ∧ r.at_ = .head ∧ r.home = u.home ∧
          (∀ k, k < 8 → (Rules.recordWord r k).toNat = memRead s.mem (slot + 8 * k) 8) ∧
          isReady t ∧ queueGet t q = u ∧ t.mem = s.mem ∧ t.h = s.h)) ∧
    (∀ r root svec, s.d.recs.find? (fun x => x.queue == q && x.at_ == .head) = some r → r.saved = [] → r.home = u.home →
      Rules.recordWord r 2 ≠ 0 →
      (Rules.recordWord r 2).toNat % 8 = 0 → Rules.ContextEntry s r.ctx root svec →
      (∀ p s1, rmTranslate s r.ctx root .load (Rules.recordWord r 2) 8 = .ok (p, s1) →
        ∃ t, exec (.waitWordTest q) s = .next t ∧ t.d.recs = s1.d.recs ∧ t.mem = s1.mem ∧
          (isReady t ↔ (Rules.recordWord r 3).toNat ≤ memRead s1.mem p 8)) ∧
      (∀ f, rmTranslate s r.ctx root .load (Rules.recordWord r 2) 8 = .error f →
        ∃ t, exec (.waitWordTest q) s = .next t ∧ ¬ isReady t ∧ t.mem = s.mem ∧ t.d.recs = s.d.recs.map (fun x =>
          if x.id = r.id then { x with at_ := .completing, refused := some 8, saved := [] } else x))) ∧
    (∀ die, (∃ p ∈ (masterGet s die).ready, p.2 + 2 ^ 20 ≤ s.clk) → exec (.priorityAging die) s = .next s)

/-- R192, R196, R200, R204, R205: the one candidate of a ringmaster, or the record that it holds, starts where its lanes
are free; where they are not, the candidate is held, and its die reserves for it. -/
def Sys2Proof.Parts.RecordStarts : Prop :=
  ∀ (s : State) (r : Rec) (gc : Nat) (root svec : Word) (since : Nat),
    let m := masterGet s r.home
    let u := queueGet s r.queue
    s.Uncounted → s.d.cc.busy = false → r.home < 4 → r.queue < 64 → s.d.recs.filter (fun x => x.id == r.id) = [r] → s.h.gid < 768 →
    Rules.Startable s r gc root svec →
    (m.held = none → (∀ x ∈ s.d.masters.toList, x.held = none) → (m.selAt = 0 ∨ m.selAt + 16 ≤ s.clk) →
      m.ready = [(r.queue, since)] → s.d.recs.find? (fun x => x.queue == r.queue && x.at_ == .head) = some r →
      u.en = true → u.active = true → u.switching = false → u.err = false → (u.head - u.prog).toNat < (u.tail - u.prog).toNat →
      (u.tail - u.prog).toNat ≤ 2 ^ u.log2n.toNat →
      (Rules.CoreIdle s gc →
        ∃ t, exec (.ringmasterSelect r.home) s = .next t ∧ Rules.Started s t r gc root svec) ∧
      ((∃ h ∈ s.h :: s.others, hartExists h = true ∧ h.gid = gc * 8 ∧ h.clusters = 8) → u.preempt = false →
        ∃ t, exec (.ringmasterSelect r.home) s = .next t ∧ (masterGet t r.home).held = some r.id ∧
          (masterGet t r.home).ready = [] ∧ t.h = s.h ∧ t.others = s.others ∧ t.mem = s.mem ∧ queueGet t r.queue = u ∧
          ((masterGet s (gc / 24)).reserved = none → (masterGet t (gc / 24)).reserved = some r.id))) ∧
    (m.held = some r.id → r.at_ = .held → (∀ x ∈ s.d.masters.toList, (x.held = none ∨ x.held = some r.id) ∧
      (x.reserved = none ∨ x.reserved = some r.id)) → Rules.CoreIdle s gc →
      ∃ t, exec (.recordStart r.home) s = .next t ∧ (masterGet t r.home).held = none ∧ Rules.Started s t r gc root svec)

/-- R208: a preload reserves the slabs of the record that is next on a core where another runs, and zeroes them (it has no
images here); the code line of its entry is copied to the core's fetch buffer where it translates. That the held record is
that next one, and one line is copied, are the model's choices (log 29). -/
def Sys2Proof.Parts.RecordPreload : Prop :=
  ∀ (s : State) (r : Rec) (die core : Nat) (root svec : Word),
    let m := masterGet s die
    let gc := die * 24 + core
    let n := (Rules.recordWord r 6).toNat / 2 ^ 52 % 32
    let free := (List.range 16).filter (fun p => !(s.h :: s.others).any (fun h =>
      hartExists h && coreOf h.gid == gc && h.slabs.contains p))
    let line := Rules.recordWord r 0 &&& ~~~ 63
    s.Inv → die < 4 → core < 24 → m.held = some r.id → s.d.recs.find? (fun x => x.id == r.id) = some r → r.saved = [] →
    (∀ x ∈ s.d.masters.toList, x.preloads = []) → (Rules.recordWord r 7).getLsbD (25 + die) = true →
    (Rules.recordWord r 7).getLsbD (29 + core) = true → (∃ h ∈ s.h :: s.others, hartExists h = true ∧ coreOf h.gid = gc) →
    n ≤ free.length → 1 ≤ recMembers r → Rules.recordWord r 5 = 0 → Rules.ContextEntry s r.ctx root svec →
    ∃ (t : State) (m' : Memory), exec (.preload die core) s = .next t ∧ (masterGet t die).preloads = [(gc, r.id, free.take n)] ∧
      t.h = s.h ∧ t.others = s.others ∧ t.d.recs = s.d.recs ∧
      (∀ a, memGet m' a =
        if ∃ p ∈ free.take n, scrAddr gc (p * 524288) ≤ a ∧ a < scrAddr gc ((p + 1) * 524288) then 0 else memGet s.mem a) ∧
      (∀ f, rmTranslate { s with mem := m' } r.ctx root .fetch line 64 = .error f → t.mem = m' ∧ t.d.fetch = s.d.fetch) ∧
      (∀ p s1, rmTranslate { s with mem := m' } r.ctx root .fetch line 64 = .ok (p, s1) → t.mem = s1.mem ∧
        t.d.fetch = ⟨gc, p, BitVec.ofNat 512 (memRead s1.mem p 64)⟩ ::
          s.d.fetch.filter (fun f => !(f.core == gc && f.addr == p)))

/-- R196, R198, R199, R209: a record of which every member has ended completes, and so does one that was refused: CTL1 is written,
then the word at a SIGADDR that is mapped is counted up, or ERR is set where it cannot be, and PROG passes it and the completed
records after it. -/
def Obligations.RecordCompletes : Prop :=
  ∀ (s : State) (r : Rec) (n : Nat),
    let u := queueGet s r.queue
    let slot := u.base.toNat / 64 * 64 + 64 * (r.ringIdx.toNat % 2 ^ u.log2n.toNat)
    let ctl1 := (Rules.recordWord r 7).toNat % 2 ^ 53 + (match r.refused with
      | some c => 4 * 2 ^ 53 + c % 256 * 2 ^ 56
      | none => (if r.killed then 5 else 2) * 2 ^ 53 + r.exitor.toNat * 2 ^ 56)
    s.Inv → s.d.cc.busy = false → r.queue < 64 → s.d.recs.find? (fun x => x.id == r.id) = some r → r.at_ = .completing →
    u.base.getLsbD 0 = false → normalPa slot = true → inCarveOut s.d.pscfg slot 64 = false → r.ringIdx = u.prog → u.finished.Nodup →
    (∀ k, 1 ≤ k → k ≤ n → u.prog + BitVec.ofNat 32 k ∈ u.finished) → u.prog ∉ u.finished → n < 2 ^ 16 →
    u.prog + BitVec.ofNat 32 (n + 1) ∉ u.finished →
    let sig := Rules.recordWord r 4
    let wrote : State := { s with
      mem := memWrite s.mem (slot + 56) 8 ctl1
      d := { s.d with recs := s.d.recs.map (fun x =>
        if x.id = r.id then { x with words := x.words.set 7 (BitVec.ofNat 64 ctl1) } else x) } }
    ∃ t, exec (.recordComplete r.id) s = .next t ∧ (sig = 0 → t.mem = wrote.mem ∧ (queueGet t r.queue).err = u.err) ∧
      (∀ root svec p p' v v', sig ≠ 0 → sig.toNat % 8 = 0 → Rules.ContextEntry wrote r.ctx root svec →
        rmTranslate wrote r.ctx root .load sig 8 = .ok (p, v) → rmTranslate v r.ctx root .store sig 8 = .ok (p', v') →
        memRead t.mem p' 8 = (memRead v'.mem p' 8 + 1) % 2 ^ 64 ∧ SameOutside v'.mem t.mem p' 8 ∧ (queueGet t r.queue).err = u.err) ∧
      (∀ root svec, sig ≠ 0 → sig.toNat % 8 = 0 → Rules.ContextEntry wrote r.ctx root svec →
        ((∃ f, rmTranslate wrote r.ctx root .load sig 8 = .error f) ∨
          ∃ p v f, rmTranslate wrote r.ctx root .load sig 8 = .ok (p, v) ∧ rmTranslate v r.ctx root .store sig 8 = .error f) →
        t.mem = wrote.mem ∧ (queueGet t r.queue).err = true) ∧
      (queueGet t r.queue).prog = u.prog + BitVec.ofNat 32 (n + 1) ∧ (queueGet t r.queue).head = u.head ∧
      (queueGet t r.queue).tail = u.tail ∧ (∀ x ∈ t.d.recs, x.id ≠ r.id) ∧ t.h = s.h ∧ t.others = s.others ∧
      t.d.out = (if u.ien then .msix u.vector :: s.d.out else s.d.out)

/-- R206, R341, R347: a budget that runs out stops every member, or starts again where the resume list is full; a
pre-emption that the supervisor of another hart asks for stops the record of its hart. -/
def Sys2Proof.Parts.RecordStopped : Prop :=
  ∀ (s : State) (r : Rec),
    let full := 64 ≤ (masterGet s r.home).resume.length +
      (s.d.recs.filter (fun x => x.home == r.home && x.at_ == .running && x.stopping.isSome)).length
    let stopAll (why : Stopping) (t : State) : Prop :=
      t.d.recs = s.d.recs.map (fun x => if x.id = r.id then { x with stopping := some why } else x) ∧ t.mem = s.mem ∧
        ∀ g h, ¬ (why = .preempt ∧ g = s.h.gid) → findHart s g = some h → ∃ h', findHart t g = some h' ∧
          h'.stop = (if g ∈ r.places then some 0 else h.stop) ∧ h'.pc = h.pc ∧ h'.x = h.x
    s.Uncounted → s.d.recs.find? (fun x => x.id == r.id) = some r → r.at_ = .running → r.stopping = none →
    (r.budget ≠ 0 → r.counted + r.budget ≤ s.clk → ¬ full →
      ∃ t, exec (.budgetExpire r.id) s = .next t ∧ stopAll .budget t) ∧
    (r.budget ≠ 0 → r.counted + r.budget ≤ s.clk → full →
      ∃ t, exec (.budgetExpire r.id) s = .next t ∧ t.h = s.h ∧ t.others = s.others ∧ t.mem = s.mem ∧
        t.d.recs = s.d.recs.map (fun x =>
          if x.id = r.id then { x with counted := s.clk, budget := (Rules.recordWord x 6).toNat % 2 ^ 48 } else x)) ∧
    (∀ g, recOf s s.h = some r → hartExists s.h = true → (∃ h ∈ s.others, h.gid ≠ s.h.gid ∧ hartExists h = true ∧ h.mode = .S) →
      ¬ full →
      ∃ t, exec (.preemptRequest g) s = .next t ∧ stopAll .preempt t ∧
        t.h = { s.h with stop := some g, sstatus := if inh s.h then s.h.sstatus ||| 0x80 else s.h.sstatus })

/-- R206, R207, R348: a stopped hart parked at a `waiteq`, the one member of its record, is saved: its context is kept with
what resuming it asks for, its place is empty, its fault records go with its context, and its record joins its resume list:
at the head where it was pre-empted, at the tail where its budget ran out. -/
def Sys2Proof.Parts.ContextSave : Prop :=
  ∀ (s : State) (r : Rec) (ea x : Word),
    let u := queueGet s r.queue
    let slot := u.base.toNat / 64 * 64 + 64 * (r.ringIdx.toNat % 2 ^ u.log2n.toNat)
    s.Inv → s.Uncounted → s.d.cc.busy = false → s.d.regions = [] → recOf s s.h = some r → s.h.record ≠ 0 → r.at_ = .running →
    r.home < 4 → r.places = [s.h.gid] → r.saved = [] → r.queue < 64 → u.base.getLsbD 0 = false → normalPa slot = true →
    inCarveOut s.d.pscfg slot 64 = false → s.d.recs.filter (fun x => x.id == r.id) = [r] → s.h.gid < 768 →
    s.h.run = .parked (.waiteq ea x) → s.h.stop = some 0 → inh s.h = false → s.h.second = false → s.h.replay = none →
    s.h.sending = none → s.h.pend = [] → s.h.sip &&& s.h.sie = 0 → r.stopping ≠ some .pack →
    ∃ t r' v, exec .contextSave s = .next t ∧ t.h = { Hart.zero with gid := s.h.gid } ∧ t.others = s.others ∧
      (s.h.gid, s.h.ctxid) ∈ t.d.saves ∧ frqOf t s.h.gid = [] ∧ t.d.recs.find? (fun x => x.id == r.id) = some r' ∧
      r'.at_ = .resume ∧ r'.places = [] ∧ r'.saved = [v] ∧
      v = { gid := s.h.gid, member := s.h.member, ctx := s.h.ctxid, clusters := s.h.clusters
            lanes := min s.h.lanes (liveLanes s.d.retired s.h.gid s.h.clusters), slabs := s.h.slabs.length
            tiles := s.h.tiles.length, waits := s.h.barWait, fgen := s.h.fgen, last := true
            size := (contextBits s s.h (liveParts s s.h) true true).2
            bits := (contextBits s s.h (liveParts s s.h) true true).1 } ∧
      (r.stopping = some .budget → (masterGet t r.home).resume = (masterGet s r.home).resume ++ [r.id] ∧
        memRead t.mem (slot + 56) 8 = (Rules.recordWord r 7).toNat % 2 ^ 53 + 3 * 2 ^ 53 ∧
        SameOutside s.mem t.mem (slot + 56) 8) ∧
      (r.stopping ≠ some .budget → (masterGet t r.home).resume = r.id :: (masterGet s r.home).resume ∧ t.mem = s.mem)

/-! ### The device register window (R271, R272, R401, R403, R404) -/

/-- R271, R272: a region is enabled, with the fields of the write, and disabled, with its lines freed; a pip store is
configured, or the write ignored. -/
def Sys2Proof.Parts.RegionRegisters : Prop :=
  ∀ (s : State) (v : Word), s.d.ready = true →
    (∀ r, r < 256 →
      let g := regionGet s r
      (g.en = false → v.getLsbD 0 = true → exec (.regionEnable r v) s = .next (regionPut s r { g with
        context := v.extractLsb' 33 16, quota := v.extractLsb' 5 28, home := (v.extractLsb' 3 2).toNat, en := true })) ∧
      (g.en = true → v.getLsbD 0 = false → exec (.regionDisable r v) s = .next (regionPut s r { g with
        quota := v.extractLsb' 5 28, en := false, lines := [], pending := [], collides := 0 }))) ∧
    (∀ die, die < 4 →
      let lines := (v.extractLsb' 0 28).toNat
      let base := (v.extractLsb' 30 8).toNat * 2 ^ 30
      exec (.pscfgWrite die v) s = .next (
        if (∃ p ∈ s.d.regions, p.2.en = true ∧ p.2.home = die) ∨ lines % 2 ^ 23 ≠ 0 ∨ 2 ^ 27 < lines ∨
            0xC00000000 < base + lines * 160 then s
        else { s with d := { s.d with pscfg := s.d.pscfg.setIfInBounds die (v &&& 0x3FCFFFFFFF) } }))

/-- R197, R380, R401, R403, R404: DEVID and LOCK; the point asked for and a limit that lowers it; CTXTAB and an event
counter through the window, which ignores writes before READY and at offsets that no block assigns. -/
def Sys2Proof.Parts.DeviceRegisters : Prop :=
  ∀ (s : State) (v : Word),
    (s.d.ready = true → v.getLsbD 16 = true → exec (.devidLock v) s = .next { s with d := { s.d with
      devid := (if s.d.lock then s.d.devid else v.setWidth 10), lock := true } }) ∧
    (s.d.ready = true → s.d.throt = false →
      let p := if v.setWidth 2 = (3 : BitVec 2) then s.d.req else v.setWidth 2
      exec (.powerPointRequest v) s = .next { s with d := { s.d with pcap := v.extractLsb' 32 16, req := p, cur := p } }) ∧
    (∃ c, exec .thermalLimit s = .next { s with d := { s.d with throt := true, cur := c } } ∧
      (c.toNat = min 2 (s.d.cur.toNat + 1) ∨ c.toNat = min 2 (s.d.cur.toNat + 2))) ∧
    (s.d.throt = true → exec .thermalLimitClear s = .next { s with d := { s.d with throt := false, cur := s.d.req } }) ∧
    (s.d.ready = true →
      (∃ t, exec (.registerWrite 0x10 v) s = .next t ∧ t = { s with d := { s.d with ctxtab := t.d.ctxtab } } ∧
        (t.d.ctxtab.setWidth 5).toNat = min (v.setWidth 5).toNat 16 ∧ t.d.ctxtab.extractLsb' 5 11 = 0 ∧
        t.d.ctxtab.extractLsb' 16 36 = v.extractLsb' 16 36 ∧ t.d.ctxtab.extractLsb' 52 12 = 0) ∧
      (∀ c k, c < 96 → k < 8 →
        let n := tabGet s.d.coreCtrs (c * 8 + k) Ctr.zero
        exec (.registerWrite (0x8000 + 256 * c + 16 * k + 8) v) s = .next { s with d := { s.d with
          coreCtrs := tabSet s.d.coreCtrs (c * 8 + k) { n with
            harts := v.extractLsb' 16 8, ovf := n.ovf && !v.getLsbD 9, int := v.getLsbD 8, en := v.getLsbD 7
            event := v.extractLsb' 0 6 } } }) ∧
      (∀ off, 0x18 ≤ off → off < 0x1000 → exec (.registerWrite off v) s = .next s)) ∧
    (s.d.ready = false → ∀ off, exec (.registerWrite off v) s = .next s)

/-! ### Context commands (R364 to R371) -/

/-- R364 to R366: an OP that is not assigned; tracking turned on and off; a swap of the dirty bitmap. That
a TRACK_ON whose bitmap lies out of DRAM or inside a pip store ends with status 8 is the model's choice (log 30). -/
def Sys2Proof.Parts.TrackingCommands : Prop :=
  ∀ (s : State) (v : Word),
    let c := s.d.cc
    let op := v.toNat % 16
    let now : CtxCmd := { c with
      context := v.extractLsb' 48 16, region := v.extractLsb' 40 8, hmem := v.getLsbD 30
      op := v.setWidth 4 }
    let bitmap := c.cbmap.toNat
    let buffer := c.caddr.toNat / 64 * 64
    let kept (t : State) : Prop := t.h = s.h ∧ t.others = s.others ∧ t.d.recs = s.d.recs ∧ t.d.queues = s.d.queues ∧
      t.d.regions = s.d.regions
    let fits : Prop := normalPa bitmap = true ∧ bitmap % 2 ^ 40 + 393216 ≤ 0xC00000000 ∧ inCarveOut s.d.pscfg bitmap 393216 = false
    s.d.ready = true → c.busy = false → s.Inv →
    (8 ≤ op → exec (.badop v) s = .next { s with d := { s.d with cc := { now with status := 9 } } }) ∧
    (op = 3 → ¬ fits → exec (.trackOn v) s = .next { s with d := { s.d with cc := { now with status := 8 } } }) ∧
    (op = 3 → fits → ∃ t, exec (.trackOn v) s = .next t ∧ kept t ∧ t.d.cc = { now with status := 0 } ∧ now.context ∈ t.d.tracked ∧
      (∀ x ∈ s.d.tracked, x ∈ t.d.tracked) ∧ (∀ e ∈ t.d.tlb, e.ctx = now.context → e.dirty = []) ∧
      ∀ a, memGet t.mem a = if bitmap ≤ a ∧ a < bitmap + 393216 then 0 else memGet s.mem a) ∧
    (op = 4 → exec (.trackOff v) s = .next { s with d := { s.d with
      tracked := s.d.tracked.filter (fun x => x ≠ now.context), cc := { now with status := 0 } } }) ∧
    (op = 5 → c.csize.toNat < 393216 →
      exec (.dirtySwap v) s = .next { s with d := { s.d with cc := { now with status := 4, csize := 393216 } } }) ∧
    (op = 5 → 393216 ≤ c.csize.toNat → v.getLsbD 30 = false → normalPa buffer = true →
      buffer % 2 ^ 40 + 393216 ≤ 0xC00000000 → inCarveOut s.d.pscfg buffer 393216 = false → (buffer + 393216 ≤ bitmap ∨ bitmap + 393216 ≤ buffer) →
      fits → poisoned s.d.poison bitmap 393216 = false →
      ∃ t, exec (.dirtySwap v) s = .next t ∧ kept t ∧ t.d.cc = { now with status := 0, csize := 393216 } ∧
        (∀ e ∈ t.d.tlb, e.dirty = []) ∧ ∀ a, memGet t.mem a =
          if bitmap ≤ a ∧ a < bitmap + 393216 then 0
          else if buffer ≤ a ∧ a < buffer + 393216 then memGet s.mem (bitmap + (a - buffer)) else memGet s.mem a)

/-- R370, R365: PIP_EXPORT writes one record for each line, or asks for room, or is refused, or meets an uncorrectable line (log 64); PIP_INSTALL stages a line whose name
holds, refuses one whose name does not, and frees the staged lines. -/
def Sys2Proof.Parts.PipCommands : Prop :=
  ∀ (s : State) (v : Word),
    let c := s.d.cc
    let now : CtxCmd := { c with
      context := v.extractLsb' 48 16, region := v.extractLsb' 40 8, hmem := v.getLsbD 30
      op := v.setWidth 4 }
    let a := c.caddr.toNat / 64 * 64
    let r := now.region.toNat
    let g := regionGet s r
    let n := g.lines.length
    let ends (st : State) (status : BitVec 8) (size : Word) : State :=
      { st with d := { st.d with cc := { now with status := status, csize := size } } }
    s.Inv → s.d.ready = true → c.busy = false → v.getLsbD 30 = false → normalPa a = true →
    (v.toNat % 16 = 6 → (g.en = false ∨ g.context ≠ now.context) → exec (.pipExport v) s = .next (ends s 5 c.csize)) ∧
    (v.toNat % 16 = 6 → g.en = true → g.context = now.context → g.pending = [] → n < 2 ^ 27 →
      g.lines.Pairwise (fun x y => x.pip.toNat < y.pip.toNat) →
      (c.csize.toNat < 160 * n → exec (.pipExport v) s = .next (ends s 4 (BitVec.ofNat 64 (160 * n)))) ∧
      (160 * n ≤ c.csize.toNat → (∃ x ∈ g.lines, lineBad s r g x.pip = true) → exec (.pipExport v) s = .next (ends s 8 c.csize)) ∧
      (160 * n ≤ c.csize.toNat → (∀ x ∈ g.lines, lineBad s r g x.pip = false) → a % 2 ^ 40 + 160 * n ≤ 0xC00000000 → inCarveOut s.d.pscfg a (160 * n) = false →
        ∃ t, exec (.pipExport v) s = .next t ∧ t = ends { s with mem := t.mem } 0 (BitVec.ofNat 64 (160 * n)) ∧
          SameOutside s.mem t.mem a (160 * n) ∧ ∀ k x, g.lines[k]? = some x →
            memRead t.mem (a + 160 * k) 16 = x.pip.toNat ∧ memRead t.mem (a + 160 * k + 16) 1 = (if x.inner then 1 else 0) ∧
            memRead t.mem (a + 160 * k + 17) 3 = 0 ∧ memRead t.mem (a + 160 * k + 20) 4 = x.count % 2 ^ 32 ∧
            memRead t.mem (a + 160 * k + 24) 8 = 0 ∧ memRead t.mem (a + 160 * k + 32) 128 = x.data.toNat)) ∧
    (v.toNat % 16 = 7 → g.en = true → exec (.pipInstall v) s = .next (ends s 5 c.csize)) ∧
    (v.toNat % 16 = 7 → g.en = false → c.csize = 0 →
      exec (.pipInstall v) s = .next (ends (regionPut s r { g with staged := [] }) 0 0)) ∧
    (v.toNat % 16 = 7 → g.en = false → c.csize = 160 → a % 2 ^ 40 + 160 ≤ 0xC00000000 →
      inCarveOut s.d.pscfg a 160 = false → poisoned s.d.poison a 160 = false →
      storeFull s g.home = false →
      let pip : BitVec 128 := BitVec.ofNat 128 (memRead s.mem a 16)
      let inner := memRead s.mem (a + 16) 1 = 1
      let data : BitVec 1024 := BitVec.ofNat 1024 (memRead s.mem (a + 32) 128)
      memRead s.mem (a + 16) 1 ≤ 1 → memRead s.mem (a + 17) 3 = 0 → memRead s.mem (a + 24) 8 = 0 → pip ≠ 0 →
      (∀ x ∈ g.staged, x.pip ≠ pip) →
      exec (.pipInstall v) s = .next (if pip.toNat / 256 = pipName g.key (decide inner) data then
        ends (regionPut s r { g with staged := g.staged ++ [⟨pip, decide inner, data, 0⟩] }) 0 160 else ends s 6 0))

/-- R367, R369, R371: PACKDOWN stops the members of its context's records; of a context that has none, or one that waits on a
resume list with a member saved, it writes the image at once, its sections among it; and SETUP takes the image that PACKDOWN
wrote, whose record joins a resume list again, and refuses what is none. The order of the sections is the model's choice (log
12), and so are BUDGETLEFT, the whole BUDGET, and QUEUE, 0xFF, of a record on a resume list whose queue is outside CQMASK (log 30). -/
def Obligations.PackDownAndSetUp : Prop :=
  ∀ (s : State) (v : Word) (root svec : Word),
    let c := s.d.cc
    let ctx : BitVec 16 := v.extractLsb' 48 16
    let a := c.caddr.toNat / 64 * 64
    let entry := (s.d.ctxtab.extractLsb' 16 36).toNat * 2 ^ 16 + 64 * ctx.toNat
    let apart (n : Nat) : Prop := entry + 64 ≤ a ∨ a + n ≤ entry
    s.Inv → s.d.ready = true → c.busy = false → v.getLsbD 30 = false → normalPa a = true → v.toNat % 16 = 1 →
    (∀ m ∈ s.d.masters.toList, m.held = none) → c.cqmask = 0 →
    (∀ r, r ∈ s.d.recs → r.ctx = ctx → r.at_ = .running → r.stopping = none →
      ∃ t, exec (.packdown v) s = .next t ∧ t.d.cc.busy = true ∧ t.d.cc.op = 1 ∧ t.mem = s.mem ∧
        t.d.recs = s.d.recs.map (fun x =>
          if x.ctx = ctx ∧ x.at_ = .running ∧ x.stopping = none ∧ ∃ y ∈ s.d.recs, y.id = x.id ∧ y.ctx = ctx ∧ y.at_ = .running ∧
            y.stopping = none then { x with stopping := some .pack } else x)) ∧
    ((∀ r ∈ s.d.recs, r.ctx ≠ ctx) → s.d.regions = [] → Rules.ContextEntry s ctx root svec → 4096 ≤ c.csize.toNat →
      a % 2 ^ 40 + 4096 ≤ 0xC00000000 → inCarveOut s.d.pscfg a 4096 = false → poisoned s.d.poison a 4096 = false →
      (∀ h ∈ s.h :: s.others, hartExists h = true → h.ctxid ≠ ctx) →
      ∃ t size, exec (.packdown v) s = .next t ∧ t.d.cc.busy = false ∧ t.d.cc.status = 0 ∧ t.d.cc.csize = BitVec.ofNat 64 size ∧
        64 ≤ size ∧ size ≤ 4096 ∧ memRead t.mem a 4 = 0x1A494450 ∧ memRead t.mem (a + 4) 4 = 0x30001 ∧
        memRead t.mem (a + 8) 8 = size ∧ memRead t.mem (a + 18) 2 = 0 ∧ memRead t.mem (a + 20) 2 = ctx.toNat ∧
        memRead t.mem (a + 22) 2 = 0 ∧ memRead t.mem (a + 32) 8 = s.clk % 2 ^ 64 ∧ SameOutside s.mem t.mem a size ∧
        (apart 4096 →
          ∃ u, exec (.setup (v + 1)) t = .next u ∧ u.d.cc.status = 0 ∧ u.d.cc.csize = BitVec.ofNat 64 size ∧ u.mem = t.mem)) ∧
    (∀ (r : Rec) (m : Saved), s.d.recs.filter (fun x => x.ctx = ctx) = [r] → r.at_ = .resume → r.stopping = none → r.saved = [m] →
      r.home < 4 → (masterGet s r.home).resume = [r.id] → s.d.regions = [] → queueGet s 255 = Queue.zero →
      Rules.ContextEntry s ctx root svec → (∀ h ∈ s.h :: s.others, hartExists h = true → h.ctxid ≠ ctx) → m.member < 1024 →
      let o := (256 + m.size + 63) / 64 * 64
      let size := o + 256
      let dir : List (Nat × Nat × Nat) :=
        [(1, 16, 192), (2, m.size, 256), (3, 128, o), (5, 64, o + 128), (6, 64, o + 192), (7, 0, o + 256), (4, 0, o + 256)]
      size ≤ c.csize.toNat → size < 2 ^ 32 → a % 2 ^ 40 + size ≤ 0xC00000000 → inCarveOut s.d.pscfg a size = false →
      poisoned s.d.poison a size = false →
      ∃ t, exec (.packdown v) s = .next t ∧ t.d.cc.busy = false ∧ t.d.cc.status = 0 ∧ t.d.cc.csize = BitVec.ofNat 64 size ∧
        SameOutside s.mem t.mem a size ∧ memRead t.mem a 4 = 0x1A494450 ∧ memRead t.mem (a + 8) 8 = size ∧
        memRead t.mem (a + 16) 2 = 7 ∧ memRead t.mem (a + 18) 2 = 1 ∧ memRead t.mem (a + 22) 2 = 1 ∧
        (∀ k e, dir[k]? = some e → memRead t.mem (a + 64 + 16 * k) 2 = e.1 ∧ memRead t.mem (a + 68 + 16 * k) 4 = e.2.1 ∧
          memRead t.mem (a + 72 + 16 * k) 8 = e.2.2) ∧
        memRead t.mem (a + 192) 4 = 0 ∧ memRead t.mem (a + 196) 4 = m.member ∧ memRead t.mem (a + 200) 8 = 0 ∧
        memRead t.mem (a + 256) m.size = m.bits % 2 ^ (8 * m.size) ∧
        (let rec_ := a + o
         (∀ k, k < 8 → memRead t.mem (rec_ + 8 * k) 8 = (Rules.recordWord r k).toNat) ∧
         memRead t.mem (rec_ + 64) 8 = (Rules.recordWord r 6).toNat % 2 ^ 48 ∧ memRead t.mem (rec_ + 72) 8 = r.total.toNat ∧
         memRead t.mem (rec_ + 80) 8 = r.next.toNat ∧ memRead t.mem (rec_ + 88) 8 = r.done.toNat ∧
         memRead t.mem (rec_ + 96) 2 = r.set.toNat ∧ memRead t.mem (rec_ + 98) 1 = 0xFF ∧ memRead t.mem (rec_ + 99) 1 = 1 ∧
         memRead t.mem (rec_ + 100) 1 = 0 ∧ memRead t.mem (rec_ + 101) 1 = r.exitor.toNat ∧
         memRead t.mem (rec_ + 102) 2 = r.ended % 2 ^ 16 ∧ memRead t.mem (rec_ + 104) 4 = r.ringIdx.toNat ∧
         memRead t.mem (rec_ + 108) 20 = 0 ∧ memRead t.mem (rec_ + 128) 8 = root.toNat) ∧
        t.d.recs = s.d.recs.filter (fun x => x.ctx ≠ ctx) ∧ (masterGet t r.home).resume = [] ∧
        (let began : State := { t with d := { t.d with cc := { t.d.cc with op := 2 } } }
         ∀ w : HartIn, apart size → (Rules.recordWord r 6).toNat / 2 ^ 62 = 0 →
          readHart began ctx.toNat (m.bits % 2 ^ (8 * m.size)) m.size 0 0 m.member = some w →
          lanesOffered began (packBytes (r.words.toList.map (fun w => (8, w.toNat)))) w.saved = true →
          ∃ u r' m', exec (.setup (v + 1)) t = .next u ∧ u.d.cc.status = 0 ∧ u.d.cc.csize = BitVec.ofNat 64 size ∧ u.mem = t.mem ∧
            u.h = t.h ∧ u.others = t.others ∧ u.d.recs = t.d.recs ++ [r'] ∧ r'.ctx = ctx ∧ r'.words = r.words ∧ r'.at_ = .resume ∧
            r'.ringIdx = r.ringIdx ∧ r'.total = r.total ∧ r'.next = r.next ∧ r'.done = r.done ∧ r'.set = r.set ∧
            r'.exitor = r.exitor ∧ r'.ended = r.ended % 2 ^ 16 ∧ r'.saved = [m'] ∧ m' = { w.saved with last := m'.last } ∧
            (masterGet u r'.home).resume = (masterGet t r'.home).resume ++ [r'.id])) ∧
    (memRead s.mem a 4 ≠ 0x1A494450 → 64 ≤ c.csize.toNat → a % 2 ^ 40 + 64 ≤ 0xC00000000 → inCarveOut s.d.pscfg a 64 = false →
      poisoned s.d.poison a 64 = false →
      ∃ u, exec (.setup (v + 1)) s = .next u ∧ u = { s with d := { s.d with cc := u.d.cc } } ∧ u.d.cc.status = 3 ∧
        u.d.cc.busy = false)

/-! ### Errors, resets and the alarm (R375 to R379, R404) -/

/-- R375, R376: a unit whose failure has its group diagnosed, the third failed attempt of it or the 32nd failed unit within
2^24 clk, is counted and logged; then the spare takes the bad lane. The beat and the attempts of the swap's record, and that
the poison of the unit lasts until the swap, are the model's choices (log 33). -/
def Obligations.LaneDiagnosis : Prop :=
  ∀ (s : State) (die ch grp lane off beat tries n : Nat),
    let die_ (l : Vector (List LogRec) 4) : List LogRec := l.toList.getD die []
    let rec_ (kind lane' beat' tries' count : Nat) : LogRec :=
      { stamp := BitVec.ofNat 64 s.clk, off := off / 256 * 256, bytes := [ch, grp, beat', tries'], kind := kind, lane := lane',
        count := count }
    let tried := max 2 (min tries 4)
    s.Uncounted → die < 4 → off < 2 ^ 40 → n < 2 ^ 31 →
    (∀ x ∈ s.d.swapped, ¬ (x.1 = die ∧ x.2.1 = ch ∧ x.2.2.1 = grp)) →
    s.d.grpFails.filter (fun x => x.1 = die ∧ x.2.1 = ch ∧ x.2.2.1 = grp) = [(die, ch, grp, n)] → (die_ s.d.blog).length < 64 →
    ((∀ x ∈ s.d.diag, ¬ (x.1 = die ∧ x.2.1 = ch)) →
      (4 ≤ tries ∨ 31 ≤ (s.d.recent.filter (fun x =>
        decide (x.1 = die ∧ x.2.1 = ch ∧ x.2.2.1 = grp ∧ s.clk < x.2.2.2 + 2 ^ 24))).length) →
      ∃ t, exec (.busLaneDiagnosis die ch grp off beat tries) s = .next t ∧
        die_ t.d.blog = die_ s.d.blog ++ [rec_ (if tries ≤ 4 then 1 else 2) 0xFF beat tried (n + 1)] ∧
        (die, ch, grp, off) ∈ t.d.diag ∧ (die, ch, grp, n + 1) ∈ t.d.grpFails ∧ (die, ch, grp, s.clk) ∈ t.d.recent ∧
        tabGet t.d.tallies (die * 64 + 0x39) 0 = tabGet s.d.tallies (die * 64 + 0x39) 0 + (tried - 1) ∧
        (tries ≤ 4 → t.d.poison = s.d.poison) ∧
        (4 < tries → poisoned t.d.poison (die * 2 ^ 40 + off / 256 * 256) 256 = true) ∧ t.h = s.h ∧ t.mem = s.mem) ∧
    ((die, ch, grp, off) ∈ s.d.diag →
      ∃ t, exec (.laneSwap die ch grp lane off) s = .next t ∧ (die, ch, grp, lane) ∈ t.d.swapped ∧
        die_ t.d.blog = die_ s.d.blog ++ [rec_ 3 lane 0 0 n] ∧ t.d.diag.length + 1 = s.d.diag.length ∧
        tabGet t.d.tallies (die * 64 + 0x3A) 0 = tabGet s.d.tallies (die * 64 + 0x3A) 0 + 1 ∧
        (∀ x, x ∈ t.d.poison ↔ x ∈ s.d.poison ∧ x ≠ (die * 2 ^ 40 + off / 256 * 256, 256)) ∧ t.h = s.h ∧ t.mem = s.mem)

/-- R377 to R379, R404: a cold reset boots the first slot whose keys, signatures, body and version pass, or leaves the device
in recovery; a warm reset; an alarm. What each keeps or clears beyond R377 to R379 is the model's choice (logs 3 and 32). -/
def Obligations.Resets : Prop :=
  ∀ s : State, s.Inv →
    let empty (t : State) : Prop := t.h = Hart.zero ∧ t.others = [] ∧ t.d.recs = [] ∧ t.d.queues = [] ∧ t.d.regions = [] ∧
      t.d.tlb = [] ∧ t.d.retired = s.d.retired ∧ t.d.swapped = s.d.swapped
    let cleared (t : State) : Prop := (∀ a, a < hostBase ∨ scrBase ≤ a → memGet t.mem a = 0) ∧
      ∀ a, hostBase ≤ a → a < scrBase → memGet t.mem a = memGet s.mem a
    let boots (f : FwSlot) (svn : Nat) : Prop := f.edKey = Config.fusedEdKey ∧ f.pqKey = Config.fusedPqKey ∧ f.edSig = true ∧ f.pqSig = true ∧
      f.body = f.digest ∧ s.d.fuse ≤ svn
    let runs (t : State) (slot : Nat) (f : FwSlot) (svn : Nat) (commit : Bool) : Prop := t.d.ready = true ∧ t.d.slot = slot ∧ t.d.svn = svn ∧
      t.d.bootfail = false ∧ t.d.fwDigest = f.body ∧ t.d.fuse = if commit then min 64 (max s.d.fuse svn) else s.d.fuse
    (∀ (a b : FwSlot) (svnA svnB : Nat) (commitA commitB : Bool),
      ∃ t, exec (.coldReset a b svnA svnB commitA commitB) s = .next t ∧ empty t ∧ cleared t ∧ t.clk = 0 ∧
        t.d.alarm = 0 ∧ t.d.alarmLast = s.d.alarm ∧ t.d.devid = 0 ∧ t.d.lock = false ∧
        t.d.idKey = Config.identityKey Config.fusedSeed ∧
        (boots a svnA → runs t 0 a svnA commitA) ∧ (¬ boots a svnA → boots b svnB → runs t 1 b svnB commitB) ∧
        (¬ boots a svnA → ¬ boots b svnB → t.d.ready = false ∧ t.d.bootfail = true ∧ t.d.fuse = s.d.fuse)) ∧
    (s.d.holding = false → s.d.bootfail = false →
      ∃ t, exec .warmReset s = .next t ∧ empty t ∧ cleared t ∧ t.d.ready = true ∧ t.d.devid = s.d.devid ∧
        t.d.lock = s.d.lock ∧ t.d.alarm = s.d.alarm ∧ t.d.alarmLast = s.d.alarmLast ∧ t.d.slot = s.d.slot ∧
        t.d.fuse = s.d.fuse ∧ t.clk = s.clk) ∧
    (∀ kind : BitVec 8, 1 ≤ kind.toNat → kind.toNat ≤ 3 →
      ∃ t, exec (.securityAlarm kind) s = .next t ∧ empty t ∧ t.d.alarm = kind ∧ t.d.alarmLast = s.d.alarmLast ∧
        t.d.holding = true ∧ t.d.ready = false ∧ t.d.cc.migkey = none ∧ t.d.sessKey = none ∧ t.d.ide = false ∧ t.d.idKey = 0 ∧
        t.d.fuse = s.d.fuse)

/-! ### Midway (R393, R396 to R398) -/

/-- R396, R397: a port is enabled, trains with the receive credits that its far end grants once IDE is established, loses a
lane, goes down; a flit of it without acknowledgement, or that still waits, goes by the next port of its device, or waits for one
to train (log 17); and a write of ROUTE, of one entry or, at an offset of 8 bytes, of four (log 62). -/
def Sys2Proof.Parts.MidwayPorts : Prop :=
  ∀ (s : State) (q : Nat) (v : Word),
    let p := portGet s q
    let down : Port := { p with up := false, lanes := 0, credits := 0, owed := 0, unacked := [], flying := [], waiting := [] }
    q < 16 →
    (s.d.ready = true → (v.getLsbD 0 = true ∨ p.up = false) →
      exec (.portEnable q v) s = .next (portPut s q { p with en := v.getLsbD 0 })) ∧
    (∀ peer lanes, s.d.ide = true → p.en = true → p.up = false → p.macfail = false → (lanes = 4 ∨ lanes = 8) → peer < 1024 →
      let up : Port := { p with
        up := true, peer := BitVec.ofNat 10 peer, lanes := lanes, seq := 0, credits := Config.linkCredits s.steps }
      (s.d.stranded = [] → exec (.portTrained q peer lanes) s = .next (portPut s q up)) ∧
      (∀ kind f, s.d.stranded = [(kind, f)] → kind ≠ 9 → Rules.Routed (portPut s q up) (f.dst.toNat / 1024) q →
        ∃ t, exec (.portTrained q peer lanes) s = .next t ∧ Rules.Leaves s.d.out up t q kind f ∧ t.d.stranded = [] ∧ t.h = s.h ∧
          t.mem = s.mem)) ∧
    (s.d.ready = true → s.d.stranded = [] → ∀ dev, dev < 1024 → ∃ t, exec (.registerWrite (0x51000 + 2 * dev) v) s = .next t ∧
      t = { s with d := { s.d with routes := t.d.routes } } ∧ ∀ e, tabGet t.d.routes e (0 : BitVec 16) =
        if e = dev then v.setWidth 16
        else if dev % 4 = 0 ∧ dev < e ∧ e < dev + 4 then v.extractLsb' (16 * (e - dev)) 16
        else tabGet s.d.routes e (0 : BitVec 16)) ∧
    (p.up = true → p.lanes = 8 → exec (.laneFailRetrain q) s = .next (portPut s q { p with lanes := 4 })) ∧
    (p.up = true → p.unacked = [] → p.waiting = [] → exec (.portDown q) s = .next (portPut s q down)) ∧
    (∀ kind f r, p.up = true → p.unacked ++ p.waiting = [(kind, f)] → r < 16 → r ≠ q →
      (tabGet s.d.routes (f.dst.toNat / 1024) (0 : BitVec 16)).getLsbD r = true → (portGet s r).up = true →
      (∀ k, k < r → (tabGet s.d.routes (f.dst.toNat / 1024) (0 : BitVec 16)).getLsbD k = true → (portGet s k).up = true → k = q) →
      kind ≠ 9 →
      ∃ t, exec (.portDown q) s = .next t ∧ portGet t q = down ∧ Rules.Leaves s.d.out (portGet s r) t r kind f ∧ t.h = s.h ∧
        t.mem = s.mem) ∧
    (∀ kind f, p.up = true → p.unacked ++ p.waiting = [(kind, f)] →
      (∀ k, k < 16 → (tabGet s.d.routes (f.dst.toNat / 1024) (0 : BitVec 16)).getLsbD k = true → (portGet s k).up = true → k = q) →
      ∃ t, exec (.portDown q) s = .next t ∧ portGet t q = down ∧ t.d.stranded = s.d.stranded ++ [(kind, f)] ∧ t.d.out = s.d.out ∧
        t.h = s.h ∧ t.mem = s.mem)

/-- R389, R396, R398: what a flit does that arrives whole at a port that is up: its credits come back and one is owed for it;
reads, writes and atomics are performed at this home and answered; answers are taken by the agents that wait for them; a flit that
carries credits alone takes none. When credits are sent, what they acknowledge, and how a payload carries an operation, is the
model's choice (logs 16 and 17). -/
def Sys2Proof.Parts.MemoryFlits : Prop :=
  ∀ (s : State) (q r : Nat) (f : Flit),
    let p := portGet s q
    let took : Port := { Rules.credited p f.credits.toNat with owed := p.owed + 1 }
    let back (len data : Nat) : Flit := { f with src := f.dst, dst := f.src, len := len, data := data }
    let answers (t : State) (kind len data : Nat) : Prop :=
      Rules.Leaves s.d.out (if r = q then took else portGet s r) t r kind (back len data)
    s.Inv → s.d.ide = true → p.up = true → f.good = true → f.macGood = true → p.waiting = [] → p.owed < 127 →
    (f.dst.toNat / 1024 = s.d.devid.toNat → normalPa f.addr = true → f.addr % 2 ^ 40 + f.len ≤ 0xC00000000 →
      inCarveOut s.d.pscfg f.addr f.len = false → Rules.Routed s (f.src.toNat / 1024) r →
      (∃ t, exec (.readRequest q f) s = .next t ∧ answers t 2 f.len (memRead s.mem f.addr f.len) ∧
        t.mem = s.mem ∧ t.h = s.h) ∧
      (∃ t, exec (.write q f) s = .next t ∧ answers t 7 0 0 ∧
        memRead t.mem f.addr f.len = f.data % 2 ^ (8 * f.len) ∧ SameOutside s.mem t.mem f.addr f.len ∧ t.h = s.h) ∧
      (∀ et, et = .i64 ∨ et = .n64 → f.len = 8 →
        let old := memRead s.mem f.addr 8
        ∀ op new, (op = 0 ∧ new = f.data % 2 ^ 64 ∨ op = 1 ∧ new = (old + f.data) % 2 ^ 64) →
        ∃ t, exec (.atomic q f op et) s = .next t ∧ answers t 5 8 old ∧ memRead t.mem f.addr 8 = new ∧
          SameOutside s.mem t.mem f.addr 8 ∧ t.h = s.h)) ∧
    (∃ t, exec (.readData q f) s = .next t ∧
      (let at_ := 2 ^ 54 + f.src.toNat / 1024 * 2 ^ 42 + f.addr % 2 ^ 42
       memRead t.mem at_ f.len = f.data % 2 ^ (8 * f.len) ∧ SameOutside s.mem t.mem at_ f.len) ∧ t.h = s.h ∧
      ∀ u, p.unacked = [(1, u)] → u.src = f.dst → u.dst = f.src → (portGet t q).unacked = []) ∧
    (∃ t, exec (.atomicResult q f) s = .next t ∧ t.h = s.h ∧ t.mem = s.mem ∧
      ∀ u, p.unacked = [(4, u)] → u.src = f.dst → u.dst = f.src → (portGet t q).unacked = []) ∧
    exec (.creditOnly q f) s = .next (portPut s q (Rules.credited p f.credits.toNat))

/-- R390 to R393, R396: a send element fills a slot of its place and is acknowledged, or refused, or its sender told to wait;
its acknowledgement lets its sender go on, and a wait makes it wait for the place. That the element carries its sender's
context is the model's choice (log 17). -/
def Sys2Proof.Parts.SendFlits : Prop :=
  ∀ (s : State) (q r : Nat) (f : Flit) (et : ET) (elem : Nat),
    let p := portGet s q
    let took : Port := { Rules.credited p f.credits.toNat with owed := p.owed + 1 }
    let answers (t : State) (kind data : Nat) : Prop := Rules.Leaves s.d.out (if r = q then took else portGet s r) t r kind
      { f with src := f.dst, dst := f.src, len := 0, data := data }
    let place (n : Nat) : Nat := (n / 256 % 4 * 24 + n / 8 % 32) * 8 + n % 8
    let gid := place f.dst.toNat
    let ctx := BitVec.ofNat 16 f.addr
    s.Inv → s.d.ide = true → p.up = true → f.good = true → f.macGood = true → p.waiting = [] → p.owed < 127 →
    f.dst.toNat / 8 % 32 < 24 →
    (f.dst.toNat / 1024 = s.d.devid.toNat → Rules.Routed s (f.src.toNat / 1024) r →
      (∀ h b ps, findHart s gid = some h → h.ctxid = ctx → h.slabs = b :: ps → RingHasRoom s.mem h b →
        ∃ t, exec (.sendElement q f et elem) s = .next t ∧ answers t 7 0 ∧ t.h = s.h ∧
          RingTakes s.mem t.mem h b (f.data % 2 ^ 64)
            (2 ^ 63 + et.code.toNat * 2 ^ 35 + elem % 2 ^ 15 * 2 ^ 20 + f.src.toNat)) ∧
      (∀ h b ps, findHart s gid = some h → h.ctxid = ctx → h.slabs = b :: ps → ¬ RingHasRoom s.mem h b →
        ∃ t, exec (.sendElement q f et elem) s = .next t ∧ answers t 8 0 ∧ t.h = s.h ∧ t.mem = s.mem) ∧
      ((∀ h, findHart s gid = some h → h.ctxid ≠ ctx ∨ h.slabs = []) →
        ∃ t, exec (.sendElement q f et elem) s = .next t ∧ t.h = s.h ∧ t.mem = s.mem ∧
          (findHart s gid = none ∧ (gid, ctx) ∈ s.d.saves → answers t 8 0) ∧
          (¬ (findHart s gid = none ∧ (gid, ctx) ∈ s.d.saves) → answers t 7 1))) ∧
    (∀ g, s.h.gid = gid → hartExists s.h = true → s.h.run = .parked (.sendAck f.src.toNat) → s.h.sending = some g →
      (∀ h ∈ s.others, h.gid ≠ gid) → p.unacked = [] →
      (∃ t, exec (.acknowledgement q f) s = .next t ∧ t.others = s.others ∧ t.mem = s.mem ∧ t.h = { s.h with
        run := .running, vstart := s.h.vstart + 1
        sending := some { g with faults := if f.data = 0 then g.faults
          else (s.h.vstart, BitVec.ofNat 64 f.src.toNat, 5) :: g.faults } }) ∧
      ∃ t, exec (.wait q f) s = .next t ∧ t.others = s.others ∧ t.mem = s.mem ∧
        t.h = { s.h with run := .parked (.sendPlace f.src.toNat) })

/-- R396: a flit whose CRC fails is only counted, and one whose MAC fails takes the port down, whatever its kind. -/
def Sys2Proof.Parts.BadFlits : Prop :=
  ∀ (s : State) (q : Nat) (f : Flit) (i : Instr),
    let p := portGet s q
    (i = .readRequest q f ∨ i = .readData q f ∨ i = .write q f ∨ i = .atomicResult q f ∨ i = .acknowledgement q f ∨ i = .wait q f ∨
      i = .creditOnly q f ∨ (∃ op et, i = .atomic q f op et) ∨ ∃ et e, i = .sendElement q f et e) →
    p.up = true → s.d.ide = true →
    (f.good = false → exec i s = .next (portPut s q { p with replays := if p.replays = 0xFFFFFFFF then p.replays else p.replays + 1 })) ∧
    (f.good = true → f.macGood = false → p.unacked = [] → p.waiting = [] →
      exec i s = .next (portPut s q { p with up := false, lanes := 0, macfail := true, credits := 0, owed := 0, flying := [] }))

/-! ### Host and management (R376, R378, R400, R402, R405) -/

/-- R400, R402, R404: the host reads and writes device memory under IDE, a store's carve-out as zeros, and reaches the on-chip map
once READY is set. That a refused read gives ones in every byte, as one of an uncorrectable byte does, and a refused write does
nothing, are the model's choices (log 34). -/
def Obligations.HostMemory : Prop :=
  ∀ (s : State) (off : Nat) (bs : List Byte),
    let a := off / 0xC00000000 * 2 ^ 40 + off % 0xC00000000
    s.Inv → (s.d.ide = false → exec (.hostMemWrite off bs) s = .next s ∧ exec (.hostMemRead off bs.length) s =
      .next { s with d := { s.d with out := .bytes (List.replicate bs.length 0xFF) :: s.d.out } }) ∧
    (s.d.ide = true → off % 0xC00000000 + bs.length ≤ 0xC00000000 → off < 4 * 0xC00000000 →
      (∃ t, exec (.hostMemWrite off bs) s = .next t ∧ t = { s with mem := t.mem } ∧
        ∀ b, memGet t.mem b =
          if a ≤ b ∧ b < a + bs.length ∧ inCarveOut s.d.pscfg b 1 = false then bs.getD (b - a) 0 else memGet s.mem b) ∧
      exec (.hostMemRead off bs.length) s = .next { s with d := { s.d with
        out := .bytes ((List.range bs.length).map (fun k =>
          if inCarveOut s.d.pscfg (a + k) 1 then 0
          else if poisoned s.d.poison (a + k) 1 then 0xFF else memGet s.mem (a + k))) :: s.d.out } }) ∧
    (∀ (gc o : Nat) (v : Word), gc < 96 → o < 2 ^ 23 → o % 8 = 0 → s.d.ready = true → poisoned s.d.poison (scrAddr gc o) 8 = false →
      let n := 2 ^ 38 * (gc / 24) + 2 ^ 33 * (gc % 24) + o
      exec (.hostMapAccess n none) s =
        .next { s with d := { s.d with out := .word (BitVec.ofNat 64 (memRead s.mem (scrAddr gc o) 8)) :: s.d.out } } ∧
      exec (.hostMapAccess n (some v)) s = .next { s with mem := memWrite s.mem (scrAddr gc o) 8 v.toNat }) ∧
    (s.d.ready = false → ∀ n v, exec (.hostMapAccess n (some v)) s = .next s ∧
      exec (.hostMapAccess n none) s = .next { s with d := { s.d with out := .word 0 :: s.d.out } })

/-- R377 to R379, R400: what the device answers to the nine requests of R378: each needs the phase before it; the
measurements; the exchange that ends in a session and in IDE. The codes of requests, responses and errors are the model's
choice (log 18). -/
def Sys2Proof.Parts.Attestation : Prop :=
  ∀ (s : State) (slot off len : Nat) (n data : BitVec 256) (mac : BitVec 384),
    let answer (t : State) (code : Nat) (bs : List Byte) : State := { t with d := { t.d with out := .resp code bs :: s.d.out } }
    let at_ (p : Nat) : State := { s with d := { s.d with spdm := p } }
    let le (k x : Nat) : List Byte := (List.range k).map (fun j => BitVec.ofNat 8 (x / 256 ^ j))
    s.d.holding = false → s.d.bootfail = false →
    exec .getVersion s = .next (answer (at_ 1) 0x04 [0x13]) ∧
    (1 ≤ s.d.spdm → ∃ bs, bs.length = 4 ∧ exec .getCapabilities s = .next (answer (at_ 2) 0x61 bs)) ∧
    (2 ≤ s.d.spdm →
      exec (.negotiateAlgorithms 2 0x400) s = .next (answer (at_ 3) 0x63 [2, 0, 0, 4]) ∧
      exec (.negotiateAlgorithms 1 0x400) s = .next (answer (at_ 2) 0x63 [0, 0, 0, 4])) ∧
    (3 ≤ s.d.spdm → slot < 8 →
      (∃ bs, bs.length = 48 ∧ exec .getDigests s = .next (answer s 0x01 bs)) ∧
      (∃ bs, bs.length = len ∧ exec (.getCertificate slot off len) s = .next (answer s 0x02 bs)) ∧
      (∃ bs, bs.length = 64 ∧ exec (.challenge slot n) s = .next (answer s 0x03 bs)) ∧
      (∃ bs, bs.length = 48 ∧ exec (.getMeasurements 1) s = .next (answer s 0x60 (1 :: bs))) ∧
      exec (.getMeasurements 2) s = .next (answer s 0x60 (2 :: le 48 s.d.fwDigest.toNat)) ∧
      exec (.getMeasurements 3) s = .next (answer s 0x60 (3 :: (le 4 s.d.svn ++ le 4 s.d.fuse))) ∧
      (∃ bs, bs.length = 416 ∧ exec (.getMeasurements 4) s = .next (answer s 0x60 (4 :: bs)) ∧
        ∀ die l, die < 4 → l < 768 →
          (bs.getD (104 * die + l / 8) 0).getLsbD (l % 8) = decide (768 * die + l ∈ s.d.retired) ∧
          ∀ k, k < 8 → bs.getD (104 * die + 96 + k) 0 = (s.d.pscfg.toList.getD die 0).extractLsb' (8 * k) 8) ∧
      exec (.getMeasurements 5) s = .next (answer s 0x60 [5, s.d.alarmLast]) ∧
      (∃ bs, bs.length = 3309 ∧ exec (.getMeasurements 0x10) s = .next (answer s 0x60 (0x10 :: bs))) ∧
      (∃ bs key, bs.length = 64 ∧ exec (.keyExchange slot data) s =
        .next (answer { s with d := { s.d with spdm := 4, sessKey := some key, sessAt := s.steps } } 0x64 bs))) ∧
    (s.d.spdm = 4 → exec (.finish mac) s = .next (if mac = Config.finishMac s.d.sessAt
      then answer { s with d := { s.d with spdm := 5, ide := true } } 0x65 []
      else answer { s with d := { s.d with spdm := 3, sessKey := none } } 0x7F [6])) ∧
    (s.d.spdm = 0 → ∀ i, (i = .getCapabilities ∨ (∃ h g, i = .negotiateAlgorithms h g) ∨ i = .getDigests ∨
        i = .getCertificate slot off len ∨ i = .challenge slot n ∨ (∃ k, i = .getMeasurements k) ∨ i = .keyExchange slot data ∨
        i = .finish mac) → exec i s = .next (answer s 0x7F [4]))

/-- R376, R379, R381, R405: the sensors of architectural state, and the records of the logs, oldest first, in the
layout of R376. The numbers of the sensors, the answers' codes, and that a record is read once, are the model's choice
(log 18). -/
def Sys2Proof.Parts.Management : Prop :=
  ∀ (s : State) (die : Nat) (bus : Bool),
    let answer (t : State) (code : Nat) (bs : List Byte) : State := { t with d := { t.d with out := .resp code bs :: s.d.out } }
    let word (x : Nat) : List Byte := (List.range 8).map (fun j => BitVec.ofNat 8 (x / 256 ^ j))
    let reads (k x : Nat) : Prop := exec (.mgmtSensorRead k) s = .next (answer s 0 (word x))
    reads 5 s.d.cur.toNat ∧ reads 6 (if s.d.throt then 1 else 0) ∧
    (die < 4 → reads (8 + die) (tabGet s.d.tallies (64 * die + 0x38) 0) ∧ reads (12 + die) (tabGet s.d.tallies (64 * die + 0x39) 0) ∧
      reads (16 + die) (tabGet s.d.tallies (64 * die + 0x3A) 0)) ∧
    reads 20 (s.d.alarmLast.toNat * 256 + s.d.alarm.toNat) ∧ reads 21 (if s.d.bootfail then 1 else 0) ∧
    (∀ k, k < 5 → ∃ x, reads k x) ∧ (∀ k, 21 < k → exec (.mgmtSensorRead k) s = .next (answer s 1 [])) ∧
    (let log := (if bus then s.d.blog else s.d.alog).toList.getD die []
     let left (rest : List LogRec) : State :=
       if bus then { s with d := { s.d with blog := s.d.blog.setIfInBounds die rest } }
       else { s with d := { s.d with alog := s.d.alog.setIfInBounds die rest } }
     (log = [] → exec (.mgmtLogRead die bus) s = .next (answer s 1 [])) ∧
     ∀ r rest a b c d, log = r :: rest → r.bytes = [a, b, c, d] → ∃ bs, exec (.mgmtLogRead die bus) s = .next (answer (left rest) 0 bs) ∧
       bs.length = 32 ∧ bs.take 8 = word r.stamp.toNat ∧ (bs.drop 8).take 8 = word r.off ∧
       (bs.drop 16).take 8 = [BitVec.ofNat 8 a, BitVec.ofNat 8 b, BitVec.ofNat 8 c, BitVec.ofNat 8 d, BitVec.ofNat 8 r.kind,
         if bus then BitVec.ofNat 8 r.lane else 0, 0, 0] ∧
       (bs.drop 24).take 8 = word (r.count % 2 ^ 32))

/-! ### Encoding and decoding (R56 to R73) -/

/-- R61 to R72: a slot decodes to a well-formed instruction exactly where it is that instruction's encoding. -/
def Obligations.EncodingRoundTrip : Prop :=
  ∀ (i : Instr) (w : Slot), decode w = .ok i ↔ i.wf = true ∧ encode i = some w

/-- R61 to R71: slots written out from the encodings of the spec decode to the instructions that they stand for. -/
def Obligations.DecodeWords : Prop :=
  let k : VCtl := { w := 3, wp := .blend, rm := .rne, et := .f32, et2 := .f32, g := .g1, lr := 0 }
  decode 0x400C50421470000000000000 = .ok (.vfma 5 1 (.reg 2) 5 k) ∧
  decode 0x010451460000000000000000 = .ok (.add 5 5 (.reg 6)) ∧
  decode 0x280800C400000000FFFFFFF4 = .ok (.bCond .lt 3 4 0xFFFFFFF4) ∧
  decode 0x010000000000000000000000 = .ok .nop ∧
  decode 0xE00C00000000000000000000 = .ok .ecall ∧
  decode 0x000000000000000000000000 = .error .unassignedOp

/-- R73: in U mode the instructions of OP 0xE0 but `ecall` and `ebreak` are illegal, as privileged ones; in S mode every
instruction is legal. -/
def Obligations.PrivilegedInstructions : Prop :=
  ∀ (i : Instr) (w : Slot) (s : State), i.wf = true → encode i = some w →
    decodeIn .S w = .ok i ∧
    (w.extractLsb' 88 8 ≠ (0xE0 : BitVec 8) ∨ i = .ecall ∨ i = .ebreak → decodeIn .U w = .ok i) ∧
    (w.extractLsb' 88 8 = (0xE0 : BitVec 8) → i ≠ .ecall → i ≠ .ebreak → decodeIn .U w = .error (w.extractLsb' 64 32, 1) ∧
      (s.h.replay = none → inh s.h = false → ∃ t, exec (.illegalInstruction (w.extractLsb' 64 32) 1) s = .next t ∧
        Trapped s t 1 ((w.extractLsb' 64 32).setWidth 64) 1))

/-! ### A step (R56 to R60, R339) -/

/-- R15 to R18, R56 to R60, R210: the hart that has the turn, with nothing pending, issues the instruction that its PC names,
alone or as the first of a pair, whose second slot issues in the same turn. Where several harts of a core may issue, the
turn goes to the one of STAMP mod 8 if its slot can issue, else to the ready one that has gone longest; where none is ready
none issues. Another agent's turn is its step. The agenda of agents, the free wait for operands, the residues of STAMP that
a core with a choice takes in turn, and the clk of a step are the model's choices (logs 5 and 6). -/
def Obligations.StepRunsDecoded : Prop :=
  ∀ (s s1 : State) (i : Instr) (pa : Nat),
    let core := coreOf s.h.gid
    let k := s.h.pc.toNat % 64 / 12
    let line := lineAt s1 core pa
    let slot (j : Nat) : Slot := line.extractLsb' (96 * j) 96
    let word : BitVec 32 := line.extractLsb' 480 32
    let legal (j : Nat) (i : Instr) : Prop :=
      decode (slot j) = .ok i ∧ (s.h.mode = .S ∨ (slot j).extractLsb' 88 8 ≠ (0xE0 : BitVec 8) ∨ i = .ecall ∨ i = .ebreak)
    let ran (i : Instr) (t : State) : Host.Outcome State Fault Refusal :=
      match exec i t with
      | .next u => .next { u with h := { u.h with
          stop := u.h.stop.map (fun _ => 0), pause := none
          second := (match u.h.run with | .parked _ => s.h.second | _ => u.h.second)
          issued := if u.h.run = .parked .stall ∧ u.h.vstart = s.h.vstart then s.h.issued else u.h.issued } }
      | r => r
    let turn (r : Host.Outcome State Fault Refusal) : Host.Outcome State Fault Refusal :=
      match r with
      | .next u => if u.h.run = .running ∧ u.h.second = true then issue u else .next u
      | r => r
    let may (h : Hart) : Prop := h.run = .running ∨ h.run = .parked .stall
    let alone : Prop := ∀ o ∈ s.others, coreOf o.gid = core → ¬ may o
    let ticked : State := { s with clk := s.clk + (1 + Config.stallClk s.steps), steps := s.steps + 1, d := { s.d with walks := [] } }
    let clk := s.clk + (1 + (tabGet s.d.coreTurn core 0 + 7 * s.clk) % 8 + 8 * Config.stallClk s.steps)
    let shared : State := { s with clk := clk, steps := s.steps + 1
                                   d := { s.d with walks := [], coreTurn := tabSet s.d.coreTurn core clk } }
    let able (o : Hart) : Prop := may o ∧ coreOf o.gid = core ∧ Config.operandWait shared.steps o.gid = false ∧ heldBack shared o = none
    s.Uncounted →
    (s.Plain → s.h.pend = [] → s.h.sip &&& s.h.sie = 0 → s.Unstopped → s.h.cmds = [] → s.h.sending = none →
      isSlot s.h.pc = true → translate s s.h .fetch (s.h.pc &&& ~~~ 63) 64 = .ok (pa, s1) → word.extractLsb' 14 18 = 0 →
      (∀ j, j < 5 → slotParity (slot j) = word.getLsbD j) → (s.h.xfer ≠ none → word.getLsbD (9 + k) = true) → legal k i →
      ((k = 4 ∨ word.getLsbD (5 + k) = false ∨ s.h.second = true) →
        issue s = ran i { s1 with h := { s1.h with second := false, xfer := none, run := .running, issued := s.clk } }) ∧
      (∀ j, k < 4 → word.getLsbD (5 + k) = true → s.h.second = false → legal (k + 1) j →
        promiseFalse s.h i j = false → endsLevel s.h s.h.pc = false →
        issue s = ran i { s1 with
          h := { s1.h with second := true, xfer := none, run := .running, issued := s.clk }
          d := { s1.d with fetch := ⟨core, pa, line⟩ :: s1.d.fetch.filter (fun f => !(f.core == core && f.addr == pa)) } })) ∧
    (s.agenda = [] → alone → may s.h → step s = turn (issueNow ticked)) ∧ (s.h.stop = none → issueNow s = issue s) ∧
    (s.agenda = [] → alone → (s.h.run = .absent ∨ s.h.run = .ended) → (∀ o ∈ s.others, o.gid ≠ s.h.gid) → step s = .next ticked) ∧
    (s.agenda = [] → may s.h → ¬ alone →
      ((∀ o ∈ s.h :: s.others, ¬ able o) → step s = .next shared) ∧
      ∀ o ∈ s.h :: s.others, able o → (∀ x ∈ s.h :: s.others, x.gid = o.gid → x = o) →
        (o.gid % 8 = clk % 8 ∨ (∀ x ∈ s.h :: s.others, able x → x.gid % 8 ≠ clk % 8 ∧
          (o.issued < x.issued ∨ o.issued = x.issued ∧ o.gid ≤ x.gid))) →
        step s = turn (issueNow (bringFront shared o.gid))) ∧
    (∀ gid rest, s.agenda = .event gid i :: rest → s.h.gid = gid → step s = exec i { ticked with agenda := rest })

/-! ### Registers, reset, the invariant -/

/-- R7, R335: x0 reads as zero and ignores writes; in S mode x1 to x4 are the S bank; a write changes no other register. -/
def Obligations.ScalarRegisters : Prop :=
  ∀ (h : Hart) (r q : Reg) (v : Word),
    xGet h 0 = 0 ∧ xSet h 0 v = h ∧ (r ≠ 0 → xGet (xSet h r v) r = v) ∧ (q ≠ r → xGet (xSet h r v) q = xGet h q) ∧
    (r ≠ 0 → h.mode = .U ∨ 4 < r.toNat → (∃ x, xSet h r v = { h with x := x }) ∧ xGet h r = h.x.toList.getD r.toNat 0) ∧
    (r ≠ 0 → h.mode = .S → r.toNat ≤ 4 → (∃ x, xSet h r v = { h with sx := x }) ∧ xGet h r = h.sx.toList.getD (r.toNat - 1) 0)

/-- R3, R7, R10, R201, R336, R337, R377, R379, R380, R397, R401, R403: the machine after reset. That no hart is there, that memory
reads as zero, that slot A has booted, and the value of every register of a place without a hart, that with which R7 starts
one, are the model's choice (logs 1, 2 and 4). -/
def Obligations.AfterReset : Prop :=
  let s := State.reset
  s.Inv ∧ hartExists s.h = false ∧ s.others = [] ∧ (∀ a, memGet s.mem a = 0) ∧ (∀ r, xGet s.h r = 0) ∧
    (∀ r, xGetIn s.h .S r = 0) ∧ s.h.mode = .U ∧ (∀ j, j < 24576 → wCode (wGet s.h 0) j = 0x8000) ∧
    (∀ n, 0 < n → n < 24 → wGet s.h n = 0) ∧ s.h.dead = 0 ∧ (∀ k, (lvlGet s.h k).act = false) ∧ s.h.armsp = 0 ∧
    s.h.vstart = 0 ∧ s.h.rmode = 0 ∧ s.h.flags = 0 ∧ s.h.fenable = 0 ∧ s.h.space = 0 ∧ s.h.cbase = 0 ∧ s.h.sstatus = 0 ∧
    s.h.sepc = 0 ∧ s.h.scause = 0 ∧ s.h.sie = 0 ∧ s.h.sip = 0 ∧ s.h.ringctl = 0 ∧
    s.h.pc = 0 ∧ s.h.vl = 0 ∧ s.h.vlcap = 0 ∧ s.h.ffi = 0 ∧ s.h.theta = 0 ∧ s.h.floor = 0 ∧ s.h.efr = 0 ∧ s.h.linkpc = 0 ∧
    s.h.fmask = 0 ∧ s.h.stval = 0 ∧ s.h.stval2 = 0 ∧ s.h.svec = 0 ∧ (∀ k : Nat, s.h.sscratch.toList.getD k 0 = 0) ∧ s.h.svstart = 0 ∧
    s.h.ctxroot = 0 ∧ s.h.ringpos = 0 ∧ (∀ r, vImg s.h r = 0) ∧ s.h.opened = 0 ∧ (∀ k, (lvlGet s.h k).asp = 0) ∧
    (∀ f : Nat, (fibreGet s.h f).opened = false) ∧ s.h.binds = [] ∧ s.h.cmds = [] ∧ s.h.replay = none ∧ s.h.barWord = none ∧
    s.d.ready = true ∧ s.d.devid = 0 ∧ s.d.lock = false ∧ s.d.cur = 0 ∧ s.d.throt = false ∧ s.d.ctxtab = 0 ∧
    (∀ q, (queueGet s q).en = false ∧ (queueGet s q).active = false) ∧ (∀ r, (regionGet s r).en = false) ∧
    (∀ p, (portGet s p).up = false ∧ (portGet s p).en = false) ∧ s.d.alarm = 0 ∧ s.d.alarmLast = 0 ∧ s.d.recs = [] ∧
    (∀ r, (regionGet s r).lines = []) ∧ s.d.tlb = [] ∧ s.d.retired = [] ∧ s.d.frq.toList = [[], [], [], []]

/-- Every step of every agent keeps the canonical form of memory, so that equal memories are equal data. -/
def Obligations.InvariantKept : Prop := ∀ s t : State, s.Inv → step s = .next t → t.Inv

/-! ### The statements made of several parts -/

/-- R107, R108: Every instruction of OP 0x01 and 0x02, nop among them, that ends no loop level answers the next state in
which xD (x0: nothing) holds its table's value of xA, b, xC and IMM, the PC is at the next slot, and everything else,
flags and memory included, is as it was. The division corners of R107 and the field arithmetic of R108 are written into
the values. -/
def Obligations.ScalarIntegers : Prop := Parts.ScalarTwoOperand ∧ Parts.ScalarOther

/-- R48, R111, R112, R113, R114: Each of fadd, fsub, fmul, fdiv, fsqrt, ffma, fmin, fmax, fcmp, fcvt and fclass whose raised
flags are not enabled in FENABLE writes its result, ors its flags into FLAGS and goes on, whatever FLOOR is; one that
raises an enabled flag traps with cause 13, FLAGS updated, STVAL the enabled flags raised, and xD and EFR unwritten.
Under RM 5 fcvt adds EFR to its source and keeps the residual (R48), but for the conversions that round nothing, ET =
ET2 and between integers, which leave EFR: that is the model's inference, and so are the residual of a B1 and the sign
of a zero residual (log 41). A signalling NaN immediate reads as the canonical NaN and raises no NV: the model's choice
(log 43). -/
def Obligations.ScalarFloats : Prop := Parts.ScalarFloatResult ∧ Parts.ScalarFloatTrap

/-- R15, R68, R69, R118: A taken b, j, jr, call, callr or ret writes its link value (the slot after it, read after xA) and
leaves the PC at its target with the transfer recorded for the landing check of R18; a branch whose condition does not
hold goes on at the next slot; a displacement counts slots modulo 5 × 2^58 and sequential advance is a displacement of
one. While the retire trace is off for ret. -/
def Obligations.Transfers : Prop := Parts.TransferTaken ∧ Parts.BranchNotTaken ∧ Parts.SlotArithmetic

/-- R10, R13, R116, R119, R125, R131, R132, R133, R241: yield, pfch and fence change only the PC; setsp, setth, setfl and
setrm return the old value and set the register within its range; getcr reads every control register; putcr writes those
that user code may write, keeps reserved bits and ignores the others; setvl grants min(xA, VLCAP × G / b, VLCAP) under
the ceiling, whole blocks for the currant formats, and clears VSTART; cbase sets CBASE modulo 16. Each with everything
else as it was. -/
def Obligations.ControlRegisters : Prop := Parts.NoEffect ∧ Parts.Configuration ∧ Parts.PutControl ∧ Parts.SetLength ∧ Parts.CarouselBase

/-- R120, R121, R123, R124, R340: A loop of the next free level inside the level above it, with a count and a live
continuation, activates the level with the fields of R121 and narrows w0 or, where it rotates, sets the stage weights;
one with no count, or whose continuation leaves no element above THETA, goes to the slot after END and changes nothing
else; a loop of a level that is not the next one (check 1), one whose body does not lie inside that of the enclosing
level (check 2), and lbreak of an inactive level (check 4) trap with cause 14, STVAL the check, and change no level. -/
def Obligations.LoopsDeclared : Prop := Parts.LoopEntered ∧ Parts.LoopSkipped ∧ Parts.LoopNestingFault

/-- R122, R123, R124, R126, R127: lbreak deactivates its level and those inside it, restores w0 from the lowest that had a
continuation weight, and lands after END; at the END slot (of a level that no enclosing level shares it with) a level
with passes left, and with an element above THETA under its continuation weight if it has one, goes back to TOP under
that weight, rotating CBASE and the stage weights if it rotates; on its last pass a level of one stage is left with w0
restored; one of several stages runs its epilogue, STAGES − 1 passes with gate 0, and is then left. Registers, vectors,
memory and the other levels are as they were. -/
def Obligations.LoopsEnd : Prop := Parts.LoopBreak ∧ Parts.LoopBackEdge ∧ Parts.LoopLeft ∧ Parts.LoopStages

/-- R24, R128, R129, R130: lspill at a mapped 64-byte address writes the 256 bytes of R128 (each level's fields, CBASE,
ARMSP, VLCAP, zeros, bytes 136 to 255 among them), the saved weight vectors that the active levels and the arm entries
have, at their places after it, and no byte outside the area; it leaves every level inactive and ARMSP 0. lfill of such
an area into a hart with no level active and no arm makes its fields and vectors the loop state, elements past the saved
VLCAP zero, and changes no memory. A saved code above 1.0 is read as 1.0 (R24). That lfill evaluates no END slot is the
model's choice (log 11). -/
def Obligations.LoopArea : Prop := Parts.LoopSpill ∧ Parts.LoopFill ∧ Parts.LoopVectors

/-- R174, R175, R176, R177: wfork pushes w0 and wC and narrows w0 to their product, going on, to else or, where no element
was live, to join with w0 kept; warm turns w0 to the other side of the top entry, or skips it; wmerge restores w0 and
pops. The other weights, the registers, the loop levels and memory are as they were. -/
def Obligations.Arms : Prop := Parts.ArmFork ∧ Parts.ArmForkDead ∧ Parts.ArmWarm ∧ Parts.ArmMerge

/-- R115, R258, R260, R261: After n bytes of v are written at a, reading n bytes at a gives v modulo 2^(8n), every byte
outside reads as before, and the memory keeps its canonical form, which is the model's own choice (log 2). An access to
mapped bytes reaches them without changing the state; an aligned ld extends the sign of an I type and not of an N type;
an aligned st writes the low bytes of xC at the translation of its effective address, and every byte of memory outside
them, every register but the PC, the other harts and the device are as they were. -/
def Obligations.ScalarMemory : Prop := Parts.MemoryWrite ∧ Parts.MappedAccess ∧ Parts.ScalarLoad ∧ Parts.ScalarStore ∧ Parts.StoreFrame

/-- R115, R238, R260, R338, R340: A misaligned ld, st or amo traps with cause 6 and STVAL its address; an aligned ld or st
whose translation fails traps with the cause and the address that the walk gives. Memory and x are as they were, SEPC is
the instruction, the handler starts at SVEC in S mode. -/
def Obligations.MemoryTraps : Prop := Parts.Misaligned ∧ Parts.MemoryFault

/-- R183, R237, R238, R239, R340: amo.swap, add, and, or, xor, min and max of an aligned word that translates, whose flags
are not enabled, store the new value of R237 (floats rounded to nearest even), return the old one, and or their flags
into FLAGS; an amo that raises an enabled flag writes neither the word nor xD, and traps with cause 13, FLAGS updated,
STVAL the enabled flags raised; amocas stores xC where it finds xB and returns what it found. -/
def Obligations.ScalarAtomics : Prop := Parts.ScalarAtomic ∧ Parts.ScalarAtomicTrap ∧ Parts.CompareAndSwap

/-- R218, R219, R220, R242: The last arrival at a mapped barrier word clears ARRIVED and STALLED, steps PHASE and returns 0;
an earlier one counts itself and parks with its phase recorded, and when it issues again it parks again while the phase
is that of its arrival, and returns 0 without arriving twice once it has changed, or 1 where the barrier has been broken
meanwhile; a broken barrier makes no arrival and returns 1, a malformed word returns 2, and neither writes the word;
waiteq returns a word that differs from xB and parks at one that does not. -/
def Obligations.Barriers : Prop := Parts.BarrierRelease ∧ Parts.BarrierWait ∧ Parts.BarrierRefused ∧ Parts.WaitEqual

/-- R213, R214, R387: hid writes the member, count, clusters, live lanes, hart, core, die, queue, slabs and tiles in the
fields of R213; nid writes the node number of R387; launch writes −3 for no queue, −2 for one that is not a device-fed
queue of its context, −1 for a full one, and else copies the record into the ring slot at TAIL, steps TAIL and returns
the ring index. -/
def Obligations.HartsAndLaunch : Prop := Parts.HartIdentity ∧ Parts.NodeNumber ∧ Parts.Launch

/-- R215, R216, R340: farm opens the next set when the current one is done and every member that has not ended has joined
it, one whose context is saved included, waits until then, or joins a set already opened and returns its count; fgrab
returns each strip once and −1 when none is left; fdone counts a strip and returns how many are left; one that does not
fit its set is an access fault, subcause 11, without effect. -/
def Obligations.Farms : Prop := Parts.FarmSet ∧ Parts.FarmGrab ∧ Parts.FarmDone ∧ Parts.FarmDoneFault

/-- R119, R217: A hart without engine commands ends: it runs no more, its grants go back, its loop, arm and carousel state,
windows, bindings and fibres are gone, its registers and the other fields of its levels keep their values, and its
record counts it and ors its status (halt: 0) into the record's; a hart with commands parks until their tokens are
written. That its fault records leave the queue with it is the model's inference (log 21). Its bindings and pending
traps go with it by the same inference (log 21); that the registers of an ended hart keep their values is the model's
choice (log 1). -/
def Obligations.HartsEnd : Prop := Parts.HartEnds ∧ Parts.HartEndWaits

/-- R64, R249, R257, R259, R260, R263, R336, R359, R384: xlate for reading walks from the root in force (R336) and writes
the outcome word of R263: its failure codes, and of a leaf its size, kind, cache, permission bits and physical address,
bits 51 to 16 hidden from U mode; cwb of a range that translates only advances; cinv drops the instruction lines of the
range that the cores in its scope hold (the hart's own for .h and .c, those of its die for .d, every core of the device
for .k and the wider ones) and no other; tlbinv drops exactly the translations and held absences of its page, context or
context number on the cores of its scope, whose harts of that context walk from their CTXROOT from then on. slab query
writes the X-space address of a slab or −1; take appends the lowest free slab of the core, zeroes its 524,288 bytes and
no other, or writes −1; give returns the last slab or writes −1. That xlate reads the tables and no held translation is
log 24, that cwb has nothing to write back is log 7: the model's choices. -/
def Obligations.MemoryLevels : Prop := Parts.Translation ∧ Parts.CacheLines ∧ Parts.TranslationDrop ∧ Parts.SlabQuery ∧ Parts.SlabTake ∧ Parts.SlabGive

/-- R276, R279, R280, R281, R282, R374: ppin of a register whose 128 bytes the region holds gives the line a reference and
returns its pip; of a new name it makes a line of count 1; pnode makes an inner line and gives each child a reference;
pread writes a line's 128 bytes (the null pip: zeros) to the low bytes of vD and leaves the rest, or takes a machine
check where a word of the line is uncorrectable (R374). Where in its store a line stands is a free value (log 64). -/
def Obligations.PipLines : Prop := Parts.PipPin ∧ Parts.PipNode ∧ Parts.PipRead

/-- R275, R277, R278, R283, R284: pinc and pdec change the count of the line and return it, −1 for no line; a count of
0xFFFFFFFF stays; a line whose count falls to 0 goes and its children's decrements wait for the pip unit, which makes
every decrement that waits, depth-first: each takes one from the count of its line, 0xFFFFFFFF stays, a line whose count
falls to 0 goes and its children that are not null are decremented before the others, a pip without a line changes
nothing, and every other line is as it was; pswap exchanges a mapped root word of 16 bytes if it is the expected one and
returns what it held. -/
def Obligations.PipCounts : Prop := Parts.PipCount ∧ Parts.PipCascade ∧ Parts.PipSwap

/-- R294, R296, R302, R306, R307, R311, R312, R314, R317, R322, R325, R345: Each engine command within its limits takes the
lowest free entry with its operands, configuration and PC as they are, not begun (or ended, where it has no unit to
perform), and the hart goes on with no register changed; a full table stalls it; a length, count or block size outside
its limits raises an illegal-instruction trap, subcause 2, and nothing is accepted. -/
def Obligations.EngineCommands : Prop := Parts.EngineAccepts ∧ Parts.CopyOutAccepts ∧ Parts.EngineTableFull ∧ Parts.EngineLimit

/-- R308, R309, R310, R315, R316, R317, R323: tchk reads whether a register waits for its token; mshape grants sizes up to
128 and mstride sets strides and transpositions; fopen opens a fibre at its start, fend tells whether it is at its end,
fclose closes it, fadv of ascending absolute positions goes to the first one not below xB and returns it; dwait returns
a slot word with VALID set, or parks. -/
def Obligations.EngineRegisters : Prop := Parts.TokenCheck ∧ Parts.MatrixConfiguration ∧ Parts.FibreRegisters ∧ Parts.FibreAdvance ∧ Parts.DispatchWait

/-- R220, R337, R338, R340, R341, R344, R355, R356: ecall and ebreak enter S mode at SVEC with cause 19 or 18, SEPC the slot
after them and STVAL their PC. Every precise trap taken with INH clear writes SEPC, SCAUSE (the cause, with its F, E and
OVF bits), STVAL, STVAL2, SVSTART and SPP, INH, FMR and PPEND as R338 says, enters the handler in S mode, and changes
nothing else of the hart but FMASK; of memory it changes at most the STALLED bit of the barrier word that the hart has
not yet arrived at (R220), and of the other harts, records, queues, regions and fault records nothing. With INH set the
hart ends with status 0xFF once its commands have. tret restores mode, PC, VSTART and FMASK, clears INH and PPEND, and
changes nothing else. -/
def Obligations.SupervisorTraps : Prop := Parts.SupervisorCall ∧ Parts.TrapEntry ∧ Parts.TrapReturn

/-- R343, R357, R360, R363: frqpop stores the hart's oldest fault record in the 32 bytes of R343 at a mapped address, no
other byte, removes it and returns how many remain, or returns −1; ringrd stores entry k of the hart's own retire trace,
or returns −1; wfi parks unless an enabled interrupt is pending. -/
def Obligations.SupervisorReads : Prop := Parts.FaultRecordPop ∧ Parts.RetireTraceRead ∧ Parts.WaitForInterrupt

/-- R358, R338, R344: replay of a link frontier (F, bit 13 of SCAUSE) returns −1; else the instruction at SEPC runs in the
mode SPP; when it retires, here a nop, the handler goes on after replay with 0 in xD and SEPC moved on; when it traps,
no handler is entered: the cause registers are written, SEPC is not, and replay retires with the cause. -/
def Obligations.Replays : Prop := Parts.Replay ∧ Parts.ReplayTrap

/-- R349, R350, R361, R362: ctxsave returns the size of the context, stores its bytes where they can be written and no byte
outside, and takes the hart's fault records with it; the header, the directory and every section, its size and the
fields of R350 at their offsets, hold what tret would resume. ctxload of what ctxsave of any hart of the same context
stored gives the loading hart those registers, vectors, weights, levels, arms, mask, engine configuration, fibres,
barrier words and fault records, and leaves its place, lanes, grants and record as they were; bytes without the magic
and a context of another number trap with access fault subcause 8, one of more lanes than are live with lanes short, and
the hart's registers are kept. The layout inside MEMBER and of what the sections hold beyond R350 is the model's choice
(log 12). -/
def Obligations.Contexts : Prop := Parts.ContextSaved ∧ Parts.ContextLoaded ∧ Parts.ContextRefused

/-- R51, R158, R160, R161, R183, R184, R185, R240, R338, R340, R342, R343: Vector arithmetic with enabled flags raised:
elements below FLOOR receive +0, are counted in PRUNECNT and, in an arm, lose their ambient weight; the other excepting
elements write nothing, are set in FMASK, and the trap, cause 13, is taken at the instruction once every other element
is complete, with memory as it was but for the STALLED bit of R220; without a trapping element the instruction retires.
Vector loads, stores and atomics some of whose elements are misaligned or refused by the translation that the core
holds: a unit-stride or strided access ends at the lowest, VSTART there; vldff is cut there, VL and FFI set, unless it
is the first live element, which traps; an indexed access or a vamo completes every other element, sets FMASK and queues
a fault record for each of the first eight; vstu may have written above it. A misaligned base traps at the first live
element before any access. A fault of a currant block names the block's first element, and of a blended vldx, or a
blended or scaled vstx, with faulting and trapping elements the lowest gives the cause: the model's choices (log 57). -/
def Obligations.VectorExceptions : Prop := Parts.ElementExceptions ∧ Parts.VectorFaults

/-- R253, R265, R266, R267, R269: vbind of a control block binds its register with the fields of the block, or traps as R265
says where a field is reserved, the bindings are full or VL is 0; vunbind drops the binding; a strip read ahead of an
integer stream holds the elements of memory; vopen and vclose set and clear the window of one register, and a register
that becomes bound or opened loses its dead mark. -/
def Obligations.StreamsAndWindows : Prop := Parts.BoundStreams ∧ Parts.RegisterWindows

/-- R54, R288, R306, R310, R311, R312, R313, R316, R318, R320, R322, R325: For the foremost command of a hart, operands in
space G: mzero clears a tile; a unit of mmul adds the products of a chunk of sixteen along K to every element of the
tile, floats rounded once per element and integers modulo 2^32, and ors the flags; mmulc converts A from a tile first;
mout converts a row of a tile into memory or into a register; a unit of fisect, funion and fcount takes its positions in
ascending order from fibres of plain positions, counts and writes those that it emits, and ends at the end of its
streams or at its limit; fsplit writes the boundaries of shares of equal work, and ends with status 4 where the row
pointers descend; dput copies a row and writes its slot word behind it; dclose writes a done word; cfill fills, cpys
copies a row, and pout copies a line of a region, or ends with status 5, 6, or 7 at an uncorrectable line (R374; where a
line stands is free, log 64). Every other byte of memory, and of the harts all but the command and what it writes, is as
it was. -/
def Obligations.EngineUnits : Prop := Parts.MatrixUnits ∧ Parts.FibreUnits ∧ Parts.DispatchUnits ∧ Parts.CopyUnits

/-- R390, R391, R392, R393: vsend of one live element fills a slot of the ring of a hart of its context on the device with
the data and word of R390, every other byte as it was; it waits at a full ring; to a place that holds none it faults
with cause 11, subcause 5, STVAL the node number (log 28). A send of another node fills a slot alike, and a waiting hart
goes on when its slot is free or its place is no longer one to wait for. -/
def Obligations.Sends : Prop := Parts.SendElement ∧ Parts.SendSteps

/-- R193, R194, R195, R202: An enable with a ring size of 1 to 16 starts the queue at its shadow tail, another sets ERR; a
disable keeps the rest, and a queue that goes to another die is no active one there; a tail is kept for the switch-in,
or taken at once by an active queue that software feeds, with ERR set past the ring, and one that passes nothing beyond
HEAD leaves no candidate; a queue switches in and out in its two steps, goes out when another waits, the next one in
turn starts to switch in where fewer than 16 are active, and rotation takes out the queue that has least recently
started a record. That a queue which goes to another die is no active one there, ACTIVE and switching clear, is the
model's inference (log 29). -/
def Obligations.Queues : Prop := Parts.QueueRegisters ∧ Parts.QueueSwitching

/-- R7, R192, R195, R196, R198, R200, R201, R204, R205, R208: The head record of a queue is read whole; it is ready where it
names no wait word, or its wait word has reached WAITVAL, no candidate where it has not, refused with cause 8 where the
word cannot be read; a ring that cannot be read sets ERR. The one candidate of a ringmaster, or the record that it
holds, starts on the lowest free share of its core with the registers of R7 and R192, and otherwise is held and reserves
its die; a preload reserves the lowest free slabs of a core, zeroes them, and copies the code line of the entry where it
translates. When a record is read, that ageing needs no step of its own, and which record a preload is for and what it
copies, are the model's choices (log 29). -/
def Obligations.RecordsStart : Prop := Parts.RecordReady ∧ Parts.RecordStarts ∧ Parts.RecordPreload

/-- R206, R207, R341, R347, R348: A budget that runs out stops every member of its record, or starts again where the resume
list is full; a pre-emption stops the record of its hart; the one member of a record, stopped at a waiteq, is saved: the
bytes of its context are kept with what resuming it asks for, its place is empty, its fault records go with its context,
and its record joins the resume list at the tail (budget, with its CTL1 written) or the head. That a place whose context
has been saved holds the hart-start value of every register (log 1), and that the context is kept as its bytes with the
place, the share, FGEN and the waits of its hart (log 30), are the model's choices. The uncorrectable words of a saved
slab are saved as they stand (log 30). -/
def Obligations.RecordsStop : Prop := Parts.RecordStopped ∧ Parts.ContextSave

/-- R197, R271, R272, R380, R401, R403, R404: A region is enabled with the fields of the write, or disabled with its lines
freed; a pip store is configured unless a region of its die is enabled or the carve-out does not fit; DEVID is set until
LOCK; a requested point takes effect, a thermal limit lowers it, its end restores it; CTXTAB and the event counters keep
the bits that R197 and R380 give; writes before READY and at unassigned offsets do nothing. -/
def Obligations.DeviceWindow : Prop := Parts.RegionRegisters ∧ Parts.DeviceRegisters

/-- R272, R364, R365, R366, R370: An unassigned OP ends with status 9; tracking is turned on with a clear bitmap and clean
translations, ended with status 8 where the bitmap does not lie in DRAM outside the pip stores, and off; a swap copies
the bitmap out and clears it, or asks for room; PIP_EXPORT writes one 160-byte record for each line, asks for room, is
refused, or ends with status 8 where a line is uncorrectable; PIP_INSTALL stages a line whose name holds, refuses one
whose name does not, and frees the staged lines. That a TRACK_ON of a bitmap out of DRAM or inside a pip store ends with
status 8, MEMERR, is the model's choice and no rule's (log 30); where in its store a line stands is a free value, and
that PIP_EXPORT reads it the model's choice (log 64). -/
def Obligations.ContextCommands : Prop := Parts.TrackingCommands ∧ Parts.PipCommands

/-- R396, R397: A port enables, trains with its peer, its lanes and the credits of the far end once IDE is established and
MACFAIL is clear, falls to four lanes, and goes down, its flits unacknowledged or waiting resent by the next port of
their device, each with the next sequence number where a credit is there, or kept until a port trains or a route is
written; a write of ROUTE changes the entry at its offset, or the four of an aligned word (log 62, the model's choice),
and no other; a flit whose CRC fails is counted, one whose MAC fails takes the port down, whatever its kind. How many
credits the far end grants is a free value; when credits go back, the numbering, and the wait of a flit without a credit
or a route, are the model's choices (log 17), and that training needs MACFAIL clear is its inference (log 34). -/
def Obligations.Ports : Prop := Parts.MidwayPorts ∧ Parts.BadFlits

/-- R389, R390, R391, R392, R393, R396, R398: A flit that arrives whole brings credits, which acknowledge the answers that
they were for, and is owed one, but for KIND 9, which is owed none; a read, write, swap or add of a normal address of
this device is performed and answered on the routed port, or its answer waits there for a credit; answers are taken and
end what waits for them; a send element fills its slot and is acknowledged, is refused where no hart of its context is
there to take it, or is told to wait; its acknowledgement lets the sender go on. The payload encodings and the context
that an element carries are the model's choice (log 17), and that a read's data is kept in a bank of memory of its peer
is log 16, its choice too. -/
def Obligations.Flits : Prop := Parts.MemoryFlits ∧ Parts.SendFlits

/-- R376, R377, R378, R379, R381, R400, R405: Each of the nine SPDM requests answers after the phase before it and is
refused in phase 0; measurements give the versions, lanes, carve-outs and the last alarm; FINISH with the right MAC
makes the session and IDE, another ends the exchange; management reads the sensors and pops the oldest log record in the
layout of R376. Request, response and error codes, sensor numbers and the one-time read of a record are the model's
choice (log 18). -/
def Obligations.HostRequests : Prop := Parts.Attestation ∧ Parts.Management
end

