-- ==== Sys2Proof/Laws/Memory.lean ====
section
/-! SUPPORT. Laws of memory: every operation keeps the canonical form, and what each leaves at an address. -/

namespace Sys2Proof.Machine

/-! ### The canonical form -/

/-- A list whose keys all lie above a bound is canonical above it exactly when it is canonical. -/
theorem memWfFrom_some {l : Nat} {m : Memory} : memWfFrom (some l) m = true ↔ m.wf = true ∧ ∀ c ∈ m.head?, l < c.1 := by
  cases m with
  | nil => simp [memWfFrom, Memory.wf]
  | cons c t => obtain ⟨k, b⟩ := c; simp [memWfFrom, Memory.wf]; exact ⟨fun h => ⟨⟨h.1.2, h.2⟩, h.1.1⟩, fun h => ⟨⟨h.2, h.1.1⟩, h.1.2⟩⟩

theorem memWfFrom_mono {l l' : Nat} {m : Memory} (hl : l' ≤ l) (h : memWfFrom (some l) m = true) : memWfFrom (some l') m = true := by
  rw [memWfFrom_some] at *
  exact ⟨h.1, fun c hc => Nat.lt_of_le_of_lt hl (h.2 c hc)⟩

theorem wf_cons {k : Nat} {b : Byte} {t : Memory} :
    Memory.wf ((k, b) :: t) = true ↔ b ≠ memDefault ∧ memWfFrom (some k) t = true := by
  simp [Memory.wf, memWfFrom]

theorem wf_tail {c : Nat × Byte} {t : Memory} (h : Memory.wf (c :: t) = true) : t.wf = true := by
  obtain ⟨k, b⟩ := c
  exact (memWfFrom_some.1 (wf_cons.1 h).2).1

/-- Every key of a list canonical above a bound lies above it. -/
theorem above_of_wfFrom {m : Memory} : ∀ {l : Nat}, memWfFrom (some l) m = true → ∀ c ∈ m, l < c.1 := by
  induction m with
  | nil => intro l _ c hc; cases hc
  | cons d t ih =>
    obtain ⟨k, b⟩ := d
    intro l h c hc
    simp only [memWfFrom, Bool.and_eq_true, decide_eq_true_eq] at h
    rcases List.mem_cons.1 hc with rfl | hc
    · exact h.1.1
    · exact Nat.lt_trans h.1.1 (ih h.2 c hc)

theorem memSet_wfFrom {m : Memory} (a : Nat) (b : Byte) :
    ∀ {l : Nat}, l < a → memWfFrom (some l) m = true → memWfFrom (some l) (memSet m a b) = true := by
  induction m with
  | nil => intro l hl _; simp only [memSet]; split <;> simp_all [memWfFrom]
  | cons d t ih =>
    obtain ⟨k, c⟩ := d
    intro l hl h
    simp only [memWfFrom, Bool.and_eq_true, decide_eq_true_eq, bne_iff_ne] at h
    simp only [memSet]
    split
    · next hk => subst hk; split <;> simp_all [memWfFrom]; exact memWfFrom_mono (Nat.le_of_lt hl) h.2
    · split
      · split <;> simp_all [memWfFrom]
      · have := ih (l := k) (by omega) h.2
        simp_all [memWfFrom]

theorem memSet_wf {m : Memory} (a : Nat) (b : Byte) (h : m.wf = true) : (memSet m a b).wf = true := by
  cases m with
  | nil => simp only [memSet]; split <;> simp_all [Memory.wf, memWfFrom]
  | cons d t =>
    obtain ⟨k, c⟩ := d
    have hc := wf_cons.1 h
    simp only [memSet]
    split
    · next hk =>
      subst hk
      split
      · exact wf_tail h
      · exact wf_cons.2 ⟨by assumption, hc.2⟩
    · split
      · split
        · exact h
        · next ha hb => exact wf_cons.2 ⟨hb, by simp [memWfFrom, ha, hc]⟩
      · exact wf_cons.2 ⟨hc.1, memSet_wfFrom a b (by omega) hc.2⟩

theorem memWrite_wf (n : Nat) : ∀ {m : Memory} (a v : Nat), m.wf = true → (memWrite m a n v).wf = true := by
  induction n with
  | zero => intro m a v h; exact h
  | succ n ih => intro m a v h; exact ih _ _ (memSet_wf _ _ h)

theorem filter_wfFrom (p : Nat × Byte → Bool) {m : Memory} :
    ∀ {l : Nat}, memWfFrom (some l) m = true → memWfFrom (some l) (m.filter p) = true := by
  induction m with
  | nil => intro l h; exact h
  | cons d t ih =>
    obtain ⟨k, b⟩ := d
    intro l h
    simp only [memWfFrom, Bool.and_eq_true, decide_eq_true_eq] at h
    rw [List.filter_cons]
    split
    · simp only [memWfFrom, Bool.and_eq_true, decide_eq_true_eq]; exact ⟨h.1, ih h.2⟩
    · exact ih (memWfFrom_mono (Nat.le_of_lt h.1.1) h.2)

/-- Part of a canonical memory is canonical: `memClear`, and what a reset leaves. -/
theorem filter_wf (p : Nat × Byte → Bool) {m : Memory} (h : m.wf = true) : Memory.wf (m.filter p) = true := by
  induction m with
  | nil => exact h
  | cons d t ih =>
    obtain ⟨k, b⟩ := d
    rw [List.filter_cons]
    split
    · exact wf_cons.2 ⟨(wf_cons.1 h).1, filter_wfFrom p (wf_cons.1 h).2⟩
    · exact ih (wf_tail h)

theorem memClear_wf {m : Memory} (lo n : Nat) (h : m.wf = true) : (memClear m lo n).wf = true := filter_wf _ h

theorem outerMem_wf {m : Memory} (h : m.wf = true) : (outerMem m).wf = true := filter_wf _ h

theorem memPaste_wf (lo : Nat) (cells : Memory) : ∀ {m : Memory}, m.wf = true → (memPaste m lo cells).wf = true := by
  induction cells with
  | nil => intro m h; exact h
  | cons c t ih => intro m h; exact ih (memSet_wf _ _ h)

theorem memPutBytes_wf (bs : List Byte) : ∀ {m : Memory} (a : Nat), m.wf = true → (memPutBytes m a bs).wf = true := by
  induction bs with
  | nil => intro m a h; exact h
  | cons b t ih => intro m a h; exact ih _ (memSet_wf _ _ h)

/-- The memory after reset has the form. -/
theorem reset_mem_wf : State.reset.mem.wf = true := rfl

/-! ### What an address reads as -/

theorem memGet_below {m : Memory} {l a : Nat} (h : memWfFrom (some l) m = true) (ha : a ≤ l) : memGet m a = memDefault := by
  cases m with
  | nil => rfl
  | cons d t =>
    obtain ⟨k, b⟩ := d
    have : l < k := above_of_wfFrom h _ (List.mem_cons_self ..)
    simp only [memGet]
    rw [if_neg (by omega), if_pos (by omega)]

/-- Reading after writing one byte: the byte there, every other address as it was. -/
theorem memGet_memSet {m : Memory} (a : Nat) (b : Byte) (x : Nat) (h : m.wf = true) :
    memGet (memSet m a b) x = if x = a then b else memGet m x := by
  induction m with
  | nil =>
    simp only [memSet]
    split <;> simp_all [memGet] <;> split <;> simp_all <;> omega
  | cons d t ih =>
    obtain ⟨k, c⟩ := d
    have hc := wf_cons.1 h
    have iht := ih (wf_tail h)
    simp only [memSet]
    split
    · next hk =>
      subst hk
      split
      · next hb =>
        by_cases hx : x = k
        · subst hx; simp only [if_true]; rw [memGet_below hc.2 (Nat.le_refl _), hb]
        · simp only [if_neg hx, memGet, if_neg (Ne.symm hx)]
          split
          · exact memGet_below hc.2 (by omega)
          · rfl
      · simp only [memGet]
        by_cases hx : x = k
        · subst hx; simp
        · simp [hx, Ne.symm hx]
    · next hk =>
      split
      · next hak =>
        split
        · next hb =>
          by_cases hx : x = a
          · subst hx; simp only [if_true, memGet, if_neg hk, if_pos hak]; exact hb.symm
          · rw [if_neg hx]
        · by_cases hx : x = a
          · subst hx; simp [memGet]
          · rw [if_neg hx]
            simp only [memGet, if_neg (Ne.symm hx)]
            split
            · rw [if_neg (by omega), if_pos (by omega)]
            · rfl
      · next hak =>
        simp only [memGet]
        by_cases hx : x = a
        · subst hx; rw [if_neg hk, if_neg hak, iht, if_pos rfl]; simp
        · rw [if_neg hx]; split
          · rfl
          · split
            · rfl
            · rw [iht, if_neg hx]

/-- Zeroing a range: zero inside it, every other address as it was. -/
theorem memGet_filter (p : Nat → Bool) {m : Memory} (x : Nat) (h : m.wf = true) :
    memGet (m.filter (fun c => p c.1)) x = if p x then memGet m x else memDefault := by
  induction m with
  | nil => simp [memGet]
  | cons d t ih =>
    obtain ⟨k, b⟩ := d
    have iht := ih (wf_tail h)
    have hb := (wf_cons.1 h).2
    rw [List.filter_cons]
    by_cases hpk : p k
    · simp only [hpk, if_true, memGet]
      by_cases hk : k = x
      · subst hk; simp [hpk]
      · rw [if_neg hk, if_neg hk, iht]
        split <;> split <;> rfl
    · simp only [hpk, Bool.false_eq_true, if_false, iht, memGet]
      by_cases hk : k = x
      · subst hk; simp [hpk]
      · rw [if_neg hk]
        by_cases hlt : x < k
        · rw [if_pos hlt, memGet_below hb (by omega)]
        · rw [if_neg hlt]

theorem memGet_memClear {m : Memory} (lo n x : Nat) (h : m.wf = true) :
    memGet (memClear m lo n) x = if lo ≤ x ∧ x < lo + n then memDefault else memGet m x := by
  have := memGet_filter (fun k => !(decide (lo ≤ k) && decide (k < lo + n))) x h
  rw [memClear, this]
  by_cases hx : lo ≤ x ∧ x < lo + n <;> simp [hx]

/-- A read is decided by the bytes read. -/
theorem memRead_congr (n : Nat) : ∀ {m m' : Memory} (a : Nat), (∀ k, a ≤ k → k < a + n → memGet m k = memGet m' k) →
    memRead m a n = memRead m' a n := by
  induction n with
  | zero => intro m m' a _; rfl
  | succ n ih =>
    intro m m' a h
    simp only [memRead]
    rw [h a (Nat.le_refl _) (by omega), ih (a + 1) (fun k h1 h2 => h k (by omega) (by omega))]

theorem memRead_lt (n : Nat) : ∀ (m : Memory) (a : Nat), memRead m a n < 2 ^ (8 * n) := by
  induction n with
  | zero => intro m a; simp [memRead]
  | succ n ih =>
    intro m a
    have := ih m (a + 1)
    have hb := (memGet m a).isLt
    simp only [memRead]
    have : 2 ^ (8 * (n + 1)) = 256 * 2 ^ (8 * n) := by rw [Nat.mul_add, Nat.pow_add]; omega
    omega

end Sys2Proof.Machine
end

