-- ==== Sys2Proof/Laws/State.lean ====
section
/-! SUPPORT. What each update of the state leaves in each field, so that no proof unfolds a record update. -/

namespace Sys2Proof.Machine

/-! ### The hart in front replaced -/

@[simp] theorem setH_h (s : State) (h : Hart) : (setH s h).h = h := rfl
@[simp] theorem setH_others (s : State) (h : Hart) : (setH s h).others = s.others := rfl
@[simp] theorem setH_mem (s : State) (h : Hart) : (setH s h).mem = s.mem := rfl
@[simp] theorem setH_d (s : State) (h : Hart) : (setH s h).d = s.d := rfl
@[simp] theorem setH_agenda (s : State) (h : Hart) : (setH s h).agenda = s.agenda := rfl
@[simp] theorem setH_clk (s : State) (h : Hart) : (setH s h).clk = s.clk := rfl
@[simp] theorem setH_steps (s : State) (h : Hart) : (setH s h).steps = s.steps := rfl

/-! ### A scalar register written -/

@[simp] theorem putX_h (s : State) (r : Reg) (w : Word) : (putX s r w).h = xSet s.h r w := rfl
@[simp] theorem putX_others (s : State) (r : Reg) (w : Word) : (putX s r w).others = s.others := rfl
@[simp] theorem putX_mem (s : State) (r : Reg) (w : Word) : (putX s r w).mem = s.mem := rfl
@[simp] theorem putX_d (s : State) (r : Reg) (w : Word) : (putX s r w).d = s.d := rfl
@[simp] theorem putX_agenda (s : State) (r : Reg) (w : Word) : (putX s r w).agenda = s.agenda := rfl
@[simp] theorem putX_clk (s : State) (r : Reg) (w : Word) : (putX s r w).clk = s.clk := rfl
@[simp] theorem putX_steps (s : State) (r : Reg) (w : Word) : (putX s r w).steps = s.steps := rfl

/-- Writing a scalar register changes the two banks of them and nothing else. -/
theorem xSetIn_eq (h : Hart) (m : Mode) (r : Nat) (w : Word) :
    xSetIn h m r w = { h with x := (xSetIn h m r w).x, sx := (xSetIn h m r w).sx } := by
  unfold xSetIn; split <;> try split
  all_goals rfl

@[simp] theorem xSet_gid (h : Hart) (r : Reg) (w : Word) : (xSet h r w).gid = h.gid := by rw [xSet, xSetIn_eq]
@[simp] theorem xSet_run (h : Hart) (r : Reg) (w : Word) : (xSet h r w).run = h.run := by rw [xSet, xSetIn_eq]
@[simp] theorem xSet_clusters (h : Hart) (r : Reg) (w : Word) : (xSet h r w).clusters = h.clusters := by rw [xSet, xSetIn_eq]
@[simp] theorem xSet_lanes (h : Hart) (r : Reg) (w : Word) : (xSet h r w).lanes = h.lanes := by rw [xSet, xSetIn_eq]
@[simp] theorem xSet_slabs (h : Hart) (r : Reg) (w : Word) : (xSet h r w).slabs = h.slabs := by rw [xSet, xSetIn_eq]
@[simp] theorem xSet_tiles (h : Hart) (r : Reg) (w : Word) : (xSet h r w).tiles = h.tiles := by rw [xSet, xSetIn_eq]
@[simp] theorem xSet_record (h : Hart) (r : Reg) (w : Word) : (xSet h r w).record = h.record := by rw [xSet, xSetIn_eq]
@[simp] theorem xSet_member (h : Hart) (r : Reg) (w : Word) : (xSet h r w).member = h.member := by rw [xSet, xSetIn_eq]
@[simp] theorem xSet_pc (h : Hart) (r : Reg) (w : Word) : (xSet h r w).pc = h.pc := by rw [xSet, xSetIn_eq]
@[simp] theorem xSet_xfer (h : Hart) (r : Reg) (w : Word) : (xSet h r w).xfer = h.xfer := by rw [xSet, xSetIn_eq]
@[simp] theorem xSet_second (h : Hart) (r : Reg) (w : Word) : (xSet h r w).second = h.second := by rw [xSet, xSetIn_eq]
@[simp] theorem xSet_stop (h : Hart) (r : Reg) (w : Word) : (xSet h r w).stop = h.stop := by rw [xSet, xSetIn_eq]
@[simp] theorem xSet_replay (h : Hart) (r : Reg) (w : Word) : (xSet h r w).replay = h.replay := by rw [xSet, xSetIn_eq]
@[simp] theorem xSet_fmrun (h : Hart) (r : Reg) (w : Word) : (xSet h r w).fmrun = h.fmrun := by rw [xSet, xSetIn_eq]
@[simp] theorem xSet_ending (h : Hart) (r : Reg) (w : Word) : (xSet h r w).ending = h.ending := by rw [xSet, xSetIn_eq]
@[simp] theorem xSet_mode (h : Hart) (r : Reg) (w : Word) : (xSet h r w).mode = h.mode := by rw [xSet, xSetIn_eq]
@[simp] theorem xSet_v (h : Hart) (r : Reg) (w : Word) : (xSet h r w).v = h.v := by rw [xSet, xSetIn_eq]
@[simp] theorem xSet_dead (h : Hart) (r : Reg) (w : Word) : (xSet h r w).dead = h.dead := by rw [xSet, xSetIn_eq]
@[simp] theorem xSet_opened (h : Hart) (r : Reg) (w : Word) : (xSet h r w).opened = h.opened := by rw [xSet, xSetIn_eq]
@[simp] theorem xSet_w (h : Hart) (r : Reg) (w : Word) : (xSet h r w).w = h.w := by rw [xSet, xSetIn_eq]
@[simp] theorem xSet_loops (h : Hart) (r : Reg) (w : Word) : (xSet h r w).loops = h.loops := by rw [xSet, xSetIn_eq]
@[simp] theorem xSet_arms (h : Hart) (r : Reg) (w : Word) : (xSet h r w).arms = h.arms := by rw [xSet, xSetIn_eq]
@[simp] theorem xSet_vl (h : Hart) (r : Reg) (w : Word) : (xSet h r w).vl = h.vl := by rw [xSet, xSetIn_eq]
@[simp] theorem xSet_vlcap (h : Hart) (r : Reg) (w : Word) : (xSet h r w).vlcap = h.vlcap := by rw [xSet, xSetIn_eq]
@[simp] theorem xSet_vstart (h : Hart) (r : Reg) (w : Word) : (xSet h r w).vstart = h.vstart := by rw [xSet, xSetIn_eq]
@[simp] theorem xSet_ffi (h : Hart) (r : Reg) (w : Word) : (xSet h r w).ffi = h.ffi := by rw [xSet, xSetIn_eq]
@[simp] theorem xSet_theta (h : Hart) (r : Reg) (w : Word) : (xSet h r w).theta = h.theta := by rw [xSet, xSetIn_eq]
@[simp] theorem xSet_floor (h : Hart) (r : Reg) (w : Word) : (xSet h r w).floor = h.floor := by rw [xSet, xSetIn_eq]
@[simp] theorem xSet_rmode (h : Hart) (r : Reg) (w : Word) : (xSet h r w).rmode = h.rmode := by rw [xSet, xSetIn_eq]
@[simp] theorem xSet_efr (h : Hart) (r : Reg) (w : Word) : (xSet h r w).efr = h.efr := by rw [xSet, xSetIn_eq]
@[simp] theorem xSet_space (h : Hart) (r : Reg) (w : Word) : (xSet h r w).space = h.space := by rw [xSet, xSetIn_eq]
@[simp] theorem xSet_cbase (h : Hart) (r : Reg) (w : Word) : (xSet h r w).cbase = h.cbase := by rw [xSet, xSetIn_eq]
@[simp] theorem xSet_armsp (h : Hart) (r : Reg) (w : Word) : (xSet h r w).armsp = h.armsp := by rw [xSet, xSetIn_eq]
@[simp] theorem xSet_linkpc (h : Hart) (r : Reg) (w : Word) : (xSet h r w).linkpc = h.linkpc := by rw [xSet, xSetIn_eq]
@[simp] theorem xSet_flags (h : Hart) (r : Reg) (w : Word) : (xSet h r w).flags = h.flags := by rw [xSet, xSetIn_eq]
@[simp] theorem xSet_fenable (h : Hart) (r : Reg) (w : Word) : (xSet h r w).fenable = h.fenable := by rw [xSet, xSetIn_eq]
@[simp] theorem xSet_fmask (h : Hart) (r : Reg) (w : Word) : (xSet h r w).fmask = h.fmask := by rw [xSet, xSetIn_eq]
@[simp] theorem xSet_sstatus (h : Hart) (r : Reg) (w : Word) : (xSet h r w).sstatus = h.sstatus := by rw [xSet, xSetIn_eq]
@[simp] theorem xSet_svec (h : Hart) (r : Reg) (w : Word) : (xSet h r w).svec = h.svec := by rw [xSet, xSetIn_eq]
@[simp] theorem xSet_sepc (h : Hart) (r : Reg) (w : Word) : (xSet h r w).sepc = h.sepc := by rw [xSet, xSetIn_eq]
@[simp] theorem xSet_scause (h : Hart) (r : Reg) (w : Word) : (xSet h r w).scause = h.scause := by rw [xSet, xSetIn_eq]
@[simp] theorem xSet_stval (h : Hart) (r : Reg) (w : Word) : (xSet h r w).stval = h.stval := by rw [xSet, xSetIn_eq]
@[simp] theorem xSet_stval2 (h : Hart) (r : Reg) (w : Word) : (xSet h r w).stval2 = h.stval2 := by rw [xSet, xSetIn_eq]
@[simp] theorem xSet_sscratch (h : Hart) (r : Reg) (w : Word) : (xSet h r w).sscratch = h.sscratch := by rw [xSet, xSetIn_eq]
@[simp] theorem xSet_ctxroot (h : Hart) (r : Reg) (w : Word) : (xSet h r w).ctxroot = h.ctxroot := by rw [xSet, xSetIn_eq]
@[simp] theorem xSet_ctxid (h : Hart) (r : Reg) (w : Word) : (xSet h r w).ctxid = h.ctxid := by rw [xSet, xSetIn_eq]
@[simp] theorem xSet_pause (h : Hart) (r : Reg) (w : Word) : (xSet h r w).pause = h.pause := by rw [xSet, xSetIn_eq]
@[simp] theorem xSet_issued (h : Hart) (r : Reg) (w : Word) : (xSet h r w).issued = h.issued := by rw [xSet, xSetIn_eq]
@[simp] theorem xSet_walkroot (h : Hart) (r : Reg) (w : Word) : (xSet h r w).walkroot = h.walkroot := by rw [xSet, xSetIn_eq]
@[simp] theorem xSet_ringsince (h : Hart) (r : Reg) (w : Word) : (xSet h r w).ringsince = h.ringsince := by rw [xSet, xSetIn_eq]
@[simp] theorem xSet_sie (h : Hart) (r : Reg) (w : Word) : (xSet h r w).sie = h.sie := by rw [xSet, xSetIn_eq]
@[simp] theorem xSet_sip (h : Hart) (r : Reg) (w : Word) : (xSet h r w).sip = h.sip := by rw [xSet, xSetIn_eq]
@[simp] theorem xSet_ringctl (h : Hart) (r : Reg) (w : Word) : (xSet h r w).ringctl = h.ringctl := by rw [xSet, xSetIn_eq]
@[simp] theorem xSet_ringpos (h : Hart) (r : Reg) (w : Word) : (xSet h r w).ringpos = h.ringpos := by rw [xSet, xSetIn_eq]
@[simp] theorem xSet_svstart (h : Hart) (r : Reg) (w : Word) : (xSet h r w).svstart = h.svstart := by rw [xSet, xSetIn_eq]
@[simp] theorem xSet_ring (h : Hart) (r : Reg) (w : Word) : (xSet h r w).ring = h.ring := by rw [xSet, xSetIn_eq]
@[simp] theorem xSet_mat (h : Hart) (r : Reg) (w : Word) : (xSet h r w).mat = h.mat := by rw [xSet, xSetIn_eq]
@[simp] theorem xSet_fibres (h : Hart) (r : Reg) (w : Word) : (xSet h r w).fibres = h.fibres := by rw [xSet, xSetIn_eq]
@[simp] theorem xSet_binds (h : Hart) (r : Reg) (w : Word) : (xSet h r w).binds = h.binds := by rw [xSet, xSetIn_eq]
@[simp] theorem xSet_cmds (h : Hart) (r : Reg) (w : Word) : (xSet h r w).cmds = h.cmds := by rw [xSet, xSetIn_eq]
@[simp] theorem xSet_fgen (h : Hart) (r : Reg) (w : Word) : (xSet h r w).fgen = h.fgen := by rw [xSet, xSetIn_eq]
@[simp] theorem xSet_barWord (h : Hart) (r : Reg) (w : Word) : (xSet h r w).barWord = h.barWord := by rw [xSet, xSetIn_eq]
@[simp] theorem xSet_barWait (h : Hart) (r : Reg) (w : Word) : (xSet h r w).barWait = h.barWait := by rw [xSet, xSetIn_eq]
@[simp] theorem xSet_sending (h : Hart) (r : Reg) (w : Word) : (xSet h r w).sending = h.sending := by rw [xSet, xSetIn_eq]
@[simp] theorem xSet_pend (h : Hart) (r : Reg) (w : Word) : (xSet h r w).pend = h.pend := by rw [xSet, xSetIn_eq]

/-! ### Retirement -/

@[simp] theorem retired_mem (s : State) : s.retired.mem = s.mem := rfl
@[simp] theorem retired_others (s : State) : s.retired.others = s.others := rfl
@[simp] theorem retired_d (s : State) : s.retired.d = s.d := rfl
@[simp] theorem retired_pc (s : State) : s.retired.h.pc = seqNext s.h.pc := rfl
@[simp] theorem retired_run (s : State) : s.retired.h.run = .running := rfl
@[simp] theorem retired_x (s : State) : s.retired.h.x = s.h.x := rfl
@[simp] theorem retired_sx (s : State) : s.retired.h.sx = s.h.sx := rfl
@[simp] theorem retired_v (s : State) : s.retired.h.v = s.h.v := rfl
@[simp] theorem retired_w (s : State) : s.retired.h.w = s.h.w := rfl
@[simp] theorem retired_mode (s : State) : s.retired.h.mode = s.h.mode := rfl
@[simp] theorem retired_flags (s : State) : s.retired.h.flags = s.h.flags := rfl
@[simp] theorem jumped_mem (s : State) (t : Word) : (s.jumped t).mem = s.mem := rfl
@[simp] theorem jumped_pc (s : State) (t : Word) : (s.jumped t).h.pc = t := rfl
@[simp] theorem jumped_xfer (s : State) (t : Word) : (s.jumped t).h.xfer = some s.h.pc := rfl
@[simp] theorem movedTo_mem (s : State) (t : Word) : (s.movedTo t).mem = s.mem := rfl
@[simp] theorem movedTo_pc (s : State) (t : Word) : (s.movedTo t).h.pc = t := rfl
@[simp] theorem waits_mem (s : State) (p : Park) : (s.waits p).mem = s.mem := rfl
@[simp] theorem waits_run (s : State) (p : Park) : (s.waits p).h.run = .parked p := rfl

/-! ### The device's tables -/

@[simp] theorem queuePut_h (s : State) (q : Nat) (u : Queue) : (queuePut s q u).h = s.h := rfl
@[simp] theorem queuePut_mem (s : State) (q : Nat) (u : Queue) : (queuePut s q u).mem = s.mem := rfl
@[simp] theorem queuePut_others (s : State) (q : Nat) (u : Queue) : (queuePut s q u).others = s.others := rfl
@[simp] theorem masterPut_h (s : State) (k : Nat) (m : Master) : (masterPut s k m).h = s.h := rfl
@[simp] theorem masterPut_mem (s : State) (k : Nat) (m : Master) : (masterPut s k m).mem = s.mem := rfl
@[simp] theorem masterPut_others (s : State) (k : Nat) (m : Master) : (masterPut s k m).others = s.others := rfl
@[simp] theorem regionPut_h (s : State) (r : Nat) (g : Region) : (regionPut s r g).h = s.h := rfl
@[simp] theorem regionPut_mem (s : State) (r : Nat) (g : Region) : (regionPut s r g).mem = s.mem := rfl
@[simp] theorem regionPut_others (s : State) (r : Nat) (g : Region) : (regionPut s r g).others = s.others := rfl
@[simp] theorem portPut_h (s : State) (q : Nat) (p : Port) : (portPut s q p).h = s.h := rfl
@[simp] theorem portPut_mem (s : State) (q : Nat) (p : Port) : (portPut s q p).mem = s.mem := rfl
@[simp] theorem portPut_others (s : State) (q : Nat) (p : Port) : (portPut s q p).others = s.others := rfl
@[simp] theorem ccPut_h (s : State) (c : CtxCmd) : (ccPut s c).h = s.h := rfl
@[simp] theorem ccPut_mem (s : State) (c : CtxCmd) : (ccPut s c).mem = s.mem := rfl
@[simp] theorem ccPut_cc (s : State) (c : CtxCmd) : (ccPut s c).d.cc = c := rfl
@[simp] theorem emit_h (s : State) (o : Out) : (emit s o).h = s.h := rfl
@[simp] theorem emit_mem (s : State) (o : Out) : (emit s o).mem = s.mem := rfl
@[simp] theorem emit_out (s : State) (o : Out) : (emit s o).d.out = o :: s.d.out := rfl

/-- An entry of a table reads as what was last put there, the others as before. -/
theorem tabGet_tabSet {α : Type} (t : Tab α) (k j : Nat) (a e : α) :
    tabGet (tabSet t k a) j e = if j = k then a else tabGet t j e := by
  induction t with
  | nil =>
    simp only [tabSet, tabGet]
    by_cases h : k = j
    · rw [if_pos h, if_pos h.symm]
    · rw [if_neg h, if_neg (Ne.symm h)]
  | cons c r ih =>
    obtain ⟨i, b⟩ := c
    simp only [tabSet]
    by_cases hik : i = k
    · subst hik
      simp only [if_true, tabGet]
      by_cases h : i = j
      · rw [if_pos h, if_pos h.symm]
      · rw [if_neg h, if_neg (Ne.symm h)]; simp [h]
    · simp only [if_neg hik, tabGet, ih]
      by_cases hij : i = j
      · subst hij; simp [hik]
      · simp [hij]

@[simp] theorem portGet_portPut (s : State) (q r : Nat) (p : Port) : portGet (portPut s q p) r = if r = q then p else portGet s r :=
  tabGet_tabSet s.d.ports q r p Port.zero

end Sys2Proof.Machine
end

