-- ==== Sys2Proof/Laws/Ops.lean ====
section
/-! SUPPORT. Laws of the shared operations: what an operation leaves of memory, what none of them counts where no counter
is enabled, and what a plain retirement answers. -/

namespace Sys2Proof.Machine

/-- Whatever next state an outcome holds has memory in canonical form. -/
def Keeps (r : Res) : Prop := ∀ t, r = .next t → t.mem.wf = true

theorem keeps_next {s : State} (h : s.mem.wf = true) : Keeps (.next s) := fun _ ht => by cases ht; exact h
theorem keeps_fault (f : Fault) : Keeps (.fault f) := fun _ ht => by cases ht

/-- An invariant of folds over states. -/
theorem foldl_inv {α σ : Type} (P : σ → Prop) (f : σ → α → σ) (hf : ∀ s a, P s → P (f s a)) (l : List α) :
    ∀ s, P s → P (l.foldl f s) := by
  induction l with
  | nil => intro s h; exact h
  | cons a t ih => intro s h; exact ih _ (hf _ _ h)

/-! ### Event counters -/

theorem raiseCnt_mem (s : State) (gc : Nat) (hs : BitVec 8) : (raiseCnt s gc hs).mem = s.mem := rfl

theorem bumpCore_mem (s : State) (k : Nat) (c : Ctr) (n : Nat) : (bumpCore s k c n).mem = s.mem := by
  simp only [bumpCore]
  split <;> rfl

theorem bumpDie_mem (s : State) (k : Nat) (c : Ctr) (n : Nat) : (bumpDie s k c n).mem = s.mem := by
  simp only [bumpDie]
  split <;> rfl

theorem countDie_mem (s : State) (die e n : Nat) : (countDie s die e n).mem = s.mem := by
  refine foldl_inv (fun t => t.mem = s.mem) _ ?_ s.d.dieCtrs s rfl
  intro t a ht
  dsimp only
  split
  · rw [bumpDie_mem, ht]
  · exact ht

theorem countAt_mem (s : State) (gid e n : Nat) : (countAt s gid e n).mem = s.mem := by
  rw [countAt, countDie_mem]
  refine foldl_inv (fun t => t.mem = s.mem) _ ?_ s.d.coreCtrs s rfl
  intro t a ht
  dsimp only
  split
  · rw [bumpCore_mem, ht]
  · exact ht

theorem countEv_mem (s : State) (e n : Nat) : (countEv s e n).mem = s.mem := countAt_mem s s.h.gid e n

theorem countWalks_mem (s : State) : (countWalks s).mem = s.mem := by
  refine foldl_inv (fun t : State => t.mem = s.mem) _ (fun t g ht => ?_) _ _ rfl
  rw [countAt_mem, countAt_mem, ht]

theorem countUnstated_mem (s : State) : (countUnstated s).mem = s.mem := by
  simp only [countUnstated]
  refine foldl_inv (fun t : State => t.mem = s.mem) _ ?_ _ _ ?_
  · intro t a ht
    split
    · rw [bumpDie_mem, ht]
    · split
      · rw [bumpDie_mem, ht]
      · exact ht
  · refine foldl_inv (fun t : State => t.mem = s.mem) _ ?_ _ _ rfl
    intro t a ht
    split
    · rw [bumpCore_mem, ht]
    · exact ht

/-- No counter that is disabled counts. -/
theorem foldl_id {α σ : Type} (f : σ → α → σ) (l : List α) (s : σ) (h : ∀ a ∈ l, f s a = s) : l.foldl f s = s := by
  induction l with
  | nil => rfl
  | cons a t ih =>
    rw [List.foldl_cons, h a (List.mem_cons_self ..)]
    exact ih (fun b hb => h b (List.mem_cons_of_mem _ hb))

theorem countDie_uncounted {s : State} (hs : s.Uncounted) (die e n : Nat) : countDie s die e n = s := by
  refine foldl_id _ _ s ?_
  intro a ha
  have := hs.2 a ha
  simp [ctrCounts, this]

theorem countAt_uncounted {s : State} (hs : s.Uncounted) (gid e n : Nat) : countAt s gid e n = s := by
  have h1 : ∀ a ∈ s.d.coreCtrs, a.2.en = false := hs.1
  rw [countAt]
  have : s.d.coreCtrs.foldl (fun t (k, c) =>
      if k / 8 == coreOf gid && ctrCounts c e && e < 0x22 && (c.harts == 0 || c.harts.getLsbD (hartNo gid)) then
        bumpCore t k c n
      else t) s = s := by
    refine foldl_id _ _ s ?_
    intro a ha
    simp [ctrCounts, h1 a ha]
  rw [this]
  exact countDie_uncounted hs _ _ _

theorem countEv_uncounted {s : State} (hs : s.Uncounted) (e n : Nat) : countEv s e n = s := countAt_uncounted hs s.h.gid e n

/-! ### Translation -/

theorem orByte_wf {m : Memory} (a : Nat) (b : Byte) (h : m.wf = true) : (orByte m a b).wf = true := memSet_wf _ _ h

theorem recordAccess_wf {s : State} (acc : Acc) (t : Tlb) (held : Bool) (va : Word) (h : s.mem.wf = true) :
    (recordAccess s acc t held va).mem.wf = true := by
  simp only [recordAccess]
  repeat' split
  all_goals first | exact h | exact orByte_wf _ _ h | exact orByte_wf _ _ (orByte_wf _ _ h)

/-- Everything that a translation that succeeds may change: memory, in canonical form still, and the entries held. -/
theorem translateFor_next {s s' : State} {core : Nat} {ctx : BitVec 16} {root va : Word} {acc : Acc} {n p : Nat}
    (ht : translateFor s core ctx root acc va n = .ok (p, s')) (h : s.mem.wf = true) :
    s'.mem.wf = true ∧ s' = { s with mem := s'.mem, d := { s.d with tlb := s'.d.tlb } } := by
  unfold translateFor at ht
  split at ht
  · cases ht
  · dsimp only at ht
    have key : ∀ u : State, u.mem = s.mem → u = { s with d := { s.d with tlb := u.d.tlb } } → ∀ t held q (bar : Option Flt),
        (match bar with
          | some f => (Except.error f : Except Flt (Nat × State))
          | none => .ok (q, recordAccess u acc t held va)) = .ok (p, s') →
        s'.mem.wf = true ∧ s' = { s with mem := s'.mem, d := { s.d with tlb := s'.d.tlb } } := by
      intro u hm hu t held q bar hq
      split at hq
      · cases hq
      · cases hq
        refine ⟨recordAccess_wf _ _ _ _ (by rw [hm]; exact h), ?_⟩
        rw [hu]; rfl
    split at ht
    · cases ht
    · cases ht
    · split at ht
      · cases ht
      · split at ht
        · cases ht
        · revert ht
          refine key _ ?_ ?_ _ _ _ _
          · split
            · split <;> rfl
            · rfl
          · split
            · split <;> rfl
            · rfl

/-- The same for a hart, of which the walk is noted too. -/
theorem translate_next {s s' : State} {h : Hart} {acc : Acc} {va : Word} {n p : Nat}
    (ht : translate s h acc va n = .ok (p, s')) (hw : s.mem.wf = true) :
    s'.mem.wf = true ∧ s' = { s with mem := s'.mem, d := { s.d with tlb := s'.d.tlb, walks := s'.d.walks } } := by
  unfold translate at ht
  split at ht
  · cases ht
  · next hf =>
    obtain ⟨hm, he⟩ := translateFor_next hf hw
    obtain ⟨m, tl, rfl⟩ : ∃ m tl, _ = { s with mem := m, d := { s.d with tlb := tl } } := ⟨_, _, he⟩
    cases ht
    split <;> exact ⟨hm, rfl⟩

/-- The same of an address of any space. -/
theorem place_next {s s' : State} {h : Hart} {sp : Space} {acc : Acc} {a : Word} {n : Nat} {l : Loc}
    (hp : place s h sp acc a n = .ok (l, s')) (hw : s.mem.wf = true) :
    s'.mem.wf = true ∧ s' = { s with mem := s'.mem, d := { s.d with tlb := s'.d.tlb, walks := s'.d.walks } } := by
  have rd : ∀ q, readable s acc a n q = .ok (l, s') → s' = s := by
    intro q hq
    unfold readable at hq
    split at hq <;> cases hq
    rfl
  have done : s' = s → s'.mem.wf = true ∧ s' = { s with mem := s'.mem, d := { s.d with tlb := s'.d.tlb, walks := s'.d.walks } } := by
    rintro rfl; exact ⟨hw, rfl⟩
  cases sp with
  | G =>
    simp only [place] at hp
    split at hp
    · next ht => cases hp; exact translate_next ht hw
    · cases hp
  | L =>
    simp only [place] at hp
    split at hp
    · exact done (rd _ hp)
    · cases hp
  | X =>
    simp only [place] at hp
    split at hp
    · cases hp
    · split at hp
      · exact done (rd _ hp)
      · cases hp
  | C =>
    simp only [place] at hp
    split at hp
    · exact done (rd _ hp)
    · cases hp
  | N =>
    simp only [place] at hp
    split at hp
    · exact done (rd _ hp)
    · cases hp; exact done rfl
    · cases hp

/-! ### Traps and retirement -/

theorem markWord_wf {s : State} (ea : Word) (h : s.mem.wf = true) : (markWord s ea).mem.wf = true := by
  unfold markWord
  split
  · next ht =>
    dsimp only
    split
    · rw [countEv_mem]; exact orByte_wf _ _ (translate_next ht h).1
    · exact h
  · exact h

theorem markStalled_wf {s : State} (h : s.mem.wf = true) : (markStalled s).mem.wf = true :=
  foldl_inv (fun t : State => t.mem.wf = true) _ (fun _ ea ht => markWord_wf ea ht) _ _ h

/-- Taking a trap, whatever it is. -/
theorem takeTrap_wf {s : State} (t : Trap) (h : s.mem.wf = true) : (takeTrap s t).mem.wf = true := by
  have h1 : (countEv s 0x19 1).mem.wf = true := by rw [countEv_mem]; exact h
  unfold takeTrap
  generalize countEv s 0x19 1 = u at h1
  dsimp only
  repeat' split
  all_goals first
    | exact markStalled_wf h1
    | simpa only [doubleTrap, setH_mem, countDie_mem] using h1

theorem keeps_trap {s : State} (t : Trap) (h : s.mem.wf = true) : Keeps (trap s t) := keeps_next (takeTrap_wf t h)

theorem keeps_retire {s : State} (h : s.mem.wf = true) : Keeps (next s) := by
  unfold next
  refine keeps_next ?_
  rw [setH_mem]
  split
  · split
    · rw [countEv_mem]; exact h
    · exact h
  · exact h

theorem keeps_nextX {s : State} (r : Reg) (w : Word) (h : s.mem.wf = true) : Keeps (nextX s r w) := keeps_retire h
theorem keeps_park {s : State} (p : Park) (h : s.mem.wf = true) : Keeps (park s p) := keeps_next h
theorem keeps_stall {s : State} (h : s.mem.wf = true) : Keeps (stall s) := keeps_next h

/-- An access in space G keeps the form if what it does at its place does. -/
theorem keeps_gAccess {s : State} {acc : Acc} {ea : Word} {al n : Nat} {k : Nat → State → Res} (h : s.mem.wf = true)
    (hk : ∀ p u, u.mem.wf = true → Keeps (k p u)) : Keeps (gAccess s acc ea al n k) := by
  unfold gAccess
  split
  · exact keeps_trap _ h
  · split
    · exact keeps_stall (by rw [countEv_mem]; exact h)
    · split
      · exact keeps_trap _ h
      · next ht => exact hk _ _ (translate_next ht h).1

/-- An instruction that ends no loop level and runs alone retires at the next slot and does nothing more. -/
theorem next_plain {s : State} (h : s.Plain) : next s = .next s.retired := by
  obtain ⟨he, hr, hf⟩ := h
  have h1 : endLevel { s.h with run := .running } = none := he
  have h2 : clearFm s.h = s.h := by simp [clearFm, hf]
  have h3 : retireSeq s.h = s.retired.h := by
    unfold retireSeq
    simp only [h2, h1]
    simp only [replayDone, hr, State.retired]
  simp only [next, he, h3]
  rfl

theorem nextX_plain {s : State} (r : Reg) (w : Word) (h : s.Plain) : nextX s r w = .next (putX s r w).retired := by
  refine next_plain ?_
  obtain ⟨he, hr, hf⟩ := h
  refine ⟨?_, by simpa using hr, by simpa using hf⟩
  rw [← he]
  simp [endLevel, innermost, lvlGet]

/-! ### The environment and the agenda -/

theorem tick_mem (n : Nat) (s : State) : (tick n s).mem = s.mem := by
  simp only [tick, countUnstated_mem, countWalks_mem, countCycles]
  refine foldl_inv (fun t : State => t.mem = s.mem) _ (fun t d ht => by rw [countDie_mem]; exact ht) _ _ ?_
  refine foldl_inv (fun t : State => t.mem = s.mem) _ ?_ _ _ rfl
  intro t a ht
  split
  · rw [bumpCore_mem, ht]
  · exact ht

theorem noteTurn_mem (s : State) (gid : Nat) : (noteTurn s gid).mem = s.mem := by unfold noteTurn; split <;> rfl

theorem bringFront_mem (s : State) (gid : Nat) : (bringFront s gid).mem = s.mem := by
  unfold bringFront
  split
  · rfl
  · split <;> rfl

/-! ### A turn (R210, R347) -/

/-- Where nothing counts, the harts held back in a turn leave no trace. -/
theorem countHeld_uncounted {s : State} (hs : s.Uncounted) (gid : Nat) (c : Option Nat) : countHeld s gid c = s := by
  unfold countHeld
  split
  · rfl
  · rfl
  · refine foldl_inv (fun t => t = s) _ ?_ _ s rfl
    rintro _ h rfl
    refine foldl_inv (fun t => t = _) _ ?_ _ _ rfl
    rintro _ ⟨e, n⟩ rfl
    exact countAt_uncounted hs h.gid e n

/-- A hart that no pre-emption stops issues as it comes. -/
theorem issueNow_unstopped {s : State} (h : s.h.stop = none) : issueNow s = issue s := by
  simp [issueNow, stopped, h]

/-- A pair that has not formed, or of which the first did not retire, leaves nothing more to issue. -/
theorem pairTurn_alone {s : State} (h : s.h.run ≠ .running ∨ s.h.second = false) : pairTurn (.next s) = .next s := by
  have c : ¬ (s.h.run == .running && s.h.second) = true := by
    rw [Bool.and_eq_true, beq_iff_eq]
    rintro ⟨a, b⟩
    rcases h with h | h
    · exact h a
    · rw [h] at b; cases b
  exact if_neg c

/-- Where no word is uncorrectable no line of a pip store is, wherever it stands. -/
theorem lineBad_clean {s : State} {r : Nat} {g : Region} {p : BitVec 128} (h : s.d.poison = []) : lineBad s r g p = false := by
  simp [lineBad, poisoned, h]

/-- A `replay` that is undone leaves the hart at it, in S mode, VSTART 0, with every other register but SVSTART as it was. -/
theorem undoReplay_frame (h : Hart) : ∃ r m pc vs f sv, (h.sending = none → sv = h.svstart) ∧
    undoReplay h = { h with replay := r, mode := m, pc := pc, vstart := vs, fmrun := f, svstart := sv } := by
  unfold undoReplay
  split
  · exact ⟨_, _, _, _, _, _, fun e => by simp [e], rfl⟩
  · exact ⟨_, _, _, _, _, _, fun _ => rfl, rfl⟩

end Sys2Proof.Machine
end

