-- ==== Sys2Proof/Tests/Slice0.lean ====
section
/-! SUPPORT. Tests: the checks of WellFormed, words decoded, single steps whose results the spec gives, and for every
statement a state and operands that meet its hypotheses. -/

namespace Sys2Proof.Tests

-- One theorem at a time: the kernel's stacks for all of them at once would not fit.
set_option Elab.async false

open Sys2Proof.Machine

/-! ### WellFormed refuses each ill-formed term (R19 to R36, R62 to R73) -/

/-- Plain vector fields of an element type. -/
def kOf (et : ET) : VCtl := { w := 0, wp := .merge, rm := .rne, et := et, et2 := .f32, g := .g1, lr := 0 }
def kf : VCtl := kOf .f32
def kn : VCtl := kOf .n32

theorem test_wf_accepts : [Instr.nop, .fadd 1 2 (.reg 3) .f64 .rtz, .loop 0 1 5 0 2 true, .wfork 1 2 3, .vadd 5 1 (.reg 2) kf,
    .vld 4 1 16 (kOf .cb4), .vamoAdd 4 1 2 3 0 kn .rlx .core, .pswap 2 4 6 8 0, .fsplit 2 4 6 8 .G .L .device,
    .mout 1 0 2 0 .G false 0 .bf16 .rne .core, .csrwr 3 0x312 4, .vsend 1 2 kn].all Instr.wf = true := by decide

/-- W, RM, the group, marks, element types, the policy: the fields that vector instructions share. -/
theorem test_wf_vector_fields : [
    .vadd 5 1 (.reg 2) { kf with w := 24 }, .vadd 5 1 (.reg 2) { kf with rm := .efb }, .vadd 5 1 (.reg 2) { kf with g := .g2 },
    .vadd 48 2 (.reg 4) { kf with g := .g2 }, .vadd 5 0 (.reg 2) { kf with lr := 4 }, .vadd 5 1 (.scalar 2) { kf with lr := 2 },
    .vadd 5 1 (.reg 2) { kf with lr := 1 }, .vadd 5 1 (.reg 2) (kOf .f64), .vadd 5 1 (.reg 2) { kf with et2 := .f16 },
    .vadd 5 1 (.reg 2) { kf with wp := .scale }, .vadd 5 1 (.reg 2) { kn with wp := .blend }, .vadd 5 1 (.scalar 0) kf,
    .vfma 5 1 (.reg 2) 3 kn, .vdiv 5 1 (.reg 2) kn, .vsqrt 5 1 kn, .vclass 5 1 { kf with wp := .blend }, .vabs 5 1 (kOf .e4m3),
    .vclamp 5 1 (.reg 2) 3 (kOf .b1), .vwmul 5 1 (.reg 2) { kf with et2 := .f32 }, .vwfma 5 1 (.reg 2) 3 { kf with et2 := .i16 },
    .vcvt 5 1 (kOf .cb7), .vcvt 5 1 { kf with et2 := .f64 }, .vcvtSat 5 1 kf, .vand 5 1 (.reg 2) kf,
    .vand 5 1 (.reg 2) { kn with wp := .blend }, .vcmp .un 5 1 (.reg 2) kn, .vcmp .ltu 5 1 (.reg 2) kf,
    .vsel 5 1 (.imm 0x10000) 3 (kOf .wt), .vredsum 1 2 { kn with et2 := .i32 }, .vredmax 1 2 kn,
    .vredmin 1 2 { kf with wp := .zero }, .vscanAdd 1 2 kn, .vfirst 1 { kf with g := .g2 }, .vcount 1 kn,
    .vmv 5 1 (kOf .f64), .vsplat 5 (.reg 2) kf, .vsplat 5 (.imm 0x10000) (kOf .wt), .vid 5 kf, .vslup 5 1 (.reg 2) kf,
    .vperm 5 1 2 (kOf .cb2), .vcompress 5 1 3 { kf with wp := .blend }, .vexpand 5 1 (kOf .f64), .vrev 5 1 { kf with et2 := .i8 },
    .vpack 5 1 kf, .vunpack 5 1 kf, .vrand 5 1 (.reg 2) kn, .vins 5 1 (.imm 0) { kf with w := 1 }, .vext 5 1 (.reg 2) kf,
    .vtopk 5 1 0 1 { kf with et2 := .n16 }, .vtopk 5 1 4 5 { kf with et2 := .n16 }, .vtopk 5 1 512 257 { kf with et2 := .n32 },
    .vtopk 5 1 4 2 kf].any Instr.wf = false := by decide

theorem test_wf_weights : [
    .wcmp .eq 24 1 (.reg 2) kf, .wramp 1 1 (.reg 2) 3 kn, .wrampg 5 1 24 3 kf, .wmul 1 24 (.reg 2) kf, .wadd 1 2 (.reg 24) kf,
    .wsub 1 2 (.imm 0x10000) kf, .wmin 1 2 (.reg 3) { kf with g := .g2 }, .wmax 1 2 (.reg 3) { kf with lr := 4 }, .wnot 1 24 kf,
    .wmov 24 1 kf, .wsplat 1 (.reg 2) kf, .wfromv 1 2 kn, .wtov 1 24 kf, .wbound 1 2 (.reg 3) kf, .wany 1 { kf with wp := .zero },
    .wmul 1 2 (.reg 3) { kf with et := .f16 }, .wmul 1 2 (.reg 3) { kf with wp := .blend }, .vjoin 5 1 (.reg 2) 24 kf,
    .vjoingw 5 1 2 3 kn].any Instr.wf = false := by decide

theorem test_wf_memory : [
    .vld 5 1 0 (kOf .f64), .vld 5 1 0 { kf with lr := 1 }, .vlds 5 1 2 0 (kOf .cb7), .vldx 5 1 5 0 kf, .vldx 5 1 2 0 (kOf .b1),
    .vldx 5 1 1 0 (kOf .i16), .vldff 5 1 0 { kf with wp := .blend }, .vst 5 1 0 { kf with wp := .zero },
    .vst 5 1 0 { kn with wp := .scale }, .vsts 5 1 2 0 (kOf .i4), .vstx 5 1 49 0 { kf with g := .g2 },
    .vstu 5 1 0 { kf with wp := .blend }, .vbind 0 1 0 .f32, .vbind 48 1 0 .f32, .vbind 5 1 0 .f64, .vunbind 0, .vunbind 48, .vopen 0,
    .vclose 0, .ld 1 2 0 .f32, .st 1 2 0 .b1, .amoAdd 1 2 3 0 .i16 .rlx .hart, .amoAdd 1 2 3 0 .i32 .rlx .farm,
    .amocas 1 2 3 4 0 .f32 .rlx .hart, .vamoAdd 4 1 0 3 0 kn .rlx .core, .vamoAdd 4 1 2 0 0 kn .rlx .core,
    .vamoAdd 4 1 4 3 0 kn .rlx .core, .vamoAdd 0 1 2 3 0 { kn with wp := .zero } .rlx .core,
    .vamoAdd 4 1 2 3 0 { kn with rm := .rtz } .rlx .core, .vamoAnd 4 1 2 3 0 kf .rlx .core, .vamoBlend 4 1 2 3 0 kn .rlx .core,
    .vamoAdd 4 1 2 3 0 kn .rlx .farm, .fence .rlx .core, .fence .acq .farm, .waiteq 1 2 3 0 .rel .core, .waiteq 1 2 3 0 .acq .farm,
    .vsend 0 2 kn, .vsend 1 0 kn, .vsend 1 2 { kn with lr := 4 }, .vsend 1 2 { kn with wp := .zero }, .vrecv 0 2 3 kn,
    .vrecv 2 2 3 kn, .vrecv 1 2 3 { kn with w := 1 }].any Instr.wf = false := by decide

theorem test_wf_scalars_and_control : [
    .fadd 1 2 (.reg 3) .f16 .rne, .fadd 1 2 (.reg 3) .f32 .efb, .fsqrt 1 2 .i32 .rne, .ffma 1 2 (.reg 3) 4 .bf16 .rne,
    .fcmp .geu 1 2 (.reg 3) .f32 .rne, .fclass 1 2 .f64 .efb, .fcvt 1 2 .i8 .f32 .rne, .bCond .un 1 2 3, .bCond .ord 1 2 3,
    .loop 0 1 0 0 0 false, .loop 0 1 5 24 0 false, .loop 0 1 5 0 1 false, .wfork 0 2 3, .wfork 24 2 3, .wfork 1 0 3, .wfork 1 3 3,
    .warm 0, .setvl 1 2 .f64 .g1, .setth 1 (.imm 0x10000), .setfl 1 (.imm 0x10000), .getcr 1 0x00F, .putcr 0x280 1,
    .csrrd 1 0x0FF, .csrwr 3 0x313 1, .tlbinv 1 2 .farm 0, .tlbinv 1 2 .core 3].any Instr.wf = false := by decide

theorem test_wf_engines : [
    .xlate 1 2 3, .cwb 1 (.reg 2) .farm, .cinv 1 (.reg 2) .farm, .ppin 1 2 3, .ppin 2 0 3, .pnode 3 2 1, .pread 0 2 3, .pread 1 3 4,
    .pinc 1 3 4, .pdec 1 3 4, .pswap 1 2 4 6 0, .pswap 2 4 5 6 0, .pswap 2 4 6 7 0, .cpy 1 2 3 4 .G .G .farm,
    .cpys 1 3 4 5 .G .G .core, .cpys 1 2 5 6 .G .G .core, .cfill 1 2 3 4 .G 0 .farm, .mzero 1 0 .farm,
    .mmul 1 2 3 0 .C .G .f32 .f32 .core, .mmul 1 2 3 0 .G .N .f32 .f32 .core, .mmul 1 2 3 0 .G .G .f32 .i8 .core,
    .mmul 1 2 3 0 .G .G .i32 .i8 .core, .mmulc 1 2 3 2 .G .bf16 .f32 .rne .core, .mmulc 1 2 3 0 .G .f32 .f32 .rne .core,
    .mmulc 1 2 3 0 .G .bf16 .i8 .rne .core, .mout 1 0 2 1 .G false 0 .bf16 .rne .core, .mout 1 0 2 4 .G true 0 .bf16 .rne .core,
    .mout 1 0 0 0 .G true 0 .bf16 .rne .core, .mout 1 0 2 0 .C false 0 .bf16 .rne .core, .mout 1 0 2 0 .G false 0 .n8 .rne .core,
    .fopen 0 1 2 .G 3, .fisect 1 0 1 2 .G .core, .funion 2 0 1 3 .G .core, .fsplit 2 3 4 5 .G .G .core, .fcount 1 0 2 .core,
    .dput 1 2 3 4 .L .G 0 .core, .dwait 1 2 .G .farm, .dclose 1 2 3 4 .G .G 0 .farm, .pout 1 2 3 4 .G .core,
    .pout 2 3 4 6 .G .core].any Instr.wf = false := by decide

theorem test_wf_agents : [
    .engineUnit 64, .pipCascade 256, .regionEnable 256 0, .waitWordTest 64, .qtailWrite 64 0, .ringmasterSelect 4, .pscfgWrite 4 0,
    .mgmtLogRead 4 false, .preload 0 24, .ringSlotFill 768 0 .i32 0 0, .ringSlotFill 0 0 .f64 0 0, .busLaneDiagnosis 0 32 0 0 0 1,
    .laneSwap 0 0 0 32 0, .portEnable 16 1, .readRequest 0 ⟨0, 0, 0, 0, 0, 225, 0, true, true⟩,
    .atomic 0 ⟨0, 0, 0, 0, 0, 8, 0, true, true⟩ 0 .i8].any Instr.wf = false := by decide

/-! ### Words that the spec writes out (chapters 3, 4, 8 to 20) and their instructions -/

/-- Whether a slot, its words [95:64], [63:32] and [31:0], decodes to the instruction. -/
def reads (hi mid lo : BitVec 32) (i : Instr) : Bool :=
  match decode (hi ++ mid ++ lo) with
  | .ok j => decide (j = i)
  | .error _ => false
/-- Whether it is refused, for a reason. -/
def refuses (hi mid lo : BitVec 32) (r : Reject) : Bool :=
  match decode (hi ++ mid ++ lo) with
  | .ok _ => false
  | .error e => decide (e = r)

def kb : VCtl := { kf with wp := .blend }

theorem test_decode_scalar : [
    reads 0x01000000 0 0 .nop, reads 0x01045146 0 0 (.add 5 5 (.reg 6)), reads 0x02002000 0 0x00200000 (.li 2 0x200000),
    reads 0x02042000 0 0 (.lih 2 0), reads 0x80003080 0x0000B000 0 (.ld 3 2 0 .i64), reads 0x80040080 0x1400B000 0x10 (.st 5 2 16 .i64),
    reads 0x29140000 0 0 .halt, reads 0x280800C4 0 0xFFFFFFF4 (.bCond .lt 3 4 (-12)), reads 0x281C0080 0 0xFFFFFFFE (.bCond .gt 2 0 (-2)),
    reads 0x017CE305 0x08000000 0 (.lea 14 12 5 2 0)].all id = true := by decide

theorem test_decode_continuation : [
    reads 0x30005040 0x1C000001 0x3F800000 (.wcmp .gt 5 1 (.imm 0x3F800000) kf),
    reads 0x2A000100 0 0x0040000A (.loop 0 4 10 4 0 false), reads 0x2C000140 0 0x00050003 (.wfork 5 3 5),
    reads 0x300C4100 0x03E00001 0x4000 (.wmul 4 4 (.imm 0x4000) { kf with w := 31 }),
    reads 0x30343007 0x03E00001 0 (.wbound 3 0 (.scalar 7) { kf with w := 31 }),
    reads 0x3200D146 0x14000000 0 (.vjoin 13 5 (.reg 6) 5 kf)].all id = true := by decide

theorem test_decode_vector : [
    reads 0x400C5042 0x14700000 0 (.vfma 5 1 (.reg 2) 5 { kb with w := 3 }), reads 0x40187046 0 0 (.vdiv 7 1 (.reg 6) kf),
    reads 0x81100180 0x08100000 0 (.vst 2 6 0 kb), reads 0x8108808C 0x00600000 0 (.vldx 8 2 12 0 { kf with w := 3 }),
    reads 0x4530739C 0x0000B801 0 (.vins 7 14 (.scalar 28) (kOf .n64)), reads 0x4534A21B 0x0000B801 0 (.vext 10 8 (.scalar 27) (kOf .n64)),
    reads 0x45383040 0x00000541 0x00020004 (.vtopk 3 1 4 2 { kf with et2 := .n32 }), reads 0x81214180 0x800 0 (.vbind 20 6 0 .bf16),
    reads 0x81254000 0 0 (.vunbind 20), reads 0x81294000 0 0 (.vopen 20), reads 0x812D4000 0 0 (.vclose 20),
    reads 0xD000010C 0x00600000 0 (.vsend 4 12 { kf with w := 3 }), reads 0xD0048009 0x14000000 0 (.vrecv 8 9 5 kf)].all id = true := by
  decide

theorem test_decode_synchronising : [
    reads 0x90045080 0x1803B040 8 (.amoAdd 5 2 6 8 .i64 .acq .device), reads 0x90405087 0x2003B0C0 0 (.amocas 5 2 7 8 0 .i64 .ar .device),
    reads 0x9104908C 0x1062A000 0 (.vamoAdd 9 2 12 4 0 { kOf .i32 with w := 3 } .rlx .die),
    reads 0x92085086 0x00030040 0 (.waiteq 5 2 6 0 .acq .device), reads 0x92000000 0x00020040 0 (.fence .acq .die),
    reads 0x92000000 0x000400C0 0 (.fence .ar .system), reads 0x92049040 0x00050000 0x38 (.bar 9 1 56 .farm),
    reads 0xA000A000 0 0 (.hid 10), reads 0xA00841C0 0 0 (.farm 4 7), reads 0xA00C5000 0 0 (.fgrab 5),
    reads 0xA0108140 0 0 (.fdone 8 5)].all id = true := by decide

theorem test_decode_memory_and_pips : [
    reads 0xA8005180 1 1 (.xlate 5 6 1), reads 0xA8040187 0x00020000 0 (.cwb 6 (.reg 7) .die),
    reads 0xA8080187 0x00020000 0 (.cinv 6 (.reg 7) .die), reads 0xA80C5000 1 1 (.slabTake 5), reads 0xB000A106 0 0 (.ppin 10 4 6),
    reads 0xB0048286 0 0 (.pread 8 10 6), reads 0xB0085286 0 0 (.pinc 5 10 6), reads 0xB00C5286 0 0 (.pdec 5 10 6),
    reads 0xB010C246 0 0 (.pnode 12 9 6), reads 0xB014C08A 0x38000000 0 (.pswap 12 2 10 14 0)].all id = true := by decide

theorem test_decode_engines : [
    reads 0xC10D5209 0x00002102 9 (.mmul 21 8 9 0 .L .L .e4m3 .e4m3 .core), reads 0xC115600A 0x00002002 8 (.mout 22 0 10 0 .L false 0 .e4m3 .rne .core),
    reads 0xC001704A 0x2C000006 8 (.cpy 23 1 10 11 .G .L .device), reads 0xC1094000 2 0 (.mzero 20 0 .core),
    reads 0xC2116042 4 0 (.fisect 22 1 2 0 .G .die), reads 0xC219A108 0x28000004 0x40 (.fsplit 26 4 8 10 .G .L .die),
    reads 0xC2000055 0x50000000 0 (.fopen 1 21 20 .G 0), reads 0xC3000411 0x7C000006 0 (.dput 0 16 17 31 .G .G 0 .device),
    reads 0xC30BA79D 0x50000006 0 (.dclose 58 30 29 20 .G .G 0 .device), reads 0xC3073D00 6 0 (.dwait 51 52 .G .device),
    reads 0xC1175036 6 0 (.mout 53 0 54 0 .G false 0 .f32 .rne .device)].all id = true := by decide

theorem test_decode_system : [
    reads 0xE0005000 0 0x303 (.csrrd 5 0x303), reads 0xE0041040 0 0x306 (.csrwr 1 0x306 1), reads 0xE0080000 0 0 .tret,
    reads 0xE00C0000 0 0 .ecall, reads 0xE0100000 0 0 .ebreak, reads 0xE0147080 0 0 (.frqpop 7 2 0), reads 0xE0186000 0 0 (.replay 6),
    reads 0xE01C0140 0 3 (.tlbinv 5 0 .device 0), reads 0xE020824A 0 0 (.ringrd 8 9 10 0), reads 0xE0245040 0 0 (.ctxsave 5 1 false false 0),
    reads 0xE0280040 0 0 (.ctxload 1 0), reads 0xE02C0000 0 0 .wfi].all id = true := by decide

/-- Slots of the families without a word in the spec, from R61 to R71 and the entries' operand tables. -/
theorem test_decode_by_fields : [
    reads 0x20042083 0x00000000 0 (.fsub 2 2 (.reg 3) .f32 .rne), reads 0x29083000 0 7 (.call 3 7), reads 0x41003042 0x00000040 0 (.vwmul 3 1 (.reg 2) { kf with et2 := .bf16 }),
    reads 0x42003040 0x00001000 0 (.vcvt 3 1 (kOf .f16)), reads 0x43103042 0x0000A000 0 (.vshl 3 1 (.reg 2) (kOf .i32)),
    reads 0x44083040 0 0 (.vredsum 3 1 kf), reads 0x70003080 0 0x21 (.setvl 3 2 .bf16 .g2), reads 0x70143000 0 9 (.getcr 3 9),
    reads 0xC4002104 0x18000002 0 (.pout 2 4 4 6 .G .core)].all id = true := by decide

/-- R72: OP 0, an OP and an FN that are not assigned, a field without a use, W = 24, RM = 7. -/
theorem test_decode_refuses : [refuses 0 0 0 .unassignedOp, refuses 0xF0000000 0 0 .unassignedOp, refuses 0x01800000 0 0 .unassignedFn,
    refuses 0x01045146 0 1 .reservedField, refuses 0x400C5042 0x03000000 0 .illFormed,
    refuses 0x400C5042 0x00070000 0 .badCode].all id = true := by decide

/-! ### Single steps -/

/-- A hart of four lanes at place 33, alone on the device. -/
def h0 : Hart :=
  { Hart.zero with gid := 33, run := .running, pc := 0x8000, clusters := 1, lanes := 4, vlcap := 3072, vl := 4, svec := 0x1000, ctxid := 7
                   record := 9, slabs := [3, 4], tiles := [1] }
/-- The 64 KiB page at 0x20000 lies at 0x50000 of die 0's DRAM. -/
def t0 : Tlb := { core := 4, ctx := 7, size := 0, page := 2, leaf := 0x5003F, leafAt := 0, dirty := [] }
def s0 : State := { State.reset with h := h0, d := { Dev.reset with idKey := 0, fwDigest := 0, tlb := [t0] } }
/-- The same with two scalar registers. -/
def sx (a b : Word) : State := { s0 with h := { h0 with x := (h0.x.set 1 a).set 2 b } }
/-- And with two vector registers, the low elements packed from bit 0. -/
def sv (a b : BitVec 196608) : State := { s0 with h := { h0 with v := (h0.v.set 1 a).set 2 b } }

/-- A next state of which something holds. -/
def after (r : Res) (p : State → Bool) : Bool :=
  match r with
  | .next t => p t
  | _ => false
/-- x5 afterwards, and the PC one slot on. -/
def gives (i : Instr) (s : State) (v : Word) : Bool := after (exec i s) (fun t => t.h.x[5] == v && t.h.pc == 0x800C)
/-- Whether a trap of this SCAUSE, STVAL and STVAL2 has been entered. -/
def traps (r : Res) (cause val val2 : Word) : Bool :=
  after r (fun t => t.h.scause == cause && t.h.stval == val && t.h.stval2 == val2 && t.h.pc == 0x1000 && t.h.mode == .S && inh t.h)

/-- R107, R106: the edge cases of division; a shift reads six bits; a rotation. -/
theorem test_division : [gives (.div 5 1 (.reg 2)) (sx 7 0) (-1), gives (.divu 5 1 (.reg 2)) (sx 7 0) (-1),
    gives (.rem 5 1 (.reg 2)) (sx 7 0) 7, gives (.remu 5 1 (.reg 2)) (sx 7 0) 7,
    gives (.div 5 1 (.reg 2)) (sx 0x8000000000000000 (-1)) 0x8000000000000000,
    gives (.rem 5 1 (.reg 2)) (sx 0x8000000000000000 (-1)) 0, gives (.div 5 1 (.reg 2)) (sx (-7) 2) (-3),
    gives (.rem 5 1 (.reg 2)) (sx (-7) 2) (-1)].all id = true := by decide +kernel

theorem test_integers : [gives (.mulh 5 1 (.reg 2)) (sx (-1) (-1)) 0, gives (.mulhu 5 1 (.reg 2)) (sx (-1) (-1)) (-2),
    gives (.shl 5 1 (.reg 2)) (sx 3 65) 6, gives (.sra 5 1 (.reg 2)) (sx (-8) 1) (-4), gives (.rotl 5 1 (.imm 4)) (sx 0xF000000000000001 0) 0x1F,
    gives (.slt 5 1 (.reg 2)) (sx (-1) 1) 1, gives (.sltu 5 1 (.reg 2)) (sx (-1) 1) 0, gives (.andn 5 1 (.reg 2)) (sx 0xFF 0x0F) 0xF0,
    gives (.clz 5 1) (sx 1 0) 63, gives (.ctz 5 1) (sx 0 0) 64, gives (.popc 5 1) (sx 0xFF 0) 8,
    gives (.add 5 1 (.imm 0xFFFFFFFF)) (sx 1 0) 0].all id = true := by decide +kernel

/-- R108 to R110: p = 4 and length 8; length 0 stands for 64; `bins`; `lea`; `li` extends its sign, `lih` keeps the low half. -/
theorem test_fields : [gives (.bext 5 1 (.imm 0x804)) (sx 0xABCDE 0) 0xCD, gives (.ext 5 1 (.imm 0x804)) (sx 0xABCDE 0) 0xFFFFFFFFFFFFFFCD,
    gives (.bext 5 1 (.imm 4)) (sx 0xF0000000000000A5 0) 0x0F0000000000000A, gives (.bins 5 1 (.imm 0x804) 2) (sx 0x12 0xABCDE) 0xAB12E,
    gives (.lea 5 1 2 3 0xFFFFFFFF) (sx 0x100 2) 0x10F, gives (.li 5 0x80000000) s0 0xFFFFFFFF80000000,
    after (exec (.lih 1 7) (sx 0x9ABCDEF0 0)) (fun t => t.h.x[1] == 0x79ABCDEF0)].all id = true := by decide +kernel

/-- R7, R335: a write to x0 is discarded, and in S mode x1 names the S bank. -/
theorem test_register_names : [after (exec (.li 0 5) s0) (fun t => t.h.x == s0.h.x && t.h.pc == 0x800C),
    after (exec (.li 1 5) { s0 with h := { h0 with mode := .S } }) (fun t => t.h.x == s0.h.x && t.h.sx[0] == 5)].all id = true := by
  decide +kernel

/-- R118, R69: the branch at 0x2030 whose displacement is −12 goes to 0x1F98; not taken, it goes on; `call` writes the link. -/
theorem test_branch : [
    after (exec (.bCond .lt 1 2 (-12)) { sx 1 2 with h := { (sx 1 2).h with pc := 0x2030 } }) (fun t => t.h.pc == 0x1F98 && t.h.xfer == some 0x2030),
    after (exec (.bCond .lt 1 2 (-12)) { sx 2 2 with h := { (sx 2 2).h with pc := 0x2030 } }) (fun t => t.h.pc == 0x2040 && t.h.xfer == none),
    after (exec (.call 5 1) { s0 with h := { h0 with pc := 0x8030 } }) (fun t => t.h.pc == 0x8040 && t.h.x[5] == 0x8040)].all id = true := by
  decide +kernel

/-- R112: 1.0 + 2^-24 under RNE is 1.0, inexact; a signalling NaN is quieted to the canonical one, invalid; 1 / 0. -/
theorem test_floats : [
    after (exec (.fadd 5 1 (.reg 2) .f32 .rne) (sx 0x3F800000 0x33800000)) (fun t => t.h.x[5] == 0x3F800000 && t.h.flags == 1),
    after (exec (.fadd 5 1 (.reg 2) .f32 .rne) (sx 0x7F800001 0)) (fun t => t.h.x[5] == 0x7FC00000 && t.h.flags == 0x10),
    after (exec (.fdiv 5 1 (.reg 2) .f64 .rne) (sx 0x3FF0000000000000 0)) (fun t => t.h.x[5] == 0x7FF0000000000000 && t.h.flags == 8),
    traps (exec (.fdiv 5 1 (.reg 2) .f64 .rne) { sx 0x3FF0000000000000 0 with h := { (sx 0x3FF0000000000000 0).h with fenable := 8 } })
      13 8 0].all id = true := by decide +kernel

/-- R24: products round half to even. -/
theorem test_weight_product : wtMul 0x4000 0x2000 = 0x1000 ∧ wtMul 1 0x4000 = 0 ∧ wtMul 3 0x4000 = 2 ∧ wtMul 2 0x6000 = 2 ∧
    wtMul 3 0x3000 = 1 := by decide

/-- R115: a load extends the sign of an I type; a store writes its bytes and no other; a misaligned address traps, cause 6. -/
theorem test_scalar_memory : [
    gives (.ld 5 1 8 .i16) { sx 0x20000 0 with mem := memWrite [] 0x50008 2 0x8001 } 0xFFFFFFFFFFFF8001,
    gives (.ld 5 1 8 .n16) { sx 0x20000 0 with mem := memWrite [] 0x50008 2 0x8001 } 0x8001,
    after (exec (.st 2 1 0x10 .n16) (sx 0x20000 0x123456)) (fun t => t.mem == [(0x50010, 0x56), (0x50011, 0x34)]),
    traps (exec (.ld 5 1 1 .i16) (sx 0x20000 0)) 6 0x20001 0xFFFFFFFF,
    traps (exec (.ld 5 1 0 .i64) (sx 0x30000 0)) 8 0x30000 0xFFFFFFFF].all id = true := by decide +kernel

/-- R237, R239: `amo.add` returns the old value; `amocas` stores only where it finds what it expects. -/
theorem test_atomics : [
    after (exec (.amoAdd 5 1 2 0 .i32 .rlx .core) { sx 0x20000 3 with mem := memWrite [] 0x50000 4 0xFFFFFFFF })
      (fun t => t.h.x[5] == -1 && t.mem == [(0x50000, 2)]),
    after (exec (.amocas 5 1 0 2 0 .i32 .rlx .core) { sx 0x20000 3 with mem := memWrite [] 0x50000 4 9 })
      (fun t => t.h.x[5] == 9 && t.mem == [(0x50000, 9)])].all id = true := by decide +kernel

/-- R120, R122: a level of two passes: its `loop`, its back edge, its end. -/
theorem test_loop : [
    after (exec (.loop 0 1 1 0 0 false) (sx 2 0)) (fun t => t.h.loops[0].act && t.h.loops[0].count == 2 && t.h.loops[0].tail == 0x800C),
    after (exec .nop { s0 with h := { h0 with loops := h0.loops.set 0 { Level.zero with act := true, count := 2, top := 0x7000, tail := 0x8000 } } })
      (fun t => t.h.pc == 0x7000 && t.h.loops[0].count == 1),
    after (exec .nop { s0 with h := { h0 with loops := h0.loops.set 0 { Level.zero with act := true, count := 1, top := 0x7000, tail := 0x8000 } } })
      (fun t => t.h.pc == 0x800C && !t.h.loops[0].act)].all id = true := by decide +kernel

/-- R131: VLCAP is 3072 B of live lanes over the element, times the group; a larger request is cut down. -/
theorem test_setvl : after (exec (.setvl 5 1 .f32 .g1) (sx 5000 0)) (fun t => t.h.x[5] == 768 && t.h.vl == 768) = true := by decide +kernel

/-- R338, R356: `ecall` enters at SVEC with SEPC the next slot; R355: `tret` goes back. -/
theorem test_trap_and_return : [
    after (exec .ecall s0) (fun t => t.h.sepc == 0x800C && t.h.scause == 19 && t.h.mode == .S && t.h.pc == 0x1000),
    after (exec .tret { s0 with h := { h0 with mode := .S, sepc := 0x9000, sstatus := 0x20 } })
      (fun t => t.h.mode == .U && t.h.pc == 0x9000 && !inh t.h)].all id = true := by decide +kernel

/-- The first element of v5 and those after it, of four bytes. -/
def v5 (t : State) (k : Nat) : Nat := vElem t.h 5 4 k

/-- R141: an add of four elements; R136: a blend by w1 = 0.5 of 1.0 into 3.0 is 2.0; merge keeps what is dead. -/
theorem test_vector_add : after (exec (.vadd 5 1 (.reg 2) (kOf .i32)) (sv (1 + 2 * 2 ^ 32) (5 + 0xFFFFFFFF * 2 ^ 32)))
    (fun t => v5 t 0 == 6 && v5 t 1 == 1 && v5 t 4 == 0) = true := by decide +kernel

theorem test_vector_blend :
    after (exec (.vmul 5 1 (.imm 0x3F800000) { kf with w := 1, wp := .blend })
      { sv 0x3F800000 0 with h := { (sv 0x3F800000 0).h with v := (sv 0x3F800000 0).h.v.set 5 0x40400000, w := h0.w.set 1 0x4000 } })
      (fun t => v5 t 0 == 0x40000000 && t.h.flags == 0) = true := by decide +kernel

/-- R147: a sum of four; R149: a scan. -/
theorem test_vector_sum : gives (.vredsum 5 1 { kOf .i32 with et2 := .i64 }) (sv (1 + 2 * 2 ^ 32 + 3 * 2 ^ 64 + 0xFFFFFFFF * 2 ^ 96) 0) 5 = true := by
  decide +kernel

/-- R43: the CB4 block that the spec works out, of sixteen F32 codes. -/
theorem test_cb4_block : (packBlock .cb4 .rne ([0x40400000, 0xBFA00000, 0x3E99999A, 0, 0x3F000000, 0x3E800000, 0, 0, 0, 0, 0, 0, 0, 0,
    0x3F800000, 0x40300000].map (fun c => (valOf .f32 c).1))).1 = 0x590000000000088006AC3880 := by decide +kernel

/-- R258, R262, R263: the walk that the spec works out, before and after a store of one byte. -/
def sWalk (leaf : Word) (m : Mode) : State := { s0 with
  h := { h0 with ctxroot := 0x10000000, walkroot := 0x10000000, mode := m, x := (h0.x.set 6 0x00010100C085ABCD).set 7 0x77 }
  mem := memWrite (memWrite (memWrite (memWrite (memWrite [] 0x10000008 8 0x10001001) 0x10001010 8 0x10002001) 0x10002018 8 0x10003001)
    0x10003020 8 0x10004001) 0x10004028 8 leaf.toNat }
theorem test_translation_store : after (exec (.st 7 6 0 .n8) (sWalk 0x234500007 .U)) (fun t =>
    memRead t.mem 0x10004028 8 == 0x234500037 && memGet t.mem 0x23450ABCD == 0x77) = true := by decide +kernel
theorem test_translation_question : [gives (.xlate 5 6 1) (sWalk 0x234500037 .U) 0x01B000000000ABCD,
    gives (.xlate 5 6 1) (sWalk 0x234500037 .S) 0x01B000023450ABCD].all id = true := by decide +kernel

/-! ### A step from reset -/

/-- From reset, with `li x5, 0x200000` placed where the next step fetches, the step runs it; and so a slot that is none traps. -/
theorem test_step_runs : [after (step (State.reset.withFetchWord 96 0x020050000000000000200000)) (fun t => t.h.x[5] == 0x200000),
    after (step (State.reset.withFetchWord 96 0)) (fun t => t.h.scause == 1 && t.h.sepc == 0)].all id = true := by decide +kernel

/-- `step` agrees with `decodeTableWord` on what the word is. -/
theorem test_table_word : decodeTableWord 96 0x020050000000000000200000 = some (.li 5 0x200000) := by decide +kernel


/-! ### Every statement's hypotheses can be met

One theorem per statement, or per part of one, with a clause for each clause of the statement. -/

def okPlain (s : State) : Bool := (endLevel s.h).isNone && s.h.replay.isNone && !s.h.fmrun
def okUncounted (s : State) : Bool := s.d.coreCtrs.all (fun c => !c.2.en) && s.d.dieCtrs.all (fun c => !c.2.en)
def okMapped (s : State) (va : Word) (n p : Nat) : Bool :=
  canonical va.toNat && decide (va.toNat % 65536 + n ≤ 65536) && !s.d.tracked.contains s.h.ctxid && !inCarveOut s.d.pscfg p n &&
    !poisoned s.d.poison p n && (match tlbHit s (coreOf s.h.gid) s.h.ctxid va.toNat with
      | some t => leafPa t va.toNat == p && pteKind t.leaf.toNat == 0 && pteR t.leaf.toNat && pteW t.leaf.toNat &&
          pteA t.leaf.toNat && pteD t.leaf.toNat
      | none => false)
def okRegion (s : State) (va : Word) (r : Nat) : Bool :=
  canonical va.toNat && (match tlbHit s (coreOf s.h.gid) s.h.ctxid va.toNat with
    | some t => ptePa t.leaf.toNat / 2 ^ 16 == r && pteKind t.leaf.toNat == 1 && pteR t.leaf.toNat && pteW t.leaf.toNat &&
        pteA t.leaf.toNat && pteD t.leaf.toNat
    | none => false)

theorem plain_of {s : State} (h : okPlain s = true) : s.Plain := by
  simp only [okPlain, Bool.and_eq_true, Option.isNone_iff_eq_none, Bool.not_eq_true'] at h
  exact ⟨h.1.1, h.1.2, h.2⟩
theorem uncounted_of {s : State} (h : okUncounted s = true) : s.Uncounted := by
  simp only [okUncounted, Bool.and_eq_true, List.all_eq_true, Bool.not_eq_true'] at h
  exact h
theorem mapped_of {s : State} {va : Word} {n p : Nat} (h : okMapped s va n p = true) : s.Mapped va n p := by
  simp only [okMapped, Bool.and_eq_true, Bool.not_eq_true', decide_eq_true_eq] at h
  obtain ⟨⟨⟨⟨⟨h1, h2⟩, h3⟩, h4⟩, h5⟩, h6⟩ := h
  split at h6
  · rename_i t ht
    simp only [Bool.and_eq_true, beq_iff_eq] at h6
    obtain ⟨⟨⟨⟨⟨a, b⟩, c⟩, d⟩, e⟩, f⟩ := h6
    exact ⟨h1, h2, h3, h4, h5, t, ht, a, b, c, d, e, f⟩
  · cases h6
theorem region_of {s : State} {va : Word} {r : Nat} (h : okRegion s va r = true) : s.MapsRegion va r := by
  simp only [okRegion, Bool.and_eq_true] at h
  obtain ⟨h1, h6⟩ := h
  split at h6
  · rename_i t ht
    simp only [Bool.and_eq_true, beq_iff_eq] at h6
    obtain ⟨⟨⟨⟨⟨a, b⟩, c⟩, d⟩, e⟩, f⟩ := h6
    exact ⟨h1, t, ht, a, b, c, d, e, f⟩
  · cases h6

def okTr (r : Except Flt (Nat × State)) (p : Nat) (s : State) : Bool :=
  match r with
  | .ok (q, t) => q == p && t == s
  | .error _ => false
theorem tr_of {r : Except Flt (Nat × State)} {p : Nat} {s : State} (h : okTr r p s = true) : r = .ok (p, s) := by
  unfold okTr at h
  split at h
  · simp only [Bool.and_eq_true, beq_iff_eq] at h
    rw [h.1, h.2]
  · cases h
def okFlt (r : Except Flt (Nat × State)) (f : Flt) : Bool :=
  match r with
  | .ok _ => false
  | .error g => g.code == f.code && g.va == f.va && g.sub == f.sub

theorem met_plain : s0.Plain ∧ s0.Alone ∧ s0.Uncounted ∧ s0.Inv := ⟨⟨rfl, rfl, rfl⟩, ⟨rfl, rfl⟩, uncounted_of rfl, rfl⟩
theorem met_plain_x (a b : Word) : (sx a b).Plain ∧ (sx a b).Alone ∧ (sx a b).Uncounted ∧ (sx a b).Inv :=
  ⟨⟨rfl, rfl, rfl⟩, ⟨rfl, rfl⟩, uncounted_of rfl, rfl⟩
theorem met_mapped : s0.Mapped 0x20000 65536 0x50000 := mapped_of (by decide +kernel)

/-- `x0` as the destination among them. -/
theorem met_ScalarIntegers : (sx 3 4).Plain ∧ (∃ f, Rules.twoOperand (.add 0 1 (.reg 2)) = some (0, 1, .reg 2, f)) ∧
    (∃ f, Rules.twoOperand (.divu 5 1 (.imm 0)) = some (5, 1, .imm 0, f)) ∧ (∃ v, Rules.otherScalar (.lih 5 7) = some (5, v)) :=
  ⟨(met_plain_x 3 4).1, ⟨_, rfl⟩, ⟨_, rfl⟩, ⟨_, rfl⟩⟩

/-- 1 / 0, with DZ enabled and without. -/
def sDiv (en : BitVec 5) : State :=
  { sx 0x3FF0000000000000 0 with h := { (sx 0x3FF0000000000000 0).h with fenable := en.setWidth 64 } }
theorem met_ScalarFloats : (sDiv 0).Plain ∧ (sDiv 8).h.replay = none ∧ inh (sDiv 8).h = false ∧
    ∃ r, Rules.floatResult (.fdiv 5 1 (.reg 2) .f64 .rne) = some (5, r) ∧
      (r (sDiv 0).h).2.1 &&& (sDiv 0).h.fenable.setWidth 5 = 0 ∧ (r (sDiv 8).h).2.1 &&& (sDiv 8).h.fenable.setWidth 5 ≠ 0 :=
  ⟨⟨rfl, rfl, rfl⟩, rfl, rfl, _, rfl, by decide +kernel⟩

theorem met_Transfers : s0.Alone ∧ (∃ t u, Rules.taken (.bCond .eq 0 0 5) s0 = some (t, u)) ∧ (∃ t u, Rules.taken (.ret 1) s0 = some (t, u)) ∧
    (∃ t u, Rules.taken (.callr 1 1) s0 = some (t, u)) ∧ (sx 2 2).Plain ∧
    Rules.branchHolds .lt (xGet (sx 2 2).h 1) (xGet (sx 2 2).h 2) = false ∧ isSlot 0 = true ∧ isSlot 0xFFFFFFFFFFFFFFF0 = true :=
  ⟨⟨rfl, rfl⟩, ⟨_, _, rfl⟩, ⟨_, _, rfl⟩, ⟨_, _, rfl⟩, ⟨rfl, rfl, rfl⟩, by decide +kernel⟩

theorem met_ControlRegisters : s0.Plain ∧ Rules.noEffect (.fence .acq .device) = true ∧
    (∃ v f, Rules.configResult (.setsp 5 (.imm 7)) = some (5, v, f)) ∧ s0.h.lanes = liveLanes s0.d.retired s0.h.gid s0.h.clusters :=
  ⟨⟨rfl, rfl, rfl⟩, rfl, ⟨_, _, rfl⟩, by decide +kernel⟩

/-- A hart in a loop: level 0 active, from 0x7000 to its END slot. -/
def sLoop (count : Nat) (tail : Word) : State := { sx 2 0 with h := { (sx 2 0).h with
  loops := h0.loops.set 0 { Level.zero with act := true, count := BitVec.ofNat 64 count, top := 0x7000, tail := tail }
  w := h0.w.set 1 0x4000 } }
theorem met_LoopEntered : (sx 2 0).Alone ∧ (0 : BitVec 2).toNat = activeLevels (sx 2 0).h ∧ xGet (sx 2 0).h 1 ≠ 0 ∧
    (sLoop 3 0x9000).Alone ∧ (1 : BitVec 2).toNat = activeLevels (sLoop 3 0x9000).h ∧
    slotIndex (lvlGet (sLoop 3 0x9000).h 0).top ≤ slotIndex (sLoop 3 0x9000).h.pc ∧
    slotIndex (slotPlus (sLoop 3 0x9000).h.pc 6) ≤ slotIndex (lvlGet (sLoop 3 0x9000).h 0).tail ∧ xGet (sLoop 3 0x9000).h 1 ≠ 0 ∧
    Rules.someAbove (sLoop 3 0x9000).h (Rules.prodAt (wGet (sLoop 3 0x9000).h 0) (wGet (sLoop 3 0x9000).h (wPhys (sLoop 3 0x9000).h 1))) :=
  ⟨⟨rfl, rfl⟩, by decide +kernel, by decide +kernel, ⟨rfl, rfl⟩, by decide +kernel, by decide +kernel, by decide +kernel,
    by decide +kernel, 0, by unfold Rules.aboveAt; decide +kernel⟩
/-- No pass is asked for; and w1 leaves nothing above THETA. -/
theorem met_LoopSkipped : (sx 0 0).Alone ∧ (0 : BitVec 2).toNat = activeLevels (sx 0 0).h ∧ (sx 0 0).h.vl ≤ (sx 0 0).h.vlcap ∧
    xGet (sx 0 0).h 1 = 0 ∧ (sx 2 0).h.vl ≤ (sx 2 0).h.vlcap ∧
    ¬ Rules.someAbove (sx 2 0).h (Rules.prodAt (wGet (sx 2 0).h 0) (wGet (sx 2 0).h (wPhys (sx 2 0).h 1))) := by
  refine ⟨⟨rfl, rfl⟩, by decide +kernel, by decide +kernel, by decide +kernel, by decide +kernel, ?_⟩
  rintro ⟨i, hi, -, -, h⟩
  have all : ∀ i, i < (sx 2 0).h.vl → ¬ (sx 2 0).h.theta.toNat <
    Rules.prodAt (wGet (sx 2 0).h 0) (wGet (sx 2 0).h (wPhys (sx 2 0).h 1)) i := by decide +kernel
  exact all i hi h
theorem met_LoopNestingFault : s0.h.replay = none ∧ inh s0.h = false ∧ (3 : BitVec 2).toNat ≠ activeLevels s0.h ∧
    (lvlGet s0.h (0 : BitVec 2).toNat).act = false ∧
    (let s := sLoop 3 0x9000
     s.h.replay = none ∧ inh s.h = false ∧ (1 : BitVec 2).toNat = activeLevels s.h ∧
       ¬ (slotIndex (lvlGet s.h ((1 : BitVec 2).toNat - 1)).top ≤ slotIndex s.h.pc ∧
         slotIndex (slotPlus s.h.pc (0x10000 : BitVec 24).toNat) ≤ slotIndex (lvlGet s.h ((1 : BitVec 2).toNat - 1)).tail)) := by
  decide +kernel

/-- At the END slot of a rotating level with a continuation weight: passes left and an element above THETA, none, none of several
stages, in the epilogue, and its last pass. -/
def sStage (count : Nat) (theta : Word) (stages : BitVec 4) (epi : BitVec 3) : State := { s0 with h := { h0 with
  theta := theta.setWidth 16
  w := h0.w.set 1 0x4000
  loops := h0.loops.set 0 { Level.zero with
    act := true, rot := true, count := BitVec.ofNat 64 count, top := 0x7000, tail := 0x8000, cw := 1, stages := stages, epi := epi
    saved := 0x8000 } } }
def goesOn (s : State) : Prop :=
  let l := lvlGet s.h 0
  1 < l.count.toNat ∧ (l.cw = 0 ∨ Rules.someAbove s.h (Rules.prodAt l.saved (wGet s.h (wPhys s.h l.cw.toNat))))
theorem met_LoopStages : (∀ n th st ep, (sStage n th st ep).Alone ∧ (sStage n th st ep).Uncounted) ∧
    (let s := sStage 2 0 1 0
     s.h.vl ≤ s.h.vlcap ∧ endLevel s.h = some 0 ∧ (lvlGet s.h 0).epi = 0 ∧ (lvlGet s.h 0).cw ≠ 0) ∧ goesOn (sStage 2 0 1 0) ∧
    (let s := sStage 1 0 1 0
     endLevel s.h = some 0 ∧ (lvlGet s.h 0).epi = 0 ∧ (lvlGet s.h 0).stages.toNat ≤ 1) ∧ ¬ goesOn (sStage 1 0 1 0) ∧
    (let s := sStage 1 0 3 0
     endLevel s.h = some 0 ∧ (lvlGet s.h 0).epi = 0 ∧ 1 < (lvlGet s.h 0).stages.toNat) ∧ ¬ goesOn (sStage 1 0 3 0) ∧
    (endLevel (sStage 0 0 3 2).h = some 0 ∧ 1 < (lvlGet (sStage 0 0 3 2).h 0).epi.toNat) ∧
    endLevel (sStage 0 0 3 1).h = some 0 ∧ (lvlGet (sStage 0 0 3 1).h 0).epi = 1 :=
  ⟨fun _ _ _ _ => ⟨⟨rfl, rfl⟩, uncounted_of rfl⟩, by decide +kernel,
    ⟨by decide +kernel, .inr ⟨0, by unfold Rules.aboveAt; decide +kernel⟩⟩, by decide +kernel, fun h => absurd h.1 (by decide +kernel),
    by decide +kernel, fun h => absurd h.1 (by decide +kernel), by decide +kernel, by decide +kernel, by decide +kernel⟩

/-- `lbreak 0`; the END slot with passes left, and without. -/
theorem met_LoopsEnd : (sLoop 3 0x9000).Alone ∧ (lvlGet (sLoop 3 0x9000).h (0 : BitVec 2).toNat).act = true ∧
    (sLoop 3 0x9000).h.armsp = (lvlGet (sLoop 3 0x9000).h (0 : BitVec 2).toNat).asp.toNat ∧
    (sLoop 2 0x8000).Alone ∧ (sLoop 2 0x8000).Uncounted ∧ endLevel (sLoop 2 0x8000).h = some 0 ∧ (lvlGet (sLoop 2 0x8000).h 0).epi = 0 ∧
    (lvlGet (sLoop 2 0x8000).h 0).cw = 0 ∧ 1 < (lvlGet (sLoop 2 0x8000).h 0).count.toNat ∧
    (sLoop 1 0x8000).Alone ∧ (sLoop 1 0x8000).Uncounted ∧ endLevel (sLoop 1 0x8000).h = some 0 ∧ (lvlGet (sLoop 1 0x8000).h 0).epi = 0 ∧
    (lvlGet (sLoop 1 0x8000).h 0).count.toNat ≤ 1 ∧ (lvlGet (sLoop 1 0x8000).h 0).stages.toNat ≤ 1 :=
  ⟨⟨rfl, rfl⟩, by decide +kernel, by decide +kernel, ⟨rfl, rfl⟩, uncounted_of rfl, by decide +kernel, by decide +kernel,
    by decide +kernel, by decide +kernel, ⟨rfl, rfl⟩, uncounted_of rfl, by decide +kernel⟩

/-- Loop state that fits in the header; and an area of a hart of VLCAP 3072, all levels inactive. -/
def sArea : State := { sx 0x20000 0 with mem := memWrite (memWrite (memWrite (memWrite (memWrite [] 0x50019 1 1) 0x50039 1 1) 0x50059 1 1) 0x50079 1 1) 0x50084 4 3072 }
theorem met_LoopArea : (sLoop 3 0x9000).Alone ∧ (sLoop 3 0x9000).Inv ∧ (sLoop 3 0x9000).h.cmds = [] ∧ (sLoop 3 0x9000).h.armsp = 0 ∧
    (∀ j, (lvlGet (sLoop 3 0x9000).h j).act = false ∨ (lvlGet (sLoop 3 0x9000).h j).cw = 0) ∧ (sLoop 3 0x9000).Mapped 0x20000 256 0x50000 ∧
    sArea.Alone ∧ sArea.h.cmds = [] ∧ (xGet sArea.h 1 + (0 : BitVec 32).signExtend 64).toNat % 64 = 0 ∧ sArea.h.armsp = 0 ∧
    activeLevels sArea.h = 0 ∧ sArea.Mapped (xGet sArea.h 1 + (0 : BitVec 32).signExtend 64) 256 0x50000 ∧
    loopHeaderBad (memRead sArea.mem 0x50000 256) = false ∧ headerVectors (memRead sArea.mem 0x50000 256) = [] := by
  refine ⟨⟨rfl, rfl⟩, rfl, rfl, rfl, ?_, mapped_of (by decide +kernel), ⟨rfl, rfl⟩, rfl, by decide +kernel, rfl, by decide +kernel,
    mapped_of (by decide +kernel), by decide +kernel, by decide +kernel⟩
  intro j
  unfold lvlGet
  rcases Nat.lt_or_ge j 4 with h | h
  · exact (by decide +kernel : ∀ j, j < 4 → ((sLoop 3 0x9000).h.loops.toList.getD j Level.zero).act = false ∨
      ((sLoop 3 0x9000).h.loops.toList.getD j Level.zero).cw = 0) j h
  · exact .inl (by rw [List.getD_eq_getElem?_getD, List.getElem?_eq_none (by simpa using h)]; rfl)

/-- A hart of VLCAP 768 in a level with a continuation weight and in an arm; and an area with two vectors, to fill. -/
def hVec : Hart := { (sx 0x20000 0).h with
  vlcap := 768, armsp := 1, arms := h0.arms.set 0 ⟨0x8000, 0x4000⟩
  loops := h0.loops.set 0 { Level.zero with act := true, count := 2, top := 0x7000, tail := 0x9000, cw := 1, saved := 0x8000 } }
def sSpill : State := { sx 0x20000 0 with h := hVec }
def sFill : State := { sx 0x20000 0 with
  h := { (sx 0x20000 0).h with vlcap := 768 }
  mem := memWrite (memWrite [] 0x50000 256 (loopHeader hVec)) (0x50000 + 256) 2 0x4000 }
theorem met_LoopVectors : sSpill.Alone ∧ sSpill.Inv ∧ sSpill.Mapped 0x20000 (256 + 40 * 768) 0x50000 ∧ sFill.Alone ∧ sFill.Inv ∧
    sFill.Mapped 0x20000 (256 + 40 * 768) 0x50000 ∧
    (sSpill.h.cmds = [] ∧ (0x20000 : Word).toNat % 64 = 0 ∧ sSpill.h.vlcap ≤ 24576 ∧ sSpill.h.armsp ≤ 8 ∧
      (lvlGet sSpill.h 0).act = true ∧ (lvlGet sSpill.h 0).cw ≠ 0 ∧ 0 < sSpill.h.armsp ∧
      xGet sSpill.h 1 + (0 : BitVec 32).signExtend 64 = 0x20000) ∧
    (sFill.h.cmds = [] ∧ sFill.h.armsp = 0 ∧ activeLevels sFill.h = 0 ∧ loopHeaderBad (memRead sFill.mem 0x50000 256) = false ∧
      memRead sFill.mem (0x50000 + 132) 4 = 768) :=
  ⟨⟨rfl, rfl⟩, rfl, mapped_of (by decide +kernel), ⟨rfl, rfl⟩, by unfold State.Inv; decide +kernel, mapped_of (by decide +kernel), by decide +kernel,
    by decide +kernel⟩

/-- A side to run; none above THETA; an entry to turn and to merge. -/
def sDead : State := { s0 with h := { h0 with theta := 0x8000 } }
def sArm : State := { s0 with h := { h0 with armsp := 1 } }
theorem met_Arms : s0.Plain ∧ s0.Uncounted ∧ s0.h.armsp < 8 ∧ s0.h.vl ≤ s0.h.vlcap ∧ Rules.someAbove s0.h (wCode (wGet s0.h 0)) ∧
    sDead.Alone ∧ sDead.Uncounted ∧ sDead.h.armsp < 8 ∧ sDead.h.vl ≤ sDead.h.vlcap ∧ ¬ Rules.someAbove sDead.h (wCode (wGet sDead.h 0)) ∧
    sArm.Plain ∧ sArm.Uncounted ∧ armBase sArm.h < sArm.h.armsp ∧ sArm.h.vl ≤ sArm.h.vlcap := by
  refine ⟨⟨rfl, rfl, rfl⟩, uncounted_of rfl, by decide +kernel, by decide +kernel, ⟨0, by unfold Rules.aboveAt; decide +kernel⟩,
    ⟨rfl, rfl⟩, uncounted_of rfl, by decide +kernel, by decide +kernel, ?_, ⟨rfl, rfl, rfl⟩, uncounted_of rfl, by decide +kernel⟩
  rintro ⟨i, hi, -, -, h⟩
  exact (by decide +kernel : ∀ i, i < sDead.h.vl → ¬ sDead.h.theta.toNat < wCode (wGet sDead.h 0) i) i hi h

/-- The last word of the page. -/
def sEdge : State := sx 0x2FFF0 0
theorem met_ScalarMemory : Memory.wf [(0xFFFFFFFFFFFFFFFF, 1)] = true ∧ sEdge.Plain ∧ sEdge.Inv ∧ sEdge.h.cmds = [] ∧ Rules.scalarType .i64 = some (8, true) ∧
    (xGet sEdge.h 1 + (8 : BitVec 32).signExtend 64).toNat % 8 = 0 ∧ sEdge.Mapped (xGet sEdge.h 1 + (8 : BitVec 32).signExtend 64) 8 0x5FFF8 ∧
    translate sEdge sEdge.h .load (xGet sEdge.h 1 + (8 : BitVec 32).signExtend 64) 8 = .ok (0x5FFF8, sEdge) ∧
    translate sEdge sEdge.h .store (xGet sEdge.h 1 + (8 : BitVec 32).signExtend 64) 8 = .ok (0x5FFF8, sEdge) :=
  ⟨by decide, ⟨rfl, rfl, rfl⟩, rfl, rfl, rfl, by decide +kernel, mapped_of (by decide +kernel), tr_of (by decide +kernel), tr_of (by decide +kernel)⟩

/-- A misaligned address, for each of the three; and a page that no table maps. -/
theorem met_MemoryTraps : s0.h.replay = none ∧ inh s0.h = false ∧ s0.h.cmds = [] ∧ s0.Unwatched ∧
    Rules.scalarType .n16 = some (2, false) ∧ Rules.atomicType .f32 = some (4, false) ∧
    (∃ f, Rules.amoResult (.amoAdd 5 1 2 1 .f32 .rlx .core) = some (5, 1, 2, 1, .f32, f)) ∧
    (xGet s0.h 1 + (1 : BitVec 32).signExtend 64).toNat % 2 ≠ 0 ∧ (xGet s0.h 1 + (1 : BitVec 32).signExtend 64).toNat % 4 ≠ 0 ∧
    (∃ f, translate s0 s0.h .load (xGet s0.h 1 + (0x30000 : BitVec 32).signExtend 64) 2 = .error f ∧ f.code = 8) ∧
    ∃ f, translate s0 s0.h .store (xGet s0.h 1 + (0x30000 : BitVec 32).signExtend 64) 2 = .error f ∧ f.code = 9 :=
  ⟨rfl, rfl, rfl, rfl, rfl, rfl, ⟨_, rfl⟩, by decide +kernel, by decide +kernel, ⟨_, rfl, by decide +kernel⟩, _, rfl, by decide +kernel⟩

def sAtom (w : Nat) : State := { sx 0x20000 3 with mem := memWrite [] 0x50000 8 w }
theorem met_ScalarAtomics : (sAtom 9).Plain ∧ (sAtom 9).h.cmds = [] ∧
    (∃ f, Rules.amoResult (.amoAdd 5 1 2 0 .i64 .rlx .core) = some (5, 1, 2, 0, .i64, f) ∧
      (f 8 true 9 3).2 &&& (sAtom 9).h.fenable.setWidth 5 = 0) ∧ Rules.atomicType .i64 = some (8, true) ∧
    (xGet (sAtom 9).h 1 + (0 : BitVec 32).signExtend 64).toNat % 8 = 0 ∧
    translate (sAtom 9) (sAtom 9).h .store (xGet (sAtom 9).h 1 + (0 : BitVec 32).signExtend 64) 8 = .ok (0x50000, sAtom 9) ∧
    translate (sAtom 9) (sAtom 9).h .load (xGet (sAtom 9).h 1 + (0 : BitVec 32).signExtend 64) 8 = .ok (0x50000, sAtom 9) ∧
    memRead (sAtom 3).mem 0x50000 8 = (xGet (sAtom 3).h 2).toNat % 2 ^ (8 * 8) ∧
    memRead (sAtom 9).mem 0x50000 8 ≠ (xGet (sAtom 9).h 2).toNat % 2 ^ (8 * 8) :=
  ⟨⟨rfl, rfl, rfl⟩, rfl, ⟨_, rfl, by decide +kernel⟩, rfl, by decide +kernel, tr_of (by decide +kernel), tr_of (by decide +kernel),
    by decide +kernel, by decide +kernel⟩

/-- The greatest F32 number plus itself, with OF enabled. -/
def sOver : State := { sx 0x20000 0x7F7FFFFF with h := { (sx 0x20000 0x7F7FFFFF).h with fenable := 4 }, mem := memWrite [] 0x50000 4 0x7F7FFFFF }
theorem met_ScalarAtomicTrap : sOver.h.replay = none ∧ inh sOver.h = false ∧ sOver.Unwatched ∧ sOver.h.cmds = [] ∧
    (∃ f, Rules.amoResult (.amoAdd 5 1 2 0 .f32 .rlx .core) = some (5, 1, 2, 0, .f32, f) ∧
      (f 4 false (memRead sOver.mem 0x50000 4) ((xGet sOver.h 2).toNat % 2 ^ (8 * 4))).2 &&& sOver.h.fenable.setWidth 5 ≠ 0) ∧
    Rules.atomicType .f32 = some (4, false) ∧ (xGet sOver.h 1 + (0 : BitVec 32).signExtend 64).toNat % 4 = 0 ∧
    translate sOver sOver.h .store (xGet sOver.h 1 + (0 : BitVec 32).signExtend 64) 4 = .ok (0x50000, sOver) ∧
    translate sOver sOver.h .load (xGet sOver.h 1 + (0 : BitVec 32).signExtend 64) 4 = .ok (0x50000, sOver) :=
  ⟨rfl, rfl, rfl, rfl, ⟨_, rfl, by decide +kernel⟩, rfl, by decide +kernel, tr_of (by decide +kernel), tr_of (by decide +kernel)⟩

/-- The last arrival of one, the first of two, one that has waited; then a broken barrier, a reserved bit, a COUNT of 0, and a `bar`
that waits on. -/
def sBar (w : Nat) (b : List BarWait) : State := { sAtom w with h := { (sAtom w).h with barWait := b } }
theorem met_Barriers : (sBar 1 []).Plain ∧ (sBar 1 []).h.cmds = [] ∧ (sBar 1 []).h.barWait = [] ∧
    (xGet (sBar 1 []).h 1 + (0 : BitVec 32).signExtend 64).toNat % 8 = 0 ∧
    (sBar 1 []).Mapped (xGet (sBar 1 []).h 1 + (0 : BitVec 32).signExtend 64) 8 0x50000 ∧
    (let w := memRead (sBar 1 []).mem 0x50000 8; w / 2 ^ 49 = 0 ∧ w / 2 ^ 16 % 2 ^ 16 + 1 = Rules.awaited (sBar 1 []) .core w ∧
      w / 2 ^ 16 % 2 ^ 16 + 1 = Rules.awaited (sBar 1 []) .farm w) ∧
    (let w := memRead (sBar 2 []).mem 0x50000 8
     w / 2 ^ 49 = 0 ∧ w / 2 ^ 16 % 2 ^ 16 + 1 < Rules.awaited (sBar 2 []) .core w ∧ w / 2 ^ 16 % 2 ^ 16 + 1 < 2 ^ 16) ∧
    (sBar 0x100000002 [⟨0x20000, 0, false⟩]).h.barWait.find?
      (fun b => b.ea = xGet (sBar 1 []).h 1 + (0 : BitVec 32).signExtend 64) = some ⟨0x20000, 0, false⟩ ∧
    (let w := memRead (sBar 0x100000002 []).mem 0x50000 8; w / 2 ^ 49 = 0 ∧ w / 2 ^ 32 % 2 ^ 16 ≠ (0 : BitVec 16).toNat) ∧
    (sBar 1 []).Uncounted ∧
    (let broken (w : Nat) (b : List BarWait) : Nat := memRead (sBar w b).mem 0x50000 8 / 2 ^ 49 % 2
     let w (n : Nat) : Nat := memRead (sBar n []).mem 0x50000 8
     broken (2 ^ 49 + 1) [] = 1 ∧ broken (2 ^ 50) [] ≠ 1 ∧ w (2 ^ 50) / 2 ^ 50 ≠ 0 ∧ broken 0 [] ≠ 1 ∧ Scope.core ≠ .farm ∧ w 0 % 2 ^ 16 = 0 ∧
       w 0x10001 % 2 ^ 16 ≤ w 0x10001 / 2 ^ 16 % 2 ^ 16 ∧
       memRead (sBar 2 [⟨0x20000, 0, false⟩]).mem 0x50000 8 / 2 ^ 32 % 2 ^ 16 = (0 : BitVec 16).toNat ∧
       broken 2 [⟨0x20000, 0, false⟩] ≠ 1 ∧ broken (2 ^ 49 + 2) [⟨0x20000, 0, false⟩] = 1) :=
  ⟨⟨rfl, rfl, rfl⟩, rfl, rfl, by decide +kernel, mapped_of (by decide +kernel), by decide +kernel, by decide +kernel,
    by decide +kernel, by decide +kernel, uncounted_of rfl, by decide +kernel⟩

/-! Harts, farms, levels, pips, engines, the supervisor. -/

def r9 : Rec :=
  { id := 9, words := (Vector.replicate 8 0).set 7 (BitVec.ofNat 64 (3 * 2 ^ 15)), queue := 5, ctx := 7, ringIdx := 0, home := 0, at_ := .running
    prio := 0, started := 0, counted := 0, budget := 0, set := 0, total := 6, next := 2, done := 1, places := [33, 34], ended := 1, exitor := 2
    killed := false, refused := none, stopping := none, saved := [] }
/-- The hart in front as a member of a record. -/
def sRec (r : Rec) (a b : Word) : State := { sx a b with d := { s0.d with recs := [r] } }
def q5 : Queue := { Queue.zero with base := 0x60000, context := 7, en := true, devfed := true, log2n := 2, tail := 7, prog := 4 }
def sQueue (q : Queue) : State := { sx 0x20040 5 with d := { s0.d with queues := [(5, q)] } }

theorem met_HartsAndLaunch : (sRec r9 5 0).Plain ∧ recOf (sRec r9 5 0) (sRec r9 5 0).h = some r9 ∧ r9.queue < 64 ∧ h0.clusters < 16 ∧
    h0.lanes < 64 ∧ h0.gid < 768 ∧ h0.slabs.length < 32 ∧ h0.tiles.length < 16 ∧
    (sQueue q5).Plain ∧ (sQueue q5).h.cmds = [] ∧ (xGet (sQueue q5).h 1).toNat % 64 = 0 ∧ (sQueue q5).Mapped (xGet (sQueue q5).h 1) 64 0x50040 ∧
    63 < (xopVal (sQueue q5).h (.imm 64)).toNat ∧
    ((xopVal (sQueue q5).h (.imm 63)).toNat ≤ 63 ∧ (queueGet (sQueue q5) 63).en = false) ∧
    (let u := queueGet (sQueue { q5 with tail := 8 }) 5
     u.en = true ∧ u.devfed = true ∧ u.err = false ∧ u.context = h0.ctxid ∧ (u.tail - u.prog).toNat = 2 ^ u.log2n.toNat) ∧
    (let u := queueGet (sQueue q5) 5
     u.en = true ∧ u.devfed = true ∧ u.err = false ∧ u.context = h0.ctxid ∧ (u.tail - u.prog).toNat ≠ 2 ^ u.log2n.toNat ∧
       u.base.getLsbD 0 = false ∧ normalPa (u.base.toNat / 64 * 64 + 64 * (u.tail.toNat % 2 ^ u.log2n.toNat)) = true ∧
       inCarveOut s0.d.pscfg (u.base.toNat / 64 * 64 + 64 * (u.tail.toNat % 2 ^ u.log2n.toNat)) 64 = false) :=
  ⟨⟨rfl, rfl, rfl⟩, by decide +kernel, by decide +kernel, by decide +kernel, by decide +kernel, by decide +kernel, by decide +kernel,
    by decide +kernel, ⟨rfl, rfl, rfl⟩, rfl, by decide +kernel, mapped_of (by decide +kernel), by decide +kernel⟩

/-- A set that is done and joined, one that is not, one that has moved on; a strip to grab, none; one to retire, and the three that are
refused. -/
theorem met_Farms : (sRec r9 5 0).Plain ∧ recOf (sRec r9 5 0) (sRec r9 5 0).h = some r9 ∧
    (let r := { r9 with done := 6 }; let s := sRec r 5 0
     recOf s s.h = some r ∧ s.h.fgen = r.set ∧ hartExists s.h = true ∧ s.h.record ≠ 0 ∧ r.done = r.total ∧
       ∀ h ∈ s.h :: s.others, hartExists h = true → h.record = r.id → h.fgen = r.set) ∧
    (h0.fgen = r9.set ∧ hartExists h0 = true ∧ h0.record ≠ 0 ∧ r9.done ≠ r9.total) ∧
    (h0.fgen ≠ ({ r9 with set := 1 } : Rec).set ∧ recOf (sRec { r9 with set := 1 } 5 0) h0 = some { r9 with set := 1 }) ∧
    r9.next.toNat < r9.total.toNat ∧ ¬ ({ r9 with next := 6 } : Rec).next.toNat < r9.total.toNat ∧
    (xGet (sRec r9 5 0).h 1).toNat < r9.total.toNat ∧ r9.total.toNat ≤ (xGet (sRec r9 6 0).h 1).toNat ∧
    (sRec r9 5 0).h.replay = none ∧ inh (sRec r9 5 0).h = false :=
  ⟨⟨rfl, rfl, rfl⟩, by decide +kernel⟩

/-- A command of the table, entry `e`. -/
def cpyIn (e : Nat) (st : CmdSt) : Cmd :=
  { entry := e, instr := .cpy 5 1 2 3 .G .G .core, pc := 0x7000, ops := [0x20100, 0, 0x20200, 0, 4, 0], cfg := MatCfg.zero, rm := .rne, unit := 0
    st := st, status := 0, flags := 0, efr := 0, efrUsed := false, bankS := false, faultVa := 0, ranges := [], home := ⟨0, [], []⟩, conv := []
    walk := [], count := 0, acc := 0, stamp := 0, ord := 1 }
def sCmds (cs : List Cmd) : State := { sx 0x20000 0 with h := { (sx 0x20000 0).h with cmds := cs } }
theorem met_HartsEnd : s0.h.cmds = [] ∧ s0.d.cc.busy = false ∧ (sCmds [cpyIn 0 .running]).h.cmds ≠ [] := by decide +kernel

def isErr {α β : Type} (r : Except α β) (p : α → Bool) : Bool :=
  match r with
  | .error e => p e
  | .ok _ => false
def isOk {α β : Type} (r : Except α β) (p : β → Bool) : Bool :=
  match r with
  | .error _ => false
  | .ok e => p e
/-- An address that is not canonical, one without a leaf, a malformed entry, a leaf without R, a readable one in each mode; lines of a
mapped range. -/
def sWalkU (leaf : Word) : State := sWalk leaf .U
theorem met_MemoryLevels : (sWalkU 0x234500007).Plain ∧ canonical (0x0100000000000000 : Word).toNat = false ∧
    canonical (xGet (sWalkU 0x234500007).h 6).toNat = true ∧
    isErr (walk (sWalkU 0) (sWalkU 0).h.ctxroot (xGet (sWalkU 0).h 6).toNat) (fun e => match e with | .notValid => true | _ => false) = true ∧
    isErr (walk (sWalkU 5) (sWalkU 5).h.ctxroot (xGet (sWalkU 5).h 6).toNat) (fun e => match e with | .malformed => true | _ => false) = true ∧
    isOk (walk (sWalkU 0x234500009) (sWalkU 9).h.ctxroot (xGet (sWalkU 9).h 6).toNat)
      (fun l => decide (l.lvl ≤ 2) && decide (l.word < 2 ^ 64) && !pteR l.word) = true ∧
    isOk (walk (sWalkU 0x234500007) (sWalkU 7).h.ctxroot (xGet (sWalkU 7).h 6).toNat)
      (fun l => decide (l.lvl ≤ 2) && decide (l.word < 2 ^ 64) && pteR l.word && pteKind l.word == 0) = true ∧
    (0 : BitVec 2) ≠ 3 ∧ (sx 0x20000 64).Plain ∧ (lengthOf (sx 0x20000 64).h (.reg 2)).toNat ≤ 2 ^ 24 ∧
    isOk (lineRanges (sx 0x20000 64) (sx 0x20000 64).h (xGet (sx 0x20000 64).h 1) (lengthOf (sx 0x20000 64).h (.reg 2)).toNat) (fun _ => true) = true :=
  ⟨⟨rfl, rfl, rfl⟩, by decide +kernel, by decide +kernel, by decide +kernel, by decide +kernel, by decide +kernel, by decide +kernel,
    by decide, ⟨rfl, rfl, rfl⟩, by decide +kernel⟩

/-- Slabs of a hart: none, two, all sixteen; and the core's taken by another hart. -/
def sSlabs (l m : List Nat) : State :=
  { sx 1 16 with h := { (sx 1 16).h with slabs := l }, others := [{ h0 with gid := 34, slabs := m }] }
theorem met_MemoryLevels_slabs : (sSlabs [3, 4] []).Plain ∧ (sSlabs [3, 4] []).Inv ∧ (sSlabs [3, 4] []).h.cmds = [] ∧ reservedSlabs (sSlabs [3, 4] []) 4 = [] ∧
    (sSlabs [3, 4] []).h.slabs[(xGet (sSlabs [3, 4] []).h 1).toNat]? = some 4 ∧
    (sSlabs [3, 4] []).h.slabs.length ≤ (xGet (sSlabs [3, 4] []).h 2).toNat ∧ (sSlabs (List.range 16) []).h.slabs.length = 16 ∧
    ungranted (sSlabs [3] ((List.range 16).filter (· ≠ 3))) 4 = [] ∧ ungranted (sSlabs [3, 4] [0]) 4 = 1 :: ([2] ++ (List.range 11).map (· + 5)) ∧
    (sSlabs [] []).h.slabs = [] ∧ (sSlabs [3, 4] []).h.slabs ≠ [] :=
  ⟨⟨rfl, rfl, rfl⟩, rfl, by decide +kernel⟩

/-- Region 5 at page 0x30000: a leaf of three references, a leaf of one, an inner line of one, one whose count has stopped. -/
def tPip : Tlb := { core := 4, ctx := 7, size := 0, page := 3, leaf := BitVec.ofNat 64 (5 * 65536 + 0x3F + 2 ^ 58), leafAt := 0, dirty := [] }
def pipKey : BitVec 256 := 0x1234567
def leafData : BitVec 1024 := 0xABCDEF0123
def g5 : Region := { Region.zero with
  key := pipKey, context := 7, en := true
  lines := [⟨pipOf (pipName pipKey false leafData) 1, false, leafData, 3⟩, ⟨0x500, false, 9, 1⟩, ⟨0x700, true, 0x500, 1⟩,
    ⟨0x900, false, 0, 0xFFFFFFFF⟩] }
def sPip (pip : Nat) (g : Region) : State := { sx 0x30000 0x20000 with
  h := { (sx 0x30000 0x20000).h with x := (((h0.x.set 1 0x30000).set 2 0x20000).set 4 (BitVec.ofNat 64 pip)).set 10 0x500
                                     v := ((h0.v.set 4 (leafData.setWidth 196608)).set 5 0x500) }
  d := { s0.d with tlb := [t0, tPip], regions := [(5, g)] } }
/-- The same state, where the first word of line 0x500 is uncorrectable, wherever in its store that line stands. -/
theorem poisoned_first (a : Nat) : poisoned [(a, 32)] a 128 = true := by simp [poisoned]
def sBadLine (s : State) : State := { s with d := { s.d with poison := [(pipLineAt s 5 g5 0x500, 32)] } }
theorem lineBad_sBadLine (s : State) : lineBad (sBadLine s) 5 g5 0x500 = true := poisoned_first _
theorem met_PipLines_bad : (sBadLine (sPip 0x500 g5)).Plain ∧ (sBadLine (sPip 0x500 g5)).MapsRegion (xGet (sBadLine (sPip 0x500 g5)).h 1) 5 ∧
    pipGet (sBadLine (sPip 0x500 g5)).h 4 = 0x500 ∧ g5.find 0x500 = some ⟨0x500, false, 9, 1⟩ ∧
    lineBad (sBadLine (sPip 0x500 g5)) 5 (regionGet (sBadLine (sPip 0x500 g5)) 5) 0x500 = true ∧ inh (sBadLine (sPip 0x500 g5)).h = false :=
  ⟨⟨rfl, rfl, rfl⟩, region_of (by decide +kernel), by decide +kernel, by decide +kernel, lineBad_sBadLine _, by decide +kernel⟩
theorem met_PipLines : (sPip 0x500 g5).Plain ∧ (sPip 0x500 g5).Uncounted ∧ (sPip 0x500 g5).MapsRegion (xGet (sPip 0x500 g5).h 1) 5 ∧
    (let s := sPip 0x500 g5; let g := regionGet s 5
     g.en = true ∧ g.context = s.h.ctxid ∧ g.pending = [] ∧ (∀ l ∈ g.lines, lineBad s 5 g l.pip = false) ∧
     bindingOf s.h (vPhys s.h 4) = none ∧ isDead s.h (vPhys s.h 4) = false ∧ bindingOf s.h (vPhys s.h 5) = none ∧ isDead s.h (vPhys s.h 5) = false ∧
     (∃ l ∈ g.lines, l.pip = pipOf (pipName g.key false ((vImg s.h (vPhys s.h 4)).setWidth 1024)) 1 ∧ l.inner = false ∧
        l.data = (vImg s.h (vPhys s.h 4)).setWidth 1024) ∧
     (¬ ∃ l ∈ g.lines, l.pip = pipOf (pipName g.key false ((vImg s.h (vPhys s.h 4)).setWidth 1024)) 0 ∧ l.inner = false ∧
        l.data = (vImg s.h (vPhys s.h 4)).setWidth 1024) ∧
     (∀ l ∈ g.lines, ∀ j < 256, l.pip ≠ pipOf (pipName g.key false ((vImg s.h (vPhys s.h 5)).setWidth 1024)) j) ∧
     g.quota = 0 ∧
     (∀ i < 8, ((vImg s.h (vPhys s.h 5)).setWidth 1024).extractLsb' (128 * i) 128 = (0 : BitVec 128) ∨
       ∃ l ∈ g.lines, l.pip = ((vImg s.h (vPhys s.h 5)).setWidth 1024).extractLsb' (128 * i) 128) ∧
     (∀ l ∈ g.lines, ∀ j < 256, l.pip ≠ pipOf (pipName g.key true ((vImg s.h (vPhys s.h 5)).setWidth 1024)) j) ∧
     vPhys s.h 4 ≠ 0 ∧ pipGet s.h 4 = 0x500 ∧ (∃ l ∈ g.lines, l.pip = (0x500 : BitVec 128)) ∧ pipGet (sPip 0 g5).h 4 = 0) ∧
    storeFull { sPip 0x500 g5 with d := { (sPip 0x500 g5).d with pscfg := Dev.reset.pscfg.set 0 0x40000064 } } 0 = false :=
  ⟨⟨rfl, rfl, rfl⟩, uncounted_of rfl, region_of (by decide +kernel), by decide +kernel, by decide +kernel⟩

/-- A pip that no line has, one of three references, one of one, one that has stopped counting; decrements that wait; a root word that
is the one expected, and one that is not. -/
theorem met_PipCounts : (sPip 0x500 g5).Plain ∧ (sPip 0x500 g5).Uncounted ∧ (sPip 0x500 g5).MapsRegion (xGet (sPip 0x500 g5).h 1) 5 ∧
    (sPip 0x500 g5).Mapped (xGet (sPip 0x500 g5).h 2) 16 0x50000 ∧
    (let s := sPip 0x500 g5; let g := regionGet s 5
     g.en = true ∧ g.context = s.h.ctxid ∧ g.pending = [] ∧ s.h.cmds = [] ∧
     g.find (pipGet (sPip 0x600 g5).h 4) = none ∧ (g.find (pipOf (pipName g.key false leafData) 1)).any (fun l => l.count == 3) = true ∧
     (g.find (pipGet s.h 4)).any (fun l => l.count == 1) = true ∧ (g.find (pipGet (sPip 0x700 g5).h 4)).any (fun l => l.inner && l.count == 1) = true ∧
     (g.find (pipGet (sPip 0x900 g5).h 4)).any (fun l => l.count == 0xFFFFFFFF) = true ∧
     (regionGet (sPip 0 { g5 with pending := [0x500] }) 5).pending ≠ [] ∧
     BitVec.ofNat 128 (memRead s.mem 0x50000 16) = pipGet (sPip 0 g5).h 4 ∧ BitVec.ofNat 128 (memRead s.mem 0x50000 16) ≠ pipGet s.h 4) :=
  ⟨⟨rfl, rfl, rfl⟩, uncounted_of rfl, region_of (by decide +kernel), mapped_of (by decide +kernel), by decide +kernel⟩

/-- A command at each limit of its length; one accepted, one for a full table, four over their limits; and `pout`. -/
def sEng (c : Word) (cs : List Cmd) : State := { sx 0x20000 0x20800 with h := { (sx 0x20000 0x20800).h with x := (sx 0x20000 0x20800).h.x.set 3 c, cmds := cs } }
theorem met_EngineCommands : (sEng 0x10000000000 []).Plain ∧ (sEng 0x10000000000 []).Uncounted ∧ (sEng 0 []).h.cmds.length < 64 ∧
    (Rules.engineTakes (.cpy 5 1 2 3 .G .G .core) (sEng 0x10000000000 []).h).isSome = true ∧
    (Rules.engineTakes (.dput 5 1 2 3 .G .G 1 .core) (sEng 65536 []).h).isSome = true ∧
    (Rules.engineTakes (.mzero 5 0 .core) (sEng 0 []).h).isSome = true ∧
    (∀ e, e < 64 → ∃ k ∈ (sEng 0 ((List.range 64).map (fun e => cpyIn e .running))).h.cmds, k.entry = e) ∧
    (sEng 0x10000000001 []).h.replay = none ∧ inh (sEng 0x10000000001 []).h = false ∧ 2 ^ 40 < (xGet (sEng 0x10000000001 []).h 3).toNat ∧
    (xGet (sEng 65544 []).h 3).toNat > 65536 ∧ (xGet (sEng 0 []).h 3).toNat = 0 ∧ 2 ^ 32 ≤ (xGet (sEng 0x100000000 []).h 3).toNat ∧
    (sPip 0x500 g5).Plain ∧ (sPip 0x500 g5).MapsRegion (xGet (sPip 0x500 g5).h 1) 5 ∧ (xGet (sPip 0x500 g5).h (6 + 1)).toNat % 128 = 0 := by
  and_intros <;> first | exact uncounted_of rfl | exact region_of (by decide +kernel) | decide +kernel

/-- Positions 2, 5, 9 of an open fibre; a slot word that is there, and one that is not. -/
def sFib : State := { sx 0x20000 9 with
  h := { (sx 0x20000 9).h with
    fibres := h0.fibres.set 1 { opened := true, code := 0, space := .G, pos := 0, base := 0x20000, count := 3, cursor := 0, soff := 0 } }
  mem := memWrite (memWrite (memWrite [] 0x50000 4 2) 0x50004 4 5) 0x50008 4 9 }
theorem met_EngineRegisters : sFib.Plain ∧ sFib.Uncounted ∧ sFib.Mapped (fibreGet sFib.h 1).base (4 * (fibreGet sFib.h 1).count.toNat) 0x50000 ∧
    sFib.h.cmds = [] ∧ (fibreGet sFib.h 1).opened = true ∧ (fibreGet sFib.h 1).code = 0 ∧ (fibreGet sFib.h 1).cursor.toNat + 2 < 3 ∧
    (∀ k, k < 2 → memRead sFib.mem (0x50000 + 4 * k) 4 < memRead sFib.mem (0x50000 + 4 * (k + 1)) 4) ∧
    (∀ k, k < 2 → memRead sFib.mem (0x50000 + 4 * k) 4 < (xGet sFib.h 2).toNat) ∧ (xGet sFib.h 2).toNat ≤ memRead sFib.mem 0x50008 4 ∧
    (xGet sFib.h 2).toNat < 2 ^ 32 ∧ (xGet sFib.h 1).toNat % 4 = 0 ∧ (xGet sFib.h 1).toNat % 8 = 0 ∧ sFib.Mapped (xGet sFib.h 1) 8 0x50000 ∧
    (BitVec.ofNat 64 (memRead sFib.mem 0x50000 8)).getLsbD 63 = false ∧
    (BitVec.ofNat 64 (memRead (memWrite [] 0x50000 8 (2 ^ 63)) 0x50000 8)).getLsbD 63 = true := by
  and_intros <;> first | exact uncounted_of rfl | exact mapped_of (by decide +kernel) | decide +kernel

def sInh : State := { sx 0x20 0 with h := { (sx 0x20 0).h with sstatus := 0x20 } }
theorem met_SupervisorRegisters : sInh.Plain := ⟨rfl, rfl, rfl⟩

/-- A trap with INH clear, and one with it set. -/
def tr2 : Trap := { code := 6, val := 0x20001, val2 := 0 }
theorem met_SupervisorTraps : s0.h.replay = none ∧ inh s0.h = false ∧ tr2.imprecise = false ∧ s0.Uncounted ∧ inh sInh.h = true ∧
    sInh.h.replay = none ∧ sInh.Uncounted ∧ s0.Alone := ⟨rfl, rfl, rfl, uncounted_of rfl, rfl, rfl, uncounted_of rfl, rfl, rfl⟩

/-- A fault record and an entry of the retire trace to read, and none. -/
def f33 : Frq := { pc := 0x8000, va := 0x20001, elem := 2, weight := 0x4000, kind := 1, cause := 6, gid := 33, ovf := false, seq := 5 }
def sLog : State := { sx 0x20000 0 with
  h := { (sx 0x20000 0).h with x := ((h0.x.set 1 0x20000).set 2 (BitVec.ofNat 64 (nodeOf 0 33))).set 3 (BitVec.ofNat 64 (nodeOf 0 33 + 2 ^ 32))
                               ring := [0x77], ringpos := 1, ringsince := 1 }
  d := { s0.d with frq := s0.d.frq.set 0 [f33] } }
theorem met_SupervisorReads : sLog.Plain ∧ sLog.Inv ∧ sLog.h.cmds = [] ∧ sLog.h.gid < 768 ∧ (xGet sLog.h 1 + (0 : BitVec 32).signExtend 64).toNat % 32 = 0 ∧
    sLog.Mapped (xGet sLog.h 1 + (0 : BitVec 32).signExtend 64) 32 0x50000 ∧ frqOf sLog 33 = f33 :: [] ∧ frqOf s0 33 = [] ∧
    hartExists sLog.h = true ∧ sLog.h.ring.length ≤ 256 ∧ ((xGet sLog.h 2).setWidth 20).toNat = nodeOf sLog.d.devid sLog.h.gid ∧
    ((xGet sLog.h 3).setWidth 20).toNat = nodeOf sLog.d.devid sLog.h.gid ∧
    sLog.h.ringsince ≤ ((xGet sLog.h 3).extractLsb' 32 8).toNat ∧ ((xGet sLog.h 2).extractLsb' 32 8).toNat < sLog.h.ringsince ∧
    (sLog.h.ring[((xGet sLog.h 2).extractLsb' 32 8).toNat]?).isSome = true :=
  ⟨⟨rfl, rfl, rfl⟩, rfl, rfl, by decide +kernel, by decide +kernel, mapped_of (by decide +kernel), by decide +kernel⟩

/-- SCAUSE names an imprecise trap, and a precise one; and a frame that is in force. -/
def sScause (c : Word) : State := { s0 with h := { h0 with mode := .S, scause := c } }
def sFrame : State := { s0 with h := { h0 with replay := some ⟨5, 0x8010⟩ } }
theorem met_Replays : (sScause 0x2006).Uncounted ∧ (sScause 0x2006).h.replay = none ∧ (sScause 0x2006).h.fmrun = false ∧
    endLevel (sScause 0x2006).h = none ∧ (sScause 0x2006).h.scause.getLsbD 13 = true ∧ (sScause 6).h.scause.getLsbD 13 = false ∧
    sFrame.h.replay = some ⟨5, 0x8010⟩ ∧ tr2.imprecise = false ∧ tr2.code < 256 :=
  ⟨uncounted_of rfl, rfl, rfl, by decide +kernel⟩

/-- Any part of what a run of bytes reads as. -/
theorem memRead_part (m : Memory) : ∀ (o k n a : Nat), o + k ≤ n → memRead m (a + o) k = memRead m a n / 2 ^ (8 * o) % 2 ^ (8 * k)
  | 0, 0, n, a, _ => by simp [memRead, Nat.mod_one]
  | 0, k + 1, 0, a, h => by omega
  | 0, k + 1, n + 1, a, h => by
    have ih := memRead_part m 0 k n (a + 1) (by omega)
    have hb := (memGet m a).isLt
    simp only [Nat.add_zero, Nat.mul_zero, Nat.pow_zero, Nat.div_one, memRead] at ih ⊢
    rw [ih, show 8 * (k + 1) = 8 + 8 * k by omega, Nat.pow_add, Nat.mod_mul,
      show ((memGet m a).toNat + 256 * memRead m (a + 1) n) / 2 ^ 8 = memRead m (a + 1) n by omega]
    omega
  | o + 1, k, 0, a, h => by omega
  | o + 1, k, n + 1, a, h => by
    have ih := memRead_part m o k n (a + 1) (by omega)
    have hb := (memGet m a).isLt
    rw [show a + (o + 1) = a + 1 + o by omega, ih, show 8 * (o + 1) = 8 + 8 * o by omega, Nat.pow_add, ← Nat.div_div_eq_div_mul,
      show memRead m a (n + 1) / 2 ^ 8 = memRead m (a + 1) n by simp only [memRead]; omega]
/-- A run inside one page is one piece. -/
theorem chunks_page (a : Word) (n : Nat) (h : a.toNat % 65536 + n ≤ 65536) : chunks a n = if n = 0 then [] else [(a, n)] := by
  have hf : Nat.min n (65536 - a.toNat % 65536) = n := Nat.min_eq_left (by omega)
  by_cases hn : n = 0 <;> simp [chunks, hf, hn]
/-- A run inside a page whose bytes an access reaches without changing the state. -/
theorem readRun_page {u : State} {ea : Word} {p n : Nat} (ha : ea.toNat % 65536 + n ≤ 65536)
    (ht : ∀ k m, 0 < m → k + m ≤ n → translate u u.h .load (ea + BitVec.ofNat 64 k) m = .ok (p + k, u)) (o m : Nat) (h : o + m ≤ n) :
    readRun u u.h .G (ea + BitVec.ofNat 64 o) m = .ok (memRead u.mem p n / 2 ^ (8 * o) % 2 ^ (8 * m), u) := by
  have hc := chunks_page (ea + BitVec.ofNat 64 o) m (by simp only [BitVec.toNat_add, BitVec.toNat_ofNat]; omega)
  rw [readRun, hc, ← memRead_part u.mem o m n p h]
  by_cases hm : m = 0
  · subst hm; rfl
  · simp [hm, place, ht o m (by omega) h, locRead]


/-- A load that a held entry translates, and that leaves it as it is. -/
theorem translate_held {s : State} {h : Hart} {va : Word} {n p : Nat} {t : Tlb} (hc : canonical va.toNat = true)
    (ht : tlbHit s (coreOf h.gid) h.ctxid va.toNat = some t) (hs : staleEntry s .load t = false)
    (ha : leafAllows .load t.leaf.toNat va = none) (hb : leafPlace s .load t va n = .ok p) (hq : poisoned s.d.poison p n = false)
    (hr : recordAccess s .load t true va = s) : translate s h .load va n = .ok (p, s) := by
  simp [Machine.translate, translateFor, accessBar, dirtyByte, Acc.isWrite, hc, ht, hs, findLeaf, misses, ha, hb, hr, hq]
/-- Its page, for a context. -/
def tPage (ctx : BitVec 16) : Tlb := { core := 4, ctx := ctx, size := 0, page := 2, leaf := 0x5003F, leafAt := 0, dirty := [] }
/-- A hart without vectors, of context `ctx`, whose context fits one page of memory `m`; lanes `ret` are retired. -/
def sPage (m : Memory) (ctx : BitVec 16) (ret : List Nat) : State := { sx 0x20000 0 with
  mem := m, h := { (sx 0x20000 0).h with vlcap := 0, vl := 0, dead := ~~~ 1, slabs := [], tiles := [], ctxid := ctx }
  d := { s0.d with tlb := [tPage ctx], retired := ret } }
section Page
variable (m : Memory) (ctx : BitVec 16) (ret : List Nat) (k n : Nat)
theorem page_va (h : k ≤ 65536) : ((0x20000 : Word) + BitVec.ofNat 64 k).toNat = 0x20000 + k := by
  rw [BitVec.toNat_add, BitVec.toNat_ofNat, show (0x20000 : Word).toNat = 131072 from rfl]; omega
theorem page_hit (h : k < 65536) :
    tlbHit (sPage m ctx ret) (coreOf (sPage m ctx ret).h.gid) (sPage m ctx ret).h.ctxid (0x20000 + k) = some (tPage ctx) := by
  simp [tlbHit, sPage, tPage, pageShift, sx, s0, h0, coreOf]; omega
theorem page_fresh : staleEntry (sPage m ctx ret) .load (tPage ctx) = false := by simp [staleEntry, Acc.isWrite, pteA, tPage]
theorem page_pa (h : k < 65536) : leafPa (tPage ctx) (0x20000 + k) = 0x50000 + k := by
  simp [leafPa, tPage, ptePa, pageShift]; omega
theorem page_place (h : k < 65536) : leafPlace (sPage m ctx ret) .load (tPage ctx) (0x20000 + BitVec.ofNat 64 k) n = .ok (0x50000 + k) := by
  have hk : pteKind (tPage ctx).leaf.toNat = 0 := by simp [tPage, pteKind]
  have h0 : (0x50000 + k) / 2 ^ 40 % 4 = 0 := by omega
  have h1 : storeRange (s0.d.pscfg.toList.getD 0 0) = (0, 0) := by decide
  have hi : inCarveOut (sPage m ctx ret).d.pscfg (0x50000 + k) n = false := by
    simp only [inCarveOut, h0, show (sPage m ctx ret).d.pscfg = s0.d.pscfg from rfl, h1]
    simp
  simp only [leafPlace, page_va k (by omega), page_pa ctx k h, hk, hi, Bool.false_eq_true, if_false]
theorem page_kept (va : Word) : recordAccess (sPage m ctx ret) .load (tPage ctx) true va = sPage m ctx ret := by
  simp [recordAccess, dirtyByte, Acc.isWrite, pteA, tPage, sPage]
theorem page_clean (a : Nat) : poisoned (sPage m ctx ret).d.poison a n = false := rfl
theorem page_canonical (h : k < 65536) : canonical (0x20000 + k) = true := by simp [canonical]; omega
theorem page_allows (va : Word) : leafAllows .load (tPage ctx).leaf.toNat va = none := by
  simp [leafAllows, tPage, pteR, pteKind, Acc.isPip]
theorem page_translate (hn : 0 < n) (h : k + n ≤ 65536) :
    translate (sPage m ctx ret) (sPage m ctx ret).h .load (0x20000 + BitVec.ofNat 64 k) n = .ok (0x50000 + k, sPage m ctx ret) := by
  have hv := page_va k (by omega)
  exact translate_held (by rw [hv]; exact page_canonical k (by omega)) (by rw [hv]; exact page_hit m ctx ret k (by omega))
    (page_fresh m ctx ret) (page_allows ctx _) (page_place m ctx ret k n (by omega)) (page_clean m ctx ret n _) (page_kept m ctx ret _)
end Page
def sCtx : State := sPage [] 7 []
def ctxOf : Nat × Nat := contextBits sCtx (savedHart sCtx.h) (liveParts sCtx sCtx.h) false false
/-- Its bytes from 0x50000 that are not zero: header, directory of ten sections, DEAD, SVEC, the STAGES of four levels, MEMBER. -/
def mCtx : Memory := (
  [(0, 67), (1, 84), (2, 88), (3, 26), (4, 1), (6, 3), (9, 8), (16, 10), (18, 4), (19, 1), (20, 33), (24, 7), (64, 1), (69, 4), (73, 1),
  (80, 2), (89, 5), (96, 3), (105, 5), (112, 4), (117, 1), (121, 5), (128, 5), (137, 6), (144, 6), (148, 16), (149, 1), (153, 6),
  (160, 7), (168, 64), (169, 7), (176, 8), (180, 128), (184, 64), (185, 7), (192, 9), (200, 192), (201, 7), (208, 10), (212, 64),
  (216, 192), (217, 7), (266, 2), (840, 254), (841, 255), (842, 255), (843, 255), (844, 255), (845, 255), (846, 255), (847, 255),
  (889, 16), (1305, 1), (1337, 1), (1369, 1), (1401, 1), (1992, 1)] : List (Nat × Byte)).map (fun p => (0x50000 + p.1, p.2))
/-- Bytes that read as a number does, 64 at a time, read as it does together. -/
theorem memRead_blocks (m : Memory) (a x : Nat) : ∀ c, (∀ j, j < c → memRead m (a + 64 * j) 64 = x / 2 ^ (512 * j) % 2 ^ 512) →
    memRead m a (64 * c) = x % 2 ^ (512 * c)
  | 0, _ => by simp [memRead, Nat.mod_one]
  | c + 1, h => by
    have ih := memRead_blocks m a x c (fun j hj => h j (by omega))
    have h1 := memRead_part m 0 (64 * c) (64 * (c + 1)) a (by omega)
    have h2 := memRead_part m (64 * c) 64 (64 * (c + 1)) a (by omega)
    have h3 := h c (by omega)
    have hl := memRead_lt (64 * (c + 1)) m a
    have e (y : Nat) : y % 2 ^ (512 * (c + 1)) = y % 2 ^ (512 * c) + 2 ^ (512 * c) * (y / 2 ^ (512 * c) % 2 ^ 512) := by
      rw [show 512 * (c + 1) = 512 * c + 512 by omega, Nat.pow_add, Nat.mod_mul]
    rw [show 8 * (64 * (c + 1)) = 512 * (c + 1) by omega] at hl
    simp only [show 8 * (64 * c) = 512 * c by omega, show 8 * 64 = 512 by decide, Nat.mul_zero, Nat.pow_zero, Nat.div_one, Nat.add_zero] at h1 h2
    rw [← Nat.mod_eq_of_lt hl, e, e x, ← h1, ih, ← h2, h3]
theorem mCtx_read : memRead mCtx 0x50000 2048 = ctxOf.1 := by
  have h : memRead mCtx 0x50000 (64 * 32) = ctxOf.1 % 2 ^ (512 * 32) := memRead_blocks mCtx 0x50000 ctxOf.1 32 (by decide +kernel)
  rw [← Nat.mod_eq_of_lt (show ctxOf.1 < 2 ^ (512 * 32) by decide +kernel)]
  exact h
/-- The bytes of a context of `n` bytes in that memory, for a hart that reads them. -/
theorem page_read (m : Memory) (ctx : BitVec 16) (ret : List Nat) (n x : Nat) (hn : n ≤ 65536) (hx : memRead m 0x50000 n = x) (o k : Nat)
    (h : o + k ≤ n) : readRun (sPage m ctx ret) (sPage m ctx ret).h .G (0x20000 + BitVec.ofNat 64 o) k =
      .ok (x / 2 ^ (8 * o) % 2 ^ (8 * k), sPage m ctx ret) := by
  have ha : (0x20000 : Word).toNat % 65536 + n ≤ 65536 := by rw [show (0x20000 : Word).toNat = 131072 from rfl]; omega
  have hr := readRun_page (u := sPage m ctx ret) (p := 0x50000) ha (fun j l hl h => page_translate m ctx ret j l hl (by omega)) o k h
  rw [show (sPage m ctx ret).mem = m from rfl, hx] at hr
  exact hr
theorem page_context (ctx : BitVec 16) (ret : List Nat) (o k : Nat) (h : o + k ≤ ctxOf.2) :
    readRun (sPage mCtx ctx ret) (sPage mCtx ctx ret).h .G (0x20000 + BitVec.ofNat 64 o) k =
      .ok (ctxOf.1 / 2 ^ (8 * o) % 2 ^ (8 * k), sPage mCtx ctx ret) :=
  page_read mCtx ctx ret 2048 ctxOf.1 (by decide) mCtx_read o k (by rw [← show ctxOf.2 = 2048 by decide +kernel]; exact h)
theorem savable : Rules.Savable sCtx.h := by
  unfold Rules.Savable
  and_intros <;> first | exact fun w h => by cases h | decide +kernel
/-- A context saved where it is mapped; loaded; bytes that are none, one of another context, and one of more lanes than the hart has. -/
theorem met_Contexts : sCtx.Plain ∧ sCtx.Inv ∧ sCtx.h.cmds = [] ∧ sCtx.h.gid < 768 ∧ (xGet sCtx.h 1 + (0 : BitVec 32).signExtend 64) = 0x20000 ∧
    (∃ s1, writeRun sCtx sCtx.h .G 0x20000 ctxOf.2 ctxOf.1 = (s1, none)) ∧ sCtx.Mapped 0x20000 ctxOf.2 0x50000 ∧
    Rules.Savable sCtx.h ∧ sCtx.h.binds = [] ∧ (sPage mCtx 7 []).h.cmds = [] ∧ (sPage mCtx 7 []).h.stop = none ∧
    (∀ ctx ret o k, o + k ≤ ctxOf.2 → readRun (sPage mCtx ctx ret) (sPage mCtx ctx ret).h .G (0x20000 + BitVec.ofNat 64 o) k =
      .ok (ctxOf.1 / 2 ^ (8 * o) % 2 ^ (8 * k), sPage mCtx ctx ret)) ∧
    min sCtx.h.lanes (liveLanes sCtx.d.retired 33 1) ≤ liveLanes (sPage mCtx 7 []).d.retired 33 1 ∧
    (frqAll (sPage mCtx 7 []) 33).length + (frqOf sCtx 33).length ≤ Config.frqRecords ∧
    (sPage [] 7 []).h.replay = none ∧ inh (sPage [] 7 []).h = false ∧
    (∀ o k, o + k ≤ 64 → readRun (sPage [] 7 []) (sPage [] 7 []).h .G (0x20000 + BitVec.ofNat 64 o) k =
      .ok (0 / 2 ^ (8 * o) % 2 ^ (8 * k), sPage [] 7 [])) ∧
    (sPage mCtx 8 []).h.ctxid ≠ sCtx.h.ctxid ∧
    liveLanes (sPage mCtx 7 [132]).d.retired 33 1 < min sCtx.h.lanes (liveLanes sCtx.d.retired 33 1) :=
  ⟨⟨rfl, rfl, rfl⟩, rfl, rfl, by decide +kernel, by decide +kernel, ⟨_, Prod.ext rfl (by decide +kernel)⟩, mapped_of (by decide +kernel), savable, rfl, rfl, rfl,
    fun ctx ret o k h => page_context ctx ret o k h, by decide +kernel, by decide +kernel, rfl, rfl,
    fun o k h => page_read [] 7 [] 64 0 (by decide) (by decide +kernel) o k h, by decide +kernel, by decide +kernel⟩

/-! Vector instructions. -/

namespace Rows
open Sys2Proof.Rules

def okFits (r : Row) (s : State) : Bool :=
  decide (s.h.vl ≤ 24576) && r.srcs.all (fun f => decide (s.h.vl ≤ s.h.lanes * 768 * f.regs / f.b)) &&
    (match r.dst with | .vec _ g b => decide (s.h.vl ≤ s.h.lanes * 768 * g / b) | _ => true) && (!r.cb || decide (s.h.vl % 16 = 0))
def okLink (r : Row) : Bool := match r.dst with | .vec 0 _ _ => false | _ => true
def okReached (s : State) (r : Row) (spot : State → Nat → Spot) (base : State → List Word) : Bool :=
  s.mem.wf && decide (s.h.space = 0) && decide (s.h.cmds = []) && (!r.cb || decide (s.h.vstart % 16 = 0)) &&
    (base s).all (fun a => decide (a.toNat % unitOf r.k.et = 0)) &&
    (List.range s.h.vl).all (fun j => !r.begun s j || (okMapped s (spot s j).at_ (spot s j).n (physOf s (spot s j).at_) &&
      decide ((spot s j).at_.toNat % unitOf r.k.et = 0)))

theorem fits_of {r : Row} {s : State} (h : okFits r s = true) : r.Fits s := by
  simp only [okFits, Bool.and_eq_true, decide_eq_true_eq, List.all_eq_true, Bool.or_eq_true, Bool.not_eq_true'] at h
  obtain ⟨⟨⟨a, b⟩, c⟩, d⟩ := h
  refine ⟨a, b, ?_, ?_⟩
  · cases hd : r.dst <;> simp_all
  · intro hc
    rcases d with d | d
    · rw [hc] at d; cases d
    · exact d
theorem unlinked_of {r : Row} {i : Instr} {s : State} (h : okLink r = true) : r.Unlinked i s := by
  intro g b op hd
  simp [okLink, hd] at h
theorem reached_of {s : State} {r : Row} {spot : State → Nat → Spot} {base : State → List Word} (h : okReached s r spot base = true) :
    reached s r spot base := by
  simp only [okReached, Bool.and_eq_true, decide_eq_true_eq, List.all_eq_true, Bool.or_eq_true, Bool.not_eq_true', List.mem_range] at h
  obtain ⟨⟨⟨⟨⟨a, b⟩, c⟩, d⟩, e⟩, f⟩ := h
  refine ⟨a, b, c, ?_, fun _ => e, ?_⟩
  · intro hc
    rcases d with d | d
    · rw [hc] at d; cases d
    · exact d
  · intro j hj
    have hl : j < s.h.vl := by
      simp only [Row.begun, Bool.and_eq_true, decide_eq_true_eq] at hj
      exact hj.1.1.2
    rcases f j hl with h | h
    · rw [hj] at h; cases h
    · exact ⟨mapped_of h.1, h.2⟩

theorem load_of {s : State} {d : Reg} {k : VCtl} {idx : List VField} {spot : State → Nat → Spot} {base : State → List Word}
    (h : okReached s (loadRow d k idx spot base) spot base = true) : (loadRow d k idx spot base).ok s := by
  have h' := reached_of h
  exact h'
theorem store_of {s : State} {c : Reg} {k : VCtl} {idx : List VField} {spot : State → Nat → Spot} {base : State → List Word}
    (h : okReached s (storeRow c k idx spot base) spot base = true) : (storeRow c k idx spot base).ok s := by
  have h' := reached_of h
  exact h'
theorem atom_of {s : State} {d a b c : Reg} {disp : BitVec 32} {k : VCtl} {f : Nat → Nat → Nat → Nat × Fl}
    (h : okReached s (atomRow d a b c disp k f) (fun s j => indexSpot k.et (xGet s.h a + disp.signExtend 64) s.h (idxField b k) j)
      (fun _ => []) = true) : (atomRow d a b c disp k f).ok s := by
  have h' := reached_of h
  exact h'

/-- What `Row.Holds` asks for, but `ok` and the flags. -/
def Asked (r : Row) (i : Instr) (s : State) : Prop :=
  i.wf = true ∧ s.Plain ∧ s.Uncounted ∧ s.h.lanes ≤ 32 ∧ s.h.binds = [] ∧ s.Unstopped ∧ r.Fits s ∧ r.Unlinked i s
theorem asked_of {r : Row} {i : Instr} {s : State} (h : (i.wf && okPlain s && okUncounted s && decide (s.h.lanes ≤ 32) &&
    decide (s.h.binds = []) && s.h.stop.isNone && s.h.pause.isNone && okFits r s && okLink r) = true) : Asked r i s := by
  simp only [Bool.and_eq_true, decide_eq_true_eq, Option.isNone_iff_eq_none] at h
  obtain ⟨⟨⟨⟨⟨⟨⟨⟨a, b⟩, c⟩, d⟩, e⟩, f⟩, f'⟩, g⟩, k⟩ := h
  exact ⟨a, plain_of b, uncounted_of c, d, e, ⟨f, f'⟩, fits_of g, unlinked_of k⟩
end Rows

open Rows in
theorem met_VectorArithmetic : ∃ r, Rules.arithRow (.vfma 5 1 (.reg 2) 3 { kb with lr := 4 }) = some r ∧
    Asked r (.vfma 5 1 (.reg 2) 3 { kb with lr := 4 }) (sv 0x3F8000003F800000 0x40000000) ∧
    r.flags (sv 0x3F8000003F800000 0x40000000) &&& (sv 0 0).h.fenable.setWidth 5 = 0 := ⟨_, rfl, asked_of (by decide +kernel), by decide +kernel⟩

/-- 1 / 0 in two elements, DZ enabled: below FLOOR one of them is pruned, the other traps. -/
def sExc : State := { sv 0x3F8000003F800000 0 with h := { (sv 0x3F8000003F800000 0).h with
  fenable := 8, floor := 0x4000, armsp := 1, w := (h0.w.set 1 (0x80002000 : Nat)) } }
open Rows in
theorem met_VectorExceptions : ∃ r, Rules.arithRow (.vdiv 5 1 (.reg 2) { kf with w := 1 }) = some r ∧
    Asked r (.vdiv 5 1 (.reg 2) { kf with w := 1 }) sExc ∧
    (List.range sExc.h.vl).filter (r.pruned sExc) = [0] ∧ (List.range sExc.h.vl).filter (r.traps sExc) = [1] ∧ inh sExc.h = false :=
  ⟨_, rfl, asked_of (by decide +kernel), by decide +kernel⟩

/-- A block asks for VL, and a whole number of them for VSTART. -/
def sBlk : State := { sv 0x3F8000003F800000 0 with h := { (sv 0x3F8000003F800000 0).h with vl := 32, vstart := 16 } }
open Rows in
theorem met_VectorConversions : (∃ r, Rules.intRow (.vsra 5 1 (.reg 2) (kOf .n8)) = some r ∧
      Asked r (.vsra 5 1 (.reg 2) (kOf .n8)) (sv 0x80 1) ∧ r.flags (sv 0x80 1) &&& (sv 0x80 1).h.fenable.setWidth 5 = 0) ∧
    (∃ r, Rules.convRow (.vpack 5 1 (kOf .cb4)) = some r ∧ Asked r (.vpack 5 1 (kOf .cb4)) sBlk ∧ r.ok sBlk ∧
      r.flags sBlk &&& sBlk.h.fenable.setWidth 5 = 0) ∧
    ∃ r, Rules.convRow (.vcvtSat 5 1 { kOf .e4m3 with rm := .efb }) = some r ∧ Asked r (.vcvtSat 5 1 { kOf .e4m3 with rm := .efb }) (sv 0x3F800000 0) ∧
      r.flags (sv 0x3F800000 0) &&& (sv 0 0).h.fenable.setWidth 5 = 0 :=
  ⟨⟨_, rfl, asked_of (by decide +kernel), by decide +kernel⟩, ⟨_, rfl, asked_of (by decide +kernel), by show 16 % 16 = 0; rfl, by decide +kernel⟩,
    _, rfl, asked_of (by decide +kernel), by decide +kernel⟩

open Rows in
theorem met_VectorWeights : (∃ r, Rules.weightRow (.wramp 1 1 (.reg 2) 2 kf) = some r ∧
      Asked r (.wramp 1 1 (.reg 2) 2 kf) { sv 0x3F800000 0x3F800000 with h := { (sv 0x3F800000 0x3F800000).h with x := h0.x.set 2 0x3F800000 } } ∧
      r.flags { sv 0x3F800000 0x3F800000 with h := { (sv 0x3F800000 0x3F800000).h with x := h0.x.set 2 0x3F800000 } } &&&
        (sv 0 0).h.fenable.setWidth 5 = 0) ∧
    ∃ r, Rules.weightRow (.wmul 0 1 (.imm 0x8000) kf) = some r ∧ Asked r (.wmul 0 1 (.imm 0x8000) kf) s0 ∧ r.flags s0 &&& s0.h.fenable.setWidth 5 = 0 :=
  ⟨⟨_, rfl, asked_of (by decide +kernel), by decide +kernel⟩, _, rfl, asked_of (by decide +kernel), by decide +kernel⟩

open Rows in
/-- A block moved; an element past VL; the top-k of segments of 2. -/
theorem met_VectorMoves : (∃ r, Rules.moveRow (.vmv 5 1 (kOf .cb4)) = some r ∧ Asked r (.vmv 5 1 (kOf .cb4)) sBlk ∧ r.ok sBlk ∧
      r.flags sBlk &&& sBlk.h.fenable.setWidth 5 = 0) ∧
    (∃ r, Rules.moveRow (.vext 5 1 (.imm 4) kf) = some r ∧ Asked r (.vext 5 1 (.imm 4) kf) (sv 5 0) ∧
      r.flags (sv 5 0) &&& (sv 0 0).h.fenable.setWidth 5 = 0) ∧
    ∃ r, Rules.moveRow (.vtopk 5 1 2 2 { kf with et2 := .n16 }) = some r ∧ Asked r (.vtopk 5 1 2 2 { kf with et2 := .n16 }) (sv 5 0) ∧
      r.flags (sv 5 0) &&& (sv 0 0).h.fenable.setWidth 5 = 0 :=
  ⟨⟨_, rfl, asked_of (by decide +kernel), fun _ => by decide +kernel, by decide +kernel⟩, ⟨_, rfl, asked_of (by decide +kernel), by decide +kernel⟩,
    _, rfl, asked_of (by decide +kernel), by decide +kernel⟩

open Rows in
theorem met_VectorTrees : (∃ r, Rules.treeRow (.vredsum 5 1 { kn with et2 := .n64 }) = some r ∧ Asked r (.vredsum 5 1 { kn with et2 := .n64 }) (sv 5 0) ∧
      r.flags (sv 5 0) &&& (sv 0 0).h.fenable.setWidth 5 = 0) ∧
    (∃ r, Rules.treeRow (.vscanXadd 5 1 { kf with et2 := .f32 }) = some r ∧ Asked r (.vscanXadd 5 1 { kf with et2 := .f32 }) (sv 0x3F800000 0) ∧
      r.flags (sv 0x3F800000 0) &&& (sv 0 0).h.fenable.setWidth 5 = 0) ∧
    ∃ r, Rules.treeRow (.vfirst 5 kf) = some r ∧ Asked r (.vfirst 5 kf) sDead ∧ r.flags sDead &&& sDead.h.fenable.setWidth 5 = 0 :=
  ⟨⟨_, rfl, asked_of (by decide +kernel), by decide +kernel⟩, ⟨_, rfl, asked_of (by decide +kernel), by decide +kernel⟩, _, rfl,
    asked_of (by decide +kernel), by decide +kernel⟩

/-- A mapped page, offsets of elements in v2. -/
def sVMem : State := { sx 0x20000 8 with h := { (sx 0x20000 8).h with v := h0.v.set 2 (4 + 8 * 2 ^ 32 + 12 * 2 ^ 64) } }
open Rows in
theorem met_VectorMemory : (∃ r, Rules.memRow (.vlds 5 1 2 4 { kf with wp := .blend }) = some r ∧
      Asked r (.vlds 5 1 2 4 { kf with wp := .blend }) sVMem ∧ r.ok sVMem ∧ r.flags sVMem &&& sVMem.h.fenable.setWidth 5 = 0) ∧
    (∃ r, Rules.memRow (.vst 2 1 65520 kf) = some r ∧ Asked r (.vst 2 1 65520 kf) sVMem ∧ r.ok sVMem ∧ r.flags sVMem &&& sVMem.h.fenable.setWidth 5 = 0) ∧
    ∃ r, Rules.atomicRow (.vamoAdd 5 1 2 3 0 kn .rlx .core) = some r ∧ Asked r (.vamoAdd 5 1 2 3 0 kn .rlx .core) sVMem ∧ r.ok sVMem ∧
      r.flags sVMem &&& sVMem.h.fenable.setWidth 5 = 0 :=
  ⟨⟨_, rfl, asked_of (by decide +kernel), load_of (by decide +kernel), by decide +kernel⟩,
    ⟨_, rfl, asked_of (by decide +kernel), store_of (by decide +kernel), by decide +kernel⟩, _, rfl, asked_of (by decide +kernel),
    atom_of (by decide +kernel), by decide +kernel⟩

/-! Accesses with refused elements. -/

namespace Rows
open Sys2Proof.Rules

/-- The fault with which what the core holds refuses an element, or none. -/
def badOf (r : Row) (x : Access) (s : State) (j : Nat) : Option Flt :=
  let p := x.spot s j
  if p.at_.toNat % unitOf r.k.et ≠ 0 then some ⟨6, p.at_, 0⟩
  else if canonical p.at_.toNat = false then some ⟨11, p.at_, 4⟩
  else match tlbHit s (coreOf s.h.gid) s.h.ctxid p.at_.toNat with
    | some e => if (if x.store then pteW e.leaf.toNat else pteR e.leaf.toNat) then none else some ⟨if x.store then 9 else 8, p.at_, 0⟩
    | none => none
def okMeets (r : Row) (x : Access) (s : State) (j : Nat) : Bool :=
  let p := x.spot s j
  decide (p.at_.toNat % unitOf r.k.et ≠ 0) || (if (badOf r x s j).isNone then okMapped s p.at_ p.n (physOf s p.at_)
    else decide (p.at_.toNat % 65536 + p.n ≤ 65536) && (canonical p.at_.toNat = false ||
      match tlbHit s (coreOf s.h.gid) s.h.ctxid p.at_.toNat with
      | some e => pteA e.leaf.toNat && pteD e.leaf.toNat
      | none => false))
theorem meets_of {r : Row} {x : Access} {s : State} {j : Nat} (h : okMeets r x s j = true) : r.Meets x s j (badOf r x s j) := by
  unfold Row.Meets
  unfold okMeets at h
  by_cases hm : (x.spot s j).at_.toNat % unitOf r.k.et ≠ 0
  · simp [hm, badOf]
  · simp only [hm, if_false]
    simp only [hm, decide_false, Bool.false_or] at h
    cases hb : badOf r x s j with
    | none => simp only [hb] at h; exact mapped_of h
    | some f =>
      simp only [hb, Option.isNone_some, Bool.false_eq_true, if_false, Bool.and_eq_true, Bool.or_eq_true, decide_eq_true_eq] at h
      obtain ⟨h1, h2⟩ := h
      refine ⟨h1, ?_⟩
      simp only [badOf, hm, if_false] at hb
      by_cases hc : canonical (x.spot s j).at_.toNat = false
      · simp only [hc, if_true, Option.some.injEq] at hb
        exact .inl ⟨hc, hb.symm⟩
      · rw [if_neg hc] at hb
        have h2 := h2.resolve_left hc
        refine .inr ⟨by simpa using hc, ?_⟩
        cases he : tlbHit s (coreOf s.h.gid) s.h.ctxid (x.spot s j).at_.toNat with
        | none => rw [he] at h2; cases h2
        | some e =>
          rw [he] at h2 hb
          simp only [Bool.and_eq_true] at h2
          refine ⟨e, rfl, h2.1, h2.2, ?_⟩
          by_cases hw : (if x.store then pteW e.leaf.toNat else pteR e.leaf.toNat) = true
          · simp only [hw, if_true] at hb
            cases hb
          · rw [if_neg hw]
            simp only [hw] at hb
            exact (Option.some.inj hb).symm

/-- What `Row.Faults` asks for before its clauses. -/
def AskedFault (r : Row) (i : Instr) (s : State) : Prop :=
  Asked r i s ∧ s.Inv ∧ s.Unwatched ∧ s.h.gid < 768 ∧ inh s.h = false ∧ s.h.fenable.setWidth 5 = (0 : Fl) ∧ s.h.cmds = [] ∧ s.h.space = 0 ∧
    (r.cb = true → s.h.vstart % 16 = 0)
theorem asked_fault_of {r : Row} {i : Instr} {s : State} (h : (i.wf && okPlain s && okUncounted s && decide (s.h.lanes ≤ 32) &&
    decide (s.h.binds = []) && s.h.stop.isNone && s.h.pause.isNone && okFits r s && okLink r) = true)
    (h2 : (s.mem.wf && decide (barWords s s.h = []) && decide (s.h.gid < 768) && !inh s.h && decide (s.h.fenable.setWidth 5 = (0 : Fl)) &&
      decide (s.h.cmds = []) && decide (s.h.space = 0) && decide (r.cb = false)) = true) : AskedFault r i s := by
  simp only [Bool.and_eq_true, decide_eq_true_eq, Bool.not_eq_true'] at h2
  obtain ⟨⟨⟨⟨⟨⟨⟨a, b⟩, c⟩, d⟩, e⟩, f⟩, g⟩, k⟩ := h2
  exact ⟨asked_of h, a, b, c, d, e, f, g, fun hc => by rw [k] at hc; cases hc⟩
/-- The elements of an access meet what `badOf` says, and `l` are those refused. -/
def okFail (r : Row) (x : Access) (s : State) (l : List Nat) : Bool :=
  (x.base s).all (fun a => decide (a.toNat % unitOf r.k.et = 0)) && (List.range s.h.vl).all (fun j => !r.begun s j || okMeets r x s j) &&
    (List.range s.h.vl).filter (fun j => r.begun s j && (badOf r x s j).isSome) == l
def Failing (r : Row) (x : Access) (s : State) (l : List Nat) : Prop :=
  (∀ a ∈ x.base s, a.toNat % unitOf r.k.et = 0) ∧ (∀ j, r.begun s j = true → r.Meets x s j (badOf r x s j)) ∧
    (List.range s.h.vl).filter (fun j => r.begun s j && (badOf r x s j).isSome) = l
theorem failing_of {r : Row} {x : Access} {s : State} {l : List Nat} (h : okFail r x s l = true) : Failing r x s l := by
  simp only [okFail, Bool.and_eq_true, List.all_eq_true, decide_eq_true_eq, Bool.or_eq_true, Bool.not_eq_true', beq_iff_eq, List.mem_range] at h
  obtain ⟨⟨a, b⟩, c⟩ := h
  refine ⟨a, fun j hj => ?_, c⟩
  have hl : j < s.h.vl := by
    simp only [Row.begun, Bool.and_eq_true, decide_eq_true_eq] at hj
    exact hj.1.1.2
  rcases b j hl with h | h
  · rw [hj] at h; cases h
  · exact meets_of h
end Rows

/-- The page at 0x30000 may be neither read nor written; indices and the element of v2 that is misaligned. -/
def sFault (a b : Word) : State := { sx a b with
  h := { (sx a b).h with v := h0.v.set 2 (4 + 0x10008 * 2 ^ 32 + 8 * 2 ^ 64 + 2 * 2 ^ 96) }
  d := { s0.d with tlb := [t0, { t0 with page := 3, leaf := 0x60039 }] } }
open Rows in
/-- An access that stops at element 2, one that a fault cuts there, one whose first element faults, an unordered store; one that goes
on past elements 1 and 3; a misaligned base. -/
theorem met_VectorFaults :
    (∃ r x, Rules.memRow (.vst 2 1 0 kf) = some r ∧ Rules.accessOf (.vst 2 1 0 kf) = some x ∧ x.how = .stop ∧
      AskedFault r (.vst 2 1 0 kf) (sFault 0x2FFF8 0) ∧ Failing r x (sFault 0x2FFF8 0) [2, 3]) ∧
    (∃ r x, Rules.memRow (.vldff 5 1 0 kf) = some r ∧ Rules.accessOf (.vldff 5 1 0 kf) = some x ∧ x.how = .first ∧
      AskedFault r (.vldff 5 1 0 kf) (sFault 0x2FFF8 0) ∧ Failing r x (sFault 0x2FFF8 0) [2, 3] ∧
      AskedFault r (.vldff 5 1 0 kf) (sFault 0x30000 0) ∧ Failing r x (sFault 0x30000 0) [0, 1, 2, 3]) ∧
    (∃ r x, Rules.memRow (.vstu 2 1 0 kf) = some r ∧ Rules.accessOf (.vstu 2 1 0 kf) = some x ∧ x.how = .loose ∧
      AskedFault r (.vstu 2 1 0 kf) (sFault 0x2FFF8 0) ∧ Failing r x (sFault 0x2FFF8 0) [2, 3]) ∧
    (∃ r x, Rules.memRow (.vldx 5 1 2 0 kf) = some r ∧ Rules.accessOf (.vldx 5 1 2 0 kf) = some x ∧ x.how = .collect ∧ x.kind = some 0 ∧
      AskedFault r (.vldx 5 1 2 0 kf) (sFault 0x20000 0) ∧ Failing r x (sFault 0x20000 0) [1, 3] ∧
      (frqAll (sFault 0x20000 0) 33).length + 8 ≤ 512) ∧
    (∃ r x, Rules.memRow (.vlds 5 1 2 0 kf) = some r ∧ Rules.accessOf (.vlds 5 1 2 0 kf) = some x ∧
      AskedFault r (.vlds 5 1 2 0 kf) (sFault 0x20000 6) ∧ (∃ a ∈ x.base (sFault 0x20000 6), a.toNat % Rules.unitOf r.k.et ≠ 0) ∧
      (List.range 4).filter (fun j => decide ((sFault 0x20000 6).h.vstart ≤ j) && liveAt (sFault 0x20000 6).h r.k.w true j) = [0, 1, 2, 3]) :=
  ⟨⟨_, _, rfl, rfl, rfl, asked_fault_of (by decide +kernel) (by decide +kernel), failing_of (by decide +kernel)⟩,
    ⟨_, _, rfl, rfl, rfl, asked_fault_of (by decide +kernel) (by decide +kernel), failing_of (by decide +kernel),
      asked_fault_of (by decide +kernel) (by decide +kernel), failing_of (by decide +kernel)⟩,
    ⟨_, _, rfl, rfl, rfl, asked_fault_of (by decide +kernel) (by decide +kernel), failing_of (by decide +kernel)⟩,
    ⟨_, _, rfl, rfl, rfl, rfl, asked_fault_of (by decide +kernel) (by decide +kernel), failing_of (by decide +kernel), by decide +kernel⟩,
    _, _, rfl, rfl, asked_fault_of (by decide +kernel) (by decide +kernel), ⟨6, by decide +kernel⟩, by decide +kernel⟩

/-! A chain of two. -/

/-- A line of `vdiv v0, v1, v2`, its consumer and three `nop`, at 0x20000; twenty elements, one group and a part of the next. Element 17
divides 1 by 0. -/
def lineOf (is : List Instr) : Nat := (is.map (fun i => (encode i).getD 0)).zipIdx.foldl (fun n (w, k) =>
  n + w.toNat * 2 ^ (96 * k) + if slotParity w then 2 ^ (480 + k) else 0) 0
def sChain (en : Word) (stop : Option Nat) : State := { s0 with
  h := { h0 with pc := 0x20000, vl := 20, stop := stop, fenable := en, v := h0.v.set 1 (BitVec.ofNat _ (0x3F800000 * 2 ^ (32 * 17))) }
  mem := memWrite [] 0x50000 64 (lineOf [.vdiv 0 1 (.reg 2) kf, .vadd 7 0 (.reg 3) kf, .nop, .nop, .nop]) }
def okFetch (r : Check × State) (i : Instr) (m : Option Instr) (s : State) : Bool :=
  match r with
  | (.ok j k, t) => decide (j = i) && decide (k = m) && t == s
  | _ => false
theorem fetch_of {r : Check × State} {i : Instr} {m : Option Instr} {s : State} (h : okFetch r i m s = true) : r = (.ok i m, s) := by
  unfold okFetch at h
  split at h
  · simp only [Bool.and_eq_true, decide_eq_true_eq, beq_iff_eq] at h
    rw [h.1.1, h.1.2, h.2]
  · cases h
/-- What `Chains` asks for of a producer that marks nothing, so that the state between the two is the state itself. -/
def AskedChain (i : Instr) (d : Reg) (b : VSrc) (k : VCtl) (s : State) (r : Rules.Row) : Prop :=
  Rules.arithRow i = some r ∧ (∃ g, r.dst = .vec 0 g k.et.regBytes) ∧ i.wf = true ∧ (Instr.vadd d 0 b k).wf = true ∧ b ≠ .reg 0 ∧ d ≠ 0 ∧
    s.Plain ∧ s.Uncounted ∧ s.h.lanes ≤ 32 ∧ s.h.binds = [] ∧ s.h.cmds = [] ∧ s.Unwatched ∧ s.h.vl ≤ 24576 ∧
    fetchCheck s s.h (seqNext s.h.pc) none false = (.ok (.vadd d 0 b k) none, s) ∧ endLevel { s.h with pc := seqNext s.h.pc } = none ∧
    r.Fits s ∧ (Rules.linked (fun _ => 0) d b k).Fits s ∧ r.marked s.h = []
open Rows in
theorem asked_chain {s : State} (h : (okPlain s && okUncounted s && decide (s.h.lanes ≤ 32) && decide (s.h.binds = []) &&
      decide (s.h.cmds = []) && decide (barWords s s.h = []) && decide (s.h.vl ≤ 24576) &&
      (endLevel { s.h with pc := seqNext s.h.pc }).isNone) = true)
    (hf : okFetch (fetchCheck s s.h (seqNext s.h.pc) none false) (.vadd 7 0 (.reg 3) kf) none s = true)
    (h1 : okFits (Rules.row2 0 1 (.reg 2) kf (fun _ => vDiv) (fun x _ => x)) s = true)
    (h2 : okFits (Rules.linked (fun _ => 0) 7 (.reg 3) kf) s = true) :
    AskedChain (.vdiv 0 1 (.reg 2) kf) 7 (.reg 3) kf s (Rules.row2 0 1 (.reg 2) kf (fun _ => vDiv) (fun x _ => x)) := by
  simp only [Bool.and_eq_true, decide_eq_true_eq, Option.isNone_iff_eq_none] at h
  obtain ⟨⟨⟨⟨⟨⟨⟨a, b⟩, c⟩, d⟩, e⟩, f⟩, g⟩, k⟩ := h
  exact ⟨rfl, ⟨_, rfl⟩, by decide, by decide, by decide, by decide, plain_of a, uncounted_of b, c, d, e, f, g, fetch_of hf, k, fits_of h1,
    fits_of h2, rfl⟩
/-- No flag is enabled; a pre-emption after one group; DZ is enabled. -/
theorem met_Chains :
    let r := Rules.row2 0 1 (.reg 2) kf (fun _ => vDiv) (fun x _ => x)
    let ask (s : State) : Prop := AskedChain (.vdiv 0 1 (.reg 2) kf) 7 (.reg 3) kf s r
    ask (sChain 0 none) ∧ ask (sChain 0 (some 1)) ∧ ask (sChain 8 none) ∧
    (let s := sChain 0 none
     s.Unstopped ∧ (r.flags s ||| (Rules.linked (r.after s) 7 (.reg 3) kf).flags s) &&& s.h.fenable.setWidth 5 = 0) ∧
    (let s := sChain 0 (some 1)
     s.h.stop = some 1 ∧ s.h.pause = none ∧ inh s.h = false ∧ Nat.max 1 (s.h.lanes * 16 / 4) = 16 ∧ 1 ≤ (s.h.vl + 15) / 16 ∧
       s.h.fenable.setWidth 5 = (0 : Fl)) ∧
    (let s := sChain 8 none
     s.Unstopped ∧ inh s.h = false ∧ s.h.floor = 0 ∧ (List.range s.h.vl).filter (r.traps s) = [17] ∧
       (Rules.linked (fun j => if r.traps s j then 0 else r.after s j) 7 (.reg 3) kf).flags s &&& s.h.fenable.setWidth 5 = 0) :=
  ⟨asked_chain (by decide +kernel) (by decide +kernel) (by decide +kernel) (by decide +kernel), asked_chain (by decide +kernel) (by decide +kernel) (by decide +kernel) (by decide +kernel), asked_chain (by decide +kernel) (by decide +kernel) (by decide +kernel) (by decide +kernel),
    ⟨⟨rfl, rfl⟩, by decide +kernel⟩, by decide +kernel, ⟨rfl, rfl⟩, by decide +kernel⟩

/-! Bound streams, boundaries, engines, sends. -/

/-- A control block at 0x20040, its fields as words: base, count and control; v8 with a queue of strips. -/
def sBlock (ctl : Nat) (bs : List Binding) : State := { sx 0x20040 0 with
  h := { (sx 0x20040 0).h with binds := bs }
  mem := memWrite (memWrite (memWrite (memWrite [] 0x50040 8 0x20100) 0x50060 8 10) 0x50068 8 ctl) 0x50100 8 0x0000000500000004 }
/-- A control word for I32, its SCALEET F32. -/
def ctlI : Nat := ET.i32.code.toNat + ET.f32.code.toNat * 2 ^ 19
def b8 : Binding :=
  { reg := 8, et := .i32, block := 0x20040, base := 0x20100, index := 0, stride := 0, scale := 0, count := 10, ctl := BitVec.ofNat 64 ctlI
    strip := 4, popped := 0, queue := [] }
theorem met_BoundStreams : (Instr.vbind 8 1 0 .i32).wf = true ∧ (sBlock ctlI []).Plain ∧ (sBlock ctlI []).Uncounted ∧ (sBlock ctlI []).h.cmds = [] ∧
    (sBlock ctlI []).h.ringctl.getLsbD 0 = false ∧ (xGet (sBlock ctlI []).h 1 + (0 : BitVec 32).signExtend 64).toNat % 64 = 0 ∧
    (sBlock ctlI []).Mapped (xGet (sBlock ctlI []).h 1 + (0 : BitVec 32).signExtend 64) 64 0x50040 ∧
    (let s := sBlock ctlI []
     let w (k : Nat) : Word := BitVec.ofNat 64 (memRead s.mem (0x50040 + 8 * k) 8)
     let ctl := (w 5).toNat
     ctl / 2 ^ 28 = 0 ∧ ctl / 2 ^ 5 % 2 ^ 9 = 0 ∧ w 6 = 0 ∧ w 7 = 0 ∧ ctl / 2 ^ 14 % 4 = 0 ∧ ctl / 2 ^ 16 % 8 ≤ 4 ∧ ctl % 32 = ET.i32.code.toNat ∧
       w 3 = 0 ∧ ctl / 2 ^ 19 % 32 = ET.f32.code.toNat ∧ s.h.vl ≠ 0 ∧ ET.i32.isBlock = false ∧
       (s.h.binds.filter (fun b => b.reg ≠ vPhys s.h 8)).length < 4 ∧
       ctl % 2 ^ 19 = ET.i32.code.toNat ∧ ET.i32.inVI = true ∧ (w 0).toNat % 4 = 0 ∧ 0 < min (4 * s.h.vl) (w 4).toNat ∧
       min (4 * s.h.vl) (w 4).toNat = 10) ∧
    (sBlock ctlI []).Mapped (BitVec.ofNat 64 (memRead (sBlock ctlI []).mem 0x50040 8)) 40 0x50100 ∧
    (let s := sBlock (2 ^ 28) []
     inh s.h = false ∧ barWords s s.h = [] ∧ memRead s.mem 0x50068 8 / 2 ^ 28 ≠ 0) ∧
    (let c := memRead (sBlock (ctlI + 27 * 2 ^ 19) []).mem 0x50068 8 / 2 ^ 19 % 32
     c ≠ ET.f32.code.toNat ∧ c ≠ ET.bf16.code.toNat) ∧
    (let s := sBlock ctlI [b8]
     bindingOf s.h (8 : Reg).toNat = some b8 ∧ b8.ctl.toNat % 2 ^ 19 = b8.et.code.toNat ∧ b8.et.inVI = true ∧ b8.scale = 0 ∧
       b8.queue.length < 4 ∧ (∀ st ∈ b8.queue, st.fault = none) ∧ min b8.strip (b8.count.toNat - b8.popped) = 4 ∧
       b8.base.toNat % (b8.et.memBits / 8) = 0) ∧
    (sBlock ctlI [b8]).Mapped b8.base 16 0x50100 :=
  ⟨by decide, ⟨rfl, rfl, rfl⟩, uncounted_of rfl, rfl, rfl, by decide +kernel, mapped_of (by decide +kernel), by decide +kernel,
    mapped_of (by decide +kernel), by decide +kernel, by decide +kernel, by decide +kernel, mapped_of (by decide +kernel)⟩
theorem met_RegisterWindows : (Instr.vopen 5).wf = true ∧ (Instr.vopen 47).wf = true ∧ s0.Plain ∧ s0.Uncounted ∧ s0.h.ringctl.getLsbD 0 = false :=
  ⟨by decide, by decide, ⟨rfl, rfl, rfl⟩, uncounted_of rfl, rfl⟩

/-- Four traps are pending: the engine's, of the least order, comes first. -/
def pEng : Pend := ⟨8, 5, 6, true, true, 2, none⟩
def sPend : State := { s0 with h := { h0 with pend := [⟨18, 0, 1, false, false, 0, none⟩, ⟨17, 5, 6, true, false, 3, none⟩, pEng, ⟨20, 1, 1, false, false, 0, none⟩]
                                              sip := 3, sie := 2 } }
theorem met_Boundaries : sPend.h.replay = none ∧ inh sPend.h = false ∧
    sPend.h.pend = [⟨18, 0, 1, false, false, 0, none⟩, ⟨17, 5, 6, true, false, 3, none⟩] ++ pEng :: [⟨20, 1, 1, false, false, 0, none⟩] ∧
    (∀ q ∈ [(⟨18, 0, 1, false, false, 0, none⟩ : Pend), ⟨17, 5, 6, true, false, 3, none⟩], Rules.sooner pEng q) ∧
    (∀ q ∈ [(⟨20, 1, 1, false, false, 0, none⟩ : Pend)], ¬ Rules.sooner q pEng) ∧ pEng.code < 256 ∧ sPend.h.sip &&& sPend.h.sie ≠ 0 ∧
    sPend.h.mode = .U ∧ hartExists sPend.h = true := by
  unfold Rules.sooner
  decide +kernel

/-- A parked hart. -/
def parkedAt (s : State) (p : Park) : State := { s with h := { s.h with run := .parked p } }
def sBarWait : State := parkedAt (sBar 0x100000002 [⟨0x20000, 0, false⟩]) (.bar 0x20000)
def sIrq : State := { s0 with h := { h0 with run := .parked .wfi, sip := 1, sie := 1 } }
/-- A word that differs from what `waiteq` saw, and one with VALID. -/
def sWord (v : Nat) (p : Park) : State := parkedAt { s0 with mem := memWrite [] 0x50000 8 v } p
theorem met_Wakes : (sWord 3 (.waiteq 0x20000 5)).Mapped 0x20000 8 0x50000 ∧
    BitVec.ofNat 64 (memRead (sWord 3 (.waiteq 0x20000 5)).mem 0x50000 8) ≠ (5 : Word) ∧
    (sWord (2 ^ 63 + 3) (.dwait .G 0x20000)).Mapped 0x20000 8 0x50000 ∧
    memRead (sWord (2 ^ 63 + 3) (.dwait .G 0x20000)).mem 0x50000 8 / 2 ^ 63 = 1 ∧ sIrq.h.run = .parked .wfi ∧
    sIrq.h.sip &&& sIrq.h.sie ≠ 0 ∧ sBarWait.h.run = .parked (.bar 0x20000) ∧
    sBarWait.h.barWait.find? (fun b => b.ea == 0x20000) = some ⟨0x20000, 0, false⟩ ∧
    sBarWait.Mapped 0x20000 8 0x50000 ∧ memRead sBarWait.mem 0x50000 8 / 2 ^ 32 % 2 ^ 16 ≠ (0 : BitVec 16).toNat ∧
    (let s := parkedAt (sRec { r9 with set := 1 } 0 0) .farm
     s.h.run = .parked .farm ∧ recOf s s.h = some { r9 with set := 1 } ∧ s.h.record ≠ 0 ∧ s.h.fgen ≠ ({ r9 with set := 1 } : Rec).set) ∧
    (let r := { r9 with done := 6 }
     let s := parkedAt (sRec r 0 0) .farm
     recOf s s.h = some r ∧ r.done = r.total ∧ ∀ h ∈ s.h :: s.others, hartExists h = true → h.record = r.id → h.fgen = r.set) ∧
    (parkedAt s0 .hexit).h.run = .parked .hexit ∧ (parkedAt s0 .hexit).h.cmds = [] ∧ (parkedAt s0 .hexit).h.ending = none :=
  ⟨mapped_of (by decide +kernel), by decide +kernel, mapped_of (by decide +kernel), by decide +kernel, rfl, by decide +kernel, rfl,
    by decide +kernel, mapped_of (by decide +kernel), by decide +kernel, by decide +kernel, by decide +kernel, rfl, rfl, rfl⟩

/-- A copy that has not begun, to and from mapped bytes; from a page without a leaf; ended; suspended. -/
theorem met_EngineSteps : (sCmds [cpyIn 2 .notBegun]).Inv ∧ (sCmds [cpyIn 2 .notBegun]).Uncounted ∧
    (∀ k ∈ [cpyIn 0 .running], k.entry ≠ (cpyIn 2 .notBegun).entry) ∧
    (let c := cpyIn 2 .notBegun
     c.instr = .cpy 5 1 2 3 .G .G .core ∧ c.ops = [0x20100, 0, 0x20200, 0, BitVec.ofNat 64 4, 0] ∧ c.st = .notBegun ∧ c.unit = 0) ∧
    (sCmds [cpyIn 2 .notBegun]).Mapped 0x20100 4 0x50100 ∧ (sCmds [cpyIn 2 .notBegun]).Mapped 0x20200 4 0x50200 ∧
    isErr (translate s0 s0.h .load 0x30000 4) (fun f => f.code == 8 && f.va == 0x30000 && f.sub == 0) = true ∧
    (cpyIn 2 .ended).st = .ended ∧ (5 : Reg) ≠ 0 ∧ (cpyIn 2 .suspended).st = .suspended :=
  ⟨rfl, uncounted_of rfl, by decide +kernel, by decide +kernel, mapped_of (by decide +kernel), mapped_of (by decide +kernel), by decide +kernel, rfl,
    by decide, rfl⟩

/-- One live element, element 1, for node 40: a hart of place 40 with room in its ring, with none, and no hart there. -/
def o40 : Hart := { h0 with gid := 40, slabs := [5, 6] }
def sSend (os : List Hart) (tail : Nat) : State := { s0 with
  h := { h0 with v := (h0.v.set 1 (7 * 2 ^ 32 : Nat)).set 2 (40 * 2 ^ 32 : Nat), w := h0.w.set 0 (0x7FFF * 2 ^ 16 : Nat) }
  others := os, mem := memWrite (memWrite [] (ringBase o40 5 + 458736) 8 5) (ringBase o40 5 + 458744) 8 tail }
theorem met_SendElement : (sSend [o40] 9).Inv ∧ (Instr.vsend 1 2 kf).wf = true ∧ (sSend [o40] 9).Plain ∧ (sSend [o40] 9).Uncounted ∧
    (let s := sSend [o40] 9
     s.h.lanes ≤ 32 ∧ s.h.binds = [] ∧ s.h.stop = none ∧ s.h.pause = none ∧ s.h.sending = none ∧ s.h.cmds = [] ∧ s.h.vl ≤ s.h.lanes * 768 * 1 / 4 ∧ s.h.vl ≤ 24576 ∧
       s.h.vstart ≤ 1 ∧ 1 < s.h.vl ∧ (∀ i, i < s.h.vl → (liveAt s.h 0 true i = true ↔ i = 1)) ∧ s.h.gid < 768 ∧
       Rules.elemAt s.h (Rules.idxField 2 kf) 1 = 40 ∧ 40 / 1024 = s.d.devid.toNat ∧ findHart s 40 = some o40 ∧ o40.ctxid = s.h.ctxid) ∧
    RingHasRoom (sSend [o40] 9).mem o40 5 ∧ RingHasRoom (sSend [o40] 4100).mem o40 5 ∧ ¬ RingHasRoom (sSend [o40] 4101).mem o40 5 ∧
    findHart (sSend [] 9) 40 = none ∧ (40, (sSend [] 9).h.ctxid) ∉ (sSend [] 9).d.saves ∧ inh (sSend [] 9).h = false := by
  refine ⟨by unfold State.Inv; decide +kernel, by decide, ⟨by decide +kernel, rfl, rfl⟩, uncounted_of rfl, by decide +kernel, ?_, ?_, ?_, by decide +kernel⟩ <;>
    · unfold RingHasRoom
      decide +kernel

/-- Two elements of the type at HEAD, across the end of the ring, and one of another type. -/
def ringWord (et : ET) (src elem : Nat) : Nat := 2 ^ 63 + et.code.toNat * 2 ^ 35 + elem * 2 ^ 20 + src
def sTake : State := { s0 with
  h := { h0 with slabs := [5, 6] }
  mem := memWrite (memWrite (memWrite (memWrite [] (ringBase h0 5 + 458736) 8 4095) (ringBase h0 5 + 524272) 16 (0x11 + ringWord .f32 40 3 * 2 ^ 64))
    (ringBase h0 5 + 458752) 16 (0x22 + ringWord .f32 41 3 * 2 ^ 64)) (ringBase h0 5 + 458768) 16 (0x33 + ringWord .i32 41 3 * 2 ^ 64) }
theorem met_ReceiveElements : sTake.Inv ∧ (Instr.vrecv 1 2 5 kf).wf = true ∧ sTake.Plain ∧ sTake.Uncounted ∧
    (let base := ringBase sTake.h 5
     let head := memRead sTake.mem (base + 458736) 8
     let word (i : Nat) : Nat := memRead sTake.mem (base + 458752 + 16 * ((head + i) % 4096) + 8) 8
     sTake.h.lanes ≤ 32 ∧ sTake.h.binds = [] ∧ sTake.h.cmds = [] ∧ sTake.h.ringctl.getLsbD 0 = false ∧ sTake.h.vstart = 0 ∧ 2 ≤ sTake.h.vl ∧
       sTake.h.vl ≤ sTake.h.lanes * 768 * 1 / 4 ∧ sTake.h.gid < 768 ∧
       sTake.h.slabs = [5, 6] ∧ 2 ≤ 4096 ∧ poisoned sTake.d.poison (base + 458736) 8 = false ∧
       (∀ i, i ≤ 2 → poisoned sTake.d.poison (base + 458752 + 16 * ((head + i) % 4096)) 16 = false) ∧
       (∀ i, i < 2 → word i / 2 ^ 63 = 1 ∧ word i / 2 ^ 35 % 32 = ET.f32.code.toNat) ∧ word 2 / 2 ^ 35 % 32 ≠ ET.f32.code.toNat) :=
  ⟨by unfold State.Inv; decide +kernel, by decide, ⟨by decide +kernel, rfl, rfl⟩, uncounted_of rfl, by decide +kernel⟩

theorem met_SendSteps : (sSend [o40] 9).Inv ∧ findHart (sSend [o40] 9) 40 = some o40 ∧ o40.slabs = [5, 6] ∧ RingHasRoom (sSend [o40] 9).mem o40 5 ∧
    (let s := parkedAt (sSend [o40] 9) (.sendSlot 40)
     s.Inv ∧ s.h.run = .parked (.sendSlot 40) ∧ 40 / 8 % 32 < 24 ∧ findHart s 40 = some o40 ∧ o40.ctxid = s.h.ctxid) ∧
    (let s := parkedAt s0 (.sendPlace 40)
     s.Inv ∧ s.h.run = .parked (.sendPlace 40) ∧ 40 / 1024 = s.d.devid.toNat) := by
  unfold RingHasRoom State.Inv
  decide +kernel

/-! One unit of each engine command. -/

/-- A command at unit `u`, another behind it; tiles 1 and 5 of the core, memory `m`. -/
def cmdE (i : Instr) (ops : List Word) (cfg : MatCfg) (u : Nat) : Cmd := { cpyIn 3 .notBegun with instr := i, ops := ops, cfg := cfg, unit := u }
def sUnit (c : Cmd) (m : Memory) (g : Hart → Hart) : State := { s0 with h := g { h0 with tiles := [1, 5], cmds := [c, cpyIn 9 .notBegun] }, mem := m }
/-- The command of a state so made may perform its unit. -/
def okForemost (s : State) : Bool :=
  s.mem.wf && okUncounted s && s.others.isEmpty && hartExists s.h && decide (s.h.gid < 768) &&
    (match s.h.cmds with
     | c :: rest => (c.st == .notBegun || c.st == .running) && rest.all (fun k => decide (k.entry ≠ c.entry))
     | [] => false)
theorem foremost_of {s : State} {c : Cmd} {rest : List Cmd} (hc : s.h.cmds = c :: rest) (h : okForemost s = true) : Rules.Foremost s c rest := by
  simp only [okForemost, hc, Bool.and_eq_true, Bool.or_eq_true, beq_iff_eq, decide_eq_true_eq, List.all_eq_true, List.isEmpty_iff] at h
  obtain ⟨⟨⟨⟨⟨h1, h2⟩, h3⟩, h4⟩, h5⟩, h6, h7⟩ := h
  exact ⟨h1, uncounted_of h2, hc, h7, h6, h4, h5, fun h hm => by rw [h3] at hm; cases hm⟩
theorem run_of {s : State} {va : Word} {n p : Nat} (h : (okMapped s va n p && decide (p < 2 ^ 42)) = true) : Rules.Run s va n p := by
  simp only [Bool.and_eq_true, decide_eq_true_eq] at h
  exact ⟨mapped_of h.1, h.2⟩
/-- A bound over two indices, checked index by index. -/
theorem both {a b : Nat} {p : Nat → Nat → Prop} (h : ∀ i, i < a → ∀ j, j < b → p i j) (i j : Nat) (hi : i < a) (hj : j < b) : p i j := h i hi j hj

/-- Two rows by three columns, twenty deep. -/
def cfg20 : MatCfg := { MatCfg.zero with m := 2, n := 3, k := 20, sa := 20, sb := 3 }
def tileMem : Memory := memWrite (memWrite [] (Rules.cellOf { h0 with tiles := [1, 5] } 0 0 0) 8 0x400000003F800000)
  (Rules.cellOf { h0 with tiles := [1, 5] } 0 1 0) 8 0x3E80000040400000
def cMul (u : Nat) : Cmd := cmdE (.mmul 5 1 2 1 .G .G .e4m3 .e4m3 .core) [0x20000, 0, 0x24000, 0, 0, 0] cfg20 u
def cMulc (u : Nat) (l : List Nat) : Cmd :=
  { cmdE (.mmulc 5 0 2 1 .G .bf16 .e4m3 .rne .core) [0, 0, 0x24000, 0, 0, 0] cfg20 u with conv := l }
def convE : List Nat × Fl × Nat :=
  Rules.converted .bf16 .f32 .rne (fun e => memRead tileMem (Rules.cellOf { h0 with tiles := [1, 5] } 0 (e / 20) (e % 20)) 4) 40 0
def cOut (reg : Bool) : Cmd :=
  { cmdE (.mout 5 0 (if reg then 0 else 2) (if reg then 7 else 0) .G reg 0 .bf16 .rne .core) [0, 0, 0x22000, 0, 0, 0] cfg20 1 with conv := if reg then [7] else [] }
/-- A tile to clear; the first chunk and the last of a product; the same from a tile; a row into memory, and into v7. -/
theorem met_EngineUnits_matrix :
    (let c := cmdE (.mzero 5 1 .core) [] cfg20 0
     Rules.Foremost (sUnit c [] id) c [cpyIn 9 .notBegun] ∧ c.instr.wf = true ∧ 0 < c.cfg.m ∧ c.cfg.m ≤ 128 ∧ 0 < c.cfg.n ∧ c.cfg.n ≤ 128 ∧
       (1 : BitVec 3).toNat < (sUnit c [] id).h.tiles.length) ∧
    (∀ u, u = 0 ∨ u = 1 → Rules.Foremost (sUnit (cMul u) tileMem id) (cMul u) [cpyIn 9 .notBegun] ∧ (cMul u).instr.wf = true ∧
      Rules.TileOk (sUnit (cMul u) tileMem id) 1 ∧ 16 * u < 20 ∧ Rules.Run (sUnit (cMul u) tileMem id) 0x20000 40 0x50000 ∧
      Rules.Run (sUnit (cMul u) tileMem id) 0x24000 60 0x54000 ∧
      (∀ i j, i < 2 → j < min 16 (20 - 16 * u) → Rules.operandEnd .e4m3 (Rules.offA cfg20 i (16 * u + j)) ≤ 40) ∧
      ∀ j n, j < min 16 (20 - 16 * u) → n < 3 → Rules.operandEnd .e4m3 (Rules.offB cfg20 (16 * u + j) n) ≤ 60) ∧
    (∀ u l, (u = 0 ∧ l = []) ∨ (u = 1 ∧ l = convE.1) → Rules.Foremost (sUnit (cMulc u l) tileMem id) (cMulc u l) [cpyIn 9 .notBegun] ∧
      (cMulc u l).instr.wf = true ∧ Rules.TileOk (sUnit (cMulc u l) tileMem id) 1 ∧ Rules.TileOk (sUnit (cMulc u l) tileMem id) 0 ∧
      Rules.Run (sUnit (cMulc u l) tileMem id) 0x24000 60 0x54000) ∧
    (∀ reg, Rules.Foremost (sUnit (cOut reg) tileMem id) (cOut reg) [cpyIn 9 .notBegun] ∧ (cOut reg).instr.wf = true ∧
      Rules.TileOk (sUnit (cOut reg) tileMem id) 0 ∧ (cOut reg).unit < 2 ∧
      Rules.Run (sUnit (cOut reg) tileMem id) (0x22000 + BitVec.ofNat 64 (3 * 2)) (2 * 3) 0x52006 ∧ (cOut true).conv = [7] ∧
      (sUnit (cOut reg) tileMem id).h.lanes ≤ 32 ∧
      (Rules.converted .bf16 .f32 .rne (fun _ => 0) 3 0).1.length = 3) := by
  unfold Rules.TileOk
  refine ⟨⟨foremost_of rfl (by decide +kernel), by decide +kernel⟩, ?_, ?_, ?_⟩
  · rintro u (rfl | rfl) <;>
      exact ⟨foremost_of rfl (by decide +kernel), by decide +kernel, by decide +kernel, by decide +kernel, run_of (by decide +kernel),
        run_of (by decide +kernel), both (by decide +kernel), both (by decide +kernel)⟩
  · rintro u l (⟨rfl, rfl⟩ | ⟨rfl, rfl⟩) <;>
      exact ⟨foremost_of rfl (by decide +kernel), by decide +kernel, by decide +kernel, by decide +kernel, run_of (by decide +kernel)⟩
  · intro reg
    cases reg <;>
      exact ⟨foremost_of rfl (by decide +kernel), by decide +kernel, by decide +kernel, by decide +kernel, run_of (by decide +kernel), by decide +kernel⟩

/-- Fibres 1 and 2 of four and three positions, the cursor of the first past one of them. -/
def fib (base count cursor pos : Nat) : Fibre :=
  { opened := true, code := 0, space := .G, pos := BitVec.ofNat 32 pos, base := BitVec.ofNat 64 base, count := BitVec.ofNat 32 count
    cursor := BitVec.ofNat 32 cursor, soff := BitVec.ofNat 64 (32 * cursor) }
def sFibres (c : Cmd) : State := sUnit c
  (memWrite (memWrite [] 0x50000 16 (2 + 4 * 2 ^ 32 + 6 * 2 ^ 64 + 8 * 2 ^ 96)) 0x51000 12 (3 + 6 * 2 ^ 32 + 9 * 2 ^ 64))
  (fun h => { h with fibres := (h.fibres.set 1 (fib 0x20000 4 1 2)).set 2 (fib 0x21000 3 0 0) })
def cSet (union : Bool) (x : Reg) (cap : Nat) : Cmd :=
  { cmdE (if union then .funion 6 1 2 x .G .core else .fisect 6 1 2 x .G .core) [0, 0, 0, 0, 0x23000, BitVec.ofNat 64 cap] MatCfg.zero 2 with count := 1 }
def cCount : Cmd := { cmdE (.fcount 6 1 3 .core) [0, 0, 7, 0, 0, 0] MatCfg.zero 0 with count := 1 }
def cSplit : Cmd := cmdE (.fsplit 6 2 4 8 .G .G .core) [0x20000, 3, 4, 0, 0x22000, 0] MatCfg.zero 0
/-- The positions that remain. -/
theorem fibre_holds (c : Cmd) (h : c = cSet true 4 9 ∨ c = cSet false 0 9 ∨ c = cSet true 4 3 ∨ c = cCount) :
    Rules.FibreHolds (sFibres c) 1 0x50000 [4, 6, 8] ∧ Rules.FibreHolds (sFibres c) 2 0x51000 [3, 6, 9] := by
  unfold Rules.FibreHolds
  rcases h with rfl | rfl | rfl | rfl <;>
    exact ⟨⟨by decide, by decide +kernel, by decide +kernel, by decide +kernel, run_of (by decide +kernel), by decide +kernel⟩,
      by decide, by decide +kernel, by decide +kernel, by decide +kernel, run_of (by decide +kernel), by decide +kernel⟩
/-- A union with room and one without, an intersection that writes nothing; a count; rows to share, and rows whose bounds fall. -/
theorem met_EngineUnits_fibre :
    (∀ c, c = cSet true 4 9 ∨ c = cSet false 0 9 ∨ c = cSet true 4 3 ∨ c = cCount → Rules.Foremost (sFibres c) c [cpyIn 9 .notBegun] ∧ c.status = 0 ∧
      Rules.FibreHolds (sFibres c) 1 0x50000 [4, 6, 8] ∧ Rules.FibreHolds (sFibres c) 2 0x51000 [3, 6, 9]) ∧
    (let r := Rules.merged true (some 8) 256 [4, 6, 8] [3, 6, 9] []
     r.2.2.2 = some 0 ∧ Rules.Run (sFibres (cSet true 4 9)) (0x23000 + BitVec.ofNat 64 4) (4 * r.1.length) 0x53004) ∧
    (let r := Rules.merged true (some 2) 256 [4, 6, 8] [3, 6, 9] []
     r.2.2.2 = some 5 ∧ Rules.Run (sFibres (cSet true 4 3)) (0x23000 + BitVec.ofNat 64 4) (4 * r.1.length) 0x53004) ∧
    (∀ m, m = memWrite [] 0x50000 16 (1 + 3 * 2 ^ 32 + 3 * 2 ^ 64 + 8 * 2 ^ 96) ∨ m = memWrite [] 0x50000 8 (1 + 3 * 2 ^ 32) →
      Rules.Foremost (sUnit cSplit m id) cSplit [cpyIn 9 .notBegun] ∧ Rules.Run (sUnit cSplit m id) 0x20000 16 0x50000 ∧
      Rules.Run (sUnit cSplit m id) (0x22000 + BitVec.ofNat 64 0) 20 0x52000) ∧
    (∀ r, r < 3 → memRead (memWrite [] 0x50000 16 (1 + 3 * 2 ^ 32 + 3 * 2 ^ 64 + 8 * 2 ^ 96)) (0x50000 + 4 * r) 4 ≤
      memRead (memWrite [] 0x50000 16 (1 + 3 * 2 ^ 32 + 3 * 2 ^ 64 + 8 * 2 ^ 96)) (0x50000 + 4 * (r + 1)) 4) ∧
    ∃ r, r < 3 ∧ memRead (memWrite [] 0x50000 8 (1 + 3 * 2 ^ 32)) (0x50000 + 4 * (r + 1)) 4 <
      memRead (memWrite [] 0x50000 8 (1 + 3 * 2 ^ 32)) (0x50000 + 4 * r) 4 := by
  refine ⟨fun c h => ⟨?_, ?_, fibre_holds c h⟩, ⟨by decide +kernel, run_of (by decide +kernel)⟩, ⟨by decide +kernel, run_of (by decide +kernel)⟩, ?_,
    by decide +kernel, 1, by decide +kernel⟩
  · rcases h with rfl | rfl | rfl | rfl <;> exact foremost_of rfl (by decide +kernel)
  · rcases h with rfl | rfl | rfl | rfl <;> rfl
  · rintro m (rfl | rfl) <;> exact ⟨foremost_of rfl (by decide +kernel), run_of (by decide +kernel), run_of (by decide +kernel)⟩

def cDisp (i : Instr) (ops : List Word) (u : Nat) : Cmd := cmdE i ops MatCfg.zero u
theorem met_EngineUnits_dispatch :
    (let c := cDisp (.dput 5 1 2 3 .G .G 0x77 .core) [0x20100, 0, 0x20200, 0, 24, 0] 0
     Rules.Foremost (sUnit c [] id) c [cpyIn 9 .notBegun] ∧ Rules.Run (sUnit c [] id) 0x20100 32 0x50100 ∧ Rules.Run (sUnit c [] id) 0x20200 24 0x50200) ∧
    (let c := cDisp (.dclose 5 1 2 3 .G .G 0x77 .core) [0x20100, 0, 3, 0, 0x20200, 0] 2
     Rules.Foremost (sUnit c [] id) c [cpyIn 9 .notBegun] ∧ c.unit < 3 ∧ Rules.Run (sUnit c [] id) (0x20200 + BitVec.ofNat 64 8) 4 0x50208 ∧
       Rules.Run (sUnit c [] id) (0x20100 + BitVec.ofNat 64 16) 8 0x50110) :=
  ⟨⟨foremost_of rfl (by decide +kernel), run_of (by decide +kernel), run_of (by decide +kernel)⟩,
    foremost_of rfl (by decide +kernel), by decide +kernel, run_of (by decide +kernel), run_of (by decide +kernel)⟩

def cPout (pip : List (BitVec 128)) (cap : Word) : Cmd :=
  { cmdE (.pout 2 4 4 6 .G .core) [0, 0, 0x30000, 5, 0x20100, cap] MatCfg.zero 0 with walk := pip }
def sPout (c : Cmd) : State := { sUnit c [] id with d := { s0.d with regions := [(5, g5)] } }
/-- A fill; the second row of a copy by rows, its addresses descending; a copy out at its end, of a line that is gone, of one without room, and
of one with room. -/
theorem met_EngineUnits_copy :
    (let c := cDisp (.cfill 5 1 2 3 .G 1 .core) [0x20100, 0, 0x123456, 0, 24, 0] 0
     Rules.Foremost (sUnit c [] id) c [cpyIn 9 .notBegun] ∧ Rules.Run (sUnit c [] id) 0x20100 24 0x50100 ∧ 24 % 2 ^ (1 : BitVec 2).toNat = 0) ∧
    (let c := cDisp (.cpys 5 2 4 6 .G .G .core) [0x20100, 0x1000, 0x20200, -32, 24 + 3 * 2 ^ 32, 0] 1
     Rules.Foremost (sUnit c [] id) c [cpyIn 9 .notBegun] ∧ c.unit < (c.ops.getD 4 0).toNat / 2 ^ 32 ∧
       (∀ r, r ≤ c.unit → (c.ops.getD 0 0 + BitVec.ofNat 64 r * c.ops.getD 1 0).toNat % 4096 + 24 ≤ 4096) ∧
       Rules.Run (sUnit c [] id) (0x20100 + BitVec.ofNat 64 1 * 0x1000) 24 0x51100 ∧
       Rules.Run (sUnit c [] id) (0x20200 + BitVec.ofNat 64 1 * -32) 24 0x501E0) ∧
    (∀ c, c = cPout [] 256 ∨ c = cPout [0x600] 256 ∨ c = cPout [0x500] 64 ∨ c = cPout [0x500] 256 →
      Rules.Foremost (sPout c) c [cpyIn 9 .notBegun] ∧ (regionGet (sPout c) (c.ops.getD 3 0).toNat).pending = []) ∧
    g5.find 0x600 = none ∧ g5.find 0x500 = some ⟨0x500, false, 9, 1⟩ ∧ (∀ y ∈ g5.lines, y.pip = 0x500 → y = ⟨0x500, false, 9, 1⟩) ∧
    Rules.Run (sPout (cPout [0x500] 256)) (0x20100 + BitVec.ofNat 64 0) 128 0x50100 ∧
    (∀ cap, lineBad (sPout (cPout [0x500] cap)) 5 g5 0x500 = false) ∧
    (let c := cPout [0x500] 256
     Rules.Foremost (sBadLine (sPout c)) c [cpyIn 9 .notBegun] ∧ lineBad (sBadLine (sPout c)) 5 g5 0x500 = true) := by
  refine ⟨⟨foremost_of rfl (by decide +kernel), run_of (by decide +kernel), by decide⟩,
    ⟨foremost_of rfl (by decide +kernel), by decide +kernel, by decide +kernel, run_of (by decide +kernel), run_of (by decide +kernel)⟩,
    fun c h => ?_, by decide +kernel, by decide +kernel, by decide +kernel, run_of (by decide +kernel), fun _ => rfl,
    foremost_of rfl (by decide +kernel), lineBad_sBadLine _⟩
  rcases h with rfl | rfl | rfl | rfl <;> exact ⟨foremost_of rfl (by decide +kernel), by decide +kernel⟩

/-! Queues, records, the device window, context commands, resets, Midway, the host. -/

/-- Queue 5 with some device state. -/
def sQ (q : Queue) : State := { s0 with d := { s0.d with queues := [(5, q)] } }
/-- Enabled and disabled; written; switching; idle while another waits; waiting; last of its die to have started a record. -/
def qOn : Queue := { Queue.zero with base := 0x60000, active := true, en := true, head := 2, tail := 2, shadow := 2, log2n := 3, home := 1 }
def qWait : Queue := { qOn with active := false, head := 1 }
def sTwo (q5 : Queue) : State := { s0 with
  clk := 70000
  d := { s0.d with queues := [(5, q5), (7, qWait)], masters := Vector.replicate 4 { Master.zero with rr := 5 } } }
def waitsHere (k : Nat) : Bool :=
  let w := queueGet (sTwo qOn) k
  w.home == 1 && !w.active && !w.switching && w.en && decide ((w.head - w.prog).toNat < (w.shadow - w.prog).toNat)
theorem met_Queues : (sQ Queue.zero).d.ready = true ∧ (queueGet (sQ Queue.zero) 5).en = false ∧ (0x80 : Word).getLsbD 7 = true ∧
    (0x83 : Word).getLsbD 7 = true ∧ (0x83 : Word).extractLsb' 0 5 = 3 ∧
    (queueGet (sQ qOn) 5).en = true ∧ (0 : Word).getLsbD 7 = false ∧ (queueGet (sQ qOn) 5).devfed = false ∧ (queueGet (sQ qOn) 5).active = true ∧
    (queueGet (sQ qOn) 5).switching = false ∧
    ((1 : BitVec 32) - (queueGet (sQ qOn) 5).prog).toNat ≤ ((queueGet (sQ qOn) 5).head - (queueGet (sQ qOn) 5).prog).toNat ∧
    (sTwo qOn).Uncounted ∧ (sTwo qOn).d.cc.busy = false ∧ (queueGet (sTwo qOn) 5).home < 4 ∧ (masterGet (sTwo qOn) 1).rr < 64 ∧
    (queueGet (sTwo { qOn with switching := true }) 5).switching = true ∧
    (queueGet (sTwo qOn) 5).active = true ∧ (queueGet (sTwo qOn) 5).head = (queueGet (sTwo qOn) 5).tail ∧ waitsHere 7 = true ∧
    (∀ k, k < 64 → waitsHere k = true → (7 + 63 - (masterGet (sTwo qOn) 1).rr) % 64 ≤ (k + 63 - (masterGet (sTwo qOn) 1).rr) % 64) ∧
    ((List.range 64).filter (fun k => (queueGet (sTwo qOn) k).home = 1 &&
      ((queueGet (sTwo qOn) k).active || (queueGet (sTwo qOn) k).switching))).length < 16 ∧
    (masterGet (sTwo qOn) 1).rotAt + 2 ^ 16 ≤ (sTwo qOn).clk ∧
    (∀ k, k < 64 → (queueGet (sTwo qOn) k).home = 1 → (queueGet (sTwo qOn) k).active = true → (queueGet (sTwo qOn) k).switching = false → 5 ≤ k) := by
  and_intros <;> first | exact uncounted_of rfl | decide +kernel

/-- A record of one member for core 3 of die 2, in slot 1 of its ring; the entry of context 7. -/
def qRun : Queue := { qOn with head := 1, prog := 1, log2n := 2, context := 7 }
def recNew : Rec := { r9 with
  id := 12, queue := 5, ringIdx := 1, home := 1, at_ := .head, places := [], ended := 0, exitor := 0, done := 0, total := 0, next := 0
  words := ((((Vector.replicate 8 0).set 0 0x4000).set 1 0x5008).set 6 (BitVec.ofNat 64 (2 * 2 ^ 50 + 1000))).set 7
    (BitVec.ofNat 64 (100 + 2 ^ 15 + 2 ^ 27 + 2 ^ 32)) }
def sRing (q : Queue) (rs : List Rec) (m : Master) : State := { s0 with
  clk := 70000
  mem := memWrite (memWrite (memWrite (memWrite [] 0x60040 8 0x4000) 0x701C0 8 0x30000) 0x701C8 8 0x1000) 0x701D0 8 1
  d := { s0.d with queues := [(5, q)], recs := rs, ctxtab := 0x70004, masters := (Vector.replicate 4 Master.zero).set 1 m } }
/-- Its ring readable, and not; its record there, with a wait word at 0x20000 that the first leaf translates, or none does. -/
def recWait : Rec := { recNew with words := (recNew.words.set 2 0x20000).set 3 5 }
def okWith {α β : Type} (r : Except α β) : Prop := ∃ v, r = .ok v
def errWith {α β : Type} (r : Except α β) : Prop := ∃ e, r = .error e
theorem ok_of {α β : Type} {r : Except α β} (h : isOk r (fun _ => true) = true) : okWith r := by
  cases r
  · cases h
  · exact ⟨_, rfl⟩
theorem err_of {α β : Type} {r : Except α β} (h : isErr r (fun _ => true) = true) : errWith r := by
  cases r
  · exact ⟨_, rfl⟩
  · cases h
/-- The walk from root 0x30000 finds a leaf for 0x20000, and none for 0x40000. -/
def sWaitWord : State :=
  let s := sRing qRun [recWait] Master.zero
  { s with
    mem := [(0x30000, 0x31001), (0x31000, 0x32001), (0x32000, 0x33001), (0x33000, 0x34001), (0x34010, 0x5003F)].foldl
      (fun m p => memWrite m p.1 8 p.2) s.mem }
theorem met_RecordReady :
    (let s := sRing qRun [] Master.zero
     let u := queueGet s 5
     let slot := u.base.toNat / 64 * 64 + 64 * (u.head.toNat % 2 ^ u.log2n.toNat)
     s.d.cc.busy = false ∧ u.en = true ∧ u.active = true ∧ u.switching = false ∧ u.err = false ∧ u.home < 4 ∧
       (u.tail - u.prog).toNat ≤ 2 ^ u.log2n.toNat ∧ (u.head - u.prog).toNat < (u.tail - u.prog).toNat ∧ s.d.recs = [] ∧
       u.base.getLsbD 0 = false ∧ normalPa slot = true ∧ inCarveOut s.d.pscfg slot 64 = false ∧
       poisoned s.d.poison slot 64 = false ∧ memRead s.mem (slot + 16) 8 = 0) ∧
    normalPa (({ qRun with base := 0xFF00000000000 } : Queue).base.toNat / 64 * 64 + 64) = false ∧
    Rules.ContextEntry sWaitWord recWait.ctx 0x30000 0x1000 ∧
    (let u := queueGet sWaitWord 5
     u.en = true ∧ u.active = true ∧ (u.head - u.prog).toNat < (u.tail - u.prog).toNat ∧
       (∀ r ∈ sWaitWord.d.recs, r.queue = 5 → r.at_ ≠ .held) ∧
       sWaitWord.d.recs.find? (fun x => x.queue == 5 && x.at_ == .head) = some recWait ∧ recWait.saved = [] ∧ recWait.home = u.home ∧
       Rules.recordWord recWait 2 = 0x20000 ∧ Rules.recordWord recWait 3 = 5) ∧
    okWith (rmTranslate sWaitWord 7 0x30000 .load 0x20000 8) ∧ errWith (rmTranslate sWaitWord 7 0x30000 .load 0x40000 8) ∧
    (∃ p ∈ (masterGet (sRing qRun [] { Master.zero with ready := [(5, 0)] }) 1).ready, p.2 + 2 ^ 20 ≤ 2 ^ 20) := by
  unfold Rules.ContextEntry
  exact ⟨by decide +kernel, by decide +kernel, by decide +kernel, by decide +kernel, ok_of (by decide +kernel), err_of (by decide +kernel),
    by decide +kernel⟩

def bigHart : Hart := { h0 with gid := 408, clusters := 8, lanes := 32 }
theorem startable (a : Where) : Rules.Startable (sRing qRun [{ recNew with at_ := a }] { Master.zero with ready := [(5, 0)] }) { recNew with at_ := a } 51 0x30000 0x1000 := by
  unfold Rules.Startable Rules.ContextEntry
  and_intros <;> cases a <;> decide +kernel
theorem met_RecordStarts : Rules.Startable (sRing qRun [recNew] { Master.zero with ready := [(5, 0)] }) recNew 51 0x30000 0x1000 ∧
    (let s := sRing qRun [recNew] { Master.zero with ready := [(5, 0)] }
     let u := queueGet s 5
     let m := masterGet s 1
     s.d.cc.busy = false ∧ s.d.recs.filter (fun x => x.id == recNew.id) = [recNew] ∧ s.h.gid < 768 ∧ m.held = none ∧
       (∀ x ∈ s.d.masters.toList, x.held = none ∧ x.reserved = none) ∧ m.selAt = 0 ∧ m.ready = [(recNew.queue, 0)] ∧
       s.d.recs.find? (fun x => x.queue == recNew.queue && x.at_ == .head) = some recNew ∧ u.en = true ∧ u.active = true ∧
       u.switching = false ∧ u.err = false ∧ (u.head - u.prog).toNat < (u.tail - u.prog).toNat ∧ (u.tail - u.prog).toNat ≤ 2 ^ u.log2n.toNat ∧
       hartExists bigHart = true ∧ bigHart.gid = 51 * 8 ∧ bigHart.clusters = 8 ∧ u.preempt = false) ∧
    Rules.CoreIdle (sRing qRun [recNew] { Master.zero with ready := [(5, 0)] }) 51 ∧
    (let s := sRing qRun [{ recNew with at_ := .held }] { Master.zero with ready := [(5, 0)], held := some 12, reserved := some 12 }
     (masterGet s 1).held = some recNew.id ∧ s.d.recs.filter (fun x => x.id == 12) = [{ recNew with at_ := .held }] ∧
       ∀ x ∈ s.d.masters.toList, (x.held = none ∨ x.held = some recNew.id) ∧ (x.reserved = none ∨ x.reserved = some recNew.id)) ∧
    Rules.Startable (sRing qRun [{ recNew with at_ := .held }] { Master.zero with ready := [(5, 0)] }) { recNew with at_ := .held } 51 0x30000 0x1000 ∧
    (sRing qRun [recNew] Master.zero).Uncounted := by
  refine ⟨startable .head, by decide +kernel, ?_, by decide +kernel, startable .held, uncounted_of rfl⟩
  unfold Rules.CoreIdle
  decide +kernel

/-- The held record asks for two slabs of core 3 of die 1, where another hart runs with two of them. -/
def recHeld : Rec := { recNew with
  at_ := .held
  words := (recNew.words.set 6 (BitVec.ofNat 64 (2 * 2 ^ 52))).set 7 (BitVec.ofNat 64 (100 + 2 ^ 15 + 2 ^ 26 + 2 ^ 32)) }
def sHeld : State := { sRing qRun [recHeld] { Master.zero with held := some 12 } with others := [{ h0 with gid := 216, slabs := [0, 2] }] }
theorem met_RecordPreload : Rules.ContextEntry sHeld recHeld.ctx 0x30000 0x1000 ∧
    (let free := (List.range 16).filter (fun p => !(sHeld.h :: sHeld.others).any (fun h => hartExists h && coreOf h.gid == 27 && h.slabs.contains p))
     (masterGet sHeld 1).held = some recHeld.id ∧ sHeld.d.recs.find? (fun x => x.id == recHeld.id) = some recHeld ∧ recHeld.saved = [] ∧
       (∀ x ∈ sHeld.d.masters.toList, x.preloads = []) ∧ (Rules.recordWord recHeld 7).getLsbD (25 + 1) = true ∧
       (Rules.recordWord recHeld 7).getLsbD (29 + 3) = true ∧ (∃ h ∈ sHeld.h :: sHeld.others, hartExists h = true ∧ coreOf h.gid = 27) ∧
       (Rules.recordWord recHeld 6).toNat / 2 ^ 52 % 32 = 2 ∧ free.length = 14 ∧ 1 ≤ recMembers recHeld ∧ Rules.recordWord recHeld 5 = 0) ∧ sHeld.mem.wf = true ∧
    errWith (rmTranslate sHeld recHeld.ctx 0x30000 .fetch 0x4000 64) ∧ okWith (rmTranslate sWaitWord 7 0x30000 .fetch 0x20000 64) := by
  unfold Rules.ContextEntry
  exact ⟨by decide +kernel, by decide +kernel, by decide +kernel, err_of (by decide +kernel), ok_of (by decide +kernel)⟩

/-- The one at PROG, with the next two complete; and with a SIGADDR that its context maps, or does not. -/
def recDone : Rec := { recNew with at_ := .completing, exitor := 3 }
def sDone : State := sRing { qRun with finished := [3, 2, 6] } [recDone] Master.zero
/-- The state after CTL1 is written, for the record that signals at `sig`. -/
def sSig (sig : Word) : State := { sWaitWord with
  mem := memWrite sWaitWord.mem 0x60078 8 (100 + 2 ^ 15 + 2 ^ 27 + 2 ^ 32 + 2 * 2 ^ 53 + 3 * 2 ^ 56)
  d := { sWaitWord.d with recs := [{ recDone with
    words := (recDone.words.set 4 sig).set 7 (BitVec.ofNat 64 (100 + 2 ^ 15 + 2 ^ 27 + 2 ^ 32 + 2 * 2 ^ 53 + 3 * 2 ^ 56)) }] } }
theorem ok_ok {α β γ ε : Type} {r : Except ε (α × β)} {f : β → Except ε γ} (h : isOk r (fun p => isOk (f p.2) (fun _ => true)) = true) :
    ∃ p v, r = .ok (p, v) ∧ okWith (f v) := by
  cases r
  · cases h
  · exact ⟨_, _, rfl, ok_of h⟩
theorem met_RecordCompletes_signal : Rules.ContextEntry (sSig 0x20000) 7 0x30000 0x1000 ∧
    (∃ p v, rmTranslate (sSig 0x20000) 7 0x30000 .load 0x20000 8 = .ok (p, v) ∧ okWith (rmTranslate v 7 0x30000 .store 0x20000 8)) ∧
    Rules.ContextEntry (sSig 0x40000) 7 0x30000 0x1000 ∧ errWith (rmTranslate (sSig 0x40000) 7 0x30000 .load 0x40000 8) := by
  unfold Rules.ContextEntry
  exact ⟨by decide +kernel, ok_ok (by decide +kernel), by decide +kernel, err_of (by decide +kernel)⟩
theorem met_RecordCompletes :
    (let u := queueGet sDone 5
     sDone.d.cc.busy = false ∧ sDone.d.recs.find? (fun x => x.id == recDone.id) = some recDone ∧ u.base.getLsbD 0 = false ∧
       normalPa (u.base.toNat / 64 * 64 + 64 * (recDone.ringIdx.toNat % 2 ^ u.log2n.toNat)) = true ∧
       inCarveOut sDone.d.pscfg (u.base.toNat / 64 * 64 + 64 * (recDone.ringIdx.toNat % 2 ^ u.log2n.toNat)) 64 = false ∧ Rules.recordWord recDone 4 = 0 ∧
       recDone.ringIdx = u.prog ∧ u.finished.Nodup ∧ (∀ k, k ≤ 2 → 1 ≤ k → u.prog + BitVec.ofNat 32 k ∈ u.finished) ∧ u.prog ∉ u.finished ∧
       u.prog + BitVec.ofNat 32 (2 + 1) ∉ u.finished) ∧ sDone.mem.wf = true := by decide +kernel

/-- A record whose BUDGET runs out now; with no room to resume it; its hart beside one of the supervisor; and stopped at a wait. -/
def recBud : Rec := { r9 with budget := 100, started := 100, counted := 69900, places := [33] }
def sBud (r : Rec) (m : Master) : State := { sRing qRun [r] Master.zero with
  h := { h0 with stop := some 0, run := .parked (.waiteq 0x20000 5) }
  d := { (sRing qRun [r] Master.zero).d with masters := Vector.replicate 4 m } }
def sAsk : State := { sRing qRun [recBud] Master.zero with others := [{ h0 with gid := 40, record := 4, mode := .S }] }
theorem met_RecordsStop : (sBud recBud Master.zero).Uncounted ∧ (sBud recBud Master.zero).Inv ∧ sAsk.Uncounted ∧
    (let s := sBud recBud Master.zero
     s.d.recs.find? (fun x => x.id == recBud.id) = some recBud ∧ recBud.at_ = .running ∧ recBud.stopping = none ∧ recBud.budget ≠ 0 ∧
       recBud.counted + recBud.budget ≤ s.clk ∧
       ¬ 64 ≤ (masterGet s recBud.home).resume.length +
         (s.d.recs.filter (fun x => x.home == recBud.home && x.at_ == .running && x.stopping.isSome)).length ∧
       64 ≤ (masterGet (sBud recBud { Master.zero with resume := List.range 64 }) recBud.home).resume.length) ∧
    (sAsk.d.recs.find? (fun x => x.id == recBud.id) = some recBud ∧ recOf sAsk sAsk.h = some recBud ∧ hartExists sAsk.h = true ∧
      (∃ h ∈ sAsk.others, h.gid ≠ sAsk.h.gid ∧ hartExists h = true ∧ h.mode = .S) ∧
      ¬ 64 ≤ (masterGet sAsk recBud.home).resume.length +
        (sAsk.d.recs.filter (fun x => x.home == recBud.home && x.at_ == .running && x.stopping.isSome)).length) ∧
    (∀ why, why = .budget ∨ why = .preempt →
     let s := sBud { recBud with stopping := some why } Master.zero
     let u := queueGet s 5
     let slot := u.base.toNat / 64 * 64 + 64 * (recBud.ringIdx.toNat % 2 ^ u.log2n.toNat)
     s.d.cc.busy = false ∧ s.d.regions = [] ∧ recOf s s.h = some { recBud with stopping := some why } ∧ s.h.record ≠ 0 ∧ recBud.home < 4 ∧
       recBud.places = [s.h.gid] ∧ recBud.saved = [] ∧ recBud.queue < 64 ∧ u.base.getLsbD 0 = false ∧
       normalPa slot = true ∧ inCarveOut s.d.pscfg slot 64 = false ∧ why ≠ .pack ∧
       s.d.recs.filter (fun x => x.id == recBud.id) = [{ recBud with stopping := some why }] ∧ s.h.run = .parked (.waiteq 0x20000 5) ∧
       s.h.stop = some 0 ∧ inh s.h = false ∧
       s.h.second = false ∧ s.h.replay = none ∧ s.h.sending = none ∧ s.h.pend = [] ∧ s.h.sip &&& s.h.sie = 0) := by
  refine ⟨uncounted_of rfl, by unfold State.Inv; decide +kernel, uncounted_of rfl, by decide +kernel, by decide +kernel, ?_⟩
  rintro why (rfl | rfl) <;> decide +kernel

theorem met_DeviceWindow : s0.d.ready = true ∧ (regionGet s0 255).en = false ∧ (regionGet (sPip 0 g5) 5).en = true ∧ (1 : Word).getLsbD 0 = true ∧
    (0 : Word).getLsbD 0 = false ∧ (0x10000 : Word).getLsbD 16 = true ∧ s0.d.throt = false ∧
    ({ s0.d with throt := true } : Dev).throt = true ∧ ({ s0.d with ready := false } : Dev).ready = false := by decide +kernel

/-- A context command's registers: buffer at 0x200000, bitmap at 0x100000; region 6 not enabled. -/
def sCmd (size : Word) (m : Memory) : State := { sPip 0 { g5 with lines := [⟨0x500, false, 9, 1⟩] } with
  mem := m
  d := { (sPip 0 { g5 with lines := [⟨0x500, false, 9, 1⟩] }).d with
    regions := [(5, { g5 with lines := [⟨0x500, false, 9, 1⟩] }), (6, { Region.zero with key := pipKey })]
    cc := { CtxCmd.zero with cbmap := 0x100000, caddr := 0x200010, csize := size } } }
def cmdWord (ctx region op : Nat) : Word := BitVec.ofNat 64 (ctx * 2 ^ 48 + region * 2 ^ 40 + op)
/-- A line to install, its name true. -/
def mInstall : Memory := memWrite (memWrite [] 0x200000 16 (pipOf (pipName pipKey false leafData) 1).toNat) 0x200020 8 0xABCDEF0123
theorem met_ContextCommands : (sCmd 393216 []).Inv ∧ (sCmd 160 mInstall).mem.wf = true ∧
    (let s := sCmd 393216 []
     let buffer := s.d.cc.caddr.toNat / 64 * 64
     let bitmap := s.d.cc.cbmap.toNat
     s.d.ready = true ∧ s.d.cc.busy = false ∧ 8 ≤ (cmdWord 7 0 8).toNat % 16 ∧ (cmdWord 7 0 3).toNat % 16 = 3 ∧ (cmdWord 7 0 4).toNat % 16 = 4 ∧
       (cmdWord 7 0 5).toNat % 16 = 5 ∧ (sCmd 393215 []).d.cc.csize.toNat < 393216 ∧ 393216 ≤ s.d.cc.csize.toNat ∧
       (cmdWord 7 0 5).getLsbD 30 = false ∧ normalPa buffer = true ∧ buffer % 2 ^ 40 + 393216 ≤ 0xC00000000 ∧
       inCarveOut s.d.pscfg buffer 393216 = false ∧ bitmap + 393216 ≤ buffer ∧
       poisoned s.d.poison bitmap 393216 = false ∧ normalPa bitmap = true ∧ bitmap % 2 ^ 40 + 393216 ≤ 0xC00000000 ∧
       inCarveOut s.d.pscfg bitmap 393216 = false ∧ ¬ 0xBFFFF0000 % 2 ^ 40 + 393216 ≤ 0xC00000000) ∧
    (let s := sCmd 160 mInstall
     let g := regionGet s 5
     let a := s.d.cc.caddr.toNat / 64 * 64
     let k := regionGet s 6
     (cmdWord 7 5 6).toNat % 16 = 6 ∧ (cmdWord 7 5 6).getLsbD 30 = false ∧ k.en = false ∧ g.en = true ∧ g.context = (cmdWord 7 5 6).extractLsb' 48 16 ∧
       g.pending = [] ∧ g.lines.Pairwise (fun x y => x.pip.toNat < y.pip.toNat) ∧ (sCmd 159 []).d.cc.csize.toNat < 160 * g.lines.length ∧
       160 * g.lines.length ≤ s.d.cc.csize.toNat ∧ (∀ x ∈ g.lines, lineBad s 5 g x.pip = false) ∧ inCarveOut s.d.pscfg a 160 = false ∧ (cmdWord 7 6 7).toNat % 16 = 7 ∧ (sCmd 0 []).d.cc.csize = 0 ∧
       s.d.cc.csize = 160 ∧ a % 2 ^ 40 + 160 ≤ 0xC00000000 ∧ poisoned s.d.poison a 160 = false ∧ storeFull { s with d := { s.d with pscfg := s.d.pscfg.set 0 0x40000064 } } k.home = false ∧
       memRead s.mem (a + 16) 1 ≤ 1 ∧ memRead s.mem (a + 17) 3 = 0 ∧ memRead s.mem (a + 24) 8 = 0 ∧
       BitVec.ofNat 128 (memRead s.mem a 16) ≠ 0 ∧ (BitVec.ofNat 128 (memRead s.mem a 16)).toNat / 256 = pipName k.key false (BitVec.ofNat 1024 (memRead s.mem (a + 32) 128)) ∧ k.staged = []) :=
  ⟨by unfold State.Inv; decide +kernel, by decide +kernel, by decide +kernel, by decide +kernel⟩

theorem met_ContextCommands_bad :
    ∃ x ∈ (regionGet (sBadLine (sCmd 160 [])) 5).lines, lineBad (sBadLine (sCmd 160 [])) 5 (regionGet (sBadLine (sCmd 160 [])) 5) x.pip = true :=
  ⟨⟨0x500, false, 9, 1⟩, by decide +kernel, poisoned_first _⟩

/-- PACKDOWN of context 7, of which a record runs, and of context 9, which has none. -/
def sDown (rs : List Rec) : State := { sRing qRun rs Master.zero with
  h := { h0 with ctxid := 8 }
  d := { (sRing qRun rs Master.zero).d with cc := { CtxCmd.zero with caddr := 0x200010, csize := 4096 } } }
theorem met_PackDownAndSetUp : Rules.ContextEntry (sDown []) 7 0x30000 0x1000 ∧
    (let s := sDown [r9]
     let a := s.d.cc.caddr.toNat / 64 * 64
     s.d.ready = true ∧ s.d.cc.busy = false ∧ (cmdWord 7 0 1).getLsbD 30 = false ∧ normalPa a = true ∧ (cmdWord 7 0 1).toNat % 16 = 1 ∧
       (∀ m ∈ s.d.masters.toList, m.held = none) ∧ s.d.cc.cqmask = 0 ∧ (cmdWord 7 0 1).extractLsb' 48 16 = r9.ctx ∧ r9.at_ = .running ∧ r9.stopping = none ∧
       (sDown []).d.recs = [] ∧ s.d.regions = [] ∧ 4096 ≤ s.d.cc.csize.toNat ∧ a % 2 ^ 40 + 4096 ≤ 0xC00000000 ∧ inCarveOut s.d.pscfg a 4096 = false ∧
       poisoned s.d.poison a 4096 = false ∧ (∀ h ∈ s.h :: s.others, hartExists h = true → h.ctxid ≠ (7 : BitVec 16)) ∧
       memRead s.mem a 4 ≠ 0x1A494450 ∧ 64 ≤ s.d.cc.csize.toNat ∧ inCarveOut s.d.pscfg a 64 = false ∧ poisoned s.d.poison a 64 = false) ∧ (sDown []).mem.wf = true := by
  unfold Rules.ContextEntry
  decide +kernel

/-- And where the record of context 7 is on a resume list, its one member without vectors, slabs and tiles. -/
def hMid : Hart := { h0 with run := .parked (.waiteq 0x20000 5), slabs := [], tiles := [], vlcap := 0, vl := 0, dead := ~~~ 1 }
def savedMid : Saved :=
  let b := contextBits { s0 with h := hMid } hMid (liveParts s0 hMid) true false
  { gid := 33, member := 0, ctx := 7, clusters := 1, lanes := 4, slabs := 0, tiles := 0, waits := [], fgen := 0, last := true
    size := b.2, bits := b.1 }
def recMid : Rec := { recBud with words := recNew.words, at_ := .resume, places := [], saved := [savedMid] }
def sMid : State := { sDown [recMid] with
  d := { (sDown [recMid]).d with masters := (Vector.replicate 4 Master.zero).set 0 { Master.zero with resume := [9] } } }
theorem next_with {r : Res} {p : State → Prop} [DecidablePred p] (h : after r (fun t => decide (p t)) = true) : ∃ t, r = .next t ∧ p t := by
  unfold after at h
  split at h
  · exact ⟨_, rfl, of_decide_eq_true h⟩
  · cases h
theorem some_of {α : Type} {o : Option α} {p : α → Bool} (h : o.any p = true) : ∃ a, o = some a ∧ p a = true := by
  cases o
  · cases h
  · exact ⟨_, rfl, h⟩
theorem met_PackDownAndSetUp_record : sMid.mem.wf = true ∧ Rules.ContextEntry sMid 7 0x30000 0x1000 ∧
    (let s := sMid
     let a := s.d.cc.caddr.toNat / 64 * 64
     let size := (256 + savedMid.size + 63) / 64 * 64 + 256
     s.d.ready = true ∧ s.d.cc.busy = false ∧ (∀ m ∈ s.d.masters.toList, m.held = none) ∧ s.d.cc.cqmask = 0 ∧
       s.d.recs.filter (fun x => x.ctx = (7 : BitVec 16)) = [recMid] ∧ recMid.at_ = .resume ∧ recMid.stopping = none ∧ recMid.saved = [savedMid] ∧
       recMid.home < 4 ∧ (masterGet s recMid.home).resume = [recMid.id] ∧ s.d.regions = [] ∧ queueGet s 255 = Queue.zero ∧
       (∀ h ∈ s.h :: s.others, hartExists h = true → h.ctxid ≠ (7 : BitVec 16)) ∧ savedMid.member < 1024 ∧ size ≤ s.d.cc.csize.toNat ∧ size < 2 ^ 32 ∧
       a % 2 ^ 40 + size ≤ 0xC00000000 ∧ inCarveOut s.d.pscfg a size = false ∧ poisoned s.d.poison a size = false ∧
       (Rules.recordWord recMid 6).toNat / 2 ^ 62 = 0) ∧
    (sMid.d.ctxtab.extractLsb' 16 36).toNat * 2 ^ 16 + 64 * (7 : BitVec 16).toNat + 64 ≤ sMid.d.cc.caddr.toNat / 64 * 64 ∧
    ∃ t, exec (.packdown (cmdWord 7 0 1)) sMid = .next t ∧
      (let began : State := { t with d := { t.d with cc := { t.d.cc with op := 2 } } }
       (readHart began 7 (savedMid.bits % 2 ^ (8 * savedMid.size)) savedMid.size 0 0 savedMid.member).any (fun w =>
         lanesOffered began (packBytes (recMid.words.toList.map (fun w => (8, w.toNat)))) w.saved) = true) := by
  unfold Rules.ContextEntry
  exact ⟨by decide +kernel, by decide +kernel, by decide +kernel, by decide +kernel, next_with (by decide +kernel)⟩

/-- A group of 41 failures, its unit tried four times; or 31 of the last 2^24 clk; and one under diagnosis. -/
def sLane (recent : Nat) (diag : List (Nat × Nat × Nat × Nat)) : State := { s0 with
  d := { s0.d with grpFails := [(1, 3, 2, 41)], swapped := [(1, 3, 1, 5)], diag := diag, recent := List.replicate recent (1, 3, 2, 0) } }
theorem met_LaneDiagnosis : (sLane 31 []).Uncounted ∧ (0x12345 : Nat) < 2 ^ 40 ∧ 41 < 2 ^ 31 ∧
    (∀ x ∈ (sLane 31 []).d.swapped, ¬ (x.1 = 1 ∧ x.2.1 = 3 ∧ x.2.2.1 = 2)) ∧
    (sLane 31 []).d.grpFails.filter (fun x => x.1 = 1 ∧ x.2.1 = 3 ∧ x.2.2.1 = 2) = [(1, 3, 2, 41)] ∧
    ((sLane 31 []).d.blog.toList.getD 1 []).length < 64 ∧ (∀ x ∈ (sLane 31 []).d.diag, ¬ (x.1 = 1 ∧ x.2.1 = 3)) ∧ 4 ≤ 4 ∧ 4 ≤ 5 ∧
    31 ≤ ((sLane 31 []).d.recent.filter (fun x =>
      decide (x.1 = 1 ∧ x.2.1 = 3 ∧ x.2.2.1 = 2 ∧ (sLane 31 []).clk < x.2.2.2 + 2 ^ 24))).length ∧
    (sLane 0 [(1, 3, 2, 0x12345)]).Uncounted ∧ (1, 3, 2, 0x12345) ∈ (sLane 0 [(1, 3, 2, 0x12345)]).d.diag := by
  and_intros <;> first | exact uncounted_of rfl | decide +kernel

/-- A slot with which the ROM boots, and one that fails its body's digest. -/
def slotGood (d : BitVec 384) : FwSlot :=
  { edKey := Config.fusedEdKey, pqKey := Config.fusedPqKey, edSig := true, pqSig := true, digest := 7, body := d }
theorem met_Resets : s0.Inv ∧ (let f := slotGood 7
      f.edKey = Config.fusedEdKey ∧ f.pqKey = Config.fusedPqKey ∧ f.edSig = true ∧ f.pqSig = true ∧ f.body = f.digest) ∧ s0.d.fuse ≤ 0 ∧
    (slotGood 8).body ≠ (slotGood 8).digest ∧ s0.d.holding = false ∧ s0.d.bootfail = false ∧
    1 ≤ (3 : BitVec 8).toNat ∧ (3 : BitVec 8).toNat ≤ 3 := by
  refine ⟨rfl, ⟨rfl, rfl, rfl, rfl, rfl⟩, by decide, ?_, by decide, by decide, by decide, by decide⟩
  show (8 : BitVec 384) ≠ 7
  simp

/-- Ports 1 and 2 are up to device 5, one with credits and one without, port 4 with a flit without acknowledgement, port 5 is enabled and
down, port 6 has an atomic without result, port 7 a flit that waits; the place of `fl` is that of the hart. -/
def fl : Flit := { credits := 3, seq := 9, src := BitVec.ofNat 20 (5 * 1024 + 8), dst := BitVec.ofNat 20 (9 * 1024 + 33), addr := 0x50008, len := 8
                   data := 7, good := true, macGood := true }
def flBack : Flit := { fl with src := fl.dst, dst := fl.src }
def pUp : Port := { Port.zero with en := true, up := true, lanes := 8, peer := 5, credits := 20 }
def sLink (ctx : BitVec 16) (tail : Nat) : State := { s0 with
  h := { h0 with ctxid := ctx }
  mem := memWrite [] (ringBase h0 3 + 458744) 8 tail
  d := { s0.d with
    ide := true, devid := 9
    ports := [(1, pUp), (2, { pUp with credits := 0 }), (4, { pUp with unacked := [(1, flBack)] }), (5, { pUp with up := false }),
      (6, { pUp with unacked := [(4, flBack)] }), (7, { pUp with credits := 0, waiting := [(6, flBack)] })]
    routes := [(5, 0x36)] } }
def sL : State := sLink 8 0
/-- A flit that no port takes: stranded, it leaves by port 5 once that trains; or where no port is routed. -/
def sStranded (routes : Tab (BitVec 16)) : State := { sL with d := { sL.d with stranded := [(2, flBack)], routes := routes } }
theorem met_Ports_stranded : sL.d.stranded = [] ∧ (sStranded [(5, 0x20)]).d.stranded = [(2, flBack)] ∧
    (let s := sStranded [(5, 0x20)]
     let up : Port := { portGet s 5 with up := true, peer := BitVec.ofNat 10 5, lanes := 8, seq := 0, credits := Config.linkCredits s.steps }
     s.d.ide = true ∧ (portGet s 5).en = true ∧ (portGet s 5).up = false ∧ (portGet s 5).macfail = false ∧
       Rules.Routed (portPut s 5 up) (flBack.dst.toNat / 1024) 5) ∧
    (let s := sStranded []
     (portGet s 7).up = true ∧ (portGet s 7).unacked ++ (portGet s 7).waiting = [(6, flBack)] ∧
       ∀ k, k < 16 → (tabGet s.d.routes (flBack.dst.toNat / 1024) (0 : BitVec 16)).getLsbD k = true → (portGet s k).up = true → k = 7) := by
  unfold Rules.Routed
  decide +kernel
theorem met_Ports : s0.d.ready = true ∧ sL.d.ide = true ∧ (portGet sL 5).en = true ∧ (portGet sL 5).up = false ∧ (portGet sL 5).macfail = false ∧
    (portGet sL 2).up = true ∧ (portGet sL 2).lanes = 8 ∧ (portGet sL 2).unacked = [] ∧ (portGet sL 2).waiting = [] ∧
    (portGet sL 4).unacked ++ (portGet sL 4).waiting = [(1, flBack)] ∧ (portGet sL 7).unacked ++ (portGet sL 7).waiting = [(6, flBack)] ∧
    (portGet sL 4).up = true ∧ (portGet sL 7).up = true ∧
    (tabGet sL.d.routes (flBack.dst.toNat / 1024) (0 : BitVec 16)).getLsbD 1 = true ∧
    (portGet sL 1).up = true ∧ Rules.MayLeave (portGet sL 1) ∧ (∀ k, k < 1 → (portGet sL k).up = false) ∧
    ¬ Rules.MayLeave (portGet sL 2) ∧ ({ fl with good := false } : Flit).good = false ∧ ({ fl with macGood := false } : Flit).macGood = false := by
  unfold Rules.MayLeave
  decide +kernel

theorem met_Flits : sL.Inv ∧ sL.d.ide = true ∧ (portGet sL 2).up = true ∧ (portGet sL 2).waiting = [] ∧ (portGet sL 2).owed < 127 ∧
    fl.good = true ∧ fl.macGood = true ∧ fl.dst.toNat / 1024 = sL.d.devid.toNat ∧
    normalPa fl.addr = true ∧ fl.addr % 2 ^ 40 + fl.len ≤ 0xC00000000 ∧ inCarveOut sL.d.pscfg fl.addr fl.len = false ∧
    Rules.Routed sL (fl.src.toNat / 1024) 1 ∧ (portGet sL 4).unacked = [(1, flBack)] ∧ (portGet sL 6).unacked = [(4, flBack)] ∧
    flBack.src = fl.dst ∧ flBack.dst = fl.src ∧ fl.dst.toNat / 8 % 32 < 24 ∧ findHart sL 33 = some sL.h ∧ sL.h.ctxid = BitVec.ofNat 16 fl.addr ∧
    sL.h.slabs = 3 :: [4] ∧ RingHasRoom sL.mem sL.h 3 ∧ ¬ RingHasRoom (sLink 8 4096).mem sL.h 3 ∧
    (∀ h, findHart (sLink 7 0) 33 = some h → h.ctxid ≠ BitVec.ofNat 16 fl.addr) ∧
    (let s := parkedAt { sL with h := { sL.h with sending := some ⟨2, 3, [], .nop, false⟩ } } (.sendAck fl.src.toNat)
     s.h.gid = 33 ∧ s.h.run = .parked (.sendAck fl.src.toNat) ∧ hartExists s.h = true ∧ s.others = [] ∧ s.h.sending = some ⟨2, 3, [], .nop, false⟩) ∧
    (portGet sL 2).unacked = [] := by
  have h7 : ∀ h, findHart (sLink 7 0) 33 = some h → h.ctxid ≠ BitVec.ofNat 16 fl.addr := by
    intro h e
    rw [show findHart (sLink 7 0) 33 = some (sLink 7 0).h by decide +kernel] at e
    cases e
    decide +kernel
  unfold Rules.Routed RingHasRoom State.Inv
  and_intros <;> first | exact h7 | decide +kernel

theorem met_HostMemory : s0.Inv ∧ s0.d.ide = false ∧ ({ s0.d with ide := true } : Dev).ide = true ∧
    (4 * 0xC00000000 - 8) % 0xC00000000 + 8 ≤ 0xC00000000 ∧ 4 * 0xC00000000 - 8 < 4 * 0xC00000000 ∧
    poisoned s0.d.poison ((4 * 0xC00000000 - 8) / 0xC00000000 * 2 ^ 40 + (4 * 0xC00000000 - 8) % 0xC00000000) 8 = false ∧
    (2 ^ 23 - 8) % 8 = 0 ∧ s0.d.ready = true ∧ poisoned s0.d.poison (scrAddr 95 (2 ^ 23 - 8)) 8 = false := ⟨rfl, by decide +kernel⟩

def logRec : LogRec := { stamp := 5, off := 256, bytes := [1, 2, 3, 4], kind := 3, lane := 7, count := 9 }
theorem met_HostRequests : s0.d.holding = false ∧ s0.d.bootfail = false ∧ s0.d.spdm = 0 ∧ 3 ≤ ({ s0.d with spdm := 3 } : Dev).spdm ∧
    ({ s0.d with spdm := 4 } : Dev).spdm = 4 ∧ s0.d.alog.toList.getD 3 [] = [] ∧
    ({ s0.d with blog := s0.d.blog.set 2 [logRec] } : Dev).blog.toList.getD 2 [] = logRec :: [] ∧ logRec.bytes = [1, 2, 3, 4] := by decide +kernel

/-! Encoding and the step. -/

theorem met_EncodingRoundTrip : decode 0x010451460000000000000000 = .ok (.add 5 5 (.reg 6)) ∧ (Instr.add 5 5 (.reg 6)).wf = true ∧
    encode (.add 5 5 (.reg 6)) = some 0x010451460000000000000000 := ⟨rfl, by decide, by decide +kernel⟩
/-- One instruction that U mode may run, `ecall`, and one that it may not. -/
theorem met_PrivilegedInstructions : Instr.nop.wf = true ∧ encode .nop = some 0x010000000000000000000000 ∧ Instr.ecall.wf = true ∧
    encode .ecall = some 0xE00C00000000000000000000 ∧ Instr.tret.wf = true ∧ (encode .tret).any (fun w => w.extractLsb' 88 8 == 0xE0) = true ∧
    Instr.tret ≠ .ecall ∧ Instr.tret ≠ .ebreak ∧ s0.h.replay = none ∧ inh s0.h = false := by decide +kernel

/-- A line of `add` and `nop` at 0x20000, its pairs promised or not, mapped at 0x50000 for fetches. -/
def addSlot : Slot := 0x010451460000000000000000
def nopSlot : Slot := 0x010000000000000000000000
def lineWord (pairs : Nat) : Nat := ([addSlot, nopSlot, addSlot, nopSlot, addSlot].zipIdx.foldl (fun n (w, k) =>
  n + w.toNat * 2 ^ (96 * k) + if slotParity w then 2 ^ (480 + k) else 0) 0) + pairs * 2 ^ 485
def sCode (pairs : Nat) (pc : Word) : State := { s0 with
  h := { h0 with pc := pc, fmrun := false }
  mem := memWrite [] 0x50000 64 (lineWord pairs) }
/-- The front hart alone; a pair; a hart that stalled; an event; no hart; and two harts of a core, of which one is chosen whatever the
free values of logs 5 and 6 are, or none. -/
def sPair : State := { sCode 0 0x20000 with others := [{ h0 with gid := 34 }] }
theorem chosen_of_two {A B : Hart} {able : Hart → Prop} (ha : A.gid = 33) (hb : B.gid = 34) (hi : A.issued = B.issued) (c : Nat) :
    (∀ o ∈ [A, B], ¬ able o) ∨ ∃ o ∈ [A, B], able o ∧ (∀ x ∈ [A, B], x.gid = o.gid → x = o) ∧
      (o.gid % 8 = c % 8 ∨ ∀ x ∈ [A, B], able x → x.gid % 8 ≠ c % 8 ∧ (o.issued < x.issued ∨ o.issued = x.issued ∧ o.gid ≤ x.gid)) := by
  simp only [List.mem_cons, List.not_mem_nil, or_false, forall_eq_or_imp, forall_eq, exists_eq_or_imp, exists_eq_left, ha, hb]
  by_cases pa : able A <;> by_cases pb : able B <;> by_cases h0 : 1 = c % 8 <;> by_cases h2 : 2 = c % 8 <;> simp_all
theorem met_StepRunsDecoded : (sCode 0 0x20000).Uncounted ∧ (sCode 0 0x20000).Plain ∧
    (let s := sCode 0 0x20000
     let line := lineAt s (coreOf s.h.gid) 0x50000
     let slot (j : Nat) : Slot := line.extractLsb' (96 * j) 96
     let word (p : Nat) : BitVec 32 := (lineAt (sCode p 0x20000) (coreOf s.h.gid) 0x50000).extractLsb' 480 32
     s.h.pend = [] ∧ s.h.sip &&& s.h.sie = 0 ∧ s.h.stop = none ∧ s.h.pause = none ∧ s.h.cmds = [] ∧ s.h.sending = none ∧ isSlot s.h.pc = true ∧
       (word 0).extractLsb' 14 18 = 0 ∧ (∀ j, j < 5 → slotParity (slot j) = (word 0).getLsbD j) ∧ s.h.xfer = none ∧ slot 0 = addSlot ∧
       slot 1 = nopSlot ∧ (word 0).getLsbD 5 = false ∧ (word 1).getLsbD 5 = true ∧ s.h.second = false ∧
       promiseFalse s.h (.add 5 5 (.reg 6)) .nop = false ∧ endsLevel s.h s.h.pc = false) ∧
    decode addSlot = .ok (.add 5 5 (.reg 6)) ∧ decode nopSlot = .ok .nop ∧
    translate (sCode 0 0x20000) (sCode 0 0x20000).h .fetch (0x20000 &&& ~~~ 63) 64 = .ok (0x50000, sCode 0 0x20000) ∧
    (sCode 0 0x20000).agenda = [] ∧ (∀ o ∈ (sCode 0 0x20000).others, coreOf o.gid = 4 → ¬ (o.run = .running ∨ o.run = .parked .stall)) ∧
    (sCode 0 0x20000).h.run = .running ∧ State.reset.agenda = [] ∧ State.reset.h.run = .absent ∧ State.reset.others = [] ∧
    ({ State.reset with agenda := [.event 0 .warmReset] } : State).h.gid = 0 ∧
    (sPair.agenda = [] ∧ sPair.h.run = .running ∧ ¬ (∀ o ∈ sPair.others, coreOf o.gid = 4 → ¬ (o.run = .running ∨ o.run = .parked .stall)) ∧
      let clk := sPair.clk + (1 + (tabGet sPair.d.coreTurn 4 0 + 7 * sPair.clk) % 8 + 8 * Config.stallClk sPair.steps)
      let shared : State := { sPair with clk := clk, steps := sPair.steps + 1
                                         d := { sPair.d with walks := [], coreTurn := tabSet sPair.d.coreTurn 4 clk } }
      let able (o : Hart) : Prop := (o.run = .running ∨ o.run = .parked .stall) ∧ coreOf o.gid = 4 ∧
        Config.operandWait shared.steps o.gid = false ∧ heldBack shared o = none
      (∀ o ∈ sPair.h :: sPair.others, ¬ able o) ∨
      ∃ o ∈ sPair.h :: sPair.others, able o ∧ (∀ x ∈ sPair.h :: sPair.others, x.gid = o.gid → x = o) ∧
        (o.gid % 8 = clk % 8 ∨ ∀ x ∈ sPair.h :: sPair.others, able x → x.gid % 8 ≠ clk % 8 ∧
          (o.issued < x.issued ∨ o.issued = x.issued ∧ o.gid ≤ x.gid))) :=
  ⟨uncounted_of rfl, ⟨by decide +kernel, rfl, rfl⟩, by decide +kernel, rfl, rfl, tr_of (by decide +kernel), rfl, by decide +kernel, rfl, rfl,
    rfl, rfl, rfl, rfl, rfl, by decide +kernel, chosen_of_two (A := sPair.h) (B := { h0 with gid := 34 }) rfl rfl rfl _⟩

theorem met_ScalarRegisters : (1 : Reg) ≠ 0 ∧ (63 : Reg) ≠ 1 ∧ h0.mode = .U ∧ 4 < (5 : Reg).toNat ∧ ({ h0 with mode := .S } : Hart).mode = .S ∧
    (4 : Reg).toNat ≤ 4 := by decide
theorem next_of {r : Res} (h : after r (fun _ => true) = true) : ∃ t, r = .next t := by
  unfold after at h
  split at h
  · exact ⟨_, rfl⟩
  · cases h
theorem met_InvariantKept : State.reset.Inv ∧ ∃ t, step State.reset = .next t := ⟨rfl, next_of (by decide +kernel)⟩

/-- R17: what a pair promises follows from each encoding: FLOOR is read by what may raise a flag, THETA by what has live elements, RMODE by
what rounds. -/
theorem test_pair_uses : (let p := promiseFalse h0
    p (.setfl 5 (.reg 1)) (.vfirst 6 kf) = false ∧ p (.setth 5 (.reg 1)) (.vrecv 1 2 7 kf) = false ∧
    p (.setrm 5 (.reg 1)) (.fmin 6 1 (.reg 2) .f32 .dyn) = false ∧ p (.setrm 5 (.reg 1)) (.fadd 6 1 (.reg 2) .f32 .dyn) = true ∧
    p (.setfl 5 (.reg 1)) (.vadd 6 1 (.reg 2) kf) = true ∧ p (.setth 5 (.reg 1)) (.vadd 6 1 (.reg 2) kf) = true) := by decide +kernel
/-- R22: at VSTART = VL `vrecv` takes no fault, of a hart without a slab either. -/
theorem test_vrecv_past_end : after (exec (.vrecv 1 2 5 kf) { s0 with h := { h0 with slabs := [], vstart := 4, x := h0.x.set 5 9 } })
    (fun t => t.h.x[5] == 0 && t.h.pc == 0x800C && t.h.vstart == 0) = true := by decide +kernel
/-- R392: a send that waited goes on though its line is no longer mapped. -/
theorem test_send_goes_on : after (exec (.vsend 1 2 kf) (sSend [o40] 4101)) (fun u => after
    (issue { u with h := { u.h with run := .running }, d := { u.d with tlb := [] }, mem := memWrite u.mem (ringBase o40 5 + 458744) 8 9 })
    (fun t => t.h.sending.isNone && t.h.pc == 0x800C && t.h.scause == 0)) = true := by decide +kernel

end Sys2Proof.Tests
end

/-! PROOFS. The machine after reset (R7, R404; logs 1, 2 and 4): the codes of a weight image that is all ones, and what the
accessors read of a place without a hart. -/

namespace Sys2Proof.Machine

/-! ### Weight images of equal codes (R24)

`wOnes` is built by doubling: a number whose low 2^k units of 16 bits all hold one code is added to itself, moved up by
2^k units. -/

/-- A number of n units of 16 bits, each of which holds `c`. -/
def UnitsAre (c n a : Nat) : Prop := a < 2 ^ (16 * n) ∧ ∀ j, j < n → a >>> (16 * j) % 65536 = c

theorem unitsAre_one {c : Nat} (hc : c < 65536) : UnitsAre c 1 c := by
  refine ⟨hc, fun j hj => ?_⟩
  obtain rfl : j = 0 := by omega
  exact Nat.mod_eq_of_lt hc

theorem UnitsAre.double {c n a : Nat} (h : UnitsAre c n a) : UnitsAre c (n + n) (a + a <<< (16 * n)) := by
  obtain ⟨hlt, hunit⟩ := h
  have hsplit : a + a <<< (16 * n) = 2 ^ (16 * n) * a + a := by rw [Nat.shiftLeft_eq, Nat.mul_comm, Nat.add_comm]
  refine ⟨?_, fun j hj => ?_⟩
  · have hpow : 2 ^ (16 * (n + n)) = 2 ^ (16 * n) * 2 ^ (16 * n) := by rw [← Nat.pow_add]; congr 1; omega
    calc a + a <<< (16 * n) = 2 ^ (16 * n) * a + a := hsplit
      _ < 2 ^ (16 * n) * (a + 1) := by rw [Nat.mul_add]; omega
      _ ≤ 2 ^ (16 * (n + n)) := by rw [hpow]; exact Nat.mul_le_mul_left _ hlt
  · rw [hsplit, Nat.shiftRight_eq_div_pow]
    by_cases hjn : j < n
    · -- the unit lies in the lower half: the upper half adds a multiple of 2^16 to what is read
      have hpow : 2 ^ (16 * n) = 2 ^ (16 * j) * (65536 * 2 ^ (16 * (n - j - 1))) := by
        rw [show (65536 : Nat) = 2 ^ 16 from rfl, ← Nat.pow_add, ← Nat.pow_add]; congr 1; omega
      rw [hpow, Nat.mul_assoc, Nat.mul_add_div (Nat.two_pow_pos _), Nat.mul_assoc, Nat.mul_add_mod,
        ← Nat.shiftRight_eq_div_pow]
      exact hunit j hjn
    · -- the unit lies in the upper half, which is the number itself
      have hpow : 2 ^ (16 * j) = 2 ^ (16 * n) * 2 ^ (16 * (j - n)) := by rw [← Nat.pow_add]; congr 1; omega
      rw [hpow, ← Nat.div_div_eq_div_mul, Nat.mul_add_div (Nat.two_pow_pos _), Nat.div_eq_of_lt hlt, Nat.add_zero,
        ← Nat.shiftRight_eq_div_pow]
      exact hunit (j - n) (by omega)

/-- k doublings of a unit fill 2^k units. -/
theorem unitsAre_doublings {c : Nat} (hc : c < 65536) (k : Nat) :
    UnitsAre c (2 ^ k) ((List.range k).foldl (fun a k => a + a <<< (16 <<< k)) c) := by
  induction k with
  | zero => exact unitsAre_one hc
  | succ k ih =>
    rw [List.range_succ, List.foldl_append, Nat.pow_succ, Nat.mul_two]
    simpa only [List.foldl_cons, List.foldl_nil, Nat.shiftLeft_eq] using ih.double

/-- An image holds the units of its number that lie in it. -/
theorem wRaw_ofNat {a i : Nat} (hi : i < 24576) : wRaw (BitVec.ofNat 393216 a) i = a >>> (16 * i) % 65536 := by
  rw [wRaw, BitVec.toNat_ofNat]
  refine Nat.eq_of_testBit_eq fun b => ?_
  have hlow : b < 16 → 16 * i + b < 393216 := by omega
  rw [show (65536 : Nat) = 2 ^ 16 from rfl]
  simp only [Nat.testBit_mod_two_pow, Nat.testBit_shiftRight]
  by_cases hb : b < 16 <;> simp [hb, hlow]

/-- R7, R24: every element of the image that a hart starts with in w0 reads as 1.0. -/
theorem wCode_wOnes {j : Nat} (hj : j < 24576) : wCode wOnes j = 0x8000 := by
  have hraw : wRaw wOnes j = 0x8000 := by
    rw [wOnes, wRaw_ofNat hj]
    exact (unitsAre_doublings (c := 0x8000) (by decide) 15).2 j (by omega)
  rw [wCode, hraw]
  rfl

/-! ### What a place without a hart reads as (R7, log 1) -/

/-- A bank that holds one value everywhere reads as it, past its end too where the reader's default is that value. -/
theorem getD_toList_replicate {α : Type} (n k : Nat) (a : α) : (Vector.replicate n a).toList.getD k a = a := by
  rw [Vector.toList_replicate, List.getD_eq_getElem?_getD, List.getElem?_replicate]
  split
  · rfl
  · rfl

@[simp] theorem xGetIn_hartZero (m : Mode) (r : Nat) : xGetIn Hart.zero m r = 0 := by
  unfold xGetIn
  split
  · rfl
  · split <;> exact getD_toList_replicate ..

@[simp] theorem xGet_hartZero (r : Reg) : xGet Hart.zero r = 0 := xGetIn_hartZero _ _

@[simp] theorem vImg_hartZero (p : Nat) : vImg Hart.zero p = 0 := getD_toList_replicate ..

@[simp] theorem lvlGet_hartZero (k : Nat) : lvlGet Hart.zero k = Level.zero := getD_toList_replicate ..

@[simp] theorem fibreGet_hartZero (f : Nat) : fibreGet Hart.zero f = Fibre.closed := getD_toList_replicate ..

/-- A bank of one value but for its entry 0. -/
theorem getD_toList_replicate_set_zero {α : Type} (n p : Nat) (a b : α) :
    ((Vector.replicate (n + 1) a).set 0 b).toList.getD p a = if p = 0 then b else a := by
  rw [Vector.toList_set, Vector.toList_replicate, List.replicate_succ, List.set_cons_zero]
  cases p with
  | zero => rfl
  | succ p => rw [List.getD_cons_succ, ← Vector.toList_replicate, getD_toList_replicate, if_neg p.succ_ne_zero]

/-- w0 is all ones, the other weights are zero. -/
theorem wGet_hartZero (p : Nat) : wGet Hart.zero p = if p = 0 then wOnes else 0 := getD_toList_replicate_set_zero 23 p 0 wOnes

/-- Settles O6, field by field in the order of the statement: the lemmas above for the banks, and for every other field the
definition of the reset state. -/
theorem afterReset : Obligations.AfterReset := by
  unfold Obligations.AfterReset
  refine ⟨reset_mem_wf, rfl, rfl, fun _ => rfl, xGet_hartZero,
    xGetIn_hartZero _, rfl, fun j hj => ?ones,
    fun n hn _ => (wGet_hartZero n).trans (if_neg (Nat.ne_of_gt hn)), rfl, fun k => congrArg Level.act (lvlGet_hartZero k), rfl,
    rfl, rfl, rfl, rfl, rfl, rfl, rfl,
    rfl, rfl, rfl, rfl, rfl,
    rfl, rfl, rfl, rfl, rfl, rfl, rfl, rfl,
    rfl, rfl, rfl, rfl, fun k => getD_toList_replicate 4 k 0, rfl,
    rfl, rfl, vImg_hartZero, rfl, fun k => congrArg Level.asp (lvlGet_hartZero k),
    fun f => congrArg Fibre.opened (fibreGet_hartZero f), rfl, rfl, rfl, rfl,
    rfl, rfl, rfl, rfl, rfl, rfl,
    fun _ => ⟨rfl, rfl⟩, fun _ => rfl,
    fun _ => ⟨rfl, rfl⟩, rfl, rfl, rfl,
    fun _ => rfl, rfl, rfl, rfl⟩
  case ones =>
    have hw0 : wGet State.reset.h 0 = wOnes := wGet_hartZero 0
    rw [hw0, wCode_wOnes hj]

end Sys2Proof.Machine
